-- ==== Sys2Proof/Word.lean ====
section
/-! DEFINITION. The word types of the block: bytes, 16-bit words, binary32 encodings and complex samples. -/

namespace Sys2Proof

/-- A byte, the item of `Q_BYTE` (30_encoding.md R106). -/
abbrev Byte := BitVec 8

/-- A 16-bit word: an operation descriptor (R100), a register address (R90), or a piece of a payload. -/
abbrev Half := BitVec 16

/-- A 32-bit register value that is not a binary32 value, a `u32` (00_scope.md R5). -/
abbrev Word := BitVec 32

/-- A binary32 value, held as its encoding: sign bit 31, exponent 30:23, fraction 22:0 (R6, R104). -/
abbrev F32 := BitVec 32

/-- A complex sample: `re` the in-phase part, `im` the quadrature part (R6, R105). -/
structure Cplx where
  re : F32
  im : F32
  deriving DecidableEq, Repr

/-- The complex value `(+0.0, +0.0)`. -/
def Cplx.zero : Cplx := ⟨0, 0⟩

end Sys2Proof
end

