-- ==== Sys2Proof/Syntax.lean ====
section
/-! DEFINITION. The units, the agents and the 44 operations of the block, one constructor per row of the
opcode table (30_encoding.md R110). -/

namespace Sys2Proof

/-- The nine units of 00_scope.md R1, in the order of their unit numbers 1 to 9 (20_memory.md R90). -/
inductive UnitId where
  | agc | costas | pll | rrc | mm | snr | slicer | repacker | deframer
  deriving DecidableEq, Repr

/-- The unit's number, bits 15:12 of its descriptors (R100) and of its register addresses (R90). -/
def UnitId.number : UnitId → Nat
  | .agc => 1 | .costas => 2 | .pll => 3 | .rrc => 4 | .mm => 5 | .snr => 6
  | .slicer => 7 | .repacker => 8 | .deframer => 9

/-- The units 1 to 9 in order, as `COMMIT_ALL` and `SRESET_ALL` visit them (R208, R209). -/
def UnitId.all : List UnitId :=
  [.agc, .costas, .pll, .rrc, .mm, .snr, .slicer, .repacker, .deframer]

/-- The eight agents of 60_exceptions.md R410. `COSTAS` acts for `PLL` too, `MM` for `SNR`. -/
inductive Agent where
  | host | agc | costas | rrc | mm | slicer | repacker | deframer
  deriving DecidableEq, Repr, Inhabited

/-- The operations of the block. A host transaction carries its request payload (R103). The three internal
operations carry the operand that their caller gives them (R244, R272, R292; log 4). Every other operation
takes its operands from the state alone (R108). -/
inductive Instr where
  /-- `REG_READ` (R201): the register address. -/
  | regRead (addr : Half)
  /-- `REG_WRITE` (R202): the register address and the value. -/
  | regWrite (addr : Half) (data : Word)
  /-- `SRC_PUSH` (R203): the complex sample. -/
  | srcPush (x : Cplx)
  /-- `FRAME_POP` (R204). -/
  | framePop
  /-- `SOFT_POP` (R205). -/
  | softPop
  /-- `COMMIT_ALL` (R208). -/
  | commitAll
  /-- `SRESET_ALL` (R209). -/
  | sresetAll
  /-- `STOP` (R210). -/
  | stop
  /-- `ABORT` (R211). -/
  | abort
  /-- `AGC_STEP` (R232). -/
  | agcStep
  /-- `COSTAS_STEP` (R245). -/
  | costasStep
  /-- `PLL_ADVANCE` (R244): the phase error. -/
  | pllAdvance (e : F32)
  /-- `RRC_STEP` (R252). -/
  | rrcStep
  /-- `MM_STEP` (R262). -/
  | mmStep
  /-- `SNR_UPDATE` (R272): the symbol. -/
  | snrUpdate (x : Cplx)
  /-- `SLICE` (R281). -/
  | slice
  /-- `REPACK_BIT` (R283). -/
  | repackBit
  /-- `DEFRAME_BYTE` (R293). -/
  | deframeByte
  /-- `DEFRAME_BIT` (R292): the bit. -/
  | deframeBit (x : Bool)
  /-- `COMMIT` of `AGC` (R206). -/
  | commitAgc
  /-- `COMMIT` of `COSTAS` (R206). -/
  | commitCostas
  /-- `COMMIT` of `PLL` (R206). -/
  | commitPll
  /-- `COMMIT` of `RRC` (R206). -/
  | commitRrc
  /-- `COMMIT` of `MM` (R206). -/
  | commitMm
  /-- `COMMIT` of `SNR` (R206). -/
  | commitSnr
  /-- `COMMIT` of `SLICER` (R206). -/
  | commitSlicer
  /-- `COMMIT` of `REPACKER` (R206). -/
  | commitRepacker
  /-- `COMMIT` of `DEFRAMER` (R206). -/
  | commitDeframer
  /-- `SRESET` of `AGC` (R207). -/
  | sresetAgc
  /-- `SRESET` of `COSTAS` (R207). -/
  | sresetCostas
  /-- `SRESET` of `PLL` (R207). -/
  | sresetPll
  /-- `SRESET` of `RRC` (R207). -/
  | sresetRrc
  /-- `SRESET` of `MM` (R207). -/
  | sresetMm
  /-- `SRESET` of `SNR` (R207). -/
  | sresetSnr
  /-- `SRESET` of `SLICER` (R207). -/
  | sresetSlicer
  /-- `SRESET` of `REPACKER` (R207). -/
  | sresetRepacker
  /-- `SRESET` of `DEFRAMER` (R207). -/
  | sresetDeframer
  /-- `EOS_PROPAGATE` of `AGC` (R212). -/
  | eosPropagateAgc
  /-- `EOS_PROPAGATE` of `COSTAS` (R212). -/
  | eosPropagateCostas
  /-- `EOS_PROPAGATE` of `RRC` (R212). -/
  | eosPropagateRrc
  /-- `EOS_PROPAGATE` of `MM` (R212). -/
  | eosPropagateMm
  /-- `EOS_PROPAGATE` of `SLICER` (R212). -/
  | eosPropagateSlicer
  /-- `EOS_PROPAGATE` of `REPACKER` (R212). -/
  | eosPropagateRepacker
  /-- `EOS_PROPAGATE` of `DEFRAMER` (R212). -/
  | eosPropagateDeframer
  deriving DecidableEq, Repr

/-- The host transactions, the operations the host sends (R102, R103). -/
def Instr.isHostTransaction : Instr → Bool
  | .regRead _ | .regWrite _ _ | .srcPush _ | .framePop | .softPop => true
  | _ => false

end Sys2Proof
end

