-- ==== Sys2Proof/Config.lean ====
section
/-! DEFINITION. What an implementation of the block fixes (00_scope.md R4) and the values the spec leaves open. -/

namespace Sys2Proof

/-- `P_MAX_TAPS`, the reference value (R4; log 7, DESIGN CHOICE). -/
def Config.maxTaps : Nat := 255

/-- `P_MAX_INTERP`, the reference value (R4; log 7, DESIGN CHOICE). -/
def Config.maxInterp : Nat := 16

/-- `P_FRAME_MAX` in bytes, the reference value (R4; log 7, DESIGN CHOICE). -/
def Config.frameMax : Nat := 8192

/-- `P_ASM_MAX` in bits, the reference value (R4; log 7, DESIGN CHOICE). -/
def Config.asmMax : Nat := 64

/-- The number of bits of the deframer's `buf`, `8 * P_FRAME_MAX` (10_state.md R54). -/
def Config.bufBits : Nat := 65536

/-- How far `P_FIFO_DEPTH` lies above the smallest legal depth: a free value (log 6). -/
opaque Config.fifoDepthExtra : Nat

/-- `P_FIFO_DEPTH`, an open parameter of which the spec says only that it is at least 16 (R4). -/
def Config.fifoDepth : Nat := Config.fifoDepthExtra + 16

/-- Which agent takes turn `n` when the schedule of State lists none: a free value (R86, R411; log 1). -/
opaque Config.schedule : Nat → Agent

/-- The floating-point operations whose NaN results carry an open payload. -/
inductive FpOp where
  | add | sub | mul | div | sqrt
  deriving DecidableEq, Repr

/-- The sign of the NaN an operation answers on its operands: a free value (log 9). -/
opaque Config.nanSign : FpOp → F32 → F32 → Bool

/-- The low 22 fraction bits of the NaN an operation answers on its operands: a free value (log 9). -/
opaque Config.nanPayload : FpOp → F32 → F32 → BitVec 22

/-- The raw `sin` of the numerics structure `NUM`; `Fp.sin` holds it to the properties of R7 (log 8). -/
opaque Config.sinRaw : F32 → F32

/-- The raw `cos` of the numerics structure `NUM`; `Fp.cos` holds it to the properties of R7 (log 8). -/
opaque Config.cosRaw : F32 → F32

/-- `NUM.log10` outside the positive finite values, where R7 states no property (log 8). -/
opaque Config.log10Raw : F32 → F32

/-- The free choices from which `NUM.log10` is built on the positive finite values (log 8). -/
opaque Config.log10Choice : Nat → Nat → Nat

/-- The sign of a zero that `NUM.log10` answers where R7 does not fix it (log 8). -/
opaque Config.log10ZeroSign : F32 → Bool

/-- The squared magnitude that `SNR_UPDATE` takes for a symbol that is not finite: a free value (log 17). -/
opaque Config.snrPowerOpen : Cplx → F32

/-- `floor` of a NaN or an infinity, which no rule defines and no reachable state asks for (log 10). -/
opaque Config.floorOpen : F32 → Int

end Sys2Proof
end

