-- ==== Sys2Proof/Machine/Float.lean ====
section
/-! DEFINITION. IEEE 754 binary32 arithmetic with round to nearest, ties to even (00_scope.md R6, R7), computed
exactly on integers and rounded once, and the helper functions of R9. -/

namespace Sys2Proof

/-! ### Fields and classes -/

/-- The biased exponent, bits 30:23 (R104). -/
def Fp.expField (x : F32) : Nat := (x.extractLsb' 23 8).toNat

/-- The fraction, bits 22:0 (R104). -/
def Fp.fracField (x : F32) : Nat := (x.extractLsb' 0 23).toNat

/-- The sign, bit 31 (R104); true for negative. -/
def Fp.sign (x : F32) : Bool := x.getLsbD 31

/-- The value is a NaN. -/
def Fp.isNaN (x : F32) : Bool := Fp.expField x == 255 && Fp.fracField x != 0

/-- The value is `+Inf` or `-Inf`. -/
def Fp.isInf (x : F32) : Bool := Fp.expField x == 255 && Fp.fracField x == 0

/-- `finite(v)` of R9: neither NaN nor infinite. -/
def Fp.finite (x : F32) : Bool := Fp.expField x != 255

/-- The value is `+0.0` or `-0.0`. -/
def Fp.isZero (x : F32) : Bool := Fp.expField x == 0 && Fp.fracField x == 0

/-- The integer significand of a finite value: the value is `± sig * 2 ^ expo`. -/
def Fp.sig (x : F32) : Nat :=
  if Fp.expField x = 0 then Fp.fracField x else Fp.fracField x + 2 ^ 23

/-- The exponent of the last place of a finite value. -/
def Fp.expo (x : F32) : Int := if Fp.expField x = 0 then -149 else (Fp.expField x : Int) - 150

/-! ### Packing and rounding -/

/-- The encoding with magnitude bits `n` (exponent and fraction) and sign `s`. -/
def Fp.withSign (s : Bool) (n : Nat) : F32 := BitVec.ofNat 32 (n + if s then 2 ^ 31 else 0)

/-- Zero of a given sign. -/
def Fp.zeroOf (s : Bool) : F32 := Fp.withSign s 0

/-- Infinity of a given sign. -/
def Fp.infOf (s : Bool) : F32 := Fp.withSign s 0x7F800000

/-- The quiet NaN that an operation answers; sign and payload are free values (log 9). -/
def Fp.nanOf (op : FpOp) (a b : F32) : F32 :=
  Fp.withSign (Config.nanSign op a b) (0x7FC00000 + (Config.nanPayload op a b).toNat)

/-- `m / 2 ^ k` rounded to an integer, ties to even. -/
def Fp.roundShift (m k : Nat) : Nat :=
  let d := m / 2 ^ k
  let r := m % 2 ^ k
  if 2 * r > 2 ^ k ∨ (2 * r = 2 ^ k ∧ d % 2 = 1) then d + 1 else d

/-- `± m * 2 ^ q` rounded to binary32, ties to even, with gradual underflow, and overflow to infinity. -/
def Fp.roundPack (s : Bool) (m : Nat) (q : Int) : F32 :=
  if m = 0 then Fp.zeroOf s
  else
    let e : Int := max (q + (m.log2 : Int) - 23) (-149)
    let mant := if e ≤ q then m * 2 ^ (q - e).toNat else Fp.roundShift m (e - q).toNat
    let enc := (e + 149).toNat * 2 ^ 23 + mant
    if 0x7F800000 ≤ enc then Fp.infOf s else Fp.withSign s enc

/-- The binary32 value of an integer, rounded. -/
def Fp.ofInt (n : Int) : F32 := Fp.roundPack (decide (n < 0)) n.natAbs 0

/-! ### The operations of R7 -/

/-- The value with its sign changed. -/
def Fp.neg (x : F32) : F32 := x ^^^ 0x80000000

/-- The signed significand of `x` counted in units of `2 ^ q`, for `q ≤ expo x`. -/
def Fp.scaled (x : F32) (q : Int) : Int :=
  let m : Int := (Fp.sig x * 2 ^ (Fp.expo x - q).toNat : Nat)
  if Fp.sign x then -m else m

/-- The sum of two finite values: exact, then rounded. An exact zero is `+0.0` but for two negative zeros. -/
def Fp.addFinite (a b : F32) : F32 :=
  let q := min (Fp.expo a) (Fp.expo b)
  let t := Fp.scaled a q + Fp.scaled b q
  if t = 0 then Fp.zeroOf (Fp.sign a && Fp.sign b) else Fp.roundPack (decide (t < 0)) t.natAbs q

/-- `a + b` where the NaN of an invalid sum is named `n`. -/
def Fp.addWith (n a b : F32) : F32 :=
  if Fp.isNaN a || Fp.isNaN b then n
  else if Fp.isInf a then (if Fp.isInf b && Fp.sign a != Fp.sign b then n else a)
  else if Fp.isInf b then b
  else Fp.addFinite a b

/-- `a + b`. -/
def Fp.add (a b : F32) : F32 := Fp.addWith (Fp.nanOf .add a b) a b

/-- `a - b`. -/
def Fp.sub (a b : F32) : F32 := Fp.addWith (Fp.nanOf .sub a b) a (Fp.neg b)

/-- `a * b`. -/
def Fp.mul (a b : F32) : F32 :=
  let s := Fp.sign a != Fp.sign b
  if Fp.isNaN a || Fp.isNaN b then Fp.nanOf .mul a b
  else if Fp.isInf a || Fp.isInf b then
    (if Fp.isZero a || Fp.isZero b then Fp.nanOf .mul a b else Fp.infOf s)
  else Fp.roundPack s (Fp.sig a * Fp.sig b) (Fp.expo a + Fp.expo b)

/-- The quotient of two finite values, the divisor not zero: 60 bits of it with a sticky bit below, rounded. -/
def Fp.divFinite (s : Bool) (a b : F32) : F32 :=
  let n := Fp.sig a * 2 ^ 60
  let sticky := if n % Fp.sig b = 0 then 0 else 1
  Fp.roundPack s (2 * (n / Fp.sig b) + sticky) (Fp.expo a - Fp.expo b - 61)

/-- `a / b`. -/
def Fp.div (a b : F32) : F32 :=
  let s := Fp.sign a != Fp.sign b
  if Fp.isNaN a || Fp.isNaN b then Fp.nanOf .div a b
  else if Fp.isInf a then (if Fp.isInf b then Fp.nanOf .div a b else Fp.infOf s)
  else if Fp.isInf b then Fp.zeroOf s
  else if Fp.isZero b then (if Fp.isZero a then Fp.nanOf .div a b else Fp.infOf s)
  else Fp.divFinite s a b

/-- The integer square root, one bit of the root at a time: `root` is its part above bit `n`. -/
def Fp.isqrtBits (m : Nat) : Nat → Nat → Nat
  | 0, root => root
  | n + 1, root =>
    let t := root + 2 ^ n
    Fp.isqrtBits m n (if t * t ≤ m then t else root)

/-- The largest `r` with `r * r ≤ m`, for `m < 2 ^ 80`. -/
def Fp.isqrt (m : Nat) : Nat := Fp.isqrtBits m 40 0

/-- `sqrt a`: the significand is shifted by 54 or 55 places, so that the exponent is even and the root has at
least 28 bits, a sticky bit is put below, and the result is rounded. -/
def Fp.sqrt (a : F32) : F32 :=
  if Fp.isNaN a then Fp.nanOf .sqrt a a
  else if Fp.isZero a then a
  else if Fp.sign a then Fp.nanOf .sqrt a a
  else if Fp.isInf a then a
  else
    let k : Nat := if Fp.expo a % 2 = 0 then 54 else 55
    let m := Fp.sig a * 2 ^ k
    let r := Fp.isqrt m
    let sticky := if r * r = m then 0 else 1
    Fp.roundPack false (2 * r + sticky) ((Fp.expo a - k) / 2 - 1)

/-! ### Comparisons of R7 -/

/-- The rank of a value that is not a NaN in the order of the reals; both zeros have rank 0. -/
def Fp.rank (x : F32) : Int :=
  let m : Int := (x.extractLsb' 0 31).toNat
  if Fp.sign x then -m else m

/-- `a < b`; false when either is a NaN. -/
def Fp.lt (a b : F32) : Bool := !Fp.isNaN a && !Fp.isNaN b && decide (Fp.rank a < Fp.rank b)

/-- `a <= b`; false when either is a NaN. -/
def Fp.le (a b : F32) : Bool := !Fp.isNaN a && !Fp.isNaN b && decide (Fp.rank a ≤ Fp.rank b)

/-- `a == b`; false when either is a NaN, true of `-0.0` and `+0.0`. -/
def Fp.eq (a b : F32) : Bool := !Fp.isNaN a && !Fp.isNaN b && decide (Fp.rank a = Fp.rank b)

/-- `min(a, b)` of R7. -/
def Fp.min (a b : F32) : F32 := if Fp.lt a b then a else b

/-- `max(a, b)` of R7: `if a > b then a else b`. -/
def Fp.max (a b : F32) : F32 := if Fp.lt b a then a else b

/-! ### Constants of R7 and R8 -/

/-- `+0.0`. -/
def Fp.zero : F32 := 0x00000000
/-- `1.0`. -/
def Fp.one : F32 := 0x3F800000
/-- `-1.0`. -/
def Fp.negOne : F32 := 0xBF800000
/-- `2.0`. -/
def Fp.two : F32 := 0x40000000
/-- `4.0`. -/
def Fp.four : F32 := 0x40800000
/-- `10.0`. -/
def Fp.ten : F32 := 0x41200000
/-- `65536.0`, the largest legal `OMEGA` (44_clock_recovery.md R261). -/
def Fp.omegaMost : F32 := 0x47800000
/-- `PI` of R8. -/
def Fp.pi : F32 := 0x40490FDB
/-- `TWO_PI` of R8. -/
def Fp.twoPi : F32 := 0x40C90FDB
/-- `TWO_ZETA` of R8. -/
def Fp.twoZeta : F32 := 0x3FB504F3
/-- `FOUR_ZETA` of R8. -/
def Fp.fourZeta : F32 := 0x403504F3

/-! ### Helper functions of R9 and R10 -/

/-- `fin0(v)` of R9. -/
def Fp.fin0 (v : F32) : F32 := if Fp.finite v then v else Fp.zero

/-- `dec(v)` of R9: the hard decision, `+1.0` exactly when `v > 0`. -/
def Fp.dec (v : F32) : F32 := if Fp.lt Fp.zero v then Fp.one else Fp.negOne

/-- `bit(v)` of R9: the bit of a hard decision. -/
def Fp.bit (v : F32) : Bool := Fp.lt Fp.zero v

/-- `clip1(v)` of R9. -/
def Fp.clip1 (v : F32) : F32 :=
  if Fp.isNaN v then Fp.zero
  else if Fp.lt Fp.one v then Fp.one
  else if Fp.lt v Fp.negOne then Fp.negOne
  else v

/-- `clamp(v, lo, hi)` of R9. -/
def Fp.clamp (v lo hi : F32) : F32 := if Fp.lt v lo then lo else if Fp.lt hi v then hi else v

/-- `fin0c(a)` of R10. -/
def Fp.fin0c (a : Cplx) : Cplx := ⟨Fp.fin0 a.re, Fp.fin0 a.im⟩

/-- Both components are finite. -/
def Fp.finiteC (a : Cplx) : Bool := Fp.finite a.re && Fp.finite a.im

/-- `mag2(a)` of R10, evaluated as `(re*re) + (im*im)`. -/
def Fp.mag2 (a : Cplx) : F32 := Fp.add (Fp.mul a.re a.re) (Fp.mul a.im a.im)

/-! ### Conversions to integers -/

/-- `floor(x)` of R5: the largest integer not above a finite value; a free value otherwise (log 10). -/
def Fp.floorInt (x : F32) : Int :=
  if Fp.finite x then
    (if 0 ≤ Fp.expo x then Fp.scaled x 0
     else (if Fp.sign x then -(Fp.sig x : Int) else (Fp.sig x : Int)) / ((2 ^ (-Fp.expo x).toNat : Nat) : Int))
  else Config.floorOpen x

/-- `roundTiesEven` of 46_slicer_repacker.md R282 on a finite value, as an integer. -/
def Fp.roundTiesEven (x : F32) : Int :=
  let m : Int := if 0 ≤ Fp.expo x then (Fp.sig x * 2 ^ (Fp.expo x).toNat : Nat)
    else (Fp.roundShift (Fp.sig x) (-Fp.expo x).toNat : Nat)
  if Fp.sign x then -m else m

/-- The binary32 value nearest to the decimal `± n / 10 ^ d`, the `f:` literal of 30_encoding.md R111. -/
def Fp.ofDecimal (s : Bool) (n d : Nat) : F32 :=
  let p := n * 2 ^ (256 + 4 * d)
  Fp.roundPack s (2 * (p / 10 ^ d) + (if p % 10 ^ d = 0 then 0 else 1)) (-(257 + 4 * (d : Int)))

end Sys2Proof
end

