-- ==== Sys2Proof/WellFormed.lean ====
section
/-! DEFINITION. When an operation is well-formed: what the spec requires of its operands beyond their types. -/

namespace Sys2Proof

/-- The operand checks. Every payload of a host transaction is well-formed: a misaligned or unmapped address is
answered by a bus error (R404) and a sample may be any bit pattern (R414). `PLL_ADVANCE` takes any error, NaN
included (R244). The symbol of `SNR_UPDATE` is finite (R272); a step runs any other too (log 17). -/
def Instr.wellFormed : Instr → Bool
  | .regRead _ => true
  | .regWrite _ _ => true
  | .srcPush _ => true
  | .framePop => true
  | .softPop => true
  | .commitAll => true
  | .sresetAll => true
  | .stop => true
  | .abort => true
  | .agcStep => true
  | .costasStep => true
  | .pllAdvance _ => true
  | .rrcStep => true
  | .mmStep => true
  | .snrUpdate x => Fp.finiteC x
  | .slice => true
  | .repackBit => true
  | .deframeByte => true
  | .deframeBit _ => true
  | .commitAgc => true
  | .commitCostas => true
  | .commitPll => true
  | .commitRrc => true
  | .commitMm => true
  | .commitSnr => true
  | .commitSlicer => true
  | .commitRepacker => true
  | .commitDeframer => true
  | .sresetAgc => true
  | .sresetCostas => true
  | .sresetPll => true
  | .sresetRrc => true
  | .sresetMm => true
  | .sresetSnr => true
  | .sresetSlicer => true
  | .sresetRepacker => true
  | .sresetDeframer => true
  | .eosPropagateAgc => true
  | .eosPropagateCostas => true
  | .eosPropagateRrc => true
  | .eosPropagateMm => true
  | .eosPropagateSlicer => true
  | .eosPropagateRepacker => true
  | .eosPropagateDeframer => true

end Sys2Proof
end

