-- ==== Sys2Proof/Decode.lean ====
section
/-! DEFINITION. The operation descriptors of 30_encoding.md R100-R110, their payloads as 16-bit words, the decoder
and the encoder. A payload stands after its descriptor, field by field, each field's low word first (log 3). -/

namespace Sys2Proof

/-- Why a sequence of words is no operation. The first three are R102's; the host's transaction is then refused
with a bus error. -/
inductive DecodeError where
  /-- There is no word at all. -/
  | empty
  /-- The field `Z` is not 0x00 (R102). -/
  | nonzeroZ
  /-- `UNIT` is 0xA to 0xF (R102). -/
  | reservedUnit
  /-- The pair (`UNIT`, `OP`) is not in R101 (R102). -/
  | undefinedOp
  /-- The payload is not complete. -/
  | truncated
  /-- The operand word of `DEFRAME_BIT` is neither 0 nor 1. -/
  | badOperand
  deriving DecidableEq, Repr

/-- The fields `UNIT`, `OP` and `Z` of a descriptor (R100). -/
def descUnit (d : Half) : Nat := d.toNat / 4096
def descOp (d : Half) : Nat := d.toNat / 256 % 16
def descZ (d : Half) : Nat := d.toNat % 256

/-- The descriptor `{UNIT, OP, 0x00}` (R100). -/
def descOf (unit op : Nat) : Half := BitVec.ofNat 16 (unit * 4096 + op * 256)

/-- A 32-bit payload field from its two words, the low word first. -/
def word32 (lo hi : Half) : Word := hi ++ lo

/-- The low and the high 16 bits of a 32-bit payload field. -/
def lowHalf (w : Word) : Half := w.extractLsb' 0 16
def highHalf (w : Word) : Half := w.extractLsb' 16 16

/-- A sample from its four words: `re` is bits 31:0 and `im` bits 63:32 of the payload (R105). -/
def sampleOf (w0 w1 w2 w3 : Half) : Cplx := ⟨word32 w0 w1, word32 w2 w3⟩

/-- The four words of a sample (R105). -/
def sampleWords (x : Cplx) : List Half := [lowHalf x.re, highHalf x.re, lowHalf x.im, highHalf x.im]

/-- The payloads of the operations that carry one (R103), from the words after the descriptor. -/
def takeAddr : List Half → Except DecodeError (Instr × List Half)
  | a :: rest => .ok (.regRead a, rest)
  | [] => .error .truncated

def takeAddrData : List Half → Except DecodeError (Instr × List Half)
  | a :: d0 :: d1 :: rest => .ok (.regWrite a (word32 d0 d1), rest)
  | _ => .error .truncated

def takeSample (op : Cplx → Instr) : List Half → Except DecodeError (Instr × List Half)
  | w0 :: w1 :: w2 :: w3 :: rest => .ok (op (sampleOf w0 w1 w2 w3), rest)
  | _ => .error .truncated

def takeF32 : List Half → Except DecodeError (Instr × List Half)
  | w0 :: w1 :: rest => .ok (.pllAdvance (word32 w0 w1), rest)
  | _ => .error .truncated

def takeBit : List Half → Except DecodeError (Instr × List Half)
  | b :: rest => if b = 0 then .ok (.deframeBit false, rest)
    else if b = 1 then .ok (.deframeBit true, rest) else .error .badOperand
  | [] => .error .truncated

/-- The operations of a unit number and an `OP` value (R101), with their payloads. -/
def decodeOp (unit op : Nat) (rest : List Half) : Except DecodeError (Instr × List Half) :=
  match unit, op with
  | 0, 0x1 => takeAddr rest
  | 0, 0x2 => takeAddrData rest
  | 0, 0x3 => takeSample .srcPush rest
  | 0, 0x4 => .ok (.framePop, rest)
  | 0, 0x5 => .ok (.softPop, rest)
  | 0, 0x8 => .ok (.commitAll, rest)
  | 0, 0x9 => .ok (.sresetAll, rest)
  | 0, 0xA => .ok (.stop, rest)
  | 0, 0xB => .ok (.abort, rest)
  | 1, 0x1 => .ok (.agcStep, rest)
  | 2, 0x1 => .ok (.costasStep, rest)
  | 3, 0x1 => takeF32 rest
  | 4, 0x1 => .ok (.rrcStep, rest)
  | 5, 0x1 => .ok (.mmStep, rest)
  | 6, 0x1 => takeSample .snrUpdate rest
  | 7, 0x1 => .ok (.slice, rest)
  | 8, 0x1 => .ok (.repackBit, rest)
  | 9, 0x1 => .ok (.deframeByte, rest)
  | 9, 0x2 => takeBit rest
  | 1, 0x8 => .ok (.commitAgc, rest)
  | 2, 0x8 => .ok (.commitCostas, rest)
  | 3, 0x8 => .ok (.commitPll, rest)
  | 4, 0x8 => .ok (.commitRrc, rest)
  | 5, 0x8 => .ok (.commitMm, rest)
  | 6, 0x8 => .ok (.commitSnr, rest)
  | 7, 0x8 => .ok (.commitSlicer, rest)
  | 8, 0x8 => .ok (.commitRepacker, rest)
  | 9, 0x8 => .ok (.commitDeframer, rest)
  | 1, 0x9 => .ok (.sresetAgc, rest)
  | 2, 0x9 => .ok (.sresetCostas, rest)
  | 3, 0x9 => .ok (.sresetPll, rest)
  | 4, 0x9 => .ok (.sresetRrc, rest)
  | 5, 0x9 => .ok (.sresetMm, rest)
  | 6, 0x9 => .ok (.sresetSnr, rest)
  | 7, 0x9 => .ok (.sresetSlicer, rest)
  | 8, 0x9 => .ok (.sresetRepacker, rest)
  | 9, 0x9 => .ok (.sresetDeframer, rest)
  | 1, 0xC => .ok (.eosPropagateAgc, rest)
  | 2, 0xC => .ok (.eosPropagateCostas, rest)
  | 4, 0xC => .ok (.eosPropagateRrc, rest)
  | 5, 0xC => .ok (.eosPropagateMm, rest)
  | 7, 0xC => .ok (.eosPropagateSlicer, rest)
  | 8, 0xC => .ok (.eosPropagateRepacker, rest)
  | 9, 0xC => .ok (.eosPropagateDeframer, rest)
  | _, _ => .error .undefinedOp

/-- The operation at the head of a sequence of words, and the words after it; or the reason there is none. -/
def decode : List Half → Except DecodeError (Instr × List Half)
  | [] => .error .empty
  | d :: rest =>
    if descZ d ≠ 0 then .error .nonzeroZ
    else if 0xA ≤ descUnit d then .error .reservedUnit
    else decodeOp (descUnit d) (descOp d) rest

/-- The descriptor is that of a host transaction (R102). -/
def isHostDescriptor (d : Half) : Bool :=
  descZ d == 0 && descUnit d == 0 && decide (1 ≤ descOp d) && decide (descOp d ≤ 5)

/-- An operation's `UNIT` and `OP` (R110). -/
def Instr.unitOp : Instr → Nat × Nat
  | .regRead _ => (0, 0x1)
  | .regWrite _ _ => (0, 0x2)
  | .srcPush _ => (0, 0x3)
  | .framePop => (0, 0x4)
  | .softPop => (0, 0x5)
  | .commitAll => (0, 0x8)
  | .sresetAll => (0, 0x9)
  | .stop => (0, 0xA)
  | .abort => (0, 0xB)
  | .agcStep => (1, 0x1)
  | .costasStep => (2, 0x1)
  | .pllAdvance _ => (3, 0x1)
  | .rrcStep => (4, 0x1)
  | .mmStep => (5, 0x1)
  | .snrUpdate _ => (6, 0x1)
  | .slice => (7, 0x1)
  | .repackBit => (8, 0x1)
  | .deframeByte => (9, 0x1)
  | .deframeBit _ => (9, 0x2)
  | .commitAgc => (1, 0x8)
  | .commitCostas => (2, 0x8)
  | .commitPll => (3, 0x8)
  | .commitRrc => (4, 0x8)
  | .commitMm => (5, 0x8)
  | .commitSnr => (6, 0x8)
  | .commitSlicer => (7, 0x8)
  | .commitRepacker => (8, 0x8)
  | .commitDeframer => (9, 0x8)
  | .sresetAgc => (1, 0x9)
  | .sresetCostas => (2, 0x9)
  | .sresetPll => (3, 0x9)
  | .sresetRrc => (4, 0x9)
  | .sresetMm => (5, 0x9)
  | .sresetSnr => (6, 0x9)
  | .sresetSlicer => (7, 0x9)
  | .sresetRepacker => (8, 0x9)
  | .sresetDeframer => (9, 0x9)
  | .eosPropagateAgc => (1, 0xC)
  | .eosPropagateCostas => (2, 0xC)
  | .eosPropagateRrc => (4, 0xC)
  | .eosPropagateMm => (5, 0xC)
  | .eosPropagateSlicer => (7, 0xC)
  | .eosPropagateRepacker => (8, 0xC)
  | .eosPropagateDeframer => (9, 0xC)

/-- An operation's payload as words (R103; log 3, log 4). -/
def Instr.payload : Instr → List Half
  | .regRead a => [a]
  | .regWrite a d => [a, lowHalf d, highHalf d]
  | .srcPush x => sampleWords x
  | .pllAdvance e => [lowHalf e, highHalf e]
  | .snrUpdate x => sampleWords x
  | .deframeBit x => [if x then 1 else 0]
  | _ => []

/-- The descriptor of an operation (R110). -/
def Instr.descriptor (i : Instr) : Half := descOf i.unitOp.1 i.unitOp.2

/-- The words of an operation: its descriptor and its payload. -/
def encode (i : Instr) : List Half := i.descriptor :: i.payload

/-- The number of words of the longest operation, a descriptor and a 64-bit sample. -/
def maxWords : Nat := 5

/-- The words of an operation whose bits are `w`, `nbits` of them given, the bits above them 0, bit 0 the least
significant of the first word. -/
def wordsOf (nbits w : Nat) : List Half :=
  (List.range (max maxWords ((nbits + 15) / 16))).map fun k =>
    BitVec.ofNat 16 (w % 2 ^ nbits / 2 ^ (16 * k))

/-- The operation the decoder reads from the bits `w` of a row of the opcode table. -/
def decodeTableWord (nbits w : Nat) : Option Instr :=
  match decode (wordsOf nbits w) with
  | .ok (i, _) => some i
  | .error _ => none

end Sys2Proof
end

