-- ==== Sys2Proof/Machine/State.lean ====
section
/-! DEFINITION. The state of the block (10_state.md R30) and its value after reset (70_reset_and_hazards.md R500). -/

namespace Sys2Proof.Machine

/-- A unit's recorded status: the stored fields of `STATUS` (R34). -/
structure UnitStatus where
  cfgValid : Bool
  cfgErr : Bool
  errCode : BitVec 8
  deriving DecidableEq, Repr

/-- `CFG_VALID`, `CFG_ERR`, `ERR_CODE` after reset (R500). -/
def UnitStatus.reset : UnitStatus := ⟨false, false, 0⟩

/-! ### AGC (unit 1) -/

/-- The configuration registers of `AGC` (R39). -/
structure AgcCfg where
  ref : F32
  rate : F32
  maxGain : F32
  deriving DecidableEq, Repr

/-- The datapath state of `AGC` (R40). -/
structure AgcData where
  g : F32
  deriving DecidableEq, Repr

structure AgcUnit where
  shadow : AgcCfg
  cfg : AgcCfg
  /-- Derived `GAIN_MIN` (R37). -/
  gainMin : F32
  status : UnitStatus
  data : AgcData
  deriving DecidableEq, Repr

/-! ### COSTAS (unit 2) -/

/-- The configuration register of `COSTAS` (R41). It has no datapath state. -/
structure CostasCfg where
  order : Word
  deriving DecidableEq, Repr

structure CostasUnit where
  shadow : CostasCfg
  cfg : CostasCfg
  status : UnitStatus
  deriving DecidableEq, Repr

/-! ### PLL (unit 3) -/

/-- The configuration registers of `PLL` (R42). -/
structure PllCfg where
  loopBw : F32
  freqMax : F32
  deriving DecidableEq, Repr

/-- The derived values of `PLL` (R37). -/
structure PllDerived where
  alpha : F32
  beta : F32
  deriving DecidableEq, Repr

/-- The datapath state of `PLL` (R43). -/
structure PllData where
  phase : F32
  freq : F32
  deriving DecidableEq, Repr

structure PllUnit where
  shadow : PllCfg
  cfg : PllCfg
  derived : PllDerived
  status : UnitStatus
  data : PllData
  deriving DecidableEq, Repr

/-! ### RRC (unit 4) -/

/-- The configuration registers of `RRC` (R44), the coefficient memory `TAP[k]` among them. -/
structure RrcCfg where
  ntaps : Word
  interp : Word
  taps : Vector F32 Config.maxTaps
  deriving DecidableEq, Repr

/-- The datapath state of `RRC`: the delay line, entry 0 the newest (R45). -/
structure RrcData where
  d : Vector Cplx Config.maxTaps
  deriving DecidableEq, Repr

structure RrcUnit where
  shadow : RrcCfg
  cfg : RrcCfg
  status : UnitStatus
  data : RrcData
  deriving DecidableEq, Repr

/-! ### MM (unit 5) -/

/-- The configuration registers of `MM` (R46). -/
structure MmCfg where
  mode : Word
  omega : F32
  gainOmega : F32
  gainMu : F32
  relLimit : F32
  muInit : F32
  deriving DecidableEq, Repr

/-- The derived values of `MM` (R37). -/
structure MmDerived where
  omegaLim : F32
  omegaMin : F32
  omegaMax : F32
  deriving DecidableEq, Repr

/-- The datapath state of `MM` (R47). -/
structure MmData where
  a : Cplx
  b : Cplx
  wait : Nat
  mu : F32
  omega : F32
  last : F32
  p1 : Cplx
  p2 : Cplx
  c1 : Cplx
  c2 : Cplx
  deriving DecidableEq, Repr

structure MmUnit where
  shadow : MmCfg
  cfg : MmCfg
  derived : MmDerived
  status : UnitStatus
  data : MmData
  deriving DecidableEq, Repr

/-! ### SNR (unit 6) -/

/-- The configuration registers of `SNR` (R48). -/
structure SnrCfg where
  alpha : F32
  cap : F32
  deriving DecidableEq, Repr

/-- The datapath state of `SNR` (R49). -/
structure SnrData where
  y1 : F32
  y2 : F32
  snr : F32
  peak : F32
  deriving DecidableEq, Repr

structure SnrUnit where
  shadow : SnrCfg
  cfg : SnrCfg
  /-- Derived `ONE_M_ALPHA` (R37). -/
  oneMAlpha : F32
  status : UnitStatus
  data : SnrData
  deriving DecidableEq, Repr

/-! ### SLICER (unit 7) -/

/-- The configuration registers of `SLICER` (R50): the defined bits of `MODE` (R36) and `SOFT_SCALE`. It has no
datapath state. -/
structure SlicerCfg where
  cplx : Bool
  softEn : Bool
  softScale : F32
  deriving DecidableEq, Repr

structure SlicerUnit where
  shadow : SlicerCfg
  cfg : SlicerCfg
  status : UnitStatus
  deriving DecidableEq, Repr

/-! ### REPACKER (unit 8) -/

/-- The configuration register of `REPACKER` (R51): the defined bit of `ORDER` (R36). -/
structure RepackerCfg where
  lsbFirst : Bool
  deriving DecidableEq, Repr

/-- The datapath state of `REPACKER` (R52). -/
structure RepackerData where
  acc : Byte
  n : Nat
  deriving DecidableEq, Repr

structure RepackerUnit where
  shadow : RepackerCfg
  cfg : RepackerCfg
  status : UnitStatus
  data : RepackerData
  deriving DecidableEq, Repr

/-! ### DEFRAMER (unit 9) -/

/-- The configuration registers of `DEFRAMER` (R53): `FLAGS` keeps only its defined bit (R36). -/
structure DeframerCfg where
  asmLo : Word
  asmHi : Word
  asmLen : Word
  frameLen : Word
  bitErrTol : Word
  missTol : Word
  invEn : Bool
  deriving DecidableEq, Repr

/-- The lock states of R55. -/
inductive LockState where
  | nosync | syncing | synced | syncedMissed
  deriving DecidableEq, Repr

/-- The code of a lock state in `STATE[1:0]` and in a frame's tag (R55). -/
def LockState.code : LockState → BitVec 2
  | .nosync => 0 | .syncing => 1 | .synced => 2 | .syncedMissed => 3

/-- The datapath state of `DEFRAMER` (R54). -/
structure DeframerData where
  state : LockState
  win : BitVec 64
  fill : Nat
  cnt : Nat
  miss : Nat
  inv : Bool
  buf : BitVec Config.bufBits
  deriving DecidableEq, Repr

structure DeframerUnit where
  shadow : DeframerCfg
  cfg : DeframerCfg
  /-- Derived `ASM`, the masked marker (R37). -/
  asm : BitVec 64
  status : UnitStatus
  data : DeframerData
  deriving DecidableEq, Repr

/-! ### Queues, responses and turns -/

/-- A port queue: its items, oldest first, and its closed flag (20_memory.md R81). -/
structure Queue (α : Type) where
  items : List α
  closed : Bool
  deriving DecidableEq, Repr

/-- A frame item: the lock state in force at emission, of which the tag is the code, and the bytes (R107). -/
structure Frame where
  tag : LockState
  data : List Byte
  deriving DecidableEq, Repr

/-- The responses to host transactions (R103). `err` is the answer of a `BusError` (R404). A soft value is 8 bits,
two's complement (R106). -/
inductive Response where
  | ok
  | okData (data : Word)
  | err
  | frame (f : Frame)
  | soft (v : BitVec 8)
  | eos
  deriving DecidableEq, Repr

/-- An entry of the schedule, the model's own (log 1): which agent's turn it is (R86), the reset input (R500; log 12),
or one operation issued alone, given by its words (log 4). -/
inductive Turn where
  | agent (a : Agent)
  | reset
  | issue (words : List Half)
  deriving DecidableEq, Repr

/-- A line of a host script (R111) or a pseudo-instruction (R112). Register operands are addresses. -/
inductive Line where
  | rd (a : Half)
  | wr (a : Half) (v : Word)
  | push (r i : F32)
  | popf
  | pops
  | commit (u : UnitId)
  | sreset (u : UnitId)
  | commitAll
  | sresetAll
  | stop
  | abort
  | pushr (r : F32)
  | pushn (n : Nat) (r i : F32)
  | pushbpsk (bits : List Bool) (amp : F32) (sps : Nat)
  | drain
  deriving DecidableEq, Repr

/-- The state of the block (R30) and, last, the fields that are not the block's: the host's side, the event history
and the turns (log 1, log 2, log 13, log 19). -/
structure State where
  agc : AgcUnit
  costas : CostasUnit
  pll : PllUnit
  rrc : RrcUnit
  mm : MmUnit
  snr : SnrUnit
  slicer : SlicerUnit
  repacker : RepackerUnit
  deframer : DeframerUnit
  qSrc : Queue Cplx
  qAgc : Queue Cplx
  qCar : Queue Cplx
  qMf : Queue Cplx
  qSym : Queue Cplx
  qBit : Queue Bool
  qSoft : Queue (BitVec 8)
  qByte : Queue Byte
  qFrame : Queue Frame
  /-- The global flag `ABORTED` (R38). -/
  aborted : Bool
  /-- What the host has still to send, as words. -/
  script : List Half
  /-- The lines of its script that the host has not yet turned into words (R111, R112). -/
  lines : List Line
  /-- What the host was answered, the newest first. -/
  responses : List Response
  /-- The event history: the descriptors of the operations performed (R100), the newest first. -/
  history : List Half
  /-- The turns to come; when there is none left, `Config.schedule` gives the next agent. -/
  schedule : List Turn
  /-- The number of turns taken. -/
  turns : Nat
  deriving DecidableEq, Repr

/-- Why a step can stop. The block itself never stops (R400, R408): the one constructor concerns an entry of the
model's own schedule. -/
inductive Fault where
  /-- Raised by `step` when an issued entry's words are no operation. Safe: the block issues no illegal descriptor
  (R102), so no behaviour of the hardware is lost. -/
  | undecodable (e : DecodeError)
  deriving DecidableEq, Repr

/-- Why an operation can have no meaning. -/
inductive Refusal where
  /-- Raised by `exec` for an operation whose meaning is not written. Safe. No operation is refused. -/
  | notModelled (mnemonic : String)
  deriving DecidableEq, Repr

/-! ### Reset values -/

def AgcCfg.reset : AgcCfg := ⟨0x3F800000, 0x3A800000, 0x47800000⟩
def AgcData.reset : AgcData := ⟨0x3F800000⟩
def CostasCfg.reset : CostasCfg := ⟨2⟩
def PllCfg.reset : PllCfg := ⟨0x3C000000, 0x40490FDB⟩
def PllData.reset : PllData := ⟨0, 0⟩
/-- `TAP[0]` is 1.0 and every other tap 0 (R44). -/
def RrcCfg.reset : RrcCfg := ⟨1, 1, (Vector.replicate Config.maxTaps 0).setIfInBounds 0 0x3F800000⟩
def RrcData.reset : RrcData := ⟨Vector.replicate Config.maxTaps Cplx.zero⟩
def MmCfg.reset : MmCfg := ⟨0, 0x40000000, 0x39800000, 0x3D000000, 0x3B800000, 0x3F000000⟩
/-- The reset of the `MM` datapath: `mu` and `omega` from the active configuration, the rest zero (R47, R207). -/
def MmData.resetFrom (c : MmCfg) : MmData :=
  ⟨Cplx.zero, Cplx.zero, 0, c.muInit, c.omega, 0, Cplx.zero, Cplx.zero, Cplx.zero, Cplx.zero⟩
def SnrCfg.reset : SnrCfg := ⟨0x3B800000, 0x42C80000⟩
def SnrData.reset : SnrData := ⟨0, 0, 0, 0⟩
def SlicerCfg.reset : SlicerCfg := ⟨false, false, 0x42FE0000⟩
def RepackerCfg.reset : RepackerCfg := ⟨false⟩
def RepackerData.reset : RepackerData := ⟨0, 0⟩
def DeframerCfg.reset : DeframerCfg := ⟨0x1ACFFC1D, 0, 32, 1024, 4, 5, true⟩
def DeframerData.reset : DeframerData := ⟨.nosync, 0, 0, 0, 0, false, 0⟩

/-- A queue after reset: empty and open (R500). -/
def Queue.reset (α : Type) : Queue α := ⟨[], false⟩

/-- The machine right after reset (R500): every shadow register and active value at its reset value, every derived
value 0, every status 0, every datapath value at its reset value, every queue empty and open, `ABORTED` 0. The
fields that are not the block's are empty (log 1, log 2, log 13, log 19, DESIGN CHOICE). -/
def State.reset : State where
  agc := ⟨AgcCfg.reset, AgcCfg.reset, 0, UnitStatus.reset, AgcData.reset⟩
  costas := ⟨CostasCfg.reset, CostasCfg.reset, UnitStatus.reset⟩
  pll := ⟨PllCfg.reset, PllCfg.reset, ⟨0, 0⟩, UnitStatus.reset, PllData.reset⟩
  rrc := ⟨RrcCfg.reset, RrcCfg.reset, UnitStatus.reset, RrcData.reset⟩
  mm := ⟨MmCfg.reset, MmCfg.reset, ⟨0, 0, 0⟩, UnitStatus.reset, MmData.resetFrom MmCfg.reset⟩
  snr := ⟨SnrCfg.reset, SnrCfg.reset, 0, UnitStatus.reset, SnrData.reset⟩
  slicer := ⟨SlicerCfg.reset, SlicerCfg.reset, UnitStatus.reset⟩
  repacker := ⟨RepackerCfg.reset, RepackerCfg.reset, UnitStatus.reset, RepackerData.reset⟩
  deframer := ⟨DeframerCfg.reset, DeframerCfg.reset, 0, UnitStatus.reset, DeframerData.reset⟩
  qSrc := Queue.reset Cplx
  qAgc := Queue.reset Cplx
  qCar := Queue.reset Cplx
  qMf := Queue.reset Cplx
  qSym := Queue.reset Cplx
  qBit := Queue.reset Bool
  qSoft := Queue.reset (BitVec 8)
  qByte := Queue.reset Byte
  qFrame := Queue.reset Frame
  aborted := false
  script := []
  lines := []
  responses := []
  history := []
  schedule := []
  turns := 0

end Sys2Proof.Machine
end

