-- ==== Sys2Proof/Machine/Operands.lean ====
section
/-! DEFINITION. The register space: the registers by name, their addresses (20_memory.md R90), their classes
(10_state.md R33) and what a write stores (R36). -/

namespace Sys2Proof.Machine

/-- The natural number 0 or 1 that a bit stands for. -/
def bitNat (b : Bool) : Nat := if b then 1 else 0

/-- Bit `i` of an array of bits set to `b`, the other bits unchanged. -/
def setBit {w : Nat} (v : BitVec w) (i : Nat) (b : Bool) : BitVec w :=
  if b then v ||| (BitVec.ofNat w 1 <<< i) else v &&& ~~~(BitVec.ofNat w 1 <<< i)

/-- The registers of the block, one per address of R34, R38, R39, R41, R42, R44, R46, R48, R50, R51 and R53. -/
inductive Reg where
  | gCtrl | gStatus
  | ctrl (u : UnitId) | status (u : UnitId)
  | agcRef | agcRate | agcMaxGain | agcGain | agcGainMin
  | costasOrder
  | pllLoopBw | pllFreqMax | pllAlpha | pllBeta | pllPhase | pllFreq
  | rrcNtaps | rrcInterp | rrcTap (k : Fin Config.maxTaps)
  | mmMode | mmOmega | mmGainOmega | mmGainMu | mmRelLimit | mmMuInit | mmMu | mmOmegaCur | mmOmegaLim
  | snrAlpha | snrCap | snrY1 | snrY2 | snrDb | snrPeakDb
  | slicerMode | slicerSoftScale
  | repackerOrder | repackerCarryBits | repackerCarryVal
  | deframerAsmLo | deframerAsmHi | deframerAsmLen | deframerFrameLen | deframerBitErrTol | deframerMissTol
  | deframerFlags | deframerState | deframerMissCnt | deframerBitCnt | deframerPolarity | deframerWinLo
  | deframerWinHi | deframerFill
  deriving DecidableEq, Repr

/-- The three register classes (R33). -/
inductive RegClass where
  | rw | ro | wc
  deriving DecidableEq, Repr

/-- The address of a register (R34, R38-R53). -/
def regAddr : Reg → Half
  | .gCtrl => 0x0000
  | .gStatus => 0x0004
  | .ctrl u => BitVec.ofNat 16 (u.number * 0x1000)
  | .status u => BitVec.ofNat 16 (u.number * 0x1000 + 4)
  | .agcRef => 0x1008
  | .agcRate => 0x100C
  | .agcMaxGain => 0x1010
  | .agcGain => 0x1014
  | .agcGainMin => 0x1018
  | .costasOrder => 0x2008
  | .pllLoopBw => 0x3008
  | .pllFreqMax => 0x300C
  | .pllAlpha => 0x3010
  | .pllBeta => 0x3014
  | .pllPhase => 0x3018
  | .pllFreq => 0x301C
  | .rrcNtaps => 0x4008
  | .rrcInterp => 0x400C
  | .rrcTap k => BitVec.ofNat 16 (0x4400 + 4 * k.val)
  | .mmMode => 0x5008
  | .mmOmega => 0x500C
  | .mmGainOmega => 0x5010
  | .mmGainMu => 0x5014
  | .mmRelLimit => 0x5018
  | .mmMuInit => 0x501C
  | .mmMu => 0x5020
  | .mmOmegaCur => 0x5024
  | .mmOmegaLim => 0x5028
  | .snrAlpha => 0x6008
  | .snrCap => 0x600C
  | .snrY1 => 0x6010
  | .snrY2 => 0x6014
  | .snrDb => 0x6018
  | .snrPeakDb => 0x601C
  | .slicerMode => 0x7008
  | .slicerSoftScale => 0x700C
  | .repackerOrder => 0x8008
  | .repackerCarryBits => 0x800C
  | .repackerCarryVal => 0x8010
  | .deframerAsmLo => 0x9008
  | .deframerAsmHi => 0x900C
  | .deframerAsmLen => 0x9010
  | .deframerFrameLen => 0x9014
  | .deframerBitErrTol => 0x9018
  | .deframerMissTol => 0x901C
  | .deframerFlags => 0x9020
  | .deframerState => 0x9024
  | .deframerMissCnt => 0x9028
  | .deframerBitCnt => 0x902C
  | .deframerPolarity => 0x9030
  | .deframerWinLo => 0x9034
  | .deframerWinHi => 0x9038
  | .deframerFill => 0x903C

/-- The registers but for the taps. -/
def fixedRegs : List Reg :=
  [.gCtrl, .gStatus] ++ UnitId.all.map .ctrl ++ UnitId.all.map .status ++
  [.agcRef, .agcRate, .agcMaxGain, .agcGain, .agcGainMin, .costasOrder,
   .pllLoopBw, .pllFreqMax, .pllAlpha, .pllBeta, .pllPhase, .pllFreq, .rrcNtaps, .rrcInterp,
   .mmMode, .mmOmega, .mmGainOmega, .mmGainMu, .mmRelLimit, .mmMuInit, .mmMu, .mmOmegaCur, .mmOmegaLim] ++
  [.snrAlpha, .snrCap, .snrY1, .snrY2, .snrDb, .snrPeakDb, .slicerMode, .slicerSoftScale,
   .repackerOrder, .repackerCarryBits, .repackerCarryVal,
   .deframerAsmLo, .deframerAsmHi, .deframerAsmLen, .deframerFrameLen, .deframerBitErrTol, .deframerMissTol,
   .deframerFlags, .deframerState, .deframerMissCnt, .deframerBitCnt, .deframerPolarity, .deframerWinLo,
   .deframerWinHi, .deframerFill]

/-- The tap at an address: `0x4400 + 4k` for `k < P_MAX_TAPS` (R44). -/
def tapAt (a : Half) : Option Reg :=
  if h : (a.toNat - 0x4400) / 4 < Config.maxTaps then
    (if 0x4400 ≤ a.toNat ∧ a.toNat % 4 = 0 then some (.rrcTap ⟨(a.toNat - 0x4400) / 4, h⟩) else none)
  else none

/-- The register at an address, none when it is unmapped (R90). -/
def regAt (a : Half) : Option Reg :=
  match tapAt a with
  | some r => some r
  | none => fixedRegs.find? fun r => regAddr r == a

/-- An address must have bits 1:0 equal to 00 (R91). -/
def aligned (a : Half) : Bool := a.toNat % 4 == 0

/-- The register a host access reaches: none when the address is misaligned or unmapped, in that order (R403, R404). -/
def accessed (a : Half) : Option Reg := if aligned a then regAt a else none

/-- The class of a register (R33, R34, R38-R53). -/
def regClass : Reg → RegClass
  | .gCtrl => .wc
  | .ctrl _ => .wc
  | .gStatus => .ro
  | .status _ => .ro
  | .agcGain => .ro
  | .agcGainMin => .ro
  | .pllAlpha => .ro
  | .pllBeta => .ro
  | .pllPhase => .ro
  | .pllFreq => .ro
  | .mmMu => .ro
  | .mmOmegaCur => .ro
  | .mmOmegaLim => .ro
  | .snrY1 => .ro
  | .snrY2 => .ro
  | .snrDb => .ro
  | .snrPeakDb => .ro
  | .repackerCarryBits => .ro
  | .repackerCarryVal => .ro
  | .deframerState => .ro
  | .deframerMissCnt => .ro
  | .deframerBitCnt => .ro
  | .deframerPolarity => .ro
  | .deframerWinLo => .ro
  | .deframerWinHi => .ro
  | .deframerFill => .ro
  | .agcRef => .rw
  | .agcRate => .rw
  | .agcMaxGain => .rw
  | .costasOrder => .rw
  | .pllLoopBw => .rw
  | .pllFreqMax => .rw
  | .rrcNtaps => .rw
  | .rrcInterp => .rw
  | .rrcTap _ => .rw
  | .mmMode => .rw
  | .mmOmega => .rw
  | .mmGainOmega => .rw
  | .mmGainMu => .rw
  | .mmRelLimit => .rw
  | .mmMuInit => .rw
  | .snrAlpha => .rw
  | .snrCap => .rw
  | .slicerMode => .rw
  | .slicerSoftScale => .rw
  | .repackerOrder => .rw
  | .deframerAsmLo => .rw
  | .deframerAsmHi => .rw
  | .deframerAsmLen => .rw
  | .deframerFrameLen => .rw
  | .deframerBitErrTol => .rw
  | .deframerMissTol => .rw
  | .deframerFlags => .rw

/-- A register write of class `RW`: the shadow value becomes `v`, of which a flag register
keeps its defined bits (R35, R36). Registers of the other
classes have no shadow value. -/
def writeShadow (r : Reg) (v : Word) (s : State) : State :=
  match r with
  | .agcRef => { s with agc.shadow.ref := v }
  | .agcRate => { s with agc.shadow.rate := v }
  | .agcMaxGain => { s with agc.shadow.maxGain := v }
  | .costasOrder => { s with costas.shadow.order := v }
  | .pllLoopBw => { s with pll.shadow.loopBw := v }
  | .pllFreqMax => { s with pll.shadow.freqMax := v }
  | .rrcNtaps => { s with rrc.shadow.ntaps := v }
  | .rrcInterp => { s with rrc.shadow.interp := v }
  | .rrcTap k => { s with rrc.shadow.taps := s.rrc.shadow.taps.set k.val v k.isLt }
  | .mmMode => { s with mm.shadow.mode := v }
  | .mmOmega => { s with mm.shadow.omega := v }
  | .mmGainOmega => { s with mm.shadow.gainOmega := v }
  | .mmGainMu => { s with mm.shadow.gainMu := v }
  | .mmRelLimit => { s with mm.shadow.relLimit := v }
  | .mmMuInit => { s with mm.shadow.muInit := v }
  | .snrAlpha => { s with snr.shadow.alpha := v }
  | .snrCap => { s with snr.shadow.cap := v }
  | .slicerMode => { s with slicer.shadow.cplx := v.getLsbD 0, slicer.shadow.softEn := v.getLsbD 1 }
  | .slicerSoftScale => { s with slicer.shadow.softScale := v }
  | .repackerOrder => { s with repacker.shadow.lsbFirst := v.getLsbD 0 }
  | .deframerAsmLo => { s with deframer.shadow.asmLo := v }
  | .deframerAsmHi => { s with deframer.shadow.asmHi := v }
  | .deframerAsmLen => { s with deframer.shadow.asmLen := v }
  | .deframerFrameLen => { s with deframer.shadow.frameLen := v }
  | .deframerBitErrTol => { s with deframer.shadow.bitErrTol := v }
  | .deframerMissTol => { s with deframer.shadow.missTol := v }
  | .deframerFlags => { s with deframer.shadow.invEn := v.getLsbD 0 }
  | _ => s

end Sys2Proof.Machine
end

