-- ==== Sys2Proof/Machine/Flags.lean ====
section
/-! DEFINITION. The status bits (10_state.md R56), the words of `STATUS` (R34) and `G_STATUS` (R38), and the value
every register shows (R33, R57). -/

namespace Sys2Proof.Machine

/-- The recorded status of a unit. -/
def statusOf (u : UnitId) (s : State) : UnitStatus :=
  match u with
  | .agc => s.agc.status
  | .costas => s.costas.status
  | .pll => s.pll.status
  | .rrc => s.rrc.status
  | .mm => s.mm.status
  | .snr => s.snr.status
  | .slicer => s.slicer.status
  | .repacker => s.repacker.status
  | .deframer => s.deframer.status

/-- `IN_CLOSED`: the unit's input queue is closed; 0 for `PLL` and `SNR` (R34). -/
def inClosed (u : UnitId) (s : State) : Bool :=
  match u with
  | .agc => s.qSrc.closed
  | .costas => s.qAgc.closed
  | .pll => false
  | .rrc => s.qCar.closed
  | .mm => s.qMf.closed
  | .snr => false
  | .slicer => s.qSym.closed
  | .repacker => s.qBit.closed
  | .deframer => s.qByte.closed

/-- `OUT_CLOSED`: the unit's output queue is closed, `Q_BIT` for `SLICER`; 0 for `PLL` and `SNR` (R34). -/
def outClosed (u : UnitId) (s : State) : Bool :=
  match u with
  | .agc => s.qAgc.closed
  | .costas => s.qCar.closed
  | .pll => false
  | .rrc => s.qMf.closed
  | .mm => s.qSym.closed
  | .snr => false
  | .slicer => s.qBit.closed
  | .repacker => s.qByte.closed
  | .deframer => s.qFrame.closed

/-- The word a unit's `STATUS` shows (R34). -/
def statusWord (u : UnitId) (s : State) : Word :=
  BitVec.ofNat 32 (bitNat (statusOf u s).cfgValid + 2 * bitNat (statusOf u s).cfgErr
    + 4 * bitNat (inClosed u s) + 8 * bitNat (outClosed u s) + 256 * (statusOf u s).errCode.toNat)

/-- `ALL_VALID`: `CFG_VALID` of all nine units is 1 (R38). -/
def allValid (s : State) : Bool := UnitId.all.all fun u => (statusOf u s).cfgValid

/-- `ANY_ERR`: `CFG_ERR` of some unit is 1 (R38). -/
def anyErr (s : State) : Bool := UnitId.all.any fun u => (statusOf u s).cfgErr

/-- `FRAME_EOS`: `Q_FRAME` is closed and empty (R38). -/
def frameEos (s : State) : Bool := s.qFrame.closed && s.qFrame.items.isEmpty

/-- The word `G_STATUS` shows (R38). -/
def gStatusWord (s : State) : Word :=
  BitVec.ofNat 32 (bitNat (allValid s) + 2 * bitNat (anyErr s) + 4 * bitNat s.qSrc.closed
    + 8 * bitNat (frameEos s) + 16 * bitNat s.aborted)

/-- The value a register shows: 0 for `WC`, the shadow value for `RW`, the current value for `RO` (R33, R57, R201). -/
def regShows (r : Reg) (s : State) : Word :=
  match r with
  | .gCtrl => 0
  | .gStatus => gStatusWord s
  | .ctrl _ => 0
  | .status u => statusWord u s
  | .agcRef => s.agc.shadow.ref
  | .agcRate => s.agc.shadow.rate
  | .agcMaxGain => s.agc.shadow.maxGain
  | .agcGain => s.agc.data.g
  | .agcGainMin => s.agc.gainMin
  | .costasOrder => s.costas.shadow.order
  | .pllLoopBw => s.pll.shadow.loopBw
  | .pllFreqMax => s.pll.shadow.freqMax
  | .pllAlpha => s.pll.derived.alpha
  | .pllBeta => s.pll.derived.beta
  | .pllPhase => s.pll.data.phase
  | .pllFreq => s.pll.data.freq
  | .rrcNtaps => s.rrc.shadow.ntaps
  | .rrcInterp => s.rrc.shadow.interp
  | .rrcTap k => s.rrc.shadow.taps.get k
  | .mmMode => s.mm.shadow.mode
  | .mmOmega => s.mm.shadow.omega
  | .mmGainOmega => s.mm.shadow.gainOmega
  | .mmGainMu => s.mm.shadow.gainMu
  | .mmRelLimit => s.mm.shadow.relLimit
  | .mmMuInit => s.mm.shadow.muInit
  | .mmMu => s.mm.data.mu
  | .mmOmegaCur => s.mm.data.omega
  | .mmOmegaLim => s.mm.derived.omegaLim
  | .snrAlpha => s.snr.shadow.alpha
  | .snrCap => s.snr.shadow.cap
  | .snrY1 => s.snr.data.y1
  | .snrY2 => s.snr.data.y2
  | .snrDb => s.snr.data.snr
  | .snrPeakDb => s.snr.data.peak
  | .slicerMode => BitVec.ofNat 32 (bitNat s.slicer.shadow.cplx + 2 * bitNat s.slicer.shadow.softEn)
  | .slicerSoftScale => s.slicer.shadow.softScale
  | .repackerOrder => BitVec.ofNat 32 (bitNat s.repacker.shadow.lsbFirst)
  | .repackerCarryBits => BitVec.ofNat 32 s.repacker.data.n
  | .repackerCarryVal => s.repacker.data.acc.setWidth 32
  | .deframerAsmLo => s.deframer.shadow.asmLo
  | .deframerAsmHi => s.deframer.shadow.asmHi
  | .deframerAsmLen => s.deframer.shadow.asmLen
  | .deframerFrameLen => s.deframer.shadow.frameLen
  | .deframerBitErrTol => s.deframer.shadow.bitErrTol
  | .deframerMissTol => s.deframer.shadow.missTol
  | .deframerFlags => BitVec.ofNat 32 (bitNat s.deframer.shadow.invEn)
  | .deframerState => s.deframer.data.state.code.setWidth 32
  | .deframerMissCnt => BitVec.ofNat 32 s.deframer.data.miss
  | .deframerBitCnt => BitVec.ofNat 32 s.deframer.data.cnt
  | .deframerPolarity => BitVec.ofNat 32 (bitNat s.deframer.data.inv)
  | .deframerWinLo => s.deframer.data.win.extractLsb' 0 32
  | .deframerWinHi => s.deframer.data.win.extractLsb' 32 32
  | .deframerFill => BitVec.ofNat 32 s.deframer.data.fill

end Sys2Proof.Machine
end

