-- ==== Sys2Proof/Machine/Ops.lean ====
section
/-! DEFINITION. The shared operations: the port queues (20_memory.md R80-R84), the host's responses (R200), and the
block's two exceptions, `CfgError` (R402) and `BusError` (R404). -/

namespace Sys2Proof.Machine

/-! ### Port queues -/

/-- `Push(q, item)` for a list of items, in order (R82, R214). -/
def pushAll {α : Type} (q : Queue α) (xs : List α) : Queue α := { q with items := q.items ++ xs }

/-- `Push(q, item)` (R82). -/
def push {α : Type} (q : Queue α) (x : α) : Queue α := pushAll q [x]

/-- What remains of a queue after `Pop` (R82). -/
def popped {α : Type} (q : Queue α) : Queue α := { q with items := q.items.tail }

/-- `Close(q)` (R83). -/
def close {α : Type} (q : Queue α) : Queue α := { q with closed := true }

/-- The queue takes `n` more items: it is not closed and `Len(q) + n <= P_FIFO_DEPTH` (R82, R84). -/
def hasRoom {α : Type} (q : Queue α) (n : Nat) : Bool :=
  !q.closed && decide (q.items.length + n ≤ Config.fifoDepth)

/-- The queue is closed and empty: its consumer has reached end of stream (R83). -/
def ended {α : Type} (q : Queue α) : Bool := q.closed && q.items.isEmpty

/-- The queue emptied, and open or closed, as `SRESET_ALL` and `ABORT` leave it (R209, R211). -/
def emptied {α : Type} (closed : Bool) (_ : Queue α) : Queue α := ⟨[], closed⟩

/-- Every queue of R80 emptied, and opened or closed. -/
def emptyAll (closed : Bool) (s : State) : State :=
  { s with
    qSrc := emptied closed s.qSrc, qAgc := emptied closed s.qAgc, qCar := emptied closed s.qCar,
    qMf := emptied closed s.qMf, qSym := emptied closed s.qSym, qBit := emptied closed s.qBit,
    qSoft := emptied closed s.qSoft, qByte := emptied closed s.qByte, qFrame := emptied closed s.qFrame }

/-! ### Responses and status -/

/-- The host's transaction is answered, in the step that performs it (R200). -/
def respond (r : Response) (s : State) : State := { s with responses := r :: s.responses }

/-- The recorded status of a unit replaced. -/
def setStatus (u : UnitId) (t : UnitStatus) (s : State) : State :=
  match u with
  | .agc => { s with agc.status := t }
  | .costas => { s with costas.status := t }
  | .pll => { s with pll.status := t }
  | .rrc => { s with rrc.status := t }
  | .mm => { s with mm.status := t }
  | .snr => { s with snr.status := t }
  | .slicer => { s with slicer.status := t }
  | .repacker => { s with repacker.status := t }
  | .deframer => { s with deframer.status := t }

/-! ### Exceptions -/

/-- `CfgError(c)` of a unit: `CFG_VALID <- 0`, `CFG_ERR <- 1`, `ERR_CODE <- c`, and nothing else (R402). No control
transfer, no vector, no saved state, no mode. -/
def raiseCfgError (u : UnitId) (c : BitVec 8) (s : State) : State := setStatus u ⟨false, true, c⟩ s

/-- The recovery from a `CfgError`, a successful `COMMIT`: `CFG_VALID <- 1`, `CFG_ERR <- 0`, `ERR_CODE <- 0`
(R206, R407). There is no handler and so no return from one (R408). -/
def clearCfgError (u : UnitId) (s : State) : State := setStatus u ⟨true, false, 0⟩ s

/-- `BusError`: the transaction is answered `ERR` and changes no state (R404). -/
def raiseBusError (s : State) : State := respond .err s

/-- `COMMIT(u)` of R206, given the code of its first failing check (0 if none) and what a successful one applies:
the active values, the derived values and the reset of the datapath. -/
def commitWith (u : UnitId) (code : BitVec 8) (apply : State → State) (s : State) : State :=
  if code = 0 then clearCfgError u (apply s) else raiseCfgError u code s

/-- The code of the first failing check of a list of checks, each a failure condition with its code; 0 if none
(R403). -/
def firstFailing : List (Bool × BitVec 8) → BitVec 8
  | [] => 0
  | (fails, c) :: more => if fails then c else firstFailing more

end Sys2Proof.Machine
end

