-- ==== Sys2Proof/Machine/Agc.lean ====
section
/-! DEFINITION. The `AGC` unit (41_agc.md). -/

namespace Sys2Proof.Machine

/-- `VALIDATE_AGC` (R231). -/
def validateAgc (c : AgcCfg) : BitVec 8 :=
  firstFailing
    [(!(Fp.finite c.ref && Fp.lt Fp.zero c.ref), 0x11),
     (!(Fp.finite c.rate && Fp.lt Fp.zero c.rate && Fp.le c.rate Fp.one), 0x12),
     (!(Fp.finite c.maxGain && Fp.le Fp.one c.maxGain), 0x13)]

/-- `DERIVE_AGC`: `GAIN_MIN = 1.0 / MAX_GAIN` (R231). -/
def deriveAgc (c : AgcCfg) : F32 := Fp.div Fp.one c.maxGain

/-- `SRESET` of `AGC`: `g <- 1.0` (R207). -/
def resetAgc (s : State) : State := { s with agc.data := AgcData.reset }

/-- The active and derived values of `AGC` taken from its shadow values, and its datapath reset (R206). -/
def applyAgc (s : State) : State :=
  resetAgc { s with agc.cfg := s.agc.shadow, agc.gainMin := deriveAgc s.agc.shadow }

/-- `COMMIT` of `AGC` (R206). -/
def commitAgc (s : State) : State := commitWith .agc (validateAgc s.agc.shadow) applyAgc s

/-- `COMMIT_AGC` (R206). -/
def execCommitAgc (s : State) : Host.Outcome State Fault Refusal := .next (commitAgc s)

/-- `SRESET_AGC` (R207). -/
def execSresetAgc (s : State) : Host.Outcome State Fault Refusal := .next (resetAgc s)

/-- The scaled sample `(yr, yi)` of R232, before the output guard. -/
def agcScaled (g : F32) (x : Cplx) : Cplx := ⟨Fp.mul g (Fp.fin0 x.re), Fp.mul g (Fp.fin0 x.im)⟩

/-- The gain after one sample whose scaled value is `y` (R232): no update for a zero or non-finite magnitude, nor
for a non-finite candidate. -/
def agcGainAfter (c : AgcCfg) (gainMin g : F32) (y : Cplx) : F32 :=
  let m := Fp.sqrt (Fp.mag2 y)
  if Fp.lt Fp.zero m && Fp.finite m then
    let gc := Fp.add g (Fp.mul c.rate (Fp.sub c.ref m))
    if Fp.finite gc then Fp.clamp gc gainMin c.maxGain else g
  else g

/-- `AGC_STEP(x)` on the gain and the output queue (R232). -/
def agcTake (x : Cplx) (s : State) : State :=
  let y := agcScaled s.agc.data.g x
  { s with
    agc.data.g := agcGainAfter s.agc.cfg s.agc.gainMin s.agc.data.g y
    qAgc := push s.qAgc (Fp.fin0c y) }

/-- The data step of `AGC` is enabled but for its input (R84 items 1 and 3). -/
def agcReady (s : State) : Bool := s.agc.status.cfgValid && hasRoom s.qAgc 1

/-- `AGC_STEP`: pops one sample and pushes one (R214, R232). Where R84 does not enable it, it waits. -/
def execAgcStep (s : State) : Host.Outcome State Fault Refusal :=
  match s.qSrc.items with
  | [] => .next s
  | x :: _ => if agcReady s then .next (agcTake x { s with qSrc := popped s.qSrc }) else .next s

end Sys2Proof.Machine
end

