-- ==== Sys2Proof/Machine/Numerics.lean ====
section
/-! DEFINITION. The numerics structure `NUM` of 00_scope.md R7: `sin`, `cos` and `log10` are free functions held to
exactly the properties that R7 requires of them (log 8). -/

namespace Sys2Proof

/-- The value is finite and lies in `[-1, 1]`. -/
def Fp.inUnit (v : F32) : Bool := Fp.le Fp.negOne v && Fp.le v Fp.one

/-- A raw answer held to "for finite `x`, finite and in `[-1, 1]`" (R7). -/
def Fp.unitOf (x raw : F32) : F32 := if !Fp.finite x || Fp.inUnit raw then raw else Fp.zero

/-- `NUM.sin`: `sin(+0.0) = +0.0`; finite and in `[-1, 1]` for finite arguments (R7). -/
def Fp.sin (x : F32) : F32 := if x = Fp.zero then Fp.zero else Fp.unitOf x (Config.sinRaw x)

/-- `NUM.cos`: `cos(+0.0) = 1.0`; finite and in `[-1, 1]` for finite arguments (R7). -/
def Fp.cos (x : F32) : F32 := if x = Fp.zero then Fp.one else Fp.unitOf x (Config.cosRaw x)

/-! `log10` on the positive finite values. These are ordered as their encodings. Between two powers of ten the
function is chosen freely, by choosing its value at the middle of the range and then in each half, so it is any
non-decreasing function and no other. -/

/-- The place of a value in the order of all encodings from `-Inf` to `+Inf`, `-0.0` just below `+0.0`. -/
def Fp.place (x : F32) : Nat := if Fp.sign x then 0xFFFFFFFF - x.toNat else x.toNat + 0x80000000

/-- The value at a place of that order. -/
def Fp.ofPlace (k : Nat) : F32 :=
  BitVec.ofNat 32 (if k < 0x80000000 then 0xFFFFFFFF - k else k - 0x80000000)

/-- A non-decreasing function of `x < 2 ^ d` with values in `lo .. hi`, chosen freely node by node. -/
def Fp.monotoneChoice (choice : Nat → Nat) : (d node lo hi x : Nat) → Nat
  | 0, node, lo, hi, _ => lo + choice node % (hi + 1 - lo)
  | d + 1, node, lo, hi, x =>
    let mid := lo + choice node % (hi + 1 - lo)
    if x < 2 ^ d then Fp.monotoneChoice choice d (2 * node) lo mid x
    else Fp.monotoneChoice choice d (2 * node + 1) mid hi (x - 2 ^ d)

/-- The powers `10^k` for `k = 10` down to `0`, each with the value `k`: "log10(10^k) = k" (R7). -/
def Fp.log10Pins : List (F32 × F32) :=
  [(0x501502F9, 0x41200000), (0x4E6E6B28, 0x41100000), (0x4CBEBC20, 0x41000000), (0x4B189680, 0x40E00000),
   (0x49742400, 0x40C00000), (0x47C35000, 0x40A00000), (0x461C4000, 0x40800000), (0x447A0000, 0x40400000),
   (0x42C80000, 0x40000000), (0x41200000, 0x3F800000), (0x3F800000, 0x00000000)]

/-- The free value of `log10` at `x` between the places `lo` and `hi`, for the range of values number `seg`. A zero
answer has a free sign, which the order of R7 does not see. -/
def Fp.log10Between (seg lo hi : Nat) (x : F32) : F32 :=
  let v := Fp.ofPlace (Fp.monotoneChoice (Config.log10Choice seg) 31 1 lo hi x.toNat)
  if Fp.isZero v then Fp.zeroOf (Config.log10ZeroSign x) else v

/-- `log10` of a positive finite `x`, given the powers of ten not yet passed, the largest first, and the place `hi`
of the value at the power above. -/
def Fp.log10Search (x : F32) : List (F32 × F32) → Nat → F32
  | [], hi => Fp.log10Between 0 (Fp.place (Fp.infOf true)) hi x
  | (p, k) :: more, hi =>
    if x = p then k
    else if p.toNat < x.toNat then Fp.log10Between (more.length + 1) (Fp.place k) hi x
    else Fp.log10Search x more (Fp.place k)

/-- `NUM.log10`: `log10(10^k) = k` for `k` in `0..10`; non-decreasing on positive finite values (R7). -/
def Fp.log10 (x : F32) : F32 :=
  if Fp.finite x && Fp.lt Fp.zero x then Fp.log10Search x Fp.log10Pins (Fp.place (Fp.infOf false))
  else Config.log10Raw x

end Sys2Proof
end

