-- ==== Sys2Proof/Machine/Carrier.lean ====
section
/-! DEFINITION. The `COSTAS` and `PLL` units (42_carrier.md). -/

namespace Sys2Proof.Machine

/-! ### Configuration -/

/-- `VALIDATE_COSTAS` (R241). -/
def validateCostas (c : CostasCfg) : BitVec 8 := firstFailing [(c.order != 2 && c.order != 4, 0x21)]

/-- The active value of `COSTAS` taken from its shadow value; nothing is derived and there is no datapath state
(R206, R207, R241). -/
def applyCostas (s : State) : State := { s with costas.cfg := s.costas.shadow }

/-- `COMMIT` of `COSTAS` (R206). -/
def commitCostas (s : State) : State := commitWith .costas (validateCostas s.costas.shadow) applyCostas s

/-- `COMMIT_COSTAS` (R206). -/
def execCommitCostas (s : State) : Host.Outcome State Fault Refusal := .next (commitCostas s)

/-- `SRESET` of `COSTAS`: nothing (R207). -/
def resetCostas (s : State) : State := s

/-- `SRESET_COSTAS` (R207). -/
def execSresetCostas (s : State) : Host.Outcome State Fault Refusal := .next (resetCostas s)

/-- `VALIDATE_PLL` (R242). -/
def validatePll (c : PllCfg) : BitVec 8 :=
  firstFailing
    [(!(Fp.finite c.loopBw && Fp.lt Fp.zero c.loopBw && Fp.le c.loopBw Fp.one), 0x31),
     (!(Fp.finite c.freqMax && Fp.lt Fp.zero c.freqMax && Fp.le c.freqMax Fp.pi), 0x32)]

/-- `DERIVE_PLL` (R243). -/
def derivePll (c : PllCfg) : PllDerived :=
  let t1 := Fp.mul Fp.twoZeta c.loopBw
  let bb := Fp.mul c.loopBw c.loopBw
  let d := Fp.add (Fp.add Fp.one t1) bb
  ⟨Fp.div (Fp.mul Fp.fourZeta c.loopBw) d, Fp.div (Fp.mul Fp.four bb) d⟩

/-- `SRESET` of `PLL`: `phase` and `freq` are `+0.0` (R207). -/
def resetPll (s : State) : State := { s with pll.data := PllData.reset }

/-- The active and derived values of `PLL` taken from its shadow values, and its datapath reset (R206). -/
def applyPll (s : State) : State :=
  resetPll { s with pll.cfg := s.pll.shadow, pll.derived := derivePll s.pll.shadow }

/-- `COMMIT` of `PLL` (R206). -/
def commitPll (s : State) : State := commitWith .pll (validatePll s.pll.shadow) applyPll s

/-- `COMMIT_PLL` (R206). -/
def execCommitPll (s : State) : Host.Outcome State Fault Refusal := .next (commitPll s)

/-- `SRESET_PLL` (R207). -/
def execSresetPll (s : State) : Host.Outcome State Fault Refusal := .next (resetPll s)

/-! ### Operations -/

/-- The one wrap step of R244: a phase above `PI` or below `-PI` moves by `TWO_PI`. -/
def wrapPhase (p : F32) : F32 :=
  if Fp.lt Fp.pi p then Fp.sub p Fp.twoPi
  else if Fp.lt p (Fp.neg Fp.pi) then Fp.add p Fp.twoPi
  else p

/-- `PLL_ADVANCE(e)` on the loop state (R244): the frequency first, then the phase with the new frequency. -/
def pllAdvanced (c : PllCfg) (k : PllDerived) (d : PllData) (e : F32) : PllData :=
  let e := Fp.clip1 e
  let f := Fp.clamp (Fp.add d.freq (Fp.mul k.beta e)) (Fp.neg c.freqMax) c.freqMax
  ⟨wrapPhase (Fp.add (Fp.add d.phase f) (Fp.mul k.alpha e)), f⟩

/-- `PLL_ADVANCE(e)` (R244). -/
def pllTake (e : F32) (s : State) : State :=
  { s with pll.data := pllAdvanced s.pll.cfg s.pll.derived s.pll.data e }

/-- `PLL_ADVANCE` issued alone: it happens when its caller's condition on `PLL` holds, `CFG_VALID` of `PLL` (R84,
R240; log 4), and waits otherwise. -/
def execPllAdvance (e : F32) (s : State) : Host.Outcome State Fault Refusal :=
  if s.pll.status.cfgValid then .next (pllTake e s) else .next s

/-- The sample derotated by the phase, `y = x * exp(-j * phase)`, component by component (R245). -/
def derotated (phase : F32) (x : Cplx) : Cplx :=
  let c := Fp.cos phase
  let t := Fp.sin phase
  ⟨Fp.add (Fp.mul x.re c) (Fp.mul x.im t), Fp.sub (Fp.mul x.im c) (Fp.mul x.re t)⟩

/-- The phase error of a derotated sample: the sign decision of BPSK, the quadrant decision of QPSK (R245). -/
def costasError (order : Word) (y : Cplx) : F32 :=
  if order = 2 then Fp.mul (Fp.dec y.re) y.im
  else Fp.sub (Fp.mul (Fp.dec y.re) y.im) (Fp.mul (Fp.dec y.im) y.re)

/-- `COSTAS_STEP(x)` on the loop state and the output queue (R245). -/
def costasTake (x : Cplx) (s : State) : State :=
  let y := derotated s.pll.data.phase x
  let t := pllTake (costasError s.costas.cfg.order y) s
  { t with qCar := push t.qCar (Fp.fin0c y) }

/-- The data step of `COSTAS` is enabled but for its input; it needs `CFG_VALID` of `PLL` too (R84). -/
def costasReady (s : State) : Bool :=
  s.costas.status.cfgValid && s.pll.status.cfgValid && hasRoom s.qCar 1

/-- `COSTAS_STEP`: pops one sample, pushes one and advances the loop (R214, R245). Where R84 does not enable it, it
waits. -/
def execCostasStep (s : State) : Host.Outcome State Fault Refusal :=
  match s.qAgc.items with
  | [] => .next s
  | x :: _ => if costasReady s then .next (costasTake x { s with qAgc := popped s.qAgc }) else .next s

end Sys2Proof.Machine
end

