-- ==== Sys2Proof/Machine/Deframer.lean ====
section
/-! DEFINITION. The `DEFRAMER` unit (47_deframer.md). -/

namespace Sys2Proof.Machine

/-! ### Configuration -/

/-- `mask(m)` of R5 on a 64-bit window. -/
def mask (m : Nat) : BitVec 64 := BitVec.allOnes 64 >>> (64 - m)

/-- The marker length `M` and the frame length in bits, `8F` (R290). -/
def markerBits (c : DeframerCfg) : Nat := c.asmLen.toNat
def frameBits (c : DeframerCfg) : Nat := 8 * c.frameLen.toNat

/-- `VALIDATE_DEFRAMER` (R290). -/
def validateDeframer (c : DeframerCfg) : BitVec 8 :=
  firstFailing
    [(decide (c.asmLen.toNat < 1) || decide (Config.asmMax < c.asmLen.toNat), 0x91),
     (decide (c.frameLen.toNat < 1) || decide (Config.frameMax < c.frameLen.toNat), 0x92),
     (decide (8 * c.frameLen.toNat < c.asmLen.toNat), 0x93),
     (decide (c.asmLen.toNat ≤ c.bitErrTol.toNat), 0x94),
     (decide (255 < c.missTol.toNat), 0x95)]

/-- `DERIVE_DEFRAMER`: the low `M` bits of `{ASM_HI, ASM_LO}` (R290). -/
def deriveDeframer (c : DeframerCfg) : BitVec 64 := (c.asmHi ++ c.asmLo) &&& mask (markerBits c)

/-- `SRESET` of `DEFRAMER` (R207). -/
def resetDeframer (s : State) : State := { s with deframer.data := DeframerData.reset }

/-- The active and derived values of `DEFRAMER` taken from its shadow values, and its datapath reset (R206). -/
def applyDeframer (s : State) : State :=
  resetDeframer { s with deframer.cfg := s.deframer.shadow, deframer.asm := deriveDeframer s.deframer.shadow }

/-- `COMMIT` of `DEFRAMER` (R206). -/
def commitDeframer (s : State) : State :=
  commitWith .deframer (validateDeframer s.deframer.shadow) applyDeframer s

/-- `COMMIT_DEFRAMER` (R206). -/
def execCommitDeframer (s : State) : Host.Outcome State Fault Refusal := .next (commitDeframer s)

/-- `SRESET_DEFRAMER` (R207). -/
def execSresetDeframer (s : State) : Host.Outcome State Fault Refusal := .next (resetDeframer s)

/-! ### Marker correlation -/

/-- `popcount(v)` of R5. -/
def popcount (v : BitVec 64) : Nat := ((List.range 64).map fun i => bitNat (v.getLsbD i)).sum

/-- `DIST(w, p)` of R291: the Hamming distance of the window, inverted for polarity 1, to the marker. -/
def dist (c : DeframerCfg) (asm w : BitVec 64) (p : Bool) : Nat :=
  popcount ((w ^^^ (if p then mask (markerBits c) else 0)) ^^^ asm)

/-- `MATCH(w, p)` of R291. -/
def markerMatches (c : DeframerCfg) (asm w : BitVec 64) (p : Bool) : Bool :=
  decide (dist c asm w p ≤ c.bitErrTol.toNat)

/-- `SEARCH(w)` of R291: the polarity found; the normal polarity wins a tie. -/
def search (c : DeframerCfg) (asm w : BitVec 64) : Option Bool :=
  if markerMatches c asm w false then some false
  else if c.invEn && markerMatches c asm w true then some true
  else none

/-! ### DEFRAME_BIT -/

/-- The byte `j` of `buf`: its bit `7 - i` is `buf[8j + i]` (R89, R292). -/
def bufByte (buf : BitVec Config.bufBits) (j : Nat) : Byte :=
  BitVec.ofNat 8 (((List.range 8).map fun i => bitNat (buf.getLsbD (8 * j + i)) * 2 ^ (7 - i)).sum)

/-- The frame `EMIT` pushes (R292). -/
def emitted (c : DeframerCfg) (d : DeframerData) : Frame :=
  ⟨d.state, (List.range c.frameLen.toNat).map (bufByte d.buf)⟩

/-- The end of a `DEFRAME_BIT` in a lock state: a complete frame is emitted and `cnt` is 0 again (R292). -/
def frameEnd (c : DeframerCfg) (d : DeframerData) : DeframerData × List Frame :=
  if d.cnt = frameBits c then ({ d with cnt := 0 }, [emitted c d]) else (d, [])

/-- The window and the fill count after a bit (R292). -/
def windowAfter (c : DeframerCfg) (x : Bool) (d : DeframerData) : DeframerData :=
  { d with
    win := ((d.win <<< 1) ||| BitVec.ofNat 64 (bitNat x)) &&& mask (markerBits c)
    fill := min (d.fill + 1) (markerBits c) }

/-- The marker written at the head of `buf`: `buf[i] <- win[M-1-i] ^ inv` for `i < M` (R292). -/
def markerStored (c : DeframerCfg) (inv : Bool) (win : BitVec 64) (buf : BitVec Config.bufBits) :
    BitVec Config.bufBits :=
  (List.range (markerBits c)).foldl
    (fun b i => setBit b i (xor (win.getLsbD (markerBits c - 1 - i)) inv)) buf

/-- The search in `NOSYNC` with the window already shifted (R292). -/
def searchStep (c : DeframerCfg) (asm : BitVec 64) (d : DeframerData) : DeframerData × List Frame :=
  if d.fill < markerBits c then (d, [])
  else
    match search c asm d.win with
    | none => (d, [])
    | some p =>
      frameEnd c { d with
        inv := p, state := .syncing, miss := 0
        buf := markerStored c p d.win d.buf
        cnt := markerBits c }

/-- The marker check at `cnt = M` of a lock state (R292, R294, R296): none when the lock is lost. -/
def markerCheck (c : DeframerCfg) (asm : BitVec 64) (d : DeframerData) : Option DeframerData :=
  if markerMatches c asm d.win d.inv then some { d with state := .synced, miss := 0 }
  else if c.missTol.toNat < d.miss + 1 then none
  else
    some { d with
      miss := d.miss + 1
      state := if d.state = .synced ∨ d.state = .syncedMissed then .syncedMissed else d.state }

/-- A bit in a lock state with the window already shifted (R292). -/
def lockStep (c : DeframerCfg) (asm : BitVec 64) (x : Bool) (d : DeframerData) : DeframerData × List Frame :=
  let d1 := { d with buf := setBit d.buf d.cnt (xor x d.inv), cnt := d.cnt + 1 }
  if d1.cnt = markerBits c then
    match markerCheck c asm d1 with
    | none => ({ d1 with state := .nosync, cnt := 0, miss := 0, inv := false }, [])
    | some d2 => frameEnd c d2
  else frameEnd c d1

/-- `DEFRAME_BIT(x)` on the unit's datapath: the state after it and the frame emitted, if any (R292). -/
def deframedBit (c : DeframerCfg) (asm : BitVec 64) (x : Bool) (d : DeframerData) : DeframerData × List Frame :=
  let d1 := windowAfter c x d
  if d1.state = .nosync then searchStep c asm d1 else lockStep c asm x d1

/-- `DEFRAME_BIT` on each of a list of bits, and the frames emitted, in order. -/
def deframedBits (c : DeframerCfg) (asm : BitVec 64) : List Bool → DeframerData → DeframerData × List Frame
  | [], d => (d, [])
  | x :: xs, d =>
    let r := deframedBit c asm x d
    let t := deframedBits c asm xs r.1
    (t.1, r.2 ++ t.2)

/-- The bits of a byte as `DEFRAME_BYTE` takes them, bit 7 first (R89, R293). -/
def byteBits (y : Byte) : List Bool := [7, 6, 5, 4, 3, 2, 1, 0].map fun i => y.getLsbD i

/-- `DEFRAME_BIT` on each of a list of bits, and the frames pushed (R292, R293). -/
def deframeTake (bits : List Bool) (s : State) : State :=
  let r := deframedBits s.deframer.cfg s.deframer.asm bits s.deframer.data
  { s with deframer.data := r.1, qFrame := pushAll s.qFrame r.2 }

/-- The data step of `DEFRAMER` is enabled but for its input (R84). -/
def deframeReady (s : State) : Bool := s.deframer.status.cfgValid && hasRoom s.qFrame 1

/-- `DEFRAME_BYTE`: pops one byte and runs `DEFRAME_BIT` on its bits, bit 7 first (R214, R293). Where R84 does not
enable it, it waits. -/
def execDeframeByte (s : State) : Host.Outcome State Fault Refusal :=
  match s.qByte.items with
  | [] => .next s
  | y :: _ =>
    if deframeReady s then .next (deframeTake (byteBits y) { s with qByte := popped s.qByte }) else .next s

/-- `DEFRAME_BIT` issued alone: it happens under its caller's conditions on the unit, `CFG_VALID` and room for a
frame (R84, R292; log 4), and waits otherwise. -/
def execDeframeBit (x : Bool) (s : State) : Host.Outcome State Fault Refusal :=
  if deframeReady s then .next (deframeTake [x] s) else .next s

end Sys2Proof.Machine
end

