-- ==== Sys2Proof/Machine/Snr.lean ====
section
/-! DEFINITION. The `SNR` unit (45_snr.md). -/

namespace Sys2Proof.Machine

/-- `VALIDATE_SNR` (R271). -/
def validateSnr (c : SnrCfg) : BitVec 8 :=
  firstFailing
    [(!(Fp.finite c.alpha && Fp.lt Fp.zero c.alpha && Fp.le c.alpha Fp.one), 0x61),
     (!(Fp.finite c.cap && Fp.le Fp.zero c.cap), 0x62)]

/-- `DERIVE_SNR`: `ONE_M_ALPHA = 1.0 - ALPHA` (R271). -/
def deriveSnr (c : SnrCfg) : F32 := Fp.sub Fp.one c.alpha

/-- `SRESET` of `SNR` (R207). -/
def resetSnr (s : State) : State := { s with snr.data := SnrData.reset }

/-- The active and derived values of `SNR` taken from its shadow values, and its datapath reset (R206). -/
def applySnr (s : State) : State :=
  resetSnr { s with snr.cfg := s.snr.shadow, snr.oneMAlpha := deriveSnr s.snr.shadow }

/-- `COMMIT` of `SNR` (R206). -/
def commitSnr (s : State) : State := commitWith .snr (validateSnr s.snr.shadow) applySnr s

/-- `COMMIT_SNR` (R206). -/
def execCommitSnr (s : State) : Host.Outcome State Fault Refusal := .next (commitSnr s)

/-- `SRESET_SNR` (R207). -/
def execSresetSnr (s : State) : Host.Outcome State Fault Refusal := .next (resetSnr s)

/-- `SNR_CALC(y1, y2)` with the cap `SNR_CAP` (R273). -/
def snrCalc (cap y1 y2 : F32) : F32 :=
  let d := Fp.sub (Fp.mul (Fp.mul Fp.two y1) y1) y2
  let sig := if Fp.lt Fp.zero d then Fp.sqrt d else Fp.zero
  let noise0 := Fp.sub y1 sig
  let noise := if Fp.lt Fp.zero noise0 then noise0 else Fp.zero
  if !Fp.lt Fp.zero sig then Fp.zero
  else if Fp.eq noise Fp.zero then cap
  else
    let q := Fp.div sig noise
    if !Fp.finite q then cap
    else
      let r := Fp.mul Fp.ten (Fp.log10 q)
      if Fp.isNaN r then Fp.zero else Fp.max Fp.zero (Fp.min r cap)

/-- One moving average after a moment `m`; a NaN or infinite one becomes `+0.0` (R272). -/
def snrAverage (c : SnrCfg) (oneMAlpha y m : F32) : F32 :=
  Fp.fin0 (Fp.add (Fp.mul oneMAlpha y) (Fp.mul c.alpha m))

/-- The squared magnitude `m2` of the symbol (R272). The operand of R272 is finite; for another symbol the rule states no
value, and this one value is free (log 17, DESIGN CHOICE). -/
def snrPower (x : Cplx) : F32 := if Fp.finiteC x then Fp.mag2 x else Config.snrPowerOpen x

/-- `SNR_UPDATE(s)` on the estimator's state (R272). -/
def snrUpdated (c : SnrCfg) (oneMAlpha : F32) (d : SnrData) (x : Cplx) : SnrData :=
  let m2 := snrPower x
  let y1 := snrAverage c oneMAlpha d.y1 m2
  let y2 := snrAverage c oneMAlpha d.y2 (Fp.mul m2 m2)
  let snr := snrCalc c.cap y1 y2
  ⟨y1, y2, snr, Fp.max d.peak snr⟩

/-- `SNR_UPDATE(s)` (R272). -/
def snrTake (x : Cplx) (s : State) : State :=
  { s with snr.data := snrUpdated s.snr.cfg s.snr.oneMAlpha s.snr.data x }

/-- `SNR_UPDATE` issued alone: it happens under its caller's condition, `CFG_VALID` of `SNR` (R262, R270; log 4), and
waits otherwise. -/
def execSnrUpdate (x : Cplx) (s : State) : Host.Outcome State Fault Refusal :=
  if s.snr.status.cfgValid then .next (snrTake x s) else .next s

end Sys2Proof.Machine
end

