-- ==== Sys2Proof/Machine/Mm.lean ====
section
/-! DEFINITION. The `MM` unit (44_clock_recovery.md). -/

namespace Sys2Proof.Machine

/-- `OMEGA * REL_LIMIT`, and `OMEGA` less and more it: `lim` and `omin` of VALIDATE_MM, and DERIVE_MM (R261). -/
def deriveMm (c : MmCfg) : MmDerived :=
  let lim := Fp.mul c.omega c.relLimit
  ⟨lim, Fp.sub c.omega lim, Fp.add c.omega lim⟩

/-- `VALIDATE_MM` (R261). -/
def validateMm (c : MmCfg) : BitVec 8 :=
  firstFailing
    [(c.mode != 0 && c.mode != 1, 0x51),
     (!(Fp.finite c.omega && Fp.le Fp.one c.omega && Fp.le c.omega Fp.omegaMost), 0x52),
     (!(Fp.finite c.gainOmega && Fp.le Fp.zero c.gainOmega && Fp.le c.gainOmega Fp.one), 0x53),
     (!(Fp.finite c.gainMu && Fp.le Fp.zero c.gainMu && Fp.le c.gainMu Fp.one), 0x54),
     (!(Fp.finite c.relLimit && Fp.le Fp.zero c.relLimit && Fp.lt c.relLimit Fp.one), 0x55),
     (!(Fp.finite c.muInit && Fp.le Fp.zero c.muInit && Fp.lt c.muInit Fp.one), 0x56),
     (!Fp.le Fp.one (Fp.sub (deriveMm c).omegaMin c.gainMu), 0x57)]

/-- `SRESET` of `MM`: `mu` and `omega` from the active configuration, the rest zero (R207). -/
def resetMm (s : State) : State := { s with mm.data := MmData.resetFrom s.mm.cfg }

/-- The active and derived values of `MM` taken from its shadow values, and its datapath reset from the new ones
(R206). -/
def applyMm (s : State) : State :=
  resetMm { s with mm.cfg := s.mm.shadow, mm.derived := deriveMm s.mm.shadow }

/-- `COMMIT` of `MM` (R206). -/
def commitMm (s : State) : State := commitWith .mm (validateMm s.mm.shadow) applyMm s

/-- `COMMIT_MM` (R206). -/
def execCommitMm (s : State) : Host.Outcome State Fault Refusal := .next (commitMm s)

/-- `SRESET_MM` (R207). -/
def execSresetMm (s : State) : Host.Outcome State Fault Refusal := .next (resetMm s)

/-- The input sample taken into the interpolator history: `a <- b`, then `b <- x`, in real mode its I component only
(R262). -/
def mmShifted (c : MmCfg) (d : MmData) (x : Cplx) : MmData :=
  { d with a := d.b, b := if c.mode = 0 then ⟨Fp.fin0 x.re, Fp.zero⟩ else Fp.fin0c x }

/-- One component of the linear interpolation at fraction `mu` between `a` and `b` (R262). -/
def interpolated (mu a b : F32) : F32 := Fp.fin0 (Fp.add a (Fp.mul mu (Fp.sub b a)))

/-- The interpolated sample `p0` (R262). -/
def mmPoint (d : MmData) : Cplx :=
  ⟨interpolated d.mu d.a.re d.b.re, interpolated d.mu d.a.im d.b.im⟩

/-- The hard decisions of both components (R262). -/
def decC (p : Cplx) : Cplx := ⟨Fp.dec p.re, Fp.dec p.im⟩

/-- The real-mode timing error (R262). -/
def mmErrorReal (last p : F32) : F32 := Fp.sub (Fp.mul (Fp.dec last) p) (Fp.mul (Fp.dec p) last)

/-- One half of the complex-mode timing error: `((u - v).re * w.re) + ((u - v).im * w.im)` (R262). -/
def mmErrorTerm (u v w : Cplx) : F32 :=
  Fp.add (Fp.mul (Fp.sub u.re v.re) w.re) (Fp.mul (Fp.sub u.im v.im) w.im)

/-- The complex-mode timing error (R262). -/
def mmErrorComplex (d : MmData) (p0 : Cplx) : F32 :=
  Fp.sub (mmErrorTerm p0 d.p2 d.c1) (mmErrorTerm (decC p0) d.c2 d.p1)

/-- The timing error of a symbol, and the decision history after it (R262). -/
def mmDetected (c : MmCfg) (d : MmData) (p0 : Cplx) : F32 × MmData :=
  if c.mode = 0 then (mmErrorReal d.last p0.re, { d with last := p0.re })
  else (mmErrorComplex d p0, { d with p2 := d.p1, p1 := p0, c2 := d.c1, c1 := decC p0 })

/-- The symbol pushed: in real mode its imaginary part is `+0.0` (R262). -/
def mmSymbol (c : MmCfg) (p0 : Cplx) : Cplx := if c.mode = 0 then ⟨p0.re, Fp.zero⟩ else p0

/-- The update of `mu`, `omega` and `wait` from the error: `mu1` uses the old `omega`, `adv` is its floor (R262). -/
def mmAdvanced (c : MmCfg) (k : MmDerived) (d : MmData) (e : F32) : MmData :=
  let e := Fp.clip1 e
  let mu1 := Fp.add (Fp.add d.mu d.omega) (Fp.mul c.gainMu e)
  let adv := Fp.floorInt mu1
  { d with
    omega := Fp.clamp (Fp.add d.omega (Fp.mul c.gainOmega e)) k.omegaMin k.omegaMax
    mu := Fp.sub mu1 (Fp.ofInt adv)
    wait := (adv - 1).toNat }

/-- `MM_STEP(x)` on the unit's datapath: the state after it and the symbol, if the timing cycle completes (R262). -/
def mmRun (c : MmCfg) (k : MmDerived) (d : MmData) (x : Cplx) : MmData × Option Cplx :=
  let d1 := mmShifted c d x
  if 0 < d1.wait then ({ d1 with wait := d1.wait - 1 }, none)
  else
    let p0 := mmPoint d1
    let r := mmDetected c d1 p0
    (mmAdvanced c k r.2 r.1, some (mmSymbol c p0))

/-- A symbol leaves `MM`: it is pushed, and given to `SNR` when `CFG_VALID` of `SNR` is 1 (R262, R270). -/
def mmEmit (p : Cplx) (s : State) : State :=
  let t := { s with qSym := push s.qSym p }
  if t.snr.status.cfgValid then snrTake p t else t

/-- `MM_STEP(x)` (R262). -/
def mmTake (x : Cplx) (s : State) : State :=
  let r := mmRun s.mm.cfg s.mm.derived s.mm.data x
  let t := { s with mm.data := r.1 }
  match r.2 with
  | none => t
  | some p => mmEmit p t

/-- The data step of `MM` is enabled but for its input; it does not need `SNR` (R84). -/
def mmReady (s : State) : Bool := s.mm.status.cfgValid && hasRoom s.qSym 1

/-- `MM_STEP`: pops one sample and pushes one symbol or none (R214, R262). Where R84 does not enable it, it waits. -/
def execMmStep (s : State) : Host.Outcome State Fault Refusal :=
  match s.qMf.items with
  | [] => .next s
  | x :: _ => if mmReady s then .next (mmTake x { s with qMf := popped s.qMf }) else .next s

end Sys2Proof.Machine
end

