-- ==== Sys2Proof/Machine/Repacker.lean ====
section
/-! DEFINITION. The `REPACKER` unit (46_slicer_repacker.md R283-R285). -/

namespace Sys2Proof.Machine

/-- `SRESET` of `REPACKER` (R207). -/
def resetRepacker (s : State) : State := { s with repacker.data := RepackerData.reset }

/-- The active value of `REPACKER` taken from its shadow value, and its datapath reset (R206). -/
def applyRepacker (s : State) : State := resetRepacker { s with repacker.cfg := s.repacker.shadow }

/-- `COMMIT` of `REPACKER`: no check can fail and nothing is derived (R206, R283). -/
def commitRepacker (s : State) : State := commitWith .repacker 0 applyRepacker s

/-- `COMMIT_REPACKER` (R206). -/
def execCommitRepacker (s : State) : Host.Outcome State Fault Refusal := .next (commitRepacker s)

/-- `SRESET_REPACKER` (R207). -/
def execSresetRepacker (s : State) : Host.Outcome State Fault Refusal := .next (resetRepacker s)

/-- The partial byte after one bit, before the test for a full byte (R283). -/
def accAfter (c : RepackerCfg) (d : RepackerData) (b : Bool) : Byte :=
  if c.lsbFirst then d.acc ||| (BitVec.ofNat 8 (bitNat b) <<< d.n)
  else (d.acc <<< 1) ||| BitVec.ofNat 8 (bitNat b)

/-- `REPACK_BIT(b)` on the partial byte: the state after it and the byte, if it is complete (R283). -/
def repacked (c : RepackerCfg) (d : RepackerData) (b : Bool) : RepackerData × List Byte :=
  if d.n + 1 = 8 then (⟨0, 0⟩, [accAfter c d b]) else (⟨accAfter c d b, d.n + 1⟩, [])

/-- `REPACK_BIT(b)` (R283). -/
def repackTake (b : Bool) (s : State) : State :=
  let r := repacked s.repacker.cfg s.repacker.data b
  { s with repacker.data := r.1, qByte := pushAll s.qByte r.2 }

/-- The data step of `REPACKER` is enabled but for its input, even when it pushes nothing (R84, R283). -/
def repackReady (s : State) : Bool := s.repacker.status.cfgValid && hasRoom s.qByte 1

/-- `REPACK_BIT`: pops one bit and pushes the byte it completes, if any (R214, R283). Where R84 does not enable it, it
waits. -/
def execRepackBit (s : State) : Host.Outcome State Fault Refusal :=
  match s.qBit.items with
  | [] => .next s
  | b :: _ => if repackReady s then .next (repackTake b { s with qBit := popped s.qBit }) else .next s

end Sys2Proof.Machine
end

