-- ==== Sys2Proof/Machine/Rrc.lean ====
section
/-! DEFINITION. The `RRC` unit (43_rrc.md). -/

namespace Sys2Proof.Machine

/-- `VALIDATE_RRC` (R251). -/
def validateRrc (c : RrcCfg) : BitVec 8 :=
  firstFailing
    [(decide (c.ntaps.toNat < 1) || decide (Config.maxTaps < c.ntaps.toNat) || c.ntaps.toNat % 2 == 0, 0x41),
     (decide (c.interp.toNat < 1) || decide (Config.maxInterp < c.interp.toNat), 0x42),
     (!(c.taps.toList.take c.ntaps.toNat).all Fp.finite, 0x43)]

/-- `SRESET` of `RRC`: every entry of the delay line is zero (R207). -/
def resetRrc (s : State) : State := { s with rrc.data := RrcData.reset }

/-- The active values of `RRC`, every tap among them, taken from its shadow values, and its datapath reset (R206,
R251). Nothing is derived. -/
def applyRrc (s : State) : State := resetRrc { s with rrc.cfg := s.rrc.shadow }

/-- `COMMIT` of `RRC` (R206). -/
def commitRrc (s : State) : State := commitWith .rrc (validateRrc s.rrc.shadow) applyRrc s

/-- `COMMIT_RRC` (R206). -/
def execCommitRrc (s : State) : Host.Outcome State Fault Refusal := .next (commitRrc s)

/-- `SRESET_RRC` (R207). -/
def execSresetRrc (s : State) : Host.Outcome State Fault Refusal := .next (resetRrc s)

/-- The number of taps as the loops of R252 use it. A legal `NTAPS` is 1 to `P_MAX_TAPS`, where this is the value
itself (R251). -/
def tapCount (c : RrcCfg) : Nat := max 1 (min c.ntaps.toNat Config.maxTaps)

/-- The delay line as a list after `u` is inserted: the first `n` entries shift, the rest stay (R252). -/
def shiftedLine (n : Nat) (u : Cplx) (d : List Cplx) : List Cplx := (u :: d.take (n - 1)) ++ d.drop n

/-- The delay line after `u` is inserted among its first `n` entries (R252). -/
def inserted (n : Nat) (u : Cplx) (d : Vector Cplx Config.maxTaps) : Vector Cplx Config.maxTaps :=
  Vector.ofFn fun i => (shiftedLine n u d.toList).getD i.val Cplx.zero

/-- One term of the accumulation of R252. -/
def firAdd (acc : Cplx) (t : F32 × Cplx) : Cplx :=
  ⟨Fp.add acc.re (Fp.mul t.1 t.2.re), Fp.add acc.im (Fp.mul t.1 t.2.im)⟩

/-- The accumulation of R252 over the pairs `(h[k], d[k])`, in increasing `k`, one rounding per operation. -/
def firSum : List (F32 × Cplx) → Cplx
  | [] => Cplx.zero
  | (h, d) :: more => more.foldl firAdd ⟨Fp.mul h d.re, Fp.mul h d.im⟩

/-- The output sample for a delay line (R252). -/
def firOut (n : Nat) (taps : Vector F32 Config.maxTaps) (d : Vector Cplx Config.maxTaps) : Cplx :=
  Fp.fin0c (firSum ((taps.toList.zip d.toList).take n))

/-- Values inserted one after another: the delay line after them and the output after each (R252). -/
def firRun (n : Nat) (taps : Vector F32 Config.maxTaps) :
    List Cplx → Vector Cplx Config.maxTaps → Vector Cplx Config.maxTaps × List Cplx
  | [], d => (d, [])
  | u :: us, d =>
    let d' := inserted n u d
    let r := firRun n taps us d'
    (r.1, firOut n taps d' :: r.2)

/-- The values a sample inserts: itself and `L - 1` zeros (R252). -/
def stuffed (l : Nat) (x : Cplx) : List Cplx := (Fp.fin0c x :: List.replicate (l - 1) Cplx.zero).take l

/-- `RRC_STEP(x)` on the delay line and the output queue (R252). -/
def rrcTake (x : Cplx) (s : State) : State :=
  let r := firRun (tapCount s.rrc.cfg) s.rrc.cfg.taps (stuffed s.rrc.cfg.interp.toNat x) s.rrc.data.d
  { s with rrc.data.d := r.1, qMf := pushAll s.qMf r.2 }

/-- The data step of `RRC` is enabled but for its input; `Q_MF` must take `INTERP` items (R84). -/
def rrcReady (s : State) : Bool := s.rrc.status.cfgValid && hasRoom s.qMf s.rrc.cfg.interp.toNat

/-- `RRC_STEP`: pops one sample and pushes `INTERP` (R214, R252). Where R84 does not enable it, it waits. -/
def execRrcStep (s : State) : Host.Outcome State Fault Refusal :=
  match s.qCar.items with
  | [] => .next s
  | x :: _ => if rrcReady s then .next (rrcTake x { s with qCar := popped s.qCar }) else .next s

end Sys2Proof.Machine
end

