-- ==== Sys2Proof/Machine/Slicer.lean ====
section
/-! DEFINITION. The `SLICER` unit (46_slicer_repacker.md R280-R282). -/

namespace Sys2Proof.Machine

/-- `VALIDATE_SLICER` (R280). -/
def validateSlicer (c : SlicerCfg) : BitVec 8 :=
  firstFailing [(!(Fp.finite c.softScale && Fp.lt Fp.zero c.softScale), 0x71)]

/-- `SRESET` of `SLICER`: nothing (R207). -/
def resetSlicer (s : State) : State := s

/-- The active values of `SLICER` taken from its shadow values; nothing is derived (R206, R280). -/
def applySlicer (s : State) : State := { s with slicer.cfg := s.slicer.shadow }

/-- `COMMIT` of `SLICER` (R206). -/
def commitSlicer (s : State) : State := commitWith .slicer (validateSlicer s.slicer.shadow) applySlicer s

/-- `COMMIT_SLICER` (R206). -/
def execCommitSlicer (s : State) : Host.Outcome State Fault Refusal := .next (commitSlicer s)

/-- `SRESET_SLICER` (R207). -/
def execSresetSlicer (s : State) : Host.Outcome State Fault Refusal := .next (resetSlicer s)

/-- `SOFTQ(v)` as an integer (R282). -/
def softInt (scale v : F32) : Int :=
  let t := Fp.mul v scale
  if Fp.isNaN t then 0
  else if Fp.isInf t then (if Fp.sign t then -127 else 127)
  else
    let r := Fp.roundTiesEven t
    if 127 < r then 127 else if r < -127 then -127 else r

/-- `SOFTQ(v)`: the 8-bit soft value (R106, R282). -/
def softq (scale v : F32) : BitVec 8 := BitVec.ofInt 8 (softInt scale v)

/-- The components of a symbol that are sliced: `re`, and in complex mode `im` after it (R281). -/
def slicedParts (c : SlicerCfg) (x : Cplx) : List F32 := if c.cplx then [x.re, x.im] else [x.re]

/-- `SLICE(s)` on the output queues (R281). -/
def sliceTake (x : Cplx) (s : State) : State :=
  { s with
    qBit := pushAll s.qBit ((slicedParts s.slicer.cfg x).map Fp.bit)
    qSoft := if s.slicer.cfg.softEn then
        pushAll s.qSoft ((slicedParts s.slicer.cfg x).map (softq s.slicer.cfg.softScale))
      else s.qSoft }

/-- `maxpush(Q_BIT)` (R84). -/
def maxBits (c : SlicerCfg) : Nat := if c.cplx then 2 else 1

/-- `maxpush(Q_SOFT)` (R84). -/
def maxSofts (c : SlicerCfg) : Nat := if c.softEn then maxBits c else 0

/-- The data step of `SLICER` is enabled but for its input (R84). -/
def sliceReady (s : State) : Bool :=
  s.slicer.status.cfgValid && hasRoom s.qBit (maxBits s.slicer.cfg) && hasRoom s.qSoft (maxSofts s.slicer.cfg)

/-- `SLICE`: pops one symbol, pushes its bits and its soft values (R214, R281). Where R84 does not enable it, it
waits. -/
def execSlice (s : State) : Host.Outcome State Fault Refusal :=
  match s.qSym.items with
  | [] => .next s
  | x :: _ => if sliceReady s then .next (sliceTake x { s with qSym := popped s.qSym }) else .next s

end Sys2Proof.Machine
end

