-- ==== Sys2Proof/Machine/Streams.lean ====
section
/-! DEFINITION. The end-of-stream cascade, `EOS_PROPAGATE` (40_control.md R212), and which step an agent has enabled
(20_memory.md R84, 40_control.md R214). -/

namespace Sys2Proof.Machine

/-! Each `EOS_PROPAGATE` is enabled when the unit's input is closed and empty and some output is open. It does not need
`CFG_VALID` and flushes nothing (R212, R510). -/

def agcEosReady (s : State) : Bool := ended s.qSrc && !s.qAgc.closed
def costasEosReady (s : State) : Bool := ended s.qAgc && !s.qCar.closed
def rrcEosReady (s : State) : Bool := ended s.qCar && !s.qMf.closed
def mmEosReady (s : State) : Bool := ended s.qMf && !s.qSym.closed
def slicerEosReady (s : State) : Bool := ended s.qSym && (!s.qBit.closed || !s.qSoft.closed)
def repackerEosReady (s : State) : Bool := ended s.qBit && !s.qByte.closed
def deframerEosReady (s : State) : Bool := ended s.qByte && !s.qFrame.closed

/-- `EOS_PROPAGATE_AGC` (R212). -/
def execEosPropagateAgc (s : State) : Host.Outcome State Fault Refusal :=
  if agcEosReady s then .next { s with qAgc := close s.qAgc } else .next s

/-- `EOS_PROPAGATE_COSTAS` (R212). -/
def execEosPropagateCostas (s : State) : Host.Outcome State Fault Refusal :=
  if costasEosReady s then .next { s with qCar := close s.qCar } else .next s

/-- `EOS_PROPAGATE_RRC` (R212). -/
def execEosPropagateRrc (s : State) : Host.Outcome State Fault Refusal :=
  if rrcEosReady s then .next { s with qMf := close s.qMf } else .next s

/-- `EOS_PROPAGATE_MM` (R212). -/
def execEosPropagateMm (s : State) : Host.Outcome State Fault Refusal :=
  if mmEosReady s then .next { s with qSym := close s.qSym } else .next s

/-- `EOS_PROPAGATE_SLICER`: it closes `Q_BIT` and `Q_SOFT` (R212). -/
def execEosPropagateSlicer (s : State) : Host.Outcome State Fault Refusal :=
  if slicerEosReady s then .next { s with qBit := close s.qBit, qSoft := close s.qSoft } else .next s

/-- `EOS_PROPAGATE_REPACKER` (R212). -/
def execEosPropagateRepacker (s : State) : Host.Outcome State Fault Refusal :=
  if repackerEosReady s then .next { s with qByte := close s.qByte } else .next s

/-- `EOS_PROPAGATE_DEFRAMER` (R212). -/
def execEosPropagateDeframer (s : State) : Host.Outcome State Fault Refusal :=
  if deframerEosReady s then .next { s with qFrame := close s.qFrame } else .next s

/-- The data step of an agent is enabled: an item in its input queue, and the rest of R84. The host has none. -/
def dataEnabled (a : Agent) (s : State) : Bool :=
  match a with
  | .host => false
  | .agc => !s.qSrc.items.isEmpty && agcReady s
  | .costas => !s.qAgc.items.isEmpty && costasReady s
  | .rrc => !s.qCar.items.isEmpty && rrcReady s
  | .mm => !s.qMf.items.isEmpty && mmReady s
  | .slicer => !s.qSym.items.isEmpty && sliceReady s
  | .repacker => !s.qBit.items.isEmpty && repackReady s
  | .deframer => !s.qByte.items.isEmpty && deframeReady s

/-- The `EOS_PROPAGATE` of an agent is enabled (R212). -/
def eosEnabled (a : Agent) (s : State) : Bool :=
  match a with
  | .host => false
  | .agc => agcEosReady s
  | .costas => costasEosReady s
  | .rrc => rrcEosReady s
  | .mm => mmEosReady s
  | .slicer => slicerEosReady s
  | .repacker => repackerEosReady s
  | .deframer => deframerEosReady s

/-- The data step of an agent (R214). -/
def dataStep (a : Agent) : Option Instr :=
  match a with
  | .host => none
  | .agc => some .agcStep
  | .costas => some .costasStep
  | .rrc => some .rrcStep
  | .mm => some .mmStep
  | .slicer => some .slice
  | .repacker => some .repackBit
  | .deframer => some .deframeByte

/-- The `EOS_PROPAGATE` of an agent (R212). -/
def eosStep (a : Agent) : Option Instr :=
  match a with
  | .host => none
  | .agc => some .eosPropagateAgc
  | .costas => some .eosPropagateCostas
  | .rrc => some .eosPropagateRrc
  | .mm => some .eosPropagateMm
  | .slicer => some .eosPropagateSlicer
  | .repacker => some .eosPropagateRepacker
  | .deframer => some .eosPropagateDeframer

/-- The step a unit's agent has enabled, none when it idles (R84, R212, R413). -/
def agentStep (a : Agent) (s : State) : Option Instr :=
  if dataEnabled a s then dataStep a else if eosEnabled a s then eosStep a else none

end Sys2Proof.Machine
end

