-- ==== Sys2Proof/Machine/Control.lean ====
section
/-! DEFINITION. The global control actions (40_control.md R208-R211) and the two actions of a unit by its number. -/

namespace Sys2Proof.Machine

/-- `COMMIT(u)` (R206). -/
def commitUnit (u : UnitId) (s : State) : State :=
  match u with
  | .agc => commitAgc s
  | .costas => commitCostas s
  | .pll => commitPll s
  | .rrc => commitRrc s
  | .mm => commitMm s
  | .snr => commitSnr s
  | .slicer => commitSlicer s
  | .repacker => commitRepacker s
  | .deframer => commitDeframer s

/-- `VALIDATE_u` of a unit's shadow values: the code of its first failing check, 0 if all pass (R206, R403). -/
def checkCode (u : UnitId) (s : State) : BitVec 8 :=
  match u with
  | .agc => validateAgc s.agc.shadow
  | .costas => validateCostas s.costas.shadow
  | .pll => validatePll s.pll.shadow
  | .rrc => validateRrc s.rrc.shadow
  | .mm => validateMm s.mm.shadow
  | .snr => validateSnr s.snr.shadow
  | .slicer => validateSlicer s.slicer.shadow
  | .repacker => 0
  | .deframer => validateDeframer s.deframer.shadow

/-- `SRESET(u)` (R207). -/
def resetUnit (u : UnitId) (s : State) : State :=
  match u with
  | .agc => resetAgc s
  | .costas => resetCostas s
  | .pll => resetPll s
  | .rrc => resetRrc s
  | .mm => resetMm s
  | .snr => resetSnr s
  | .slicer => resetSlicer s
  | .repacker => resetRepacker s
  | .deframer => resetDeframer s

/-- `COMMIT_ALL`: `COMMIT(u)` for the units 1 to 9 in order (R208). -/
def commitEvery (s : State) : State := UnitId.all.foldl (fun t u => commitUnit u t) s

/-- `SRESET_ALL`: every queue empty and open, `ABORTED <- 0`, then `SRESET(u)` for the units 1 to 9 (R209). -/
def newSession (s : State) : State :=
  UnitId.all.foldl (fun t u => resetUnit u t) { emptyAll false s with aborted := false }

/-- `STOP`: `Close(Q_SRC)` (R210). -/
def stopInput (s : State) : State := { s with qSrc := close s.qSrc }

/-- `ABORT`: every queue empty and closed, `ABORTED <- 1` (R211). -/
def abortAll (s : State) : State := { emptyAll true s with aborted := true }

/-- `COMMIT_ALL` (R208). -/
def execCommitAll (s : State) : Host.Outcome State Fault Refusal := .next (commitEvery s)

/-- `SRESET_ALL` (R209). -/
def execSresetAll (s : State) : Host.Outcome State Fault Refusal := .next (newSession s)

/-- `STOP` (R210). -/
def execStop (s : State) : Host.Outcome State Fault Refusal := .next (stopInput s)

/-- `ABORT` (R211). -/
def execAbort (s : State) : Host.Outcome State Fault Refusal := .next (abortAll s)

end Sys2Proof.Machine
end

