-- ==== Sys2Proof/Machine/HostOps.lean ====
section
/-! DEFINITION. The host's five transactions (40_control.md R200-R205). -/

namespace Sys2Proof.Machine

/-- `REG_READ(addr)` (R201). -/
def execRegRead (addr : Half) (s : State) : Host.Outcome State Fault Refusal :=
  match accessed addr with
  | none => .next (raiseBusError s)
  | some r => .next (respond (.okData (regShows r s)) s)

/-- The actions of a write of `v` to the `CTRL` of a unit: `COMMIT` for bit 0, else `SRESET` for bit 1 (R202). -/
def ctrlActions (u : UnitId) (v : Word) (s : State) : State :=
  if v.getLsbD 0 then commitUnit u s else if v.getLsbD 1 then resetUnit u s else s

/-- An action done or not, by a bit of a written value. -/
def actionIf (b : Bool) (act : State → State) (s : State) : State := if b then act s else s

/-- The actions of a write of `v` to `G_CTRL`, in the order `ABORT`, `SRESET_ALL`, `COMMIT_ALL`, `STOP` (R202, R403). -/
def gCtrlActions (v : Word) (s : State) : State :=
  actionIf (v.getLsbD 2) stopInput
    (actionIf (v.getLsbD 0) commitEvery
      (actionIf (v.getLsbD 1) newSession
        (actionIf (v.getLsbD 3) abortAll s)))

/-- What a write does to a register of class `RW` or `WC` (R202). -/
def writeReg (r : Reg) (v : Word) (s : State) : State :=
  match r with
  | .gCtrl => gCtrlActions v s
  | .ctrl u => ctrlActions u v s
  | _ => writeShadow r v s

/-- `REG_WRITE(addr, data)` (R202): refused for a misaligned or unmapped address and for an `RO` register. -/
def execRegWrite (addr : Half) (data : Word) (s : State) : Host.Outcome State Fault Refusal :=
  match accessed addr with
  | none => .next (raiseBusError s)
  | some r => if regClass r = .ro then .next (raiseBusError s) else .next (respond .ok (writeReg r data s))

/-- `SRC_PUSH(x)` (R203): `ERR` when `Q_SRC` is closed; held while it is full. -/
def execSrcPush (x : Cplx) (s : State) : Host.Outcome State Fault Refusal :=
  if s.qSrc.closed then .next (raiseBusError s)
  else if s.qSrc.items.length < Config.fifoDepth then .next (respond .ok { s with qSrc := push s.qSrc x })
  else .next s

/-- `FRAME_POP()` (R204): the oldest frame, or `EOS` at end of stream; held while `Q_FRAME` is empty and open. -/
def execFramePop (s : State) : Host.Outcome State Fault Refusal :=
  match s.qFrame.items with
  | f :: _ => .next (respond (.frame f) { s with qFrame := popped s.qFrame })
  | [] => if s.qFrame.closed then .next (respond .eos s) else .next s

/-- `SOFT_POP()` (R205): as `FRAME_POP` with `Q_SOFT`. -/
def execSoftPop (s : State) : Host.Outcome State Fault Refusal :=
  match s.qSoft.items with
  | v :: _ => .next (respond (.soft v) { s with qSoft := popped s.qSoft })
  | [] => if s.qSoft.closed then .next (respond .eos s) else .next s

/-- A host transaction is held: it is not enabled and the host waits (R88, R203-R205). -/
def held (i : Instr) (s : State) : Bool :=
  match i with
  | .srcPush _ => !s.qSrc.closed && decide (Config.fifoDepth ≤ s.qSrc.items.length)
  | .framePop => !s.qFrame.closed && s.qFrame.items.isEmpty
  | .softPop => !s.qSoft.closed && s.qSoft.items.isEmpty
  | _ => false

end Sys2Proof.Machine
end

