-- ==== Sys2Proof/Machine/Dispatch.lean ====
section
/-! DEFINITION. The meaning of every operation, one arm per constructor of `Instr`. -/

namespace Sys2Proof.Machine

def exec (i : Instr) (s : State) : Host.Outcome State Fault Refusal :=
  match i with
  | .regRead addr => Sys2Proof.Machine.execRegRead addr s
  | .regWrite addr data => Sys2Proof.Machine.execRegWrite addr data s
  | .srcPush x => Sys2Proof.Machine.execSrcPush x s
  | .framePop => Sys2Proof.Machine.execFramePop s
  | .softPop => Sys2Proof.Machine.execSoftPop s
  | .commitAll => Sys2Proof.Machine.execCommitAll s
  | .sresetAll => Sys2Proof.Machine.execSresetAll s
  | .stop => Sys2Proof.Machine.execStop s
  | .abort => Sys2Proof.Machine.execAbort s
  | .agcStep => Sys2Proof.Machine.execAgcStep s
  | .costasStep => Sys2Proof.Machine.execCostasStep s
  | .pllAdvance e => Sys2Proof.Machine.execPllAdvance e s
  | .rrcStep => Sys2Proof.Machine.execRrcStep s
  | .mmStep => Sys2Proof.Machine.execMmStep s
  | .snrUpdate x => Sys2Proof.Machine.execSnrUpdate x s
  | .slice => Sys2Proof.Machine.execSlice s
  | .repackBit => Sys2Proof.Machine.execRepackBit s
  | .deframeByte => Sys2Proof.Machine.execDeframeByte s
  | .deframeBit x => Sys2Proof.Machine.execDeframeBit x s
  | .commitAgc => Sys2Proof.Machine.execCommitAgc s
  | .commitCostas => Sys2Proof.Machine.execCommitCostas s
  | .commitPll => Sys2Proof.Machine.execCommitPll s
  | .commitRrc => Sys2Proof.Machine.execCommitRrc s
  | .commitMm => Sys2Proof.Machine.execCommitMm s
  | .commitSnr => Sys2Proof.Machine.execCommitSnr s
  | .commitSlicer => Sys2Proof.Machine.execCommitSlicer s
  | .commitRepacker => Sys2Proof.Machine.execCommitRepacker s
  | .commitDeframer => Sys2Proof.Machine.execCommitDeframer s
  | .sresetAgc => Sys2Proof.Machine.execSresetAgc s
  | .sresetCostas => Sys2Proof.Machine.execSresetCostas s
  | .sresetPll => Sys2Proof.Machine.execSresetPll s
  | .sresetRrc => Sys2Proof.Machine.execSresetRrc s
  | .sresetMm => Sys2Proof.Machine.execSresetMm s
  | .sresetSnr => Sys2Proof.Machine.execSresetSnr s
  | .sresetSlicer => Sys2Proof.Machine.execSresetSlicer s
  | .sresetRepacker => Sys2Proof.Machine.execSresetRepacker s
  | .sresetDeframer => Sys2Proof.Machine.execSresetDeframer s
  | .eosPropagateAgc => Sys2Proof.Machine.execEosPropagateAgc s
  | .eosPropagateCostas => Sys2Proof.Machine.execEosPropagateCostas s
  | .eosPropagateRrc => Sys2Proof.Machine.execEosPropagateRrc s
  | .eosPropagateMm => Sys2Proof.Machine.execEosPropagateMm s
  | .eosPropagateSlicer => Sys2Proof.Machine.execEosPropagateSlicer s
  | .eosPropagateRepacker => Sys2Proof.Machine.execEosPropagateRepacker s
  | .eosPropagateDeframer => Sys2Proof.Machine.execEosPropagateDeframer s

end Sys2Proof.Machine
end

