-- ==== Sys2Proof/Machine/History.lean ====
section
/-! DEFINITION. The event history: which operations are performed when one is, and their descriptors (30_encoding.md
R100, 42_carrier.md R244; log 19). -/

namespace Sys2Proof.Machine

/-- The operation `COMMIT` of a unit (R206). -/
def commitOf (u : UnitId) : Instr :=
  match u with
  | .agc => .commitAgc
  | .costas => .commitCostas
  | .pll => .commitPll
  | .rrc => .commitRrc
  | .mm => .commitMm
  | .snr => .commitSnr
  | .slicer => .commitSlicer
  | .repacker => .commitRepacker
  | .deframer => .commitDeframer

/-- The operation `SRESET` of a unit (R207). -/
def sresetOf (u : UnitId) : Instr :=
  match u with
  | .agc => .sresetAgc
  | .costas => .sresetCostas
  | .pll => .sresetPll
  | .rrc => .sresetRrc
  | .mm => .sresetMm
  | .snr => .sresetSnr
  | .slicer => .sresetSlicer
  | .repacker => .sresetRepacker
  | .deframer => .sresetDeframer

/-- What `COMMIT(u)` starts: `SRESET(u)` when every check passes (R206). -/
def commitStarts (u : UnitId) (s : State) : List Instr := if checkCode u s = 0 then [sresetOf u] else []

/-- What `COMMIT_ALL` starts: `COMMIT(u)` for the units 1 to 9 in order (R208). -/
def commitAllStarts (s : State) : List Instr := UnitId.all.flatMap fun u => commitOf u :: commitStarts u s

/-- What `SRESET_ALL` starts: `SRESET(u)` for the units 1 to 9 in order (R209). -/
def sresetAllStarts : List Instr := UnitId.all.map sresetOf

/-- What a write of `v` to a register starts: the actions of `CTRL` and, in their order, of `G_CTRL` (R202, R403). -/
def writeStarts (r : Reg) (v : Word) (s : State) : List Instr :=
  match r with
  | .gCtrl =>
    (if v.getLsbD 3 then [.abort] else []) ++
    (if v.getLsbD 1 then .sresetAll :: sresetAllStarts else []) ++
    (if v.getLsbD 0 then .commitAll :: commitAllStarts s else []) ++
    (if v.getLsbD 2 then [.stop] else [])
  | .ctrl u =>
    if v.getLsbD 0 then commitOf u :: commitStarts u s else if v.getLsbD 1 then [sresetOf u] else []
  | _ => []

/-- What a `REG_WRITE` starts; a refused one starts nothing (R403). -/
def regWriteStarts (addr : Half) (v : Word) (s : State) : List Instr :=
  match accessed addr with
  | some r => writeStarts r v s
  | none => []

/-- What `COSTAS_STEP` runs: `PLL_ADVANCE` with the phase error (R244, R245). -/
def costasStarts (s : State) : List Instr :=
  match s.qAgc.items with
  | x :: _ => [.pllAdvance (costasError s.costas.cfg.order (derotated s.pll.data.phase x))]
  | [] => []

/-- What `MM_STEP` runs: `SNR_UPDATE` with the symbol it pushes, when `CFG_VALID` of `SNR` is 1 (R262). -/
def mmStarts (s : State) : List Instr :=
  match s.qMf.items with
  | x :: _ =>
    match (mmRun s.mm.cfg s.mm.derived s.mm.data x).2 with
    | some p => if s.snr.status.cfgValid then [.snrUpdate p] else []
    | none => []
  | [] => []

/-- What `DEFRAME_BYTE` runs: `DEFRAME_BIT` on bits 7 down to 0 (R293). -/
def deframeStarts (s : State) : List Instr :=
  match s.qByte.items with
  | y :: _ => (byteBits y).map .deframeBit
  | [] => []

/-- The operations that `i`, performed in `s`, starts or runs inside itself, in order. -/
def starts (i : Instr) (s : State) : List Instr :=
  match i with
  | .regWrite a v => regWriteStarts a v s
  | .commitAll => commitAllStarts s
  | .sresetAll => sresetAllStarts
  | .costasStep => costasStarts s
  | .mmStep => mmStarts s
  | .deframeByte => deframeStarts s
  | .commitAgc => commitStarts .agc s
  | .commitCostas => commitStarts .costas s
  | .commitPll => commitStarts .pll s
  | .commitRrc => commitStarts .rrc s
  | .commitMm => commitStarts .mm s
  | .commitSnr => commitStarts .snr s
  | .commitSlicer => commitStarts .slicer s
  | .commitRepacker => commitStarts .repacker s
  | .commitDeframer => commitStarts .deframer s
  | .regRead _ | .srcPush _ | .framePop | .softPop | .stop | .abort => []
  | .agcStep | .pllAdvance _ | .rrcStep | .snrUpdate _ | .slice | .repackBit | .deframeBit _ => []
  | .sresetAgc | .sresetCostas | .sresetPll | .sresetRrc | .sresetMm | .sresetSnr => []
  | .sresetSlicer | .sresetRepacker | .sresetDeframer => []
  | .eosPropagateAgc | .eosPropagateCostas | .eosPropagateRrc | .eosPropagateMm => []
  | .eosPropagateSlicer | .eosPropagateRepacker | .eosPropagateDeframer => []

/-- The operation happens: it is neither held nor a step that is not enabled (R84, R88, R212; log 4, log 5). -/
def happens (i : Instr) (s : State) : Bool :=
  match i with
  | .srcPush _ | .framePop | .softPop => !held i s
  | .agcStep => dataEnabled .agc s
  | .costasStep => dataEnabled .costas s
  | .rrcStep => dataEnabled .rrc s
  | .mmStep => dataEnabled .mm s
  | .slice => dataEnabled .slicer s
  | .repackBit => dataEnabled .repacker s
  | .deframeByte => dataEnabled .deframer s
  | .pllAdvance _ => s.pll.status.cfgValid
  | .snrUpdate _ => s.snr.status.cfgValid
  | .deframeBit _ => deframeReady s
  | .eosPropagateAgc => eosEnabled .agc s
  | .eosPropagateCostas => eosEnabled .costas s
  | .eosPropagateRrc => eosEnabled .rrc s
  | .eosPropagateMm => eosEnabled .mm s
  | .eosPropagateSlicer => eosEnabled .slicer s
  | .eosPropagateRepacker => eosEnabled .repacker s
  | .eosPropagateDeframer => eosEnabled .deframer s
  | .regRead _ | .regWrite _ _ | .commitAll | .sresetAll | .stop | .abort => true
  | .commitAgc | .commitCostas | .commitPll | .commitRrc | .commitMm | .commitSnr => true
  | .commitSlicer | .commitRepacker | .commitDeframer => true
  | .sresetAgc | .sresetCostas | .sresetPll | .sresetRrc | .sresetMm | .sresetSnr => true
  | .sresetSlicer | .sresetRepacker | .sresetDeframer => true

/-- The operations performed when `i` is performed in `s`: itself, then those it starts or runs inside itself. -/
def operations (i : Instr) (s : State) : List Instr := if happens i s then i :: starts i s else []

/-- The event history goes on with the descriptors of the operations performed, the last at its head (R100). -/
def record (i : Instr) (s : State) : State :=
  { s with history := ((operations i s).map Instr.descriptor).reverse ++ s.history }

end Sys2Proof.Machine
end

