-- ==== Sys2Proof/Machine/Script.lean ====
section
/-! DEFINITION. Host scripts: the transactions that the lines of 30_encoding.md R111 and the pseudo-instructions of R112
stand for, and how the host takes its next line. Register names stand for their addresses, `regAddr`. -/

namespace Sys2Proof.Machine

/-- The transactions a line stands for (R111, R112). A `drain` is this transaction repeated until it answers `EOS`. -/
def lineOps : Line → List Instr
  | .rd a => [.regRead a]
  | .wr a v => [.regWrite a v]
  | .push r i => [.srcPush ⟨r, i⟩]
  | .popf => [.framePop]
  | .pops => [.softPop]
  | .commit u => [.regWrite (regAddr (.ctrl u)) 1]
  | .sreset u => [.regWrite (regAddr (.ctrl u)) 2]
  | .commitAll => [.regWrite (regAddr .gCtrl) 1]
  | .sresetAll => [.regWrite (regAddr .gCtrl) 2]
  | .stop => [.regWrite (regAddr .gCtrl) 4]
  | .abort => [.regWrite (regAddr .gCtrl) 8]
  | .pushr r => [.srcPush ⟨r, Fp.zero⟩]
  | .pushn n r i => List.replicate n (.srcPush ⟨r, i⟩)
  | .pushbpsk bits amp sps =>
    bits.flatMap fun b => List.replicate sps (.srcPush ⟨if b then amp else Fp.neg amp, Fp.zero⟩)
  | .drain => [.framePop]

/-- The words of transactions. -/
def opWords (ops : List Instr) : List Half := ops.flatMap encode

/-- A line is done once its words are sent. A `drain` is not done while `Q_FRAME` holds a frame: its `FRAME_POP` then
answers that frame and is repeated (R112, R204). -/
def lineDone (l : Line) (s : State) : Bool := l != .drain || s.qFrame.items.isEmpty

/-- The host takes its next line when it has no words left to send (R88, R111; log 13). -/
def takeLine (s : State) : State :=
  match s.script, s.lines with
  | [], l :: more =>
    { s with script := opWords (lineOps l), lines := if lineDone l s then more else l :: more }
  | _, _ => s

end Sys2Proof.Machine
end

