-- ==== Sys2Proof/Machine/Fetch.lean ====
section
/-! DEFINITION. What the next step is: whose turn it is, and the operation that agent has (20_memory.md R86, R88,
60_exceptions.md R410, R411). -/

namespace Sys2Proof.Machine

/-- What a turn comes to. -/
inductive Fetched where
  /-- The operation `i` is performed in the state `s`, whose turn and words are already taken. -/
  | run (i : Instr) (s : State)
  /-- No operation is performed; the state after the turn is `s`. -/
  | pass (s : State)
  /-- An issued entry of the schedule is no operation. -/
  | stop (f : Fault)

/-- Whose turn it is: the schedule's first entry, or the free scheduler's choice (R86, R411; log 1). -/
def nextTurn (s : State) : Turn :=
  match s.schedule with
  | t :: _ => t
  | [] => .agent (Config.schedule s.turns)

/-- The turn is taken. -/
def endTurn (s : State) : State := { s with schedule := s.schedule.tail, turns := s.turns + 1 }

/-- The operation `i` is performed in the state `s`, and the event history records it (R100). -/
def perform (i : Instr) (s : State) : Fetched := .run i (record i s)

/-- The host's turn (R88, R102, R200): the transaction at the head of what it has to send. One whose descriptor is not
that of a host transaction is refused with a bus error, its descriptor alone being taken (R404; log 11). A held or not
yet complete transaction stays. -/
def hostTurn (s : State) : Fetched :=
  let t := takeLine s
  match t.script with
  | [] => .pass (endTurn t)
  | d :: rest =>
    if isHostDescriptor d then
      match decode t.script with
      | .error _ => .pass (endTurn s)
      | .ok (i, after) =>
        if held i s then .pass (endTurn s) else perform i (endTurn { t with script := after })
    else .pass (endTurn (raiseBusError { t with script := rest }))

/-- The turn of a unit's agent: its enabled step, or idle (R84, R212, R413). -/
def unitTurn (a : Agent) (s : State) : Fetched :=
  match agentStep a s with
  | none => .pass (endTurn s)
  | some i => perform i (endTurn s)

/-- The turn of one operation issued alone, whichever it is and with every operand (log 4, log 17). -/
def issueTurn (words : List Half) (s : State) : Fetched :=
  match decode words with
  | .error e => .stop (.undecodable e)
  | .ok (i, _) => perform i (endTurn s)

/-- The reset input (R500): the block is in its reset state; the host outside it keeps its script and its responses, and
the event history and the turns go on (log 12, log 19). -/
def hardReset (s : State) : State :=
  { State.reset with
    script := s.script, lines := s.lines, responses := s.responses, history := s.history
    schedule := s.schedule, turns := s.turns }

/-- What the next turn comes to. -/
def fetch (s : State) : Fetched :=
  match nextTurn s with
  | .agent .host => hostTurn s
  | .agent a => unitTurn a s
  | .reset => .pass (endTurn (hardReset s))
  | .issue words => issueTurn words s

/-- The state `s` in which the very next turn runs the operation whose bits are `w` (log 14): a host transaction is put at the
head of the host's script with the host's turn next; any other operation is issued alone by the next turn. -/
def placeWord (s : State) (nbits w : Nat) : State :=
  let ws := wordsOf nbits w
  match decode ws with
  | .ok (i, after) =>
    if i.isHostTransaction then
      { s with script := ws.take (ws.length - after.length) ++ s.script, schedule := .agent .host :: s.schedule }
    else { s with schedule := .issue (ws.take (ws.length - after.length)) :: s.schedule }
  | .error _ => { s with script := ws.take 1 ++ s.script, schedule := .agent .host :: s.schedule }

end Sys2Proof.Machine
end

