-- ==== Sys2Proof/Safety.lean ====
section
/-! DEFINITION. What a safe run of the block is, in the terms that claims use: the invariants the spec states or
derives, runs of several operations, and the fairness it assumes of a scheduler. -/

namespace Sys2Proof.Machine

/-! ### Runs -/

/-- Operations performed one after another, stopping at the first that does not answer a next state. -/
def execAll : List Instr → State → Host.Outcome State Fault Refusal
  | [], s => .next s
  | i :: is, s =>
    match exec i s with
    | .next t => execAll is t
    | .fault f => .fault f
    | .refused r => .refused r

/-- A schedule of the first `n` choices of a scheduler. -/
def firstTurns (choice : Nat → Agent) (n : Nat) : List Turn := (List.range n).map fun k => .agent (choice k)

/-- Weak fairness of a scheduler as 60_exceptions.md R411 uses it: every agent has a turn after every point. -/
def FairSchedule (choice : Nat → Agent) : Prop := ∀ (a : Agent) (n : Nat), ∃ m, n ≤ m ∧ choice m = a

/-- The bits of a written value that an `RW` register keeps (10_state.md R36): the defined bits of a flag register,
all bits of every other. -/
def keptBits (r : Reg) (v : Word) : Word :=
  match r with
  | .slicerMode => v &&& 3
  | .repackerOrder => v &&& 1
  | .deframerFlags => v &&& 1
  | _ => v

/-! ### Configuration and status -/

/-- What the recorded status of a unit can be: never valid and failed at once; no code without a failure, and with
one a code whose high nibble is the unit's number (10_state.md R34, 60_exceptions.md R401, R402). -/
def StatusOk (u : UnitId) (t : UnitStatus) : Prop :=
  if t.cfgErr then t.cfgValid = false ∧ t.errCode.toNat / 16 = u.number else t.errCode = 0

/-- Every active configuration passes its unit's checks: the reset values are legal and only a successful `COMMIT`
changes them (10_state.md R35, 70_reset_and_hazards.md R502). -/
def ActiveLegal (s : State) : Prop :=
  validateAgc s.agc.cfg = 0 ∧ validateCostas s.costas.cfg = 0 ∧ validatePll s.pll.cfg = 0 ∧
  validateRrc s.rrc.cfg = 0 ∧ validateMm s.mm.cfg = 0 ∧ validateSnr s.snr.cfg = 0 ∧
  validateSlicer s.slicer.cfg = 0 ∧ validateDeframer s.deframer.cfg = 0

/-- A valid unit's derived values are those of its active configuration (10_state.md R37). -/
def DerivedCurrent (s : State) : Prop :=
  (s.agc.status.cfgValid = true → s.agc.gainMin = deriveAgc s.agc.cfg) ∧
  (s.pll.status.cfgValid = true → s.pll.derived = derivePll s.pll.cfg) ∧
  (s.mm.status.cfgValid = true → s.mm.derived = deriveMm s.mm.cfg) ∧
  (s.snr.status.cfgValid = true → s.snr.oneMAlpha = deriveSnr s.snr.cfg) ∧
  (s.deframer.status.cfgValid = true → s.deframer.asm = deriveDeframer s.deframer.cfg)

/-- The configuration invariant. -/
def ConfigInv (s : State) : Prop := ActiveLegal s ∧ DerivedCurrent s ∧ ∀ u, StatusOk u (statusOf u s)

/-! ### Datapaths -/

/-- The repacker holds `n` bits, 0 to 7, and the bits of `acc` at and above `n` are 0 (10_state.md R52). -/
def RepackerOk (d : RepackerData) : Prop := d.n ≤ 7 ∧ d.acc.toNat < 2 ^ d.n

/-- The ranges of 10_state.md R54 and 47_deframer.md R294: `win` has `M` bits, `fill <= M`, `cnt < 8F`, `miss <= K`.
In `NOSYNC` no frame is held; in a lock the window is full. -/
def DeframerOk (c : DeframerCfg) (d : DeframerData) : Prop :=
  d.win.toNat < 2 ^ markerBits c ∧ d.fill ≤ markerBits c ∧ d.cnt < frameBits c ∧ d.miss ≤ c.missTol.toNat ∧
  (d.state = .nosync → d.cnt = 0 ∧ d.miss = 0 ∧ d.inv = false) ∧
  (d.state ≠ .nosync → d.fill = markerBits c)

/-- The datapath invariant. -/
def DatapathInv (s : State) : Prop :=
  ConfigInv s ∧ RepackerOk s.repacker.data ∧ DeframerOk s.deframer.cfg s.deframer.data

/-! ### Queues -/

/-- No queue holds more than `P_FIFO_DEPTH` items (20_memory.md R81). -/
def QueuesBounded (s : State) : Prop :=
  s.qSrc.items.length ≤ Config.fifoDepth ∧ s.qAgc.items.length ≤ Config.fifoDepth ∧
  s.qCar.items.length ≤ Config.fifoDepth ∧ s.qMf.items.length ≤ Config.fifoDepth ∧
  s.qSym.items.length ≤ Config.fifoDepth ∧ s.qBit.items.length ≤ Config.fifoDepth ∧
  s.qSoft.items.length ≤ Config.fifoDepth ∧ s.qByte.items.length ≤ Config.fifoDepth ∧
  s.qFrame.items.length ≤ Config.fifoDepth

/-- A closed output has a closed and empty input: closing comes only down the chain (R83, R212), or to every emptied
queue at once (R211). `Q_SOFT` is closed with `Q_BIT`. -/
def ClosedDownChain (s : State) : Prop :=
  (s.qAgc.closed = true → ended s.qSrc = true) ∧ (s.qCar.closed = true → ended s.qAgc = true) ∧
  (s.qMf.closed = true → ended s.qCar = true) ∧ (s.qSym.closed = true → ended s.qMf = true) ∧
  (s.qBit.closed = true → ended s.qSym = true) ∧ s.qSoft.closed = s.qBit.closed ∧
  (s.qByte.closed = true → ended s.qBit = true) ∧ (s.qFrame.closed = true → ended s.qByte = true)

/-- While `ABORTED` is set, every queue is closed and empty (40_control.md R211). -/
def AbortedEmpty (s : State) : Prop :=
  s.aborted = true →
    ended s.qSrc = true ∧ ended s.qAgc = true ∧ ended s.qCar = true ∧ ended s.qMf = true ∧
    ended s.qSym = true ∧ ended s.qBit = true ∧ ended s.qSoft = true ∧ ended s.qByte = true ∧
    ended s.qFrame = true

/-- The queue invariant. That `Q_FRAME` stays bounded needs the deframer's ranges: at most one frame a byte. -/
def QueueInv (s : State) : Prop := DatapathInv s ∧ QueuesBounded s ∧ ClosedDownChain s ∧ AbortedEmpty s

/-- Every complex item on `Q_AGC`, `Q_CAR`, `Q_MF` and `Q_SYM` is finite (60_exceptions.md R405). -/
def SamplesFinite (s : State) : Prop :=
  (∀ x ∈ s.qAgc.items, Fp.finiteC x = true) ∧ (∀ x ∈ s.qCar.items, Fp.finiteC x = true) ∧
  (∀ x ∈ s.qMf.items, Fp.finiteC x = true) ∧ (∀ x ∈ s.qSym.items, Fp.finiteC x = true)

/-- No soft value is -128 (30_encoding.md R106). -/
def SoftsInRange (s : State) : Prop := ∀ v ∈ s.qSoft.items, v ≠ 0x80

/-- Every frame queued carries a lock state and a legal number of bytes (30_encoding.md R107, 47_deframer.md R292). -/
def FramesOk (s : State) : Prop :=
  ∀ f ∈ s.qFrame.items, f.tag ≠ .nosync ∧ 1 ≤ f.data.length ∧ f.data.length ≤ Config.frameMax

/-- The item invariant. -/
def ItemsInv (s : State) : Prop := ConfigInv s ∧ SamplesFinite s ∧ SoftsInRange s ∧ FramesOk s

/-! ### Bits through the repacker -/

/-- The bits of a byte in the order in which they were received (20_memory.md R89, 46_slicer_repacker.md R283). -/
def receivedBits (c : RepackerCfg) (y : Byte) : List Bool :=
  if c.lsbFirst then (byteBits y).reverse else byteBits y

/-- The bits of the partial byte in the order in which they were received (10_state.md R52). -/
def heldBits (c : RepackerCfg) (d : RepackerData) : List Bool :=
  (List.range d.n).map fun i => d.acc.getLsbD (if c.lsbFirst then i else d.n - 1 - i)

/-! ### Numbers -/

/-- The rational value of a finite binary32 encoding (30_encoding.md R104). -/
def realValue (x : F32) : ℚ := (if Fp.sign x then -1 else 1) * (Fp.sig x : ℚ) * 2 ^ Fp.expo x

/-- `r` is the exact value `v` rounded to binary32, to nearest, ties to even (00_scope.md R7): no finite value is nearer, and
of two that are equally near it is the one whose significand is even; from `2^128 - 2^103` up it is an infinity. -/
def RoundsToEven (v : ℝ) (r : F32) : Prop :=
  if |v| < 2 ^ 128 - 2 ^ 103 then
    Fp.finite r = true ∧ ∀ c, Fp.finite c = true →
      |(realValue r : ℝ) - v| ≤ |(realValue c : ℝ) - v| ∧
      (|(realValue r : ℝ) - v| = |(realValue c : ℝ) - v| → realValue c = realValue r ∨ r.getLsbD 0 = false)
  else r = if 0 < v then 0x7F800000 else 0xFF800000

/-- The gain is inside its clamp (41_agc.md R233). -/
def GainInRange (s : State) : Prop :=
  Fp.le s.agc.gainMin s.agc.data.g = true ∧ Fp.le s.agc.data.g s.agc.cfg.maxGain = true

/-- `omega` is inside its clamp (44_clock_recovery.md R263). -/
def OmegaInRange (s : State) : Prop :=
  Fp.le s.mm.derived.omegaMin s.mm.data.omega = true ∧ Fp.le s.mm.data.omega s.mm.derived.omegaMax = true

/-- The estimate and its peak are in `[0, SNR_CAP]` (45_snr.md R272). -/
def SnrInRange (s : State) : Prop :=
  Fp.le Fp.zero s.snr.data.snr = true ∧ Fp.le s.snr.data.snr s.snr.cfg.cap = true ∧
  Fp.le Fp.zero s.snr.data.peak = true ∧ Fp.le s.snr.data.peak s.snr.cfg.cap = true

/-- The loop frequency is inside its clamp (42_carrier.md R244). -/
def FreqInRange (s : State) : Prop :=
  Fp.le (Fp.neg s.pll.cfg.freqMax) s.pll.data.freq = true ∧ Fp.le s.pll.data.freq s.pll.cfg.freqMax = true

/-- The loop phase is in `[-PI, PI]` (10_state.md R43). -/
def PhaseInRange (s : State) : Prop :=
  Fp.le (Fp.neg Fp.pi) s.pll.data.phase = true ∧ Fp.le s.pll.data.phase Fp.pi = true

/-- `mu` is in `[0, 1)` and `wait` at most 131073 (44_clock_recovery.md R263). -/
def MuInRange (s : State) : Prop :=
  Fp.le Fp.zero s.mm.data.mu = true ∧ Fp.lt s.mm.data.mu Fp.one = true ∧ s.mm.data.wait ≤ 131073

/-- Every datapath value is finite (60_exceptions.md R405). -/
def DatapathFinite (s : State) : Prop :=
  Fp.finite s.agc.data.g = true ∧ Fp.finite s.pll.data.phase = true ∧ Fp.finite s.pll.data.freq = true ∧
  (∀ x ∈ s.rrc.data.d.toList, Fp.finiteC x = true) ∧
  Fp.finiteC s.mm.data.a = true ∧ Fp.finiteC s.mm.data.b = true ∧ Fp.finite s.mm.data.mu = true ∧
  Fp.finite s.mm.data.omega = true ∧ Fp.finite s.mm.data.last = true ∧ Fp.finiteC s.mm.data.p1 = true ∧
  Fp.finiteC s.mm.data.p2 = true ∧ Fp.finiteC s.mm.data.c1 = true ∧ Fp.finiteC s.mm.data.c2 = true ∧
  Fp.finite s.snr.data.y1 = true ∧ Fp.finite s.snr.data.y2 = true ∧ Fp.finite s.snr.data.snr = true ∧
  Fp.finite s.snr.data.peak = true

/-- The invariant of the numbers. The ranges of the gain and of `omega` hold once their unit is valid, since the derived
bounds are zero before the first `COMMIT` (10_state.md R37, R40). -/
def NumbersInv (s : State) : Prop :=
  ConfigInv s ∧ DatapathFinite s ∧ PhaseInRange s ∧ FreqInRange s ∧ MuInRange s ∧ SnrInRange s ∧
  (s.agc.status.cfgValid = true → GainInRange s) ∧ (s.mm.status.cfgValid = true → OmegaInRange s)

end Sys2Proof.Machine
end

