-- ==== Sys2Proof/Certificates/Slice0/Obligations.lean ====
section
/-! DEFINITION. The statements about the block, for the provers. The rules are those of spec/. -/

open Sys2Proof Sys2Proof.Machine

/-! ### Encodings -/

/-- Decoding an operation's words gives the operation back, and the words after it (30_encoding.md R100, R103, R110).
The word order of the payloads is log 3's, the operand words of internal operations log 4's. -/
def Obligations.DecodeEncodeAgree : Prop :=
  ∀ (i : Instr) (rest : List Half), i.wellFormed = true → decode (encode i ++ rest) = .ok (i, rest)

/-- No two sequences of words are one operation: the words decoded are the encoding of what they decode to. -/
def Obligations.DecodedWordsAreTheEncoding : Prop :=
  ∀ (ws : List Half) (i : Instr) (rest : List Half), decode ws = .ok (i, rest) → encode i ++ rest = ws

/-- The illegal descriptors are those with `Z` not 0, with `UNIT` 0xA to 0xF, or with a pair (`UNIT`, `OP`) that is
not in R101 (30_encoding.md R102). -/
def Obligations.IllegalDescriptorsAreExactlyThoseOfTheRule : Prop :=
  ∀ (d : Half) (rest : List Half),
    (decode (d :: rest) = .error .nonzeroZ ∨ decode (d :: rest) = .error .reservedUnit ∨
      decode (d :: rest) = .error .undefinedOp) ↔
    (d.toNat % 256 ≠ 0 ∨ 0xA ≤ d.toNat / 4096 ∨
      ¬ ((d.toNat / 4096 = 0 ∧ d.toNat / 256 % 16 ∈ [1, 2, 3, 4, 5, 8, 9, 0xA, 0xB]) ∨
         (1 ≤ d.toNat / 4096 ∧ d.toNat / 4096 ≤ 9 ∧ d.toNat / 256 % 16 ∈ [1, 8, 9]) ∨
         (d.toNat / 4096 = 9 ∧ d.toNat / 256 % 16 = 2) ∨
         (d.toNat / 4096 ∈ [1, 2, 4, 5, 7, 8, 9] ∧ d.toNat / 256 % 16 = 0xC)))

/-- Words written out from the map of R110 decode to the operations it names. -/
def Obligations.WrittenWordsDecode : Prop :=
  decode [0x0200, 0x1008, 0x0000, 0x3F80] = .ok (.regWrite 0x1008 0x3F800000, []) ∧
  decode [0x0300, 0x0000, 0x3F80, 0x0000, 0x4000] = .ok (.srcPush ⟨0x3F800000, 0x40000000⟩, []) ∧
  decode [0x1100] = .ok (.agcStep, []) ∧ decode [0x9800] = .ok (.commitDeframer, []) ∧
  decode [0x4900] = .ok (.sresetRrc, []) ∧ decode [0x7C00] = .ok (.eosPropagateSlicer, [])

/-! ### Steps -/

/-- A step runs the decoded operation: the host's next transaction with its words taken, an issued operation whichever it
is, or the step that a unit's agent has enabled (20_memory.md R86, R88, 60_exceptions.md R410). Around `exec` a step takes
the turn and puts the descriptors of what is performed into the event history (30_encoding.md R100); a held transaction
and an idle agent only let the turn pass (log 1, log 2, log 4, log 5, log 19). -/
def Obligations.StepRunsDecodedOperation : Prop :=
  ∀ s : State,
    (∀ i after, nextTurn s = .agent .host → decode s.script = .ok (i, after) → i.isHostTransaction = true →
      step s = if held i s then .next { s with schedule := s.schedule.tail, turns := s.turns + 1 }
        else exec i { s with
          script := after, history := ((operations i s).map Instr.descriptor).reverse ++ s.history
          schedule := s.schedule.tail, turns := s.turns + 1 }) ∧
    (∀ ws i after, nextTurn s = .issue ws → decode ws = .ok (i, after) →
      step s = exec i { s with
        history := ((operations i s).map Instr.descriptor).reverse ++ s.history
        schedule := s.schedule.tail, turns := s.turns + 1 }) ∧
    (∀ a, a ≠ .host → nextTurn s = .agent a →
      step s = match agentStep a s with
        | some i => exec i { s with
            history := ((operations i s).map Instr.descriptor).reverse ++ s.history
            schedule := s.schedule.tail, turns := s.turns + 1 }
        | none => .next { s with schedule := s.schedule.tail, turns := s.turns + 1 })

/-- Every operation answers a next state in every state: no data step can fail or raise anything, and the two
exceptions are recorded or answered, not stops (40_control.md R214, 60_exceptions.md R400, R408). That a step which is
not enabled and a held transaction answer a next state, the unchanged one, is the model's choice (log 5); the script, the
history, the schedule and the turns are fields of the model's own (log 1, log 2, log 13, log 19). -/
def Obligations.NoOperationStops : Prop :=
  ∀ (i : Instr) (s : State), ∃ t, exec i s = .next t ∧
    t.script = s.script ∧ t.lines = s.lines ∧ t.history = s.history ∧ t.schedule = s.schedule ∧ t.turns = s.turns

/-- The reset input sets every element of the block to its reset value (70_reset_and_hazards.md R500); the values are those
of ResetRegisterValues. That the host keeps its script and its responses, and that the event history goes on, is the
model's choice (log 12, log 19). -/
def Obligations.ResetInputResetsTheBlock : Prop :=
  ∀ s : State, nextTurn s = .reset →
    step s = .next { State.reset with
      script := s.script, lines := s.lines, responses := s.responses, history := s.history
      schedule := s.schedule.tail, turns := s.turns + 1 }

/-- After reset no data step is enabled, and the reset configuration passes every unit's checks (R502). -/
def Obligations.NoDataStepEnabledAfterReset : Prop :=
  (∀ u, (statusOf u State.reset).cfgValid = false) ∧ (∀ a, dataEnabled a State.reset = false) ∧
  ActiveLegal State.reset

/-- The registers after reset show the reset values of 10_state.md R34-R53, a configuration is active as it is shadowed, and
every element without a register has its reset value: statuses, derived values (R37), datapath state (R40, R43, R45, R47,
R49, R52, R54), queues empty and open, `ABORTED` 0 (R500). -/
def Obligations.ResetRegisterValues : Prop :=
  (∀ u, regShows (.ctrl u) State.reset = 0 ∧ regShows (.status u) State.reset = 0) ∧
  ([Reg.gCtrl, .gStatus, .agcRef, .agcRate, .agcMaxGain, .agcGain, .agcGainMin, .costasOrder, .pllLoopBw,
    .pllFreqMax, .pllAlpha, .pllBeta, .pllPhase, .pllFreq, .rrcNtaps, .rrcInterp].map fun r => regShows r State.reset) =
   [0, 0, 0x3F800000, 0x3A800000, 0x47800000, 0x3F800000, 0, 2, 0x3C000000, 0x40490FDB, 0, 0, 0, 0, 1, 1] ∧
  (∀ k : Fin Config.maxTaps, regShows (.rrcTap k) State.reset = if k.val = 0 then 0x3F800000 else 0) ∧
  ([Reg.mmMode, .mmOmega, .mmGainOmega, .mmGainMu, .mmRelLimit, .mmMuInit, .mmMu, .mmOmegaCur, .mmOmegaLim,
    .snrAlpha, .snrCap, .snrY1, .snrY2, .snrDb, .snrPeakDb].map fun r => regShows r State.reset) =
   [0, 0x40000000, 0x39800000, 0x3D000000, 0x3B800000, 0x3F000000, 0x3F000000, 0x40000000, 0,
    0x3B800000, 0x42C80000, 0, 0, 0, 0] ∧
  ([Reg.slicerMode, .slicerSoftScale, .repackerOrder, .repackerCarryBits, .repackerCarryVal, .deframerAsmLo,
    .deframerAsmHi, .deframerAsmLen, .deframerFrameLen, .deframerBitErrTol, .deframerMissTol, .deframerFlags,
    .deframerState, .deframerMissCnt, .deframerBitCnt, .deframerPolarity, .deframerWinLo, .deframerWinHi,
    .deframerFill].map fun r => regShows r State.reset) =
   [0, 0x42FE0000, 0, 0, 0, 0x1ACFFC1D, 0, 32, 1024, 4, 5, 1, 0, 0, 0, 0, 0, 0, 0] ∧
  State.reset.agc.cfg = State.reset.agc.shadow ∧ State.reset.costas.cfg = State.reset.costas.shadow ∧
  State.reset.pll.cfg = State.reset.pll.shadow ∧ State.reset.rrc.cfg = State.reset.rrc.shadow ∧
  State.reset.mm.cfg = State.reset.mm.shadow ∧ State.reset.snr.cfg = State.reset.snr.shadow ∧
  State.reset.slicer.cfg = State.reset.slicer.shadow ∧ State.reset.repacker.cfg = State.reset.repacker.shadow ∧
  State.reset.deframer.cfg = State.reset.deframer.shadow ∧
  (∀ u, statusOf u State.reset = ⟨false, false, 0⟩) ∧
  State.reset.agc.gainMin = 0 ∧ State.reset.pll.derived = ⟨0, 0⟩ ∧ State.reset.mm.derived = ⟨0, 0, 0⟩ ∧
  State.reset.snr.oneMAlpha = 0 ∧ State.reset.deframer.asm = 0 ∧
  State.reset.agc.data = ⟨0x3F800000⟩ ∧ State.reset.pll.data = ⟨0, 0⟩ ∧
  (∀ k : Fin Config.maxTaps, State.reset.rrc.data.d.get k = ⟨0, 0⟩) ∧
  State.reset.mm.data =
    ⟨⟨0, 0⟩, ⟨0, 0⟩, 0, 0x3F000000, 0x40000000, 0, ⟨0, 0⟩, ⟨0, 0⟩, ⟨0, 0⟩, ⟨0, 0⟩⟩ ∧
  State.reset.snr.data = ⟨0, 0, 0, 0⟩ ∧ State.reset.repacker.data = ⟨0, 0⟩ ∧
  State.reset.deframer.data = ⟨.nosync, 0, 0, 0, 0, false, 0⟩ ∧
  State.reset.qSrc = ⟨[], false⟩ ∧ State.reset.qAgc = ⟨[], false⟩ ∧ State.reset.qCar = ⟨[], false⟩ ∧
  State.reset.qMf = ⟨[], false⟩ ∧ State.reset.qSym = ⟨[], false⟩ ∧ State.reset.qBit = ⟨[], false⟩ ∧
  State.reset.qSoft = ⟨[], false⟩ ∧ State.reset.qByte = ⟨[], false⟩ ∧ State.reset.qFrame = ⟨[], false⟩ ∧
  State.reset.aborted = false

/-! ### The register space and the host -/

/-- The register map: every register is reached at its address, which is aligned, and only there (20_memory.md R90, R91);
the address and the class of each register are those of 10_state.md R33, R34, R38, R39, R41, R42, R44, R46, R48, R50, R51
and R53. -/
def Obligations.RegisterAddressesAreOneToOne : Prop :=
  (∀ r, accessed (regAddr r) = some r) ∧ (∀ a r, accessed a = some r → regAddr r = a ∧ a.toNat % 4 = 0) ∧
  (∀ p ∈ ([(.gCtrl, 0x0000, .wc), (.gStatus, 0x0004, .ro), (.agcRef, 0x1008, .rw), (.agcRate, 0x100C, .rw),
      (.agcMaxGain, 0x1010, .rw), (.agcGain, 0x1014, .ro), (.agcGainMin, 0x1018, .ro), (.costasOrder, 0x2008, .rw),
      (.pllLoopBw, 0x3008, .rw), (.pllFreqMax, 0x300C, .rw), (.pllAlpha, 0x3010, .ro), (.pllBeta, 0x3014, .ro),
      (.pllPhase, 0x3018, .ro), (.pllFreq, 0x301C, .ro), (.rrcNtaps, 0x4008, .rw), (.rrcInterp, 0x400C, .rw),
      (.mmMode, 0x5008, .rw), (.mmOmega, 0x500C, .rw), (.mmGainOmega, 0x5010, .rw), (.mmGainMu, 0x5014, .rw),
      (.mmRelLimit, 0x5018, .rw), (.mmMuInit, 0x501C, .rw), (.mmMu, 0x5020, .ro), (.mmOmegaCur, 0x5024, .ro),
      (.mmOmegaLim, 0x5028, .ro), (.snrAlpha, 0x6008, .rw), (.snrCap, 0x600C, .rw), (.snrY1, 0x6010, .ro),
      (.snrY2, 0x6014, .ro), (.snrDb, 0x6018, .ro), (.snrPeakDb, 0x601C, .ro)] : List (Reg × Half × RegClass)),
    regAddr p.1 = p.2.1 ∧ regClass p.1 = p.2.2) ∧
  (∀ p ∈ ([(.slicerMode, 0x7008, .rw), (.slicerSoftScale, 0x700C, .rw), (.repackerOrder, 0x8008, .rw),
      (.repackerCarryBits, 0x800C, .ro), (.repackerCarryVal, 0x8010, .ro), (.deframerAsmLo, 0x9008, .rw),
      (.deframerAsmHi, 0x900C, .rw), (.deframerAsmLen, 0x9010, .rw), (.deframerFrameLen, 0x9014, .rw),
      (.deframerBitErrTol, 0x9018, .rw), (.deframerMissTol, 0x901C, .rw), (.deframerFlags, 0x9020, .rw),
      (.deframerState, 0x9024, .ro), (.deframerMissCnt, 0x9028, .ro), (.deframerBitCnt, 0x902C, .ro),
      (.deframerPolarity, 0x9030, .ro), (.deframerWinLo, 0x9034, .ro), (.deframerWinHi, 0x9038, .ro),
      (.deframerFill, 0x903C, .ro)] : List (Reg × Half × RegClass)),
    regAddr p.1 = p.2.1 ∧ regClass p.1 = p.2.2) ∧
  (∀ p ∈ ([(.agc, 0x1000), (.costas, 0x2000), (.pll, 0x3000), (.rrc, 0x4000), (.mm, 0x5000), (.snr, 0x6000),
      (.slicer, 0x7000), (.repacker, 0x8000), (.deframer, 0x9000)] : List (UnitId × Half)),
    regAddr (.ctrl p.1) = p.2 ∧ regClass (.ctrl p.1) = .wc ∧
    regAddr (.status p.1) = p.2 + 4 ∧ regClass (.status p.1) = .ro) ∧
  (∀ k : Fin Config.maxTaps, (regAddr (.rrcTap k)).toNat = 0x4400 + 4 * k.val ∧ regClass (.rrcTap k) = .rw)

/-- `REG_READ` of a mapped register answers `OK` with the value it shows, and changes nothing else: no read has a side
effect (40_control.md R201, 10_state.md R33, R57). What each register shows: `STATUS` and `G_STATUS` by the layouts of R34
and R38, an `RO` register the value it names now, an `RW` register its shadow value, a control register 0. -/
def Obligations.RegReadAnswersTheShownValue : Prop :=
  ∀ s : State,
    (∀ r : Reg,
      exec (.regRead (regAddr r)) s = .next { s with responses := .okData (regShows r s) :: s.responses } ∧
      (regClass r = .wc → regShows r s = 0)) ∧
    (∀ p ∈ [(UnitId.agc, s.agc.status, s.qSrc.closed, s.qAgc.closed),
        (.costas, s.costas.status, s.qAgc.closed, s.qCar.closed), (.pll, s.pll.status, false, false),
        (.rrc, s.rrc.status, s.qCar.closed, s.qMf.closed), (.mm, s.mm.status, s.qMf.closed, s.qSym.closed),
        (.snr, s.snr.status, false, false), (.slicer, s.slicer.status, s.qSym.closed, s.qBit.closed),
        (.repacker, s.repacker.status, s.qBit.closed, s.qByte.closed),
        (.deframer, s.deframer.status, s.qByte.closed, s.qFrame.closed)],
      regShows (.status p.1) s = 0#16 ++ p.2.1.errCode ++ 0#4 ++ BitVec.ofBool p.2.2.2 ++ BitVec.ofBool p.2.2.1 ++
        BitVec.ofBool p.2.1.cfgErr ++ BitVec.ofBool p.2.1.cfgValid) ∧
    ((regShows .gStatus s).getLsbD 0 = (s.agc.status.cfgValid && s.costas.status.cfgValid && s.pll.status.cfgValid &&
      s.rrc.status.cfgValid && s.mm.status.cfgValid && s.snr.status.cfgValid && s.slicer.status.cfgValid &&
      s.repacker.status.cfgValid && s.deframer.status.cfgValid)) ∧
    ((regShows .gStatus s).getLsbD 1 = (s.agc.status.cfgErr || s.costas.status.cfgErr || s.pll.status.cfgErr ||
      s.rrc.status.cfgErr || s.mm.status.cfgErr || s.snr.status.cfgErr || s.slicer.status.cfgErr ||
      s.repacker.status.cfgErr || s.deframer.status.cfgErr)) ∧
    (regShows .gStatus s).getLsbD 2 = s.qSrc.closed ∧
    ((regShows .gStatus s).getLsbD 3 = true ↔ s.qFrame = ⟨[], true⟩) ∧
    (regShows .gStatus s).getLsbD 4 = s.aborted ∧ (∀ i, 5 ≤ i → (regShows .gStatus s).getLsbD i = false) ∧
    ([Reg.agcGain, .agcGainMin, .pllAlpha, .pllBeta, .pllPhase, .pllFreq, .mmMu, .mmOmegaCur, .mmOmegaLim, .snrY1,
      .snrY2, .snrDb, .snrPeakDb].map fun r => regShows r s) =
      [s.agc.data.g, s.agc.gainMin, s.pll.derived.alpha, s.pll.derived.beta, s.pll.data.phase, s.pll.data.freq,
       s.mm.data.mu, s.mm.data.omega, s.mm.derived.omegaLim, s.snr.data.y1, s.snr.data.y2, s.snr.data.snr,
       s.snr.data.peak] ∧
    regShows .repackerCarryBits s = BitVec.ofNat 32 s.repacker.data.n ∧
    regShows .repackerCarryVal s = 0#24 ++ s.repacker.data.acc ∧
    regShows .deframerState s = (match s.deframer.data.state with
      | .nosync => 0 | .syncing => 1 | .synced => 2 | .syncedMissed => 3) ∧
    regShows .deframerMissCnt s = BitVec.ofNat 32 s.deframer.data.miss ∧
    regShows .deframerBitCnt s = BitVec.ofNat 32 s.deframer.data.cnt ∧
    regShows .deframerPolarity s = (if s.deframer.data.inv then 1 else 0) ∧
    regShows .deframerWinHi s ++ regShows .deframerWinLo s = s.deframer.data.win ∧
    regShows .deframerFill s = BitVec.ofNat 32 s.deframer.data.fill ∧
    ([Reg.agcRef, .agcRate, .agcMaxGain, .costasOrder, .pllLoopBw, .pllFreqMax, .rrcNtaps, .rrcInterp, .mmMode,
      .mmOmega, .mmGainOmega, .mmGainMu, .mmRelLimit, .mmMuInit, .snrAlpha, .snrCap].map fun r => regShows r s) =
      [s.agc.shadow.ref, s.agc.shadow.rate, s.agc.shadow.maxGain, s.costas.shadow.order, s.pll.shadow.loopBw,
       s.pll.shadow.freqMax, s.rrc.shadow.ntaps, s.rrc.shadow.interp, s.mm.shadow.mode, s.mm.shadow.omega,
       s.mm.shadow.gainOmega, s.mm.shadow.gainMu, s.mm.shadow.relLimit, s.mm.shadow.muInit, s.snr.shadow.alpha,
       s.snr.shadow.cap] ∧
    (∀ k : Fin Config.maxTaps, regShows (.rrcTap k) s = s.rrc.shadow.taps.get k) ∧
    regShows .slicerMode s = 0#30 ++ BitVec.ofBool s.slicer.shadow.softEn ++ BitVec.ofBool s.slicer.shadow.cplx ∧
    regShows .slicerSoftScale s = s.slicer.shadow.softScale ∧
    regShows .repackerOrder s = 0#31 ++ BitVec.ofBool s.repacker.shadow.lsbFirst ∧
    ([Reg.deframerAsmLo, .deframerAsmHi, .deframerAsmLen, .deframerFrameLen, .deframerBitErrTol,
      .deframerMissTol].map fun r => regShows r s) =
      [s.deframer.shadow.asmLo, s.deframer.shadow.asmHi, s.deframer.shadow.asmLen, s.deframer.shadow.frameLen,
       s.deframer.shadow.bitErrTol, s.deframer.shadow.missTol] ∧
    regShows .deframerFlags s = 0#31 ++ BitVec.ofBool s.deframer.shadow.invEn

/-- A write of an `RW` register followed by a read gives the bits it keeps; between them every other register shows
what it showed, and no active value, derived value, datapath state, status, queue or flag changes (10_state.md R33,
R35, R36, 40_control.md R202). -/
def Obligations.WriteThenReadShadow : Prop :=
  ∀ (r : Reg) (v : Word) (s : State), regClass r = .rw →
    ∃ t, exec (.regWrite (regAddr r) v) s = .next t ∧
      exec (.regRead (regAddr r)) t = .next { t with responses := .okData (keptBits r v) :: .ok :: s.responses } ∧
      t.responses = .ok :: s.responses ∧
      (∀ r', r' ≠ r → regShows r' t = regShows r' s) ∧
      t.agc = { s.agc with shadow := t.agc.shadow } ∧ t.costas = { s.costas with shadow := t.costas.shadow } ∧
      t.pll = { s.pll with shadow := t.pll.shadow } ∧ t.rrc = { s.rrc with shadow := t.rrc.shadow } ∧
      t.mm = { s.mm with shadow := t.mm.shadow } ∧ t.snr = { s.snr with shadow := t.snr.shadow } ∧
      t.slicer = { s.slicer with shadow := t.slicer.shadow } ∧
      t.repacker = { s.repacker with shadow := t.repacker.shadow } ∧
      t.deframer = { s.deframer with shadow := t.deframer.shadow } ∧
      t = { s with
        agc := t.agc, costas := t.costas, pll := t.pll, rrc := t.rrc, mm := t.mm, snr := t.snr,
        slicer := t.slicer, repacker := t.repacker, deframer := t.deframer, responses := t.responses }

/-- A write of a unit's `CTRL` does `COMMIT` for bit 0, else `SRESET` for bit 1, else nothing, and a write of
`G_CTRL` does its actions in the order `ABORT`, `SRESET_ALL`, `COMMIT_ALL`, `STOP`; each is answered `OK`
(40_control.md R202, 60_exceptions.md R403). The actions are the operations of the unit whose `CTRL` is written. -/
def Obligations.ControlWritesStartActions : Prop :=
  ∀ (v : Word) (s : State),
    (∀ u, exec (.regWrite (regAddr (.ctrl u)) v) s = .next (respond .ok
      (if v.getLsbD 0 then commitUnit u s else if v.getLsbD 1 then resetUnit u s else s))) ∧
    (∀ p ∈ [((0x1000 : Half), Instr.commitAgc, Instr.sresetAgc), (0x2000, .commitCostas, .sresetCostas),
        (0x3000, .commitPll, .sresetPll), (0x4000, .commitRrc, .sresetRrc), (0x5000, .commitMm, .sresetMm),
        (0x6000, .commitSnr, .sresetSnr), (0x7000, .commitSlicer, .sresetSlicer),
        (0x8000, .commitRepacker, .sresetRepacker), (0x9000, .commitDeframer, .sresetDeframer)],
      (v.getLsbD 0 = true → ∃ t, exec p.2.1 s = .next t ∧
        exec (.regWrite p.1 v) s = .next { t with responses := .ok :: t.responses }) ∧
      (v.getLsbD 0 = false → v.getLsbD 1 = true → ∃ t, exec p.2.2 s = .next t ∧
        exec (.regWrite p.1 v) s = .next { t with responses := .ok :: t.responses }) ∧
      (v.getLsbD 0 = false → v.getLsbD 1 = false →
        exec (.regWrite p.1 v) s = .next { s with responses := .ok :: s.responses })) ∧
    (∃ s1 s2 s3 s4,
      s1 = (if v.getLsbD 3 then abortAll s else s) ∧ s2 = (if v.getLsbD 1 then newSession s1 else s1) ∧
      s3 = (if v.getLsbD 0 then commitEvery s2 else s2) ∧ s4 = (if v.getLsbD 2 then stopInput s3 else s3) ∧
      exec (.regWrite (regAddr .gCtrl) v) s = .next { s4 with responses := .ok :: s4.responses }) ∧
    (∃ t, execAll ((if v.getLsbD 3 then [.abort] else []) ++ (if v.getLsbD 1 then [.sresetAll] else []) ++
        (if v.getLsbD 0 then [.commitAll] else []) ++ (if v.getLsbD 2 then [.stop] else [])) s = .next t ∧
      exec (.regWrite 0x0000 v) s = .next { t with responses := .ok :: t.responses })

/-- The five causes of a bus error; in each the transaction is answered `ERR` and no state of the block changes
(60_exceptions.md R404). For the fourth, the host's turn passes (log 1), and of the words behind the refused descriptor
some are taken with it: the spec does not say how many (log 2; the model takes none, log 11). -/
def Obligations.BusErrorAnswersErrAndChangesNothing : Prop :=
  ∀ s : State,
    (∀ a v, a.toNat % 4 ≠ 0 →
      exec (.regRead a) s = .next { s with responses := .err :: s.responses } ∧
      exec (.regWrite a v) s = .next { s with responses := .err :: s.responses }) ∧
    (∀ a v, (∀ r, regAddr r ≠ a) →
      exec (.regRead a) s = .next { s with responses := .err :: s.responses } ∧
      exec (.regWrite a v) s = .next { s with responses := .err :: s.responses }) ∧
    (∀ r v, regClass r = .ro →
      exec (.regWrite (regAddr r) v) s = .next { s with responses := .err :: s.responses }) ∧
    (∀ d rest, nextTurn s = .agent .host → s.script = d :: rest →
      d ∉ ([0x0100, 0x0200, 0x0300, 0x0400, 0x0500] : List Half) →
      ∃ k, step s = .next { s with
        script := rest.drop k, responses := .err :: s.responses, schedule := s.schedule.tail, turns := s.turns + 1 }) ∧
    (∀ x, s.qSrc.closed = true → exec (.srcPush x) s = .next { s with responses := .err :: s.responses })

/-- `SRC_PUSH` (40_control.md R203): `ERR` on a closed queue; on an open one the sample is queued as given while there
is room, and the host is held while there is none (R88). That a held push, performed all the same, answers the unchanged
state is the model's choice (log 5). -/
def Obligations.SrcPushQueuesOrHolds : Prop :=
  ∀ (x : Cplx) (s : State),
    (encode (.srcPush x)).head? = some 0x0300 ∧
    (s.qSrc.closed = true →
      held (.srcPush x) s = false ∧ exec (.srcPush x) s = .next { s with responses := .err :: s.responses }) ∧
    (s.qSrc.closed = false → s.qSrc.items.length < Config.fifoDepth →
      held (.srcPush x) s = false ∧
      exec (.srcPush x) s = .next { s with
        qSrc := ⟨s.qSrc.items ++ [x], false⟩, responses := .ok :: s.responses }) ∧
    (s.qSrc.closed = false → Config.fifoDepth ≤ s.qSrc.items.length →
      held (.srcPush x) s = true ∧ exec (.srcPush x) s = .next s)

/-- `FRAME_POP` (40_control.md R204) gives the oldest frame, `EOS` when `Q_FRAME` is closed and empty, and is held while
it is empty and open (R88); `SOFT_POP` (R205) does the same with `Q_SOFT`; `FRAME_EOS` shows that `Q_FRAME` has ended. That a
held pop, performed all the same, answers the unchanged state is the model's choice (log 5). -/
def Obligations.PopsAnswerOldestOrEos : Prop :=
  ∀ s : State,
    encode .framePop = [0x0400] ∧ encode .softPop = [0x0500] ∧
    ((regShows .gStatus s).getLsbD 3 = true ↔ s.qFrame = ⟨[], true⟩) ∧
    (∀ f fs, s.qFrame.items = f :: fs →
      exec .framePop s = .next { s with
        qFrame := ⟨fs, s.qFrame.closed⟩, responses := .frame f :: s.responses }) ∧
    (∀ v vs, s.qSoft.items = v :: vs →
      exec .softPop s = .next { s with qSoft := ⟨vs, s.qSoft.closed⟩, responses := .soft v :: s.responses }) ∧
    (s.qFrame = ⟨[], true⟩ → exec .framePop s = .next { s with responses := .eos :: s.responses }) ∧
    (s.qSoft = ⟨[], true⟩ → exec .softPop s = .next { s with responses := .eos :: s.responses }) ∧
    (s.qFrame = ⟨[], false⟩ → held .framePop s = true ∧ exec .framePop s = .next s) ∧
    (s.qSoft = ⟨[], false⟩ → held .softPop s = true ∧ exec .softPop s = .next s)

/-! ### COMMIT, SRESET and the global actions -/

/-- A `COMMIT` whose checks pass makes the shadow values active, computes the derived values by their formulas (41_agc.md
R231, 42_carrier.md R243, 44_clock_recovery.md R261, 45_snr.md R271, 47_deframer.md R290), sets `CFG_VALID`, clears the
error and resets the unit's datapath; nothing else changes (40_control.md R206, 10_state.md R37). -/
def Obligations.CommitAppliesShadowConfiguration : Prop :=
  ∀ s : State,
    (validateAgc s.agc.shadow = 0 → exec .commitAgc s = .next { s with agc :=
      ⟨s.agc.shadow, s.agc.shadow, Fp.div 0x3F800000 s.agc.shadow.maxGain, ⟨true, false, 0⟩, ⟨0x3F800000⟩⟩ }) ∧
    (validateCostas s.costas.shadow = 0 → exec .commitCostas s = .next { s with costas :=
      ⟨s.costas.shadow, s.costas.shadow, ⟨true, false, 0⟩⟩ }) ∧
    (∀ t1 bb d : F32, t1 = Fp.mul 0x3FB504F3 s.pll.shadow.loopBw →
      bb = Fp.mul s.pll.shadow.loopBw s.pll.shadow.loopBw → d = Fp.add (Fp.add 0x3F800000 t1) bb →
      validatePll s.pll.shadow = 0 → exec .commitPll s = .next { s with pll :=
        ⟨s.pll.shadow, s.pll.shadow,
          { alpha := Fp.div (Fp.mul 0x403504F3 s.pll.shadow.loopBw) d, beta := Fp.div (Fp.mul 0x40800000 bb) d },
          ⟨true, false, 0⟩, ⟨0, 0⟩⟩ }) ∧
    (validateRrc s.rrc.shadow = 0 → exec .commitRrc s = .next { s with rrc :=
      ⟨s.rrc.shadow, s.rrc.shadow, ⟨true, false, 0⟩, ⟨Vector.replicate Config.maxTaps ⟨0, 0⟩⟩⟩ }) ∧
    (∀ lim : F32, lim = Fp.mul s.mm.shadow.omega s.mm.shadow.relLimit →
      validateMm s.mm.shadow = 0 → exec .commitMm s = .next { s with mm :=
        ⟨s.mm.shadow, s.mm.shadow,
          { omegaLim := lim, omegaMin := Fp.sub s.mm.shadow.omega lim, omegaMax := Fp.add s.mm.shadow.omega lim },
          ⟨true, false, 0⟩,
          ⟨⟨0, 0⟩, ⟨0, 0⟩, 0, s.mm.shadow.muInit, s.mm.shadow.omega, 0, ⟨0, 0⟩, ⟨0, 0⟩, ⟨0, 0⟩, ⟨0, 0⟩⟩⟩ }) ∧
    (validateSnr s.snr.shadow = 0 → exec .commitSnr s = .next { s with snr :=
      ⟨s.snr.shadow, s.snr.shadow, Fp.sub 0x3F800000 s.snr.shadow.alpha, ⟨true, false, 0⟩, ⟨0, 0, 0, 0⟩⟩ }) ∧
    (validateSlicer s.slicer.shadow = 0 → exec .commitSlicer s = .next { s with slicer :=
      ⟨s.slicer.shadow, s.slicer.shadow, ⟨true, false, 0⟩⟩ }) ∧
    exec .commitRepacker s = .next { s with repacker :=
      ⟨s.repacker.shadow, s.repacker.shadow, ⟨true, false, 0⟩, ⟨0, 0⟩⟩ } ∧
    (validateDeframer s.deframer.shadow = 0 → exec .commitDeframer s = .next { s with deframer :=
      ⟨s.deframer.shadow, s.deframer.shadow,
        (s.deframer.shadow.asmHi ++ s.deframer.shadow.asmLo) &&&
          BitVec.ofNat 64 (2 ^ s.deframer.shadow.asmLen.toNat - 1),
        ⟨true, false, 0⟩, ⟨.nosync, 0, 0, 0, 0, false, 0⟩⟩ })

/-- A `COMMIT` with a failing check raises `CfgError`: `CFG_VALID <- 0`, `CFG_ERR <- 1`, `ERR_CODE` the code, and
nothing else changes; the write that started it is answered `OK`; a unit without `CFG_VALID` takes no data step
(60_exceptions.md R402). -/
def Obligations.FailedCommitRecordsOnlyTheError : Prop :=
  ∀ s : State,
    (∀ c, validateAgc s.agc.shadow = c → c ≠ 0 →
      exec .commitAgc s = .next { s with agc.status := ⟨false, true, c⟩ }) ∧
    (∀ c, validateCostas s.costas.shadow = c → c ≠ 0 →
      exec .commitCostas s = .next { s with costas.status := ⟨false, true, c⟩ }) ∧
    (∀ c, validatePll s.pll.shadow = c → c ≠ 0 →
      exec .commitPll s = .next { s with pll.status := ⟨false, true, c⟩ }) ∧
    (∀ c, validateRrc s.rrc.shadow = c → c ≠ 0 →
      exec .commitRrc s = .next { s with rrc.status := ⟨false, true, c⟩ }) ∧
    (∀ c, validateMm s.mm.shadow = c → c ≠ 0 →
      exec .commitMm s = .next { s with mm.status := ⟨false, true, c⟩ }) ∧
    (∀ c, validateSnr s.snr.shadow = c → c ≠ 0 →
      exec .commitSnr s = .next { s with snr.status := ⟨false, true, c⟩ }) ∧
    (∀ c, validateSlicer s.slicer.shadow = c → c ≠ 0 →
      exec .commitSlicer s = .next { s with slicer.status := ⟨false, true, c⟩ }) ∧
    (∀ c, validateDeframer s.deframer.shadow = c → c ≠ 0 →
      exec .commitDeframer s = .next { s with deframer.status := ⟨false, true, c⟩ }) ∧
    (∀ u i, (u, i) ∈ [(UnitId.agc, Instr.commitAgc), (.costas, .commitCostas), (.pll, .commitPll), (.rrc, .commitRrc),
        (.mm, .commitMm), (.snr, .commitSnr), (.slicer, .commitSlicer), (.repacker, .commitRepacker),
        (.deframer, .commitDeframer)] →
      ∃ t, exec i s = .next t ∧
        exec (.regWrite (regAddr (.ctrl u)) 1) s = .next { t with responses := .ok :: t.responses }) ∧
    (∀ u a, (u, a) ∈ [(UnitId.agc, Agent.agc), (.costas, .costas), (.pll, .costas), (.rrc, .rrc), (.mm, .mm),
        (.slicer, .slicer), (.repacker, .repacker), (.deframer, .deframer)] →
      (statusOf u s).cfgValid = false → dataEnabled a s = false)

/-- The codes of R401, each unit's checks in their order, the first failing one giving the code (R403). -/
def Obligations.CheckCodesInOrder : Prop :=
  (∀ c : AgcCfg, validateAgc c =
    if ¬ (Fp.finite c.ref ∧ Fp.lt 0 c.ref) then 0x11
    else if ¬ (Fp.finite c.rate ∧ Fp.lt 0 c.rate ∧ Fp.le c.rate 0x3F800000) then 0x12
    else if ¬ (Fp.finite c.maxGain ∧ Fp.le 0x3F800000 c.maxGain) then 0x13 else 0) ∧
  (∀ c : CostasCfg, validateCostas c = if c.order ≠ 2 ∧ c.order ≠ 4 then 0x21 else 0) ∧
  (∀ c : PllCfg, validatePll c =
    if ¬ (Fp.finite c.loopBw ∧ Fp.lt 0 c.loopBw ∧ Fp.le c.loopBw 0x3F800000) then 0x31
    else if ¬ (Fp.finite c.freqMax ∧ Fp.lt 0 c.freqMax ∧ Fp.le c.freqMax 0x40490FDB) then 0x32 else 0) ∧
  (∀ c : RrcCfg, validateRrc c =
    if c.ntaps.toNat < 1 ∨ 255 < c.ntaps.toNat ∨ c.ntaps.toNat % 2 = 0 then 0x41
    else if c.interp.toNat < 1 ∨ 16 < c.interp.toNat then 0x42
    else if ∃ k : Fin Config.maxTaps, k.val < c.ntaps.toNat ∧ Fp.finite (c.taps.get k) = false then 0x43 else 0) ∧
  (∀ c : MmCfg, validateMm c =
    if c.mode ≠ 0 ∧ c.mode ≠ 1 then 0x51
    else if ¬ (Fp.finite c.omega ∧ Fp.le 0x3F800000 c.omega ∧ Fp.le c.omega 0x47800000) then 0x52
    else if ¬ (Fp.finite c.gainOmega ∧ Fp.le 0 c.gainOmega ∧ Fp.le c.gainOmega 0x3F800000) then 0x53
    else if ¬ (Fp.finite c.gainMu ∧ Fp.le 0 c.gainMu ∧ Fp.le c.gainMu 0x3F800000) then 0x54
    else if ¬ (Fp.finite c.relLimit ∧ Fp.le 0 c.relLimit ∧ Fp.lt c.relLimit 0x3F800000) then 0x55
    else if ¬ (Fp.finite c.muInit ∧ Fp.le 0 c.muInit ∧ Fp.lt c.muInit 0x3F800000) then 0x56
    else if ¬ Fp.le 0x3F800000 (Fp.sub (Fp.sub c.omega (Fp.mul c.omega c.relLimit)) c.gainMu) then 0x57 else 0) ∧
  (∀ c : SnrCfg, validateSnr c =
    if ¬ (Fp.finite c.alpha ∧ Fp.lt 0 c.alpha ∧ Fp.le c.alpha 0x3F800000) then 0x61
    else if ¬ (Fp.finite c.cap ∧ Fp.le 0 c.cap) then 0x62 else 0) ∧
  (∀ c : SlicerCfg, validateSlicer c = if ¬ (Fp.finite c.softScale ∧ Fp.lt 0 c.softScale) then 0x71 else 0) ∧
  (∀ c : DeframerCfg, validateDeframer c =
    if c.asmLen.toNat < 1 ∨ 64 < c.asmLen.toNat then 0x91
    else if c.frameLen.toNat < 1 ∨ 8192 < c.frameLen.toNat then 0x92
    else if 8 * c.frameLen.toNat < c.asmLen.toNat then 0x93
    else if c.asmLen.toNat ≤ c.bitErrTol.toNat then 0x94
    else if 255 < c.missTol.toNat then 0x95 else 0)

/-- `SRESET` of each unit puts its datapath state at its reset values and touches nothing else (40_control.md R207). -/
def Obligations.SresetRestoresDatapath : Prop :=
  ∀ s : State,
    exec .sresetAgc s = .next { s with agc.data.g := 0x3F800000 } ∧
    exec .sresetCostas s = .next s ∧
    exec .sresetPll s = .next { s with pll.data.phase := 0, pll.data.freq := 0 } ∧
    exec .sresetRrc s = .next { s with rrc.data.d := Vector.replicate Config.maxTaps ⟨0, 0⟩ } ∧
    exec .sresetMm s = .next { s with mm.data :=
      ⟨⟨0, 0⟩, ⟨0, 0⟩, 0, s.mm.cfg.muInit, s.mm.cfg.omega, 0, ⟨0, 0⟩, ⟨0, 0⟩, ⟨0, 0⟩, ⟨0, 0⟩⟩ } ∧
    exec .sresetSnr s = .next { s with snr.data := ⟨0, 0, 0, 0⟩ } ∧
    exec .sresetSlicer s = .next s ∧
    exec .sresetRepacker s = .next { s with repacker.data := ⟨0, 0⟩ } ∧
    exec .sresetDeframer s = .next { s with deframer.data := ⟨.nosync, 0, 0, 0, 0, false, 0⟩ }

/-- `COMMIT_ALL` validates every unit on its own: each unit ends as its own `COMMIT` alone leaves it, whatever the
others do, and nothing but the units changes (40_control.md R208, 60_exceptions.md R403). -/
def Obligations.CommitAllCommitsEachUnitOnItsOwn : Prop :=
  ∀ s : State, ∃ t, exec .commitAll s = .next t ∧
    t = { s with
      agc := (commitUnit .agc s).agc, costas := (commitUnit .costas s).costas, pll := (commitUnit .pll s).pll,
      rrc := (commitUnit .rrc s).rrc, mm := (commitUnit .mm s).mm, snr := (commitUnit .snr s).snr,
      slicer := (commitUnit .slicer s).slicer, repacker := (commitUnit .repacker s).repacker,
      deframer := (commitUnit .deframer s).deframer } ∧
    ((∀ u, (statusOf u (commitUnit u s)).cfgErr = false) → allValid t = true ∧ anyErr t = false)

/-- `SRESET_ALL` empties and opens every queue, clears `ABORTED` and resets every datapath; configuration and status
are kept (40_control.md R209, 70_reset_and_hazards.md R501). -/
def Obligations.SresetAllStartsNewSession : Prop :=
  ∀ s : State, exec .sresetAll s = .next { s with
    agc.data := ⟨0x3F800000⟩, pll.data := ⟨0, 0⟩, rrc.data := ⟨Vector.replicate Config.maxTaps ⟨0, 0⟩⟩,
    mm.data := ⟨⟨0, 0⟩, ⟨0, 0⟩, 0, s.mm.cfg.muInit, s.mm.cfg.omega, 0, ⟨0, 0⟩, ⟨0, 0⟩, ⟨0, 0⟩, ⟨0, 0⟩⟩,
    snr.data := ⟨0, 0, 0, 0⟩, repacker.data := ⟨0, 0⟩, deframer.data := ⟨.nosync, 0, 0, 0, 0, false, 0⟩,
    qSrc := ⟨[], false⟩, qAgc := ⟨[], false⟩, qCar := ⟨[], false⟩, qMf := ⟨[], false⟩, qSym := ⟨[], false⟩,
    qBit := ⟨[], false⟩, qSoft := ⟨[], false⟩, qByte := ⟨[], false⟩, qFrame := ⟨[], false⟩, aborted := false }

/-- `STOP` closes `Q_SRC` and does nothing else; its items stay, and a second `STOP` changes nothing (40_control.md
R210). -/
def Obligations.StopClosesTheSource : Prop :=
  ∀ s : State, ∃ t, exec .stop s = .next t ∧ t = { s with qSrc := ⟨s.qSrc.items, true⟩ } ∧ exec .stop t = .next t

/-- `ABORT` empties and closes every queue and sets `ABORTED`; datapath state and configuration are kept, the pops
answer `EOS`, a push `ERR`, and no data step is enabled (40_control.md R211). -/
def Obligations.AbortClosesAndEmptiesEveryQueue : Prop :=
  ∀ s : State, ∃ t, exec .abort s = .next t ∧
    t = { s with
      qSrc := ⟨[], true⟩, qAgc := ⟨[], true⟩, qCar := ⟨[], true⟩, qMf := ⟨[], true⟩, qSym := ⟨[], true⟩,
      qBit := ⟨[], true⟩, qSoft := ⟨[], true⟩, qByte := ⟨[], true⟩, qFrame := ⟨[], true⟩, aborted := true } ∧
    exec .framePop t = .next { t with responses := .eos :: t.responses } ∧
    exec .softPop t = .next { t with responses := .eos :: t.responses } ∧
    (∀ x, exec (.srcPush x) t = .next { t with responses := .err :: t.responses }) ∧
    (∀ a, dataEnabled a t = false) ∧ (∀ a, eosEnabled a t = false)

/-! ### Data steps: enabling, and the units' results -/

/-- A data step is enabled exactly as 20_memory.md R84 says; enabled, it takes exactly the oldest item of its input
queue; not enabled, it does not happen and the unit waits. -/
def Obligations.DataStepsAreEnabledByTheRule : Prop :=
  ∀ s : State,
    (dataEnabled .agc s = true ↔ s.agc.status.cfgValid = true ∧ 1 ≤ s.qSrc.items.length ∧
      s.qAgc.closed = false ∧ s.qAgc.items.length + 1 ≤ Config.fifoDepth) ∧
    (dataEnabled .costas s = true ↔ s.costas.status.cfgValid = true ∧ s.pll.status.cfgValid = true ∧
      1 ≤ s.qAgc.items.length ∧ s.qCar.closed = false ∧ s.qCar.items.length + 1 ≤ Config.fifoDepth) ∧
    (dataEnabled .rrc s = true ↔ s.rrc.status.cfgValid = true ∧ 1 ≤ s.qCar.items.length ∧
      s.qMf.closed = false ∧ s.qMf.items.length + s.rrc.cfg.interp.toNat ≤ Config.fifoDepth) ∧
    (dataEnabled .mm s = true ↔ s.mm.status.cfgValid = true ∧ 1 ≤ s.qMf.items.length ∧
      s.qSym.closed = false ∧ s.qSym.items.length + 1 ≤ Config.fifoDepth) ∧
    (dataEnabled .slicer s = true ↔ s.slicer.status.cfgValid = true ∧ 1 ≤ s.qSym.items.length ∧
      s.qBit.closed = false ∧ s.qBit.items.length + (if s.slicer.cfg.cplx then 2 else 1) ≤ Config.fifoDepth ∧
      s.qSoft.closed = false ∧ s.qSoft.items.length +
        (if s.slicer.cfg.softEn = false then 0 else if s.slicer.cfg.cplx then 2 else 1) ≤ Config.fifoDepth) ∧
    (dataEnabled .repacker s = true ↔ s.repacker.status.cfgValid = true ∧ 1 ≤ s.qBit.items.length ∧
      s.qByte.closed = false ∧ s.qByte.items.length + 1 ≤ Config.fifoDepth) ∧
    (dataEnabled .deframer s = true ↔ s.deframer.status.cfgValid = true ∧ 1 ≤ s.qByte.items.length ∧
      s.qFrame.closed = false ∧ s.qFrame.items.length + 1 ≤ Config.fifoDepth) ∧
    (∀ a i, dataStep a = some i → dataEnabled a s = false → exec i s = .next s) ∧
    (∀ e, s.pll.status.cfgValid = false → exec (.pllAdvance e) s = .next s) ∧
    (∀ x, s.snr.status.cfgValid = false → exec (.snrUpdate x) s = .next s) ∧
    (∀ x, s.deframer.status.cfgValid = false → exec (.deframeBit x) s = .next s)

/-- `AGC_STEP` (41_agc.md R232). -/
def Obligations.AgcStepScalesAndUpdatesTheGain : Prop :=
  ∀ (s : State) (x : Cplx) (xs : List Cplx) (xr xi yr yi m gc : F32),
    s.qSrc.items = x :: xs → dataEnabled .agc s = true →
    xr = Fp.fin0 x.re → xi = Fp.fin0 x.im → yr = Fp.mul s.agc.data.g xr → yi = Fp.mul s.agc.data.g xi →
    m = Fp.sqrt (Fp.add (Fp.mul yr yr) (Fp.mul yi yi)) →
    gc = Fp.add s.agc.data.g (Fp.mul s.agc.cfg.rate (Fp.sub s.agc.cfg.ref m)) →
    exec .agcStep s = .next { s with
      qSrc := ⟨xs, s.qSrc.closed⟩
      qAgc := ⟨s.qAgc.items ++ [⟨Fp.fin0 yr, Fp.fin0 yi⟩], s.qAgc.closed⟩
      agc.data.g :=
        if Fp.lt 0 m ∧ Fp.finite m ∧ Fp.finite gc then
          (if Fp.lt gc s.agc.gainMin then s.agc.gainMin
           else if Fp.lt s.agc.cfg.maxGain gc then s.agc.cfg.maxGain else gc)
        else s.agc.data.g }

/-- Every `AGC_STEP` keeps the gain between `GAIN_MIN` and `MAX_GAIN` (41_agc.md R233 item 2). -/
def Obligations.AgcStepKeepsGainInRange : Prop :=
  ∀ s t : State, GainInRange s → exec .agcStep s = .next t → GainInRange t

/-- A successful `COMMIT` of `AGC` leaves `0 < GAIN_MIN <= 1 <= MAX_GAIN`, so the gain 1.0 is in range (41_agc.md
R231). -/
def Obligations.AgcCommitPutsGainInRange : Prop :=
  ∀ s : State, validateAgc s.agc.shadow = 0 →
    ∃ t, exec .commitAgc s = .next t ∧ GainInRange t ∧ Fp.lt 0 t.agc.gainMin = true ∧
      Fp.le t.agc.gainMin 0x3F800000 = true

/-- `PLL_ADVANCE(e)` (42_carrier.md R244), issued alone (log 4). -/
def Obligations.PllAdvanceUpdatesFreqThenPhase : Prop :=
  ∀ (s : State) (e e1 f f0 p1 : F32), s.pll.status.cfgValid = true →
    e1 = (if Fp.isNaN e then 0 else if Fp.lt 0x3F800000 e then 0x3F800000
      else if Fp.lt e 0xBF800000 then 0xBF800000 else e) →
    f0 = Fp.add s.pll.data.freq (Fp.mul s.pll.derived.beta e1) →
    f = (if Fp.lt f0 (Fp.neg s.pll.cfg.freqMax) then Fp.neg s.pll.cfg.freqMax
      else if Fp.lt s.pll.cfg.freqMax f0 then s.pll.cfg.freqMax else f0) →
    p1 = Fp.add (Fp.add s.pll.data.phase f) (Fp.mul s.pll.derived.alpha e1) →
    exec (.pllAdvance e) s = .next { s with
      pll.data.freq := f
      pll.data.phase :=
        if Fp.lt 0x40490FDB p1 then Fp.sub p1 0x40C90FDB
        else if Fp.lt p1 0xC0490FDB then Fp.add p1 0x40C90FDB else p1 }

/-- The loop frequency stays between `-FREQ_MAX` and `FREQ_MAX`, whatever the error (42_carrier.md R244). -/
def Obligations.LoopKeepsFrequencyInRange : Prop :=
  ∀ s t : State, FreqInRange s → Fp.finite s.pll.cfg.freqMax = true → Fp.finite s.pll.derived.beta = true →
    (∃ e, exec (.pllAdvance e) s = .next t) ∨ exec .costasStep s = .next t → FreqInRange t

/-- `COSTAS_STEP` (42_carrier.md R245): derotate by the phase before the update, form the error of the order, advance
the loop by `PLL_ADVANCE`, push the derotated sample. -/
def Obligations.CostasStepDerotatesAndAdvancesTheLoop : Prop :=
  ∀ (s : State) (x : Cplx) (xs : List Cplx) (c k yr yi e : F32),
    s.qAgc.items = x :: xs → dataEnabled .costas s = true →
    c = Fp.cos s.pll.data.phase → k = Fp.sin s.pll.data.phase →
    yr = Fp.add (Fp.mul x.re c) (Fp.mul x.im k) → yi = Fp.sub (Fp.mul x.im c) (Fp.mul x.re k) →
    e = (if s.costas.cfg.order = 2 then Fp.mul (Fp.dec yr) yi
      else Fp.sub (Fp.mul (Fp.dec yr) yi) (Fp.mul (Fp.dec yi) yr)) →
    ∃ t, exec (.pllAdvance e) s = .next t ∧
      exec .costasStep s = .next { s with
        qAgc := ⟨xs, s.qAgc.closed⟩
        qCar := ⟨s.qCar.items ++ [⟨Fp.fin0 yr, Fp.fin0 yi⟩], s.qCar.closed⟩
        pll.data := t.pll.data }

/-- `RRC_STEP` (43_rrc.md R252, R254): `INTERP` outputs, output `r` being the sum over the taps of the delay line after
`r` zeros have followed the sample: in each component the products `h[k] * d[k]`, each rounded, added in increasing `k`,
one rounding per sum; afterwards the first `NTAPS` entries of the line are the last
values inserted, the newest first, and the entries above them are unchanged. -/
def Obligations.RrcStepFiltersTheZeroStuffedSample : Prop :=
  ∀ (s : State) (x : Cplx) (xs : List Cplx) (n l : Nat),
    s.qCar.items = x :: xs → dataEnabled .rrc s = true → validateRrc s.rrc.cfg = 0 →
    n = s.rrc.cfg.ntaps.toNat → l = s.rrc.cfg.interp.toNat →
    ∃ (ys : List Cplx) (d : Vector Cplx Config.maxTaps),
      exec .rrcStep s = .next { s with
        qCar := ⟨xs, s.qCar.closed⟩, qMf := ⟨s.qMf.items ++ ys, s.qMf.closed⟩, rrc.data.d := d } ∧
      ys.length = l ∧ (∀ y ∈ ys, Fp.finiteC y = true) ∧
      (∀ (r : Nat) (line : List Cplx) (res ims : List F32), r < l →
        line = List.replicate r ⟨0, 0⟩ ++ Cplx.mk (Fp.fin0 x.re) (Fp.fin0 x.im) :: s.rrc.data.d.toList →
        res = List.zipWith (fun h u => Fp.mul h u.re) (s.rrc.cfg.taps.toList.take n) line →
        ims = List.zipWith (fun h u => Fp.mul h u.im) (s.rrc.cfg.taps.toList.take n) line →
        ys[r]? = some ⟨Fp.fin0 (res.tail.foldl Fp.add (res.headD 0)), Fp.fin0 (ims.tail.foldl Fp.add (ims.headD 0))⟩) ∧
      d.toList.take n = ((List.replicate (l - 1) Cplx.zero ++
        Cplx.mk (Fp.fin0 x.re) (Fp.fin0 x.im) :: s.rrc.data.d.toList).take n) ∧
      d.toList.drop n = s.rrc.data.d.toList.drop n

/-- `MM_STEP` (44_clock_recovery.md R262): a sample that only fills the history, and a sample that completes a timing
cycle in real and in complex mode; the symbol goes to `SNR_UPDATE` when `SNR` is valid. -/
def Obligations.MmStepRecoversSymbols : Prop :=
  ∀ (s : State) (x : Cplx) (xs : List Cplx) (b p0 : Cplx),
    s.qMf.items = x :: xs → dataEnabled .mm s = true →
    b = (if s.mm.cfg.mode = 0 then ⟨Fp.fin0 x.re, 0⟩ else ⟨Fp.fin0 x.re, Fp.fin0 x.im⟩) →
    p0 = ⟨Fp.fin0 (Fp.add s.mm.data.b.re (Fp.mul s.mm.data.mu (Fp.sub b.re s.mm.data.b.re))),
      Fp.fin0 (Fp.add s.mm.data.b.im (Fp.mul s.mm.data.mu (Fp.sub b.im s.mm.data.b.im)))⟩ →
    (0 < s.mm.data.wait →
      exec .mmStep s = .next { s with
        qMf := ⟨xs, s.qMf.closed⟩
        mm.data.a := s.mm.data.b, mm.data.b := b, mm.data.wait := s.mm.data.wait - 1 }) ∧
    (∀ (e mu1 : F32) (adv : Int), s.mm.data.wait = 0 →
      e = Fp.clip1 (if s.mm.cfg.mode = 0 then
          Fp.sub (Fp.mul (Fp.dec s.mm.data.last) p0.re) (Fp.mul (Fp.dec p0.re) s.mm.data.last)
        else Fp.sub
          (Fp.add (Fp.mul (Fp.sub p0.re s.mm.data.p2.re) s.mm.data.c1.re)
            (Fp.mul (Fp.sub p0.im s.mm.data.p2.im) s.mm.data.c1.im))
          (Fp.add (Fp.mul (Fp.sub (Fp.dec p0.re) s.mm.data.c2.re) s.mm.data.p1.re)
            (Fp.mul (Fp.sub (Fp.dec p0.im) s.mm.data.c2.im) s.mm.data.p1.im))) →
      mu1 = Fp.add (Fp.add s.mm.data.mu s.mm.data.omega) (Fp.mul s.mm.cfg.gainMu e) →
      adv = Fp.floorInt mu1 →
      ∃ (sym : Cplx) (snr : SnrUnit),
        sym = (if s.mm.cfg.mode = 0 then ⟨p0.re, 0⟩ else p0) ∧
        exec (.snrUpdate sym) s = .next { s with snr := snr } ∧
        exec .mmStep s = .next { s with
          qMf := ⟨xs, s.qMf.closed⟩
          qSym := ⟨s.qSym.items ++ [sym], s.qSym.closed⟩
          snr := snr
          mm.data := {
            a := s.mm.data.b, b := b, wait := (adv - 1).toNat
            mu := Fp.sub mu1 (Fp.ofInt adv)
            omega := Fp.clamp (Fp.add s.mm.data.omega (Fp.mul s.mm.cfg.gainOmega e))
              s.mm.derived.omegaMin s.mm.derived.omegaMax
            last := if s.mm.cfg.mode = 0 then p0.re else s.mm.data.last
            p1 := if s.mm.cfg.mode = 0 then s.mm.data.p1 else p0
            p2 := if s.mm.cfg.mode = 0 then s.mm.data.p2 else s.mm.data.p1
            c1 := if s.mm.cfg.mode = 0 then s.mm.data.c1 else ⟨Fp.dec p0.re, Fp.dec p0.im⟩
            c2 := if s.mm.cfg.mode = 0 then s.mm.data.c2 else s.mm.data.c1 } })

/-- Every `MM_STEP` keeps `omega` between `OMEGA_MIN` and `OMEGA_MAX` (44_clock_recovery.md R263 item 2). -/
def Obligations.MmStepKeepsOmegaInRange : Prop :=
  ∀ s t : State, OmegaInRange s → Fp.finite s.mm.data.omega = true → Fp.finite s.mm.cfg.gainOmega = true →
    exec .mmStep s = .next t → OmegaInRange t

/-- `SNR_UPDATE` (45_snr.md R272, R273), issued alone (log 4). The squared magnitude of a symbol that is not finite, which
R272 does not have, is a free value (log 17). -/
def Obligations.SnrUpdateAveragesAndEstimates : Prop :=
  ∀ (s : State) (x : Cplx) (m2 y1 y2 d sig noise r capped est : F32), s.snr.status.cfgValid = true →
    m2 = (if Fp.finite x.re = true ∧ Fp.finite x.im = true then Fp.add (Fp.mul x.re x.re) (Fp.mul x.im x.im)
      else Config.snrPowerOpen x) →
    y1 = Fp.fin0 (Fp.add (Fp.mul s.snr.oneMAlpha s.snr.data.y1) (Fp.mul s.snr.cfg.alpha m2)) →
    y2 = Fp.fin0 (Fp.add (Fp.mul s.snr.oneMAlpha s.snr.data.y2) (Fp.mul s.snr.cfg.alpha (Fp.mul m2 m2))) →
    d = Fp.sub (Fp.mul (Fp.mul 0x40000000 y1) y1) y2 → sig = (if Fp.lt 0 d then Fp.sqrt d else 0) →
    noise = Fp.sub y1 sig → r = Fp.mul 0x41200000 (Fp.log10 (Fp.div sig noise)) →
    capped = (if Fp.lt r s.snr.cfg.cap then r else s.snr.cfg.cap) →
    est = (if Fp.lt 0 sig = false then 0
      else if Fp.lt 0 noise = false then s.snr.cfg.cap
      else if Fp.finite (Fp.div sig noise) = false then s.snr.cfg.cap
      else if Fp.isNaN r then 0 else if Fp.lt capped 0 then 0 else capped) →
    exec (.snrUpdate x) s = .next { s with snr.data :=
      ⟨y1, y2, est, if Fp.lt est s.snr.data.peak then s.snr.data.peak else est⟩ }

/-- The estimate and its peak stay in `[0, SNR_CAP]` through every `SNR_UPDATE` and `MM_STEP` (45_snr.md R272). -/
def Obligations.SnrStaysInRange : Prop :=
  ∀ s t : State, SnrInRange s → Fp.le 0 s.snr.cfg.cap = true →
    (∃ x, exec (.snrUpdate x) s = .next t) ∨ exec .mmStep s = .next t → SnrInRange t

/-- `SLICE` (46_slicer_repacker.md R281): a bit 1 for a component above zero, 0 otherwise, the I bit first, and with
`SOFT_EN` a soft value for each bit. -/
def Obligations.SlicePushesHardAndSoftDecisions : Prop :=
  ∀ (s : State) (x : Cplx) (xs : List Cplx) (vs : List F32),
    s.qSym.items = x :: xs → dataEnabled .slicer s = true →
    vs = (if s.slicer.cfg.cplx then [x.re, x.im] else [x.re]) →
    exec .slice s = .next { s with
      qSym := ⟨xs, s.qSym.closed⟩
      qBit := ⟨s.qBit.items ++ vs.map fun v => Fp.lt 0 v, s.qBit.closed⟩
      qSoft := ⟨s.qSoft.items ++
        (if s.slicer.cfg.softEn then vs.map fun v => softq s.slicer.cfg.softScale v else []), s.qSoft.closed⟩ }

/-- The soft value is the product with the scale rounded to the nearest integer, ties to even, and saturated to
-127..127; it is 0 for a NaN product (46_slicer_repacker.md R282). So it is in -127..127 and is positive exactly when the
product is above one half. -/
def Obligations.SoftValueRangeAndSign : Prop :=
  ∀ scale v : F32,
    -127 ≤ (softq scale v).toInt ∧ (softq scale v).toInt ≤ 127 ∧
    (Fp.isNaN (Fp.mul v scale) = true → (softq scale v).toInt = 0) ∧
    (0 < (softq scale v).toInt ↔ Fp.lt 0x3F000000 (Fp.mul v scale) = true) ∧
    ((softq scale v).toInt < 0 ↔ Fp.lt (Fp.mul v scale) 0xBF000000 = true) ∧
    (Fp.finite (Fp.mul v scale) = true → ∃ r : ℤ,
      |(r : ℚ) - realValue (Fp.mul v scale)| ≤ 1 / 2 ∧
      (|(r : ℚ) - realValue (Fp.mul v scale)| = 1 / 2 → r % 2 = 0) ∧
      (softq scale v).toInt = if 127 < r then 127 else if r < -127 then -127 else r) ∧
    (Fp.mul v scale = 0x7F800000 → (softq scale v).toInt = 127) ∧
    (Fp.mul v scale = 0xFF800000 → (softq scale v).toInt = -127)

/-- `REPACK_BIT` (46_slicer_repacker.md R283). -/
def Obligations.RepackBitPlacesTheBit : Prop :=
  ∀ (s : State) (b : Bool) (bs : List Bool) (acc : Byte),
    s.qBit.items = b :: bs → dataEnabled .repacker s = true →
    acc = (if s.repacker.cfg.lsbFirst then
        s.repacker.data.acc ||| ((if b then 1 else 0 : Byte) <<< s.repacker.data.n)
      else (s.repacker.data.acc <<< 1) ||| (if b then 1 else 0 : Byte)) →
    exec .repackBit s = .next { s with
      qBit := ⟨bs, s.qBit.closed⟩
      qByte := ⟨s.qByte.items ++ (if s.repacker.data.n + 1 = 8 then [acc] else []), s.qByte.closed⟩
      repacker.data := if s.repacker.data.n + 1 = 8 then ⟨0, 0⟩ else ⟨acc, s.repacker.data.n + 1⟩ }

/-- The repacker contract: every bit fed is in a pushed byte or held, in order; `floor((c + N) / 8)` bytes are pushed and
`(c + N) mod 8` bits held (46_slicer_repacker.md R284). -/
def Obligations.RepackerNeverDropsABit : Prop :=
  ∀ (s : State) (bits more : List Bool), s.qBit.items = bits ++ more → s.repacker.status.cfgValid = true →
    RepackerOk s.repacker.data → hasRoom s.qByte ((s.repacker.data.n + bits.length) / 8 + 1) = true →
    ∃ t ys, execAll (List.replicate bits.length .repackBit) s = .next t ∧
      t.qBit.items = more ∧ t.qByte.items = s.qByte.items ++ ys ∧ RepackerOk t.repacker.data ∧
      heldBits s.repacker.cfg s.repacker.data ++ bits =
        ys.flatMap (receivedBits s.repacker.cfg) ++ heldBits s.repacker.cfg t.repacker.data ∧
      ys.length = (s.repacker.data.n + bits.length) / 8 ∧
      t.repacker.data.n = (s.repacker.data.n + bits.length) % 8

/-- Bytes sent as symbols `+A` and `-A`, bit 7 first, are sliced in real mode and repacked MSB first into the same bytes
(46_slicer_repacker.md R285). Said for `SOFT_EN` = 0 and a place to spare in `Q_BYTE`, one step after another. -/
def Obligations.SlicedSymbolsRepackToTheSameBytes : Prop :=
  ∀ (s : State) (ys : List Byte) (amp : F32) (more : List Cplx),
    Fp.lt 0 amp = true →
    s.qSym.items = ((ys.flatMap byteBits).map fun b => ⟨if b then amp else Fp.neg amp, 0⟩) ++ more →
    s.slicer.status.cfgValid = true → s.slicer.cfg.cplx = false → s.slicer.cfg.softEn = false →
    s.repacker.status.cfgValid = true → s.repacker.cfg.lsbFirst = false → s.repacker.data = ⟨0, 0⟩ →
    s.qBit.items = [] → s.qBit.closed = false → hasRoom s.qSoft 0 = true → hasRoom s.qByte (ys.length + 1) = true →
    execAll (List.replicate (8 * ys.length) [Instr.slice, .repackBit]).flatten s = .next { s with
      qSym := ⟨more, s.qSym.closed⟩, qByte := ⟨s.qByte.items ++ ys, s.qByte.closed⟩ }

/-! ### The deframer -/

/-- The transitions of one `DEFRAME_BIT` (47_deframer.md R291, R292, R294, R296), issued alone (log 4): the window and the
fill count, the search in `NOSYNC`, the marker check of a lock, the loss of the lock, and the frame emitted with the new
state as its tag when it is complete. Every field is given in every case: `buf` bit by bit, and a frame's bytes by the bits
of `buf`, the first on the line in bit 7 (20_memory.md R89). -/
def Obligations.DeframeBitTransitions : Prop :=
  ∀ (s : State) (x hit : Bool) (c : DeframerCfg) (d : DeframerData) (win : BitVec 64) (fill : Nat),
    c = s.deframer.cfg → d = s.deframer.data → validateDeframer c = 0 → DeframerOk c d →
    s.deframer.status.cfgValid = true → hasRoom s.qFrame 1 = true →
    win = ((d.win <<< 1) ||| (if x then 1 else 0)) &&& mask c.asmLen.toNat → fill = min (d.fill + 1) c.asmLen.toNat →
    hit = decide (popcount ((win ^^^ (if d.inv then mask c.asmLen.toNat else 0)) ^^^ s.deframer.asm)
      ≤ c.bitErrTol.toNat) →
    ∃ t e, exec (.deframeBit x) s = .next { s with
        deframer.data := e, qFrame := ⟨s.qFrame.items ++ t, s.qFrame.closed⟩ } ∧
      e.win = win ∧ e.fill = fill ∧
      (d.state = .nosync → fill < c.asmLen.toNat ∨ search c s.deframer.asm win = none →
        t = [] ∧ e = { d with win := win, fill := fill }) ∧
      (∀ p, d.state = .nosync → fill = c.asmLen.toNat → search c s.deframer.asm win = some p →
        e.state = .syncing ∧ e.miss = 0 ∧ e.inv = p ∧
        (∀ i, e.buf.getLsbD i =
          if i < c.asmLen.toNat then xor (win.getLsbD (c.asmLen.toNat - 1 - i)) p else d.buf.getLsbD i) ∧
        (c.asmLen.toNat = 8 * c.frameLen.toNat → e.cnt = 0 ∧ t.map Frame.tag = [.syncing]) ∧
        (c.asmLen.toNat < 8 * c.frameLen.toNat → e.cnt = c.asmLen.toNat ∧ t = [])) ∧
      (d.state ≠ .nosync → ∀ i, e.buf.getLsbD i = if i = d.cnt then xor x d.inv else d.buf.getLsbD i) ∧
      (d.state ≠ .nosync → d.cnt + 1 = c.asmLen.toNat → hit = true → e.state = .synced ∧ e.miss = 0 ∧ e.inv = d.inv) ∧
      (d.state ≠ .nosync → d.cnt + 1 = c.asmLen.toNat → hit = false → d.miss + 1 ≤ c.missTol.toNat →
        e.state = (if d.state = .syncing then .syncing else .syncedMissed) ∧ e.miss = d.miss + 1 ∧ e.inv = d.inv) ∧
      (d.state ≠ .nosync → d.cnt + 1 = c.asmLen.toNat → hit = false → c.missTol.toNat < d.miss + 1 →
        e.state = .nosync ∧ e.miss = 0 ∧ e.inv = false ∧ e.cnt = 0 ∧ t = []) ∧
      (d.state ≠ .nosync → d.cnt + 1 ≠ c.asmLen.toNat → e.state = d.state ∧ e.miss = d.miss ∧ e.inv = d.inv) ∧
      (d.state ≠ .nosync → e.state ≠ .nosync → d.cnt + 1 = 8 * c.frameLen.toNat →
        e.cnt = 0 ∧ t.map Frame.tag = [e.state]) ∧
      (d.state ≠ .nosync → e.state ≠ .nosync → d.cnt + 1 ≠ 8 * c.frameLen.toNat → e.cnt = d.cnt + 1 ∧ t = []) ∧
      (∀ f ∈ t, f.data.length = c.frameLen.toNat ∧
        ∀ j k, j < c.frameLen.toNat → k < 8 →
          (f.data.getD j 0).getLsbD (7 - k) = e.buf.getLsbD (8 * j + k)) ∧
      search c s.deframer.asm win =
        (if popcount (win ^^^ s.deframer.asm) ≤ c.bitErrTol.toNat then some false
         else if c.invEn ∧ popcount ((win ^^^ mask c.asmLen.toNat) ^^^ s.deframer.asm) ≤ c.bitErrTol.toNat then some true
         else none) ∧
      (mask c.asmLen.toNat).toNat = 2 ^ c.asmLen.toNat - 1 ∧
      (∀ w : BitVec 64, popcount w = ((List.range 64).filter fun i => w.getLsbD i).length)

/-- `DEFRAME_BYTE`, wherever R84 enables it, takes the oldest byte and is `DEFRAME_BIT` on its bits 7 down to 0
(47_deframer.md R293): the deframer's data after it and the frames it pushes are those that eight steps issued one by one
(log 4) leave and push from the same data with `Q_FRAME` empty. In a legal state with two places in `Q_FRAME` the eight
steps on the queue as it is answer the same state. -/
def Obligations.DeframeByteIsEightDeframeBits : Prop :=
  ∀ (s : State) (y : Byte) (ys : List Byte) (bits : List Instr),
    s.qByte.items = y :: ys → dataEnabled .deframer s = true →
    bits = [.deframeBit (y.getLsbD 7), .deframeBit (y.getLsbD 6), .deframeBit (y.getLsbD 5), .deframeBit (y.getLsbD 4),
      .deframeBit (y.getLsbD 3), .deframeBit (y.getLsbD 2), .deframeBit (y.getLsbD 1), .deframeBit (y.getLsbD 0)] →
    ∃ (t : State) (d : DeframerData) (fs : List Frame), exec .deframeByte s = .next t ∧
      t = { s with
        qByte := ⟨ys, s.qByte.closed⟩, deframer.data := d, qFrame := ⟨s.qFrame.items ++ fs, s.qFrame.closed⟩ } ∧
      execAll bits { s with qByte := ⟨ys, s.qByte.closed⟩, qFrame := ⟨[], false⟩ } =
        .next { s with qByte := ⟨ys, s.qByte.closed⟩, deframer.data := d, qFrame := ⟨fs, false⟩ } ∧
      (validateDeframer s.deframer.cfg = 0 → DeframerOk s.deframer.cfg s.deframer.data → hasRoom s.qFrame 2 = true →
        execAll bits { s with qByte := ⟨ys, s.qByte.closed⟩ } = .next t)

/-- At most one frame per input byte (47_deframer.md R295 item 1). -/
def Obligations.AtMostOneFramePerByte : Prop :=
  ∀ s t : State, validateDeframer s.deframer.cfg = 0 → DeframerOk s.deframer.cfg s.deframer.data →
    exec .deframeByte s = .next t → t.qFrame.items.length ≤ s.qFrame.items.length + 1

/-- Lock acquisition without a prefix: frames that each start with the exact marker come out unchanged, the first tagged
`SYNCING` and the others `SYNCED` (47_deframer.md R295 items 2 and 3). -/
def Obligations.DeframerRecoversInjectedFrames : Prop :=
  ∀ (c : DeframerCfg) (asm : BitVec 64) (fs : List (List Byte)), validateDeframer c = 0 → asm = deriveDeframer c →
    (∀ f ∈ fs, f.length = c.frameLen.toNat ∧
      (f.flatMap byteBits).take c.asmLen.toNat =
        (List.range c.asmLen.toNat).map fun i => asm.getLsbD (c.asmLen.toNat - 1 - i)) →
    (deframedBits c asm ((fs.flatten).flatMap byteBits) DeframerData.reset).2 =
      fs.mapIdx fun k f => ⟨if k = 0 then .syncing else .synced, f⟩

/-- Inversion: with `INV_EN` and a tolerance under half the marker, the inverted stream gives the same frames with the
same tags (47_deframer.md R291, R295 item 5). -/
def Obligations.InvertedStreamGivesTheSameFrames : Prop :=
  ∀ (c : DeframerCfg) (asm : BitVec 64) (bits : List Bool), validateDeframer c = 0 → asm = deriveDeframer c →
    c.invEn = true → 2 * c.bitErrTol.toNat < c.asmLen.toNat →
    (deframedBits c asm (bits.map not) DeframerData.reset).2 = (deframedBits c asm bits DeframerData.reset).2

/-! ### Streams -/

/-- `EOS_PROPAGATE` of each unit: enabled when its input is closed and empty and some output is open, it closes its
outputs and flushes nothing (40_control.md R212). Otherwise it is not enabled and the agent idles (60_exceptions.md R413);
that it then answers the unchanged state is the model's choice (log 5). -/
def Obligations.EosPropagateClosesTheOutputs : Prop :=
  ∀ s : State,
    (exec .eosPropagateAgc s = .next (if s.qSrc = ⟨[], true⟩ ∧ s.qAgc.closed = false then
      { s with qAgc := ⟨s.qAgc.items, true⟩ } else s)) ∧
    (exec .eosPropagateCostas s = .next (if s.qAgc = ⟨[], true⟩ ∧ s.qCar.closed = false then
      { s with qCar := ⟨s.qCar.items, true⟩ } else s)) ∧
    (exec .eosPropagateRrc s = .next (if s.qCar = ⟨[], true⟩ ∧ s.qMf.closed = false then
      { s with qMf := ⟨s.qMf.items, true⟩ } else s)) ∧
    (exec .eosPropagateMm s = .next (if s.qMf = ⟨[], true⟩ ∧ s.qSym.closed = false then
      { s with qSym := ⟨s.qSym.items, true⟩ } else s)) ∧
    (exec .eosPropagateSlicer s = .next (
      if s.qSym = ⟨[], true⟩ ∧ (s.qBit.closed = false ∨ s.qSoft.closed = false) then
        { s with qBit := ⟨s.qBit.items, true⟩, qSoft := ⟨s.qSoft.items, true⟩ } else s)) ∧
    (exec .eosPropagateRepacker s = .next (if s.qBit = ⟨[], true⟩ ∧ s.qByte.closed = false then
      { s with qByte := ⟨s.qByte.items, true⟩ } else s)) ∧
    (exec .eosPropagateDeframer s = .next (if s.qByte = ⟨[], true⟩ ∧ s.qFrame.closed = false then
      { s with qFrame := ⟨s.qFrame.items, true⟩ } else s))

/-- After `STOP` with an empty chain, a fair scheduler closes `Q_FRAME` after finitely many turns, the host having
nothing to send, and no frame is lost or made (40_control.md R212, 60_exceptions.md R411, R415). The turns, the
schedule that lists them and the host's script are the model's (log 1, log 2, log 13). -/
def Obligations.FairTurnsCloseTheFrameQueue : Prop :=
  ∀ (choice : Nat → Agent) (s : State), FairSchedule choice → s.script = [] → s.lines = [] →
    s.schedule = [] →
    s.qSrc = ⟨[], true⟩ → s.qAgc.items = [] → s.qCar.items = [] → s.qMf.items = [] → s.qSym.items = [] →
    s.qBit.items = [] → s.qByte.items = [] →
    ∃ (n : Nat) (t : State),
      Host.Core.run Sys2Proof.core n { s with schedule := firstTurns choice n } = Host.Outcome.next t ∧
      t.qFrame = ⟨s.qFrame.items, true⟩ ∧ t.responses = s.responses

/-- Two agents' enabled data steps may be taken in either order with the same result: the diamond on which 20_memory.md R87
rests. -/
def Obligations.DataStepsOfTwoAgentsCommute : Prop :=
  ∀ (s : State) (a b : Agent) (i j : Instr), a ≠ b → dataStep a = some i → dataStep b = some j →
    dataEnabled a s = true → dataEnabled b s = true →
    ∃ t, execAll [i, j] s = .next t ∧ execAll [j, i] s = .next t

/-! ### Invariants -/

/-- The five invariants hold after reset. -/
def Obligations.InvariantsHoldAfterReset : Prop :=
  ConfigInv State.reset ∧ DatapathInv State.reset ∧ QueueInv State.reset ∧ ItemsInv State.reset ∧
  NumbersInv State.reset

/-- Every step keeps the configuration invariant: active configurations are legal, a valid unit's derived values are
current, and each status is one that `COMMIT` can leave (10_state.md R35, R37, 60_exceptions.md R402). -/
def Obligations.StepKeepsConfiguration : Prop :=
  ∀ s t : State, ConfigInv s → step s = .next t → ConfigInv t

/-- Every step keeps the ranges of the repacker and the deframer (10_state.md R52, R54, 47_deframer.md R294). -/
def Obligations.StepKeepsDatapathRanges : Prop :=
  ∀ s t : State, DatapathInv s → step s = .next t → DatapathInv t

/-- Every step keeps the queues bounded, closed only down the chain, and empty and closed while aborted (20_memory.md
R81, R83, 40_control.md R211, R212). -/
def Obligations.StepKeepsQueues : Prop :=
  ∀ s t : State, QueueInv s → step s = .next t → QueueInv t

/-- Every step keeps every complex item inside the chain finite, every soft value in range and every frame well-formed
(60_exceptions.md R405, 30_encoding.md R106, R107). -/
def Obligations.StepKeepsItems : Prop :=
  ∀ s t : State, ItemsInv s → step s = .next t → ItemsInv t

/-- Every step keeps every number of every unit finite and in its range: the gain, the loop's phase and frequency, `mu`,
`omega`, the SNR estimate, its peak and its averages, the delay line and the interpolator history (10_state.md R40, R43,
R47, 44_clock_recovery.md R263, 60_exceptions.md R405). -/
def Obligations.StepKeepsNumbers : Prop :=
  ∀ s t : State, NumbersInv s → step s = .next t → NumbersInv t

/-! ### Numbers -/

/-- The properties that R7 requires of `sin`, `cos` and `log10` (00_scope.md R7). R7 gives `log10(1)` as the integer 0; that
the model's answer is `+0.0` is its choice (log 8). -/
def Obligations.NumericsHaveTheRequiredProperties : Prop :=
  Fp.sin 0 = 0 ∧ Fp.cos 0 = 0x3F800000 ∧
  (∀ x, Fp.finite x = true →
    Fp.finite (Fp.sin x) = true ∧ Fp.le 0xBF800000 (Fp.sin x) = true ∧ Fp.le (Fp.sin x) 0x3F800000 = true ∧
    Fp.finite (Fp.cos x) = true ∧ Fp.le 0xBF800000 (Fp.cos x) = true ∧ Fp.le (Fp.cos x) 0x3F800000 = true) ∧
  (∀ k : Nat, k ≤ 10 → Fp.log10 (Fp.ofInt (10 ^ k : Nat)) = Fp.ofInt k) ∧
  (∀ x y, Fp.finite x = true → Fp.finite y = true → Fp.lt 0 x = true → Fp.le x y = true →
    Fp.le (Fp.log10 x) (Fp.log10 y) = true)

/-- A finite sum or product is a binary32 value nearest to the exact one. Sums, differences, products, quotients and square
roots of finite values are the exact values rounded to nearest, ties to even, and overflow as binary32 does (log 16); comparisons
compare the values and are false on a NaN, and `min` and `max` are defined by them (00_scope.md R7). `floor` is R5's, `finite`,
`fin0`, `dec`, `bit`, `clip1`, `clamp` are R9's, the fields R104's; a change of sign flips bit 31, and an integer as a binary32
value is the integer rounded. -/
def Obligations.SumsAndProductsAreNearest : Prop :=
  (∀ a b c : F32, Fp.finite a = true → Fp.finite b = true → Fp.finite c = true →
    (Fp.finite (Fp.add a b) = true →
      |realValue (Fp.add a b) - (realValue a + realValue b)| ≤ |realValue c - (realValue a + realValue b)|) ∧
    (Fp.finite (Fp.mul a b) = true →
      |realValue (Fp.mul a b) - realValue a * realValue b| ≤ |realValue c - realValue a * realValue b|)) ∧
  (∀ a b : F32, Fp.finite a = true → Fp.finite b = true →
    RoundsToEven (realValue a + realValue b) (Fp.add a b) ∧
    RoundsToEven (realValue a - realValue b) (Fp.sub a b) ∧
    RoundsToEven (realValue a * realValue b) (Fp.mul a b) ∧
    (realValue b ≠ 0 → RoundsToEven (realValue a / realValue b) (Fp.div a b)) ∧
    (0 ≤ realValue a → RoundsToEven (Real.sqrt (realValue a)) (Fp.sqrt a)) ∧
    (Fp.lt a b = true ↔ realValue a < realValue b) ∧ (Fp.le a b = true ↔ realValue a ≤ realValue b) ∧
    (Fp.eq a b = true ↔ realValue a = realValue b) ∧
    Fp.floorInt a = ⌊realValue a⌋ ∧ Fp.fin0 a = a ∧
    Fp.dec a = (if 0 < realValue a then 0x3F800000 else 0xBF800000) ∧ (Fp.bit a = true ↔ 0 < realValue a)) ∧
  (∀ a b : F32, Fp.isNaN a = true →
    Fp.lt a b = false ∧ Fp.lt b a = false ∧ Fp.le a b = false ∧ Fp.le b a = false ∧ Fp.eq a b = false ∧
    Fp.eq b a = false ∧ Fp.dec a = 0xBF800000 ∧ Fp.bit a = false ∧ Fp.fin0 a = 0) ∧
  (∀ a b lo hi : F32,
    (Fp.finite a = true ↔ a.extractLsb' 23 8 ≠ 0xFF) ∧
    (Fp.isNaN a = true ↔ a.extractLsb' 23 8 = 0xFF ∧ a.extractLsb' 0 23 ≠ 0) ∧ Fp.neg a = a ^^^ 0x80000000 ∧
    Fp.min a b = (if Fp.lt a b then a else b) ∧ Fp.max a b = (if Fp.lt b a then a else b) ∧
    Fp.fin0 a = (if Fp.finite a then a else 0) ∧ Fp.dec a = (if Fp.lt 0 a then 0x3F800000 else 0xBF800000) ∧
    Fp.bit a = Fp.lt 0 a ∧
    Fp.clip1 a = (if Fp.isNaN a then 0 else if Fp.lt 0x3F800000 a then 0x3F800000
      else if Fp.lt a 0xBF800000 then 0xBF800000 else a) ∧
    Fp.clamp a lo hi = (if Fp.lt a lo then lo else if Fp.lt hi a then hi else a)) ∧
  (∀ n : ℤ, RoundsToEven n (Fp.ofInt n)) ∧
  Fp.dec 0x7F800000 = 0x3F800000 ∧ Fp.dec 0xFF800000 = 0xBF800000 ∧ Fp.fin0 0x7F800000 = 0 ∧ Fp.fin0 0xFF800000 = 0

/-! ### The event history and the script -/

/-- The event history takes the descriptors of the operations performed: of the operation that the step runs, and after
it of those that it starts or runs inside itself (30_encoding.md R100, 42_carrier.md R244, 60_exceptions.md R410). A step
that runs an operation puts exactly these there, and one that runs none leaves it. What is held or not enabled leaves
none. The order, newest first, and what is recorded of a refused transaction are the model's
choice (log 19). -/
def Obligations.EventHistoryNamesTheOperations : Prop :=
  ∀ (s : State) (events : Instr → List Half), (∀ i, events i = (operations i s).map Instr.descriptor) →
    (∀ i u t, fetch s = .run i u → step s = .next t → t.history = (events i).reverse ++ s.history) ∧
    (∀ u, fetch s = .pass u → step s = .next u ∧ u.history = s.history) ∧
    (∀ i, (encode i).head? = some i.descriptor) ∧
    (∀ a, events (.regRead a) = [0x0100]) ∧
    (∀ a v, (∀ r, regAddr r = a → regClass r ≠ .wc) → events (.regWrite a v) = [0x0200]) ∧
    (∀ x, events (.srcPush x) = if held (.srcPush x) s then [] else [0x0300]) ∧
    events .framePop = (if held .framePop s then [] else [0x0400]) ∧
    events .softPop = (if held .softPop s then [] else [0x0500]) ∧
    (dataEnabled .agc s = true → events .agcStep = [0x1100]) ∧
    (dataEnabled .costas s = true → events .costasStep = [0x2100, 0x3100]) ∧
    (dataEnabled .rrc s = true → events .rrcStep = [0x4100]) ∧
    (dataEnabled .mm s = true → events .mmStep =
      if s.mm.data.wait = 0 ∧ s.snr.status.cfgValid = true then [0x5100, 0x6100] else [0x5100]) ∧
    (dataEnabled .slicer s = true → events .slice = [0x7100]) ∧
    (dataEnabled .repacker s = true → events .repackBit = [0x8100]) ∧
    (dataEnabled .deframer s = true → events .deframeByte = 0x9100 :: List.replicate 8 0x9200) ∧
    (∀ a i, dataStep a = some i → dataEnabled a s = false → events i = []) ∧
    (∀ a i, eosStep a = some i → events i = if eosEnabled a s then [i.descriptor] else []) ∧
    (∀ p ∈ [((0x1000 : Half), UnitId.agc), (0x2000, .costas), (0x3000, .pll), (0x4000, .rrc), (0x5000, .mm), (0x6000, .snr),
        (0x7000, .slicer), (0x8000, .repacker), (0x9000, .deframer)], ∀ v : Word,
      events (.regWrite p.1 v) = 0x0200 ::
        (if v.getLsbD 0 then (p.1 + 0x800) :: (if checkCode p.2 s = 0 then [p.1 + 0x900] else [])
         else if v.getLsbD 1 then [p.1 + 0x900] else [])) ∧
    (∀ v : Word, events (.regWrite 0x0000 v) = 0x0200 ::
      ((if v.getLsbD 3 then [0x0B00] else []) ++
       (if v.getLsbD 1 then
          [0x0900, 0x1900, 0x2900, 0x3900, 0x4900, 0x5900, 0x6900, 0x7900, 0x8900, 0x9900] else []) ++
       (if v.getLsbD 0 then 0x0800 ::
          ([((0x1000 : Half), UnitId.agc), (0x2000, .costas), (0x3000, .pll), (0x4000, .rrc), (0x5000, .mm), (0x6000, .snr),
            (0x7000, .slicer), (0x8000, .repacker), (0x9000, .deframer)].flatMap fun p =>
              (p.1 + 0x800) :: (if checkCode p.2 s = 0 then [p.1 + 0x900] else [])) else []) ++
       (if v.getLsbD 2 then [0x0A00] else [])))

/-- The host's script, line by line: the transactions that each line of 30_encoding.md R111 and each pseudo-instruction of
R112 stands for, sent in order, one a turn (R88); a `drain` pops until the `FRAME_POP` that answers `EOS` (40_control.md
R204). That the lines are a field of the machine is the model's choice (log 1, log 2, log 13, log 19). -/
def Obligations.ScriptLinesAreSentInOrder : Prop :=
  (∀ (a : Half) (v : Word) (u : UnitId) (n sps : Nat) (r i amp : F32) (bits : List Bool),
    lineOps (.rd a) = [.regRead a] ∧ lineOps (.wr a v) = [.regWrite a v] ∧ lineOps (.push r i) = [.srcPush ⟨r, i⟩] ∧
    lineOps .popf = [.framePop] ∧ lineOps .pops = [.softPop] ∧
    lineOps (.commit u) = [.regWrite (BitVec.ofNat 16 (0x1000 * u.number)) 1] ∧
    lineOps (.sreset u) = [.regWrite (BitVec.ofNat 16 (0x1000 * u.number)) 2] ∧
    lineOps .commitAll = [.regWrite 0x0000 1] ∧ lineOps .sresetAll = [.regWrite 0x0000 2] ∧
    lineOps .stop = [.regWrite 0x0000 4] ∧ lineOps .abort = [.regWrite 0x0000 8] ∧
    lineOps (.pushr r) = [.srcPush ⟨r, 0⟩] ∧ lineOps (.pushn n r i) = List.replicate n (.srcPush ⟨r, i⟩) ∧
    lineOps (.pushbpsk bits amp sps) = bits.flatMap fun b =>
      List.replicate sps (.srcPush ⟨if b then amp else amp ^^^ 0x80000000, 0⟩)) ∧
  (∀ (s : State) (l : Line) (more : List Line),
    nextTurn s = .agent .host → s.script = [] → s.lines = l :: more →
    (l ≠ .drain → ∀ i is, lineOps l = i :: is → step s =
      if held i s then .next { s with schedule := s.schedule.tail, turns := s.turns + 1 }
      else exec i { s with
        script := is.flatMap encode, lines := more
        history := ((operations i s).map Instr.descriptor).reverse ++ s.history
        schedule := s.schedule.tail, turns := s.turns + 1 }) ∧
    (lineOps l = [] → step s = .next { s with lines := more, schedule := s.schedule.tail, turns := s.turns + 1 }) ∧
    (l = .drain → ∀ f fs, s.qFrame.items = f :: fs → step s = .next { s with
      qFrame := ⟨fs, s.qFrame.closed⟩, responses := .frame f :: s.responses, history := 0x0400 :: s.history
      schedule := s.schedule.tail, turns := s.turns + 1 }) ∧
    (l = .drain → s.qFrame = ⟨[], true⟩ → step s = .next { s with
      lines := more, responses := .eos :: s.responses, history := 0x0400 :: s.history
      schedule := s.schedule.tail, turns := s.turns + 1 }) ∧
    (l = .drain → s.qFrame = ⟨[], false⟩ → step s = .next { s with
      schedule := s.schedule.tail, turns := s.turns + 1 }))

/-- `DEFRAME_BIT` completes in every state in which `DEFRAMER` is valid and `Q_FRAME` has room (47_deframer.md R292), issued
alone (log 4): it shifts its bit into the window, counts it, and emits at most one frame; only the deframer's data and
`Q_FRAME` change. -/
def Obligations.DeframeBitChangesOnlyTheDeframer : Prop :=
  ∀ (s : State) (x : Bool), s.deframer.status.cfgValid = true → hasRoom s.qFrame 1 = true →
    ∃ (d : DeframerData) (fs : List Frame),
      exec (.deframeBit x) s = .next { s with
        deframer.data := d, qFrame := ⟨s.qFrame.items ++ fs, s.qFrame.closed⟩ } ∧
      d.win = ((s.deframer.data.win <<< 1) ||| (if x then 1 else 0)) &&& mask s.deframer.cfg.asmLen.toNat ∧
      d.fill = min (s.deframer.data.fill + 1) s.deframer.cfg.asmLen.toNat ∧
      fs.length ≤ 1 ∧ (∀ f ∈ fs, f.tag = d.state ∧ f.data.length = s.deframer.cfg.frameLen.toNat)
end

