-- ==== Sys2Proof/Laws/State.lean ====
section
/-! SUPPORT. One lemma per field for each named update of the state, so that no later proof unfolds one. -/

namespace Sys2Proof.Machine

set_option Elab.async false

/-! ### `respond` -/

@[simp] theorem respond_agc (r : Response) (s : State) : (respond r s).agc = s.agc := rfl
@[simp] theorem respond_costas (r : Response) (s : State) : (respond r s).costas = s.costas := rfl
@[simp] theorem respond_pll (r : Response) (s : State) : (respond r s).pll = s.pll := rfl
@[simp] theorem respond_rrc (r : Response) (s : State) : (respond r s).rrc = s.rrc := rfl
@[simp] theorem respond_mm (r : Response) (s : State) : (respond r s).mm = s.mm := rfl
@[simp] theorem respond_snr (r : Response) (s : State) : (respond r s).snr = s.snr := rfl
@[simp] theorem respond_slicer (r : Response) (s : State) : (respond r s).slicer = s.slicer := rfl
@[simp] theorem respond_repacker (r : Response) (s : State) : (respond r s).repacker = s.repacker := rfl
@[simp] theorem respond_deframer (r : Response) (s : State) : (respond r s).deframer = s.deframer := rfl
@[simp] theorem respond_qSrc (r : Response) (s : State) : (respond r s).qSrc = s.qSrc := rfl
@[simp] theorem respond_qAgc (r : Response) (s : State) : (respond r s).qAgc = s.qAgc := rfl
@[simp] theorem respond_qCar (r : Response) (s : State) : (respond r s).qCar = s.qCar := rfl
@[simp] theorem respond_qMf (r : Response) (s : State) : (respond r s).qMf = s.qMf := rfl
@[simp] theorem respond_qSym (r : Response) (s : State) : (respond r s).qSym = s.qSym := rfl
@[simp] theorem respond_qBit (r : Response) (s : State) : (respond r s).qBit = s.qBit := rfl
@[simp] theorem respond_qSoft (r : Response) (s : State) : (respond r s).qSoft = s.qSoft := rfl
@[simp] theorem respond_qByte (r : Response) (s : State) : (respond r s).qByte = s.qByte := rfl
@[simp] theorem respond_qFrame (r : Response) (s : State) : (respond r s).qFrame = s.qFrame := rfl
@[simp] theorem respond_aborted (r : Response) (s : State) : (respond r s).aborted = s.aborted := rfl
@[simp] theorem respond_script (r : Response) (s : State) : (respond r s).script = s.script := rfl
@[simp] theorem respond_lines (r : Response) (s : State) : (respond r s).lines = s.lines := rfl
@[simp] theorem respond_history (r : Response) (s : State) : (respond r s).history = s.history := rfl
@[simp] theorem respond_responses (r : Response) (s : State) : (respond r s).responses = r :: s.responses := rfl
@[simp] theorem respond_schedule (r : Response) (s : State) : (respond r s).schedule = s.schedule := rfl
@[simp] theorem respond_turns (r : Response) (s : State) : (respond r s).turns = s.turns := rfl

/-! ### `raiseBusError` -/

@[simp] theorem raiseBusError_agc (s : State) : (raiseBusError s).agc = s.agc := rfl
@[simp] theorem raiseBusError_costas (s : State) : (raiseBusError s).costas = s.costas := rfl
@[simp] theorem raiseBusError_pll (s : State) : (raiseBusError s).pll = s.pll := rfl
@[simp] theorem raiseBusError_rrc (s : State) : (raiseBusError s).rrc = s.rrc := rfl
@[simp] theorem raiseBusError_mm (s : State) : (raiseBusError s).mm = s.mm := rfl
@[simp] theorem raiseBusError_snr (s : State) : (raiseBusError s).snr = s.snr := rfl
@[simp] theorem raiseBusError_slicer (s : State) : (raiseBusError s).slicer = s.slicer := rfl
@[simp] theorem raiseBusError_repacker (s : State) : (raiseBusError s).repacker = s.repacker := rfl
@[simp] theorem raiseBusError_deframer (s : State) : (raiseBusError s).deframer = s.deframer := rfl
@[simp] theorem raiseBusError_qSrc (s : State) : (raiseBusError s).qSrc = s.qSrc := rfl
@[simp] theorem raiseBusError_qAgc (s : State) : (raiseBusError s).qAgc = s.qAgc := rfl
@[simp] theorem raiseBusError_qCar (s : State) : (raiseBusError s).qCar = s.qCar := rfl
@[simp] theorem raiseBusError_qMf (s : State) : (raiseBusError s).qMf = s.qMf := rfl
@[simp] theorem raiseBusError_qSym (s : State) : (raiseBusError s).qSym = s.qSym := rfl
@[simp] theorem raiseBusError_qBit (s : State) : (raiseBusError s).qBit = s.qBit := rfl
@[simp] theorem raiseBusError_qSoft (s : State) : (raiseBusError s).qSoft = s.qSoft := rfl
@[simp] theorem raiseBusError_qByte (s : State) : (raiseBusError s).qByte = s.qByte := rfl
@[simp] theorem raiseBusError_qFrame (s : State) : (raiseBusError s).qFrame = s.qFrame := rfl
@[simp] theorem raiseBusError_aborted (s : State) : (raiseBusError s).aborted = s.aborted := rfl
@[simp] theorem raiseBusError_script (s : State) : (raiseBusError s).script = s.script := rfl
@[simp] theorem raiseBusError_lines (s : State) : (raiseBusError s).lines = s.lines := rfl
@[simp] theorem raiseBusError_history (s : State) : (raiseBusError s).history = s.history := rfl
@[simp] theorem raiseBusError_responses (s : State) : (raiseBusError s).responses = .err :: s.responses := rfl
@[simp] theorem raiseBusError_schedule (s : State) : (raiseBusError s).schedule = s.schedule := rfl
@[simp] theorem raiseBusError_turns (s : State) : (raiseBusError s).turns = s.turns := rfl

/-! ### `endTurn` -/

@[simp] theorem endTurn_agc (s : State) : (endTurn s).agc = s.agc := rfl
@[simp] theorem endTurn_costas (s : State) : (endTurn s).costas = s.costas := rfl
@[simp] theorem endTurn_pll (s : State) : (endTurn s).pll = s.pll := rfl
@[simp] theorem endTurn_rrc (s : State) : (endTurn s).rrc = s.rrc := rfl
@[simp] theorem endTurn_mm (s : State) : (endTurn s).mm = s.mm := rfl
@[simp] theorem endTurn_snr (s : State) : (endTurn s).snr = s.snr := rfl
@[simp] theorem endTurn_slicer (s : State) : (endTurn s).slicer = s.slicer := rfl
@[simp] theorem endTurn_repacker (s : State) : (endTurn s).repacker = s.repacker := rfl
@[simp] theorem endTurn_deframer (s : State) : (endTurn s).deframer = s.deframer := rfl
@[simp] theorem endTurn_qSrc (s : State) : (endTurn s).qSrc = s.qSrc := rfl
@[simp] theorem endTurn_qAgc (s : State) : (endTurn s).qAgc = s.qAgc := rfl
@[simp] theorem endTurn_qCar (s : State) : (endTurn s).qCar = s.qCar := rfl
@[simp] theorem endTurn_qMf (s : State) : (endTurn s).qMf = s.qMf := rfl
@[simp] theorem endTurn_qSym (s : State) : (endTurn s).qSym = s.qSym := rfl
@[simp] theorem endTurn_qBit (s : State) : (endTurn s).qBit = s.qBit := rfl
@[simp] theorem endTurn_qSoft (s : State) : (endTurn s).qSoft = s.qSoft := rfl
@[simp] theorem endTurn_qByte (s : State) : (endTurn s).qByte = s.qByte := rfl
@[simp] theorem endTurn_qFrame (s : State) : (endTurn s).qFrame = s.qFrame := rfl
@[simp] theorem endTurn_aborted (s : State) : (endTurn s).aborted = s.aborted := rfl
@[simp] theorem endTurn_script (s : State) : (endTurn s).script = s.script := rfl
@[simp] theorem endTurn_lines (s : State) : (endTurn s).lines = s.lines := rfl
@[simp] theorem endTurn_history (s : State) : (endTurn s).history = s.history := rfl
@[simp] theorem endTurn_responses (s : State) : (endTurn s).responses = s.responses := rfl
@[simp] theorem endTurn_schedule (s : State) : (endTurn s).schedule = s.schedule.tail := rfl
@[simp] theorem endTurn_turns (s : State) : (endTurn s).turns = s.turns + 1 := rfl

/-! ### `record` -/

@[simp] theorem record_agc (i : Instr) (s : State) : (record i s).agc = s.agc := rfl
@[simp] theorem record_costas (i : Instr) (s : State) : (record i s).costas = s.costas := rfl
@[simp] theorem record_pll (i : Instr) (s : State) : (record i s).pll = s.pll := rfl
@[simp] theorem record_rrc (i : Instr) (s : State) : (record i s).rrc = s.rrc := rfl
@[simp] theorem record_mm (i : Instr) (s : State) : (record i s).mm = s.mm := rfl
@[simp] theorem record_snr (i : Instr) (s : State) : (record i s).snr = s.snr := rfl
@[simp] theorem record_slicer (i : Instr) (s : State) : (record i s).slicer = s.slicer := rfl
@[simp] theorem record_repacker (i : Instr) (s : State) : (record i s).repacker = s.repacker := rfl
@[simp] theorem record_deframer (i : Instr) (s : State) : (record i s).deframer = s.deframer := rfl
@[simp] theorem record_qSrc (i : Instr) (s : State) : (record i s).qSrc = s.qSrc := rfl
@[simp] theorem record_qAgc (i : Instr) (s : State) : (record i s).qAgc = s.qAgc := rfl
@[simp] theorem record_qCar (i : Instr) (s : State) : (record i s).qCar = s.qCar := rfl
@[simp] theorem record_qMf (i : Instr) (s : State) : (record i s).qMf = s.qMf := rfl
@[simp] theorem record_qSym (i : Instr) (s : State) : (record i s).qSym = s.qSym := rfl
@[simp] theorem record_qBit (i : Instr) (s : State) : (record i s).qBit = s.qBit := rfl
@[simp] theorem record_qSoft (i : Instr) (s : State) : (record i s).qSoft = s.qSoft := rfl
@[simp] theorem record_qByte (i : Instr) (s : State) : (record i s).qByte = s.qByte := rfl
@[simp] theorem record_qFrame (i : Instr) (s : State) : (record i s).qFrame = s.qFrame := rfl
@[simp] theorem record_aborted (i : Instr) (s : State) : (record i s).aborted = s.aborted := rfl
@[simp] theorem record_script (i : Instr) (s : State) : (record i s).script = s.script := rfl
@[simp] theorem record_lines (i : Instr) (s : State) : (record i s).lines = s.lines := rfl
@[simp] theorem record_responses (i : Instr) (s : State) : (record i s).responses = s.responses := rfl
@[simp] theorem record_schedule (i : Instr) (s : State) : (record i s).schedule = s.schedule := rfl
@[simp] theorem record_turns (i : Instr) (s : State) : (record i s).turns = s.turns := rfl
@[simp] theorem record_history (i : Instr) (s : State) :
    (record i s).history = ((operations i s).map Instr.descriptor).reverse ++ s.history := rfl

/-! ### `emptyAll` -/

@[simp] theorem emptyAll_agc (c : Bool) (s : State) : (emptyAll c s).agc = s.agc := rfl
@[simp] theorem emptyAll_costas (c : Bool) (s : State) : (emptyAll c s).costas = s.costas := rfl
@[simp] theorem emptyAll_pll (c : Bool) (s : State) : (emptyAll c s).pll = s.pll := rfl
@[simp] theorem emptyAll_rrc (c : Bool) (s : State) : (emptyAll c s).rrc = s.rrc := rfl
@[simp] theorem emptyAll_mm (c : Bool) (s : State) : (emptyAll c s).mm = s.mm := rfl
@[simp] theorem emptyAll_snr (c : Bool) (s : State) : (emptyAll c s).snr = s.snr := rfl
@[simp] theorem emptyAll_slicer (c : Bool) (s : State) : (emptyAll c s).slicer = s.slicer := rfl
@[simp] theorem emptyAll_repacker (c : Bool) (s : State) : (emptyAll c s).repacker = s.repacker := rfl
@[simp] theorem emptyAll_deframer (c : Bool) (s : State) : (emptyAll c s).deframer = s.deframer := rfl
@[simp] theorem emptyAll_qSrc (c : Bool) (s : State) : (emptyAll c s).qSrc = ⟨[], c⟩ := rfl
@[simp] theorem emptyAll_qAgc (c : Bool) (s : State) : (emptyAll c s).qAgc = ⟨[], c⟩ := rfl
@[simp] theorem emptyAll_qCar (c : Bool) (s : State) : (emptyAll c s).qCar = ⟨[], c⟩ := rfl
@[simp] theorem emptyAll_qMf (c : Bool) (s : State) : (emptyAll c s).qMf = ⟨[], c⟩ := rfl
@[simp] theorem emptyAll_qSym (c : Bool) (s : State) : (emptyAll c s).qSym = ⟨[], c⟩ := rfl
@[simp] theorem emptyAll_qBit (c : Bool) (s : State) : (emptyAll c s).qBit = ⟨[], c⟩ := rfl
@[simp] theorem emptyAll_qSoft (c : Bool) (s : State) : (emptyAll c s).qSoft = ⟨[], c⟩ := rfl
@[simp] theorem emptyAll_qByte (c : Bool) (s : State) : (emptyAll c s).qByte = ⟨[], c⟩ := rfl
@[simp] theorem emptyAll_qFrame (c : Bool) (s : State) : (emptyAll c s).qFrame = ⟨[], c⟩ := rfl
@[simp] theorem emptyAll_aborted (c : Bool) (s : State) : (emptyAll c s).aborted = s.aborted := rfl
@[simp] theorem emptyAll_script (c : Bool) (s : State) : (emptyAll c s).script = s.script := rfl
@[simp] theorem emptyAll_lines (c : Bool) (s : State) : (emptyAll c s).lines = s.lines := rfl
@[simp] theorem emptyAll_history (c : Bool) (s : State) : (emptyAll c s).history = s.history := rfl
@[simp] theorem emptyAll_responses (c : Bool) (s : State) : (emptyAll c s).responses = s.responses := rfl
@[simp] theorem emptyAll_schedule (c : Bool) (s : State) : (emptyAll c s).schedule = s.schedule := rfl
@[simp] theorem emptyAll_turns (c : Bool) (s : State) : (emptyAll c s).turns = s.turns := rfl

/-! ### `setStatus` -/

@[simp] theorem setStatus_qSrc (u : UnitId) (t : UnitStatus) (s : State) : (setStatus u t s).qSrc = s.qSrc := by
  cases u <;> rfl
@[simp] theorem setStatus_qAgc (u : UnitId) (t : UnitStatus) (s : State) : (setStatus u t s).qAgc = s.qAgc := by
  cases u <;> rfl
@[simp] theorem setStatus_qCar (u : UnitId) (t : UnitStatus) (s : State) : (setStatus u t s).qCar = s.qCar := by
  cases u <;> rfl
@[simp] theorem setStatus_qMf (u : UnitId) (t : UnitStatus) (s : State) : (setStatus u t s).qMf = s.qMf := by
  cases u <;> rfl
@[simp] theorem setStatus_qSym (u : UnitId) (t : UnitStatus) (s : State) : (setStatus u t s).qSym = s.qSym := by
  cases u <;> rfl
@[simp] theorem setStatus_qBit (u : UnitId) (t : UnitStatus) (s : State) : (setStatus u t s).qBit = s.qBit := by
  cases u <;> rfl
@[simp] theorem setStatus_qSoft (u : UnitId) (t : UnitStatus) (s : State) : (setStatus u t s).qSoft = s.qSoft := by
  cases u <;> rfl
@[simp] theorem setStatus_qByte (u : UnitId) (t : UnitStatus) (s : State) : (setStatus u t s).qByte = s.qByte := by
  cases u <;> rfl
@[simp] theorem setStatus_qFrame (u : UnitId) (t : UnitStatus) (s : State) : (setStatus u t s).qFrame = s.qFrame := by
  cases u <;> rfl
@[simp] theorem setStatus_aborted (u : UnitId) (t : UnitStatus) (s : State) : (setStatus u t s).aborted = s.aborted := by
  cases u <;> rfl
@[simp] theorem setStatus_script (u : UnitId) (t : UnitStatus) (s : State) : (setStatus u t s).script = s.script := by
  cases u <;> rfl
@[simp] theorem setStatus_lines (u : UnitId) (t : UnitStatus) (s : State) : (setStatus u t s).lines = s.lines := by
  cases u <;> rfl
@[simp] theorem setStatus_history (u : UnitId) (t : UnitStatus) (s : State) : (setStatus u t s).history = s.history := by
  cases u <;> rfl
@[simp] theorem setStatus_responses (u : UnitId) (t : UnitStatus) (s : State) : (setStatus u t s).responses = s.responses := by
  cases u <;> rfl
@[simp] theorem setStatus_schedule (u : UnitId) (t : UnitStatus) (s : State) : (setStatus u t s).schedule = s.schedule := by
  cases u <;> rfl
@[simp] theorem setStatus_turns (u : UnitId) (t : UnitStatus) (s : State) : (setStatus u t s).turns = s.turns := by
  cases u <;> rfl

end Sys2Proof.Machine
end

