-- ==== Sys2Proof/Laws/Ops.lean ====
section
/-! SUPPORT. What the shared operations over queues, statuses and configuration checks can do. -/

namespace Sys2Proof.Machine

/-! ### Port queues -/

section
variable {α : Type} (q : Queue α)

@[simp] theorem pushAll_items (xs : List α) : (pushAll q xs).items = q.items ++ xs := rfl
@[simp] theorem pushAll_closed (xs : List α) : (pushAll q xs).closed = q.closed := rfl
@[simp] theorem push_items (x : α) : (push q x).items = q.items ++ [x] := rfl
@[simp] theorem push_closed (x : α) : (push q x).closed = q.closed := rfl
@[simp] theorem popped_items : (popped q).items = q.items.tail := rfl
@[simp] theorem popped_closed : (popped q).closed = q.closed := rfl
@[simp] theorem close_items : (close q).items = q.items := rfl
@[simp] theorem close_closed : (close q).closed = true := rfl
@[simp] theorem emptied_items (c : Bool) : (emptied c q).items = [] := rfl
@[simp] theorem emptied_closed (c : Bool) : (emptied c q).closed = c := rfl

theorem pushAll_nil : pushAll q [] = q := by simp [pushAll]

theorem pushAll_append (xs ys : List α) : pushAll q (xs ++ ys) = pushAll (pushAll q xs) ys := by
  simp [pushAll]

/-- A queue takes `n` more items when it is open and they fit. -/
theorem hasRoom_iff (n : Nat) :
    hasRoom q n = true ↔ q.closed = false ∧ q.items.length + n ≤ Config.fifoDepth := by
  simp [hasRoom]

/-- A queue has ended when it is closed and empty. -/
theorem ended_iff : ended q = true ↔ q.closed = true ∧ q.items = [] := by
  simp [ended]

theorem hasRoom_le {n m : Nat} (h : hasRoom q n = true) (hm : m ≤ n) : hasRoom q m = true := by
  rw [hasRoom_iff] at *; exact ⟨h.1, by omega⟩

end

/-- A queue holds at least 16 items. -/
theorem sixteen_le_fifoDepth : 16 ≤ Config.fifoDepth := by simp [Config.fifoDepth]

/-! ### Statuses -/

/-- `setStatus` writes the status it names. -/
@[simp] theorem statusOf_setStatus_same (u : UnitId) (t : UnitStatus) (s : State) :
    statusOf u (setStatus u t s) = t := by cases u <;> rfl

/-- `setStatus` leaves every other status alone. -/
theorem statusOf_setStatus_other {u v : UnitId} (h : v ≠ u) (t : UnitStatus) (s : State) :
    statusOf v (setStatus u t s) = statusOf v s := by
  cases u <;> cases v <;> first | rfl | exact absurd rfl h

/-- All that `COMMIT` of a unit can do: apply and mark valid, or record the code. -/
theorem commitWith_cases (u : UnitId) (c : BitVec 8) (f : State → State) (s : State) :
    (c = 0 ∧ commitWith u c f s = setStatus u ⟨true, false, 0⟩ (f s)) ∨
    (c ≠ 0 ∧ commitWith u c f s = setStatus u ⟨false, true, c⟩ s) := by
  by_cases h : c = 0
  · exact .inl ⟨h, by simp [commitWith, h, clearCfgError]⟩
  · exact .inr ⟨h, if_neg h⟩

/-! ### Checks -/

@[simp] theorem firstFailing_nil : firstFailing [] = 0 := rfl

theorem firstFailing_cons (b : Bool) (c : BitVec 8) (more : List (Bool × BitVec 8)) :
    firstFailing ((b, c) :: more) = if b then c else firstFailing more := rfl

/-- A list of checks with non-zero codes passes exactly when no check fails. -/
theorem firstFailing_eq_zero_iff (l : List (Bool × BitVec 8)) (h : ∀ p ∈ l, p.2 ≠ 0) :
    firstFailing l = 0 ↔ ∀ p ∈ l, p.1 = false := by
  induction l with
  | nil => simp
  | cons p l ih =>
    obtain ⟨b, c⟩ := p
    have hc : c ≠ 0 := h (b, c) (by simp)
    have ih := ih fun p hp => h p (by simp [hp])
    cases b
    · rw [firstFailing_cons]; simpa using ih
    · simpa [firstFailing_cons] using hc

/-- The code of a failing list is one of its codes. -/
theorem firstFailing_mem (l : List (Bool × BitVec 8)) (h : firstFailing l ≠ 0) :
    firstFailing l ∈ l.map Prod.snd := by
  induction l with
  | nil => simp at h
  | cons p l ih =>
    obtain ⟨b, c⟩ := p
    cases b
    · have h' : firstFailing l ≠ 0 := by simpa [firstFailing_cons] using h
      have : firstFailing ((false, c) :: l) = firstFailing l := rfl
      rw [this]; exact List.mem_cons_of_mem _ (ih h')
    · simp [firstFailing_cons]

end Sys2Proof.Machine
end

