-- ==== Sys2Proof/Laws/Control.lean ====
section
/-! SUPPORT. What `COMMIT` and `SRESET` of a unit can do: that unit alone changes. -/

namespace Sys2Proof.Machine

set_option Elab.async false

/-- `t` differs from `s` in its nine units at most. -/
def OnlyUnits (s t : State) : Prop :=
  t = { s with
    agc := t.agc, costas := t.costas, pll := t.pll, rrc := t.rrc, mm := t.mm, snr := t.snr,
    slicer := t.slicer, repacker := t.repacker, deframer := t.deframer }

theorem resetUnit_onlyUnits (u : UnitId) (s : State) : OnlyUnits s (resetUnit u s) := by
  cases u <;> rfl

/-- What a successful `COMMIT` of a unit applies (R206). -/
def applyUnit (u : UnitId) (s : State) : State :=
  match u with
  | .agc => applyAgc s
  | .costas => applyCostas s
  | .pll => applyPll s
  | .rrc => applyRrc s
  | .mm => applyMm s
  | .snr => applySnr s
  | .slicer => applySlicer s
  | .repacker => applyRepacker s
  | .deframer => applyDeframer s

/-- `COMMIT` of a unit by its number is `commitWith` of its check code and its update (R206). -/
theorem commitUnit_eq (u : UnitId) (s : State) :
    commitUnit u s = commitWith u (checkCode u s) (applyUnit u) s := by
  cases u <;> rfl

/-- All that `COMMIT` of a unit can do. -/
theorem commitUnit_cases (u : UnitId) (s : State) :
    (checkCode u s = 0 ∧ commitUnit u s = setStatus u ⟨true, false, 0⟩ (applyUnit u s)) ∨
    (checkCode u s ≠ 0 ∧ commitUnit u s = setStatus u ⟨false, true, checkCode u s⟩ s) := by
  rw [commitUnit_eq]; exact commitWith_cases u _ _ s

theorem commitUnit_onlyUnits (u : UnitId) (s : State) : OnlyUnits s (commitUnit u s) := by
  rcases commitUnit_cases u s with ⟨-, h⟩ | ⟨-, h⟩ <;> rw [h] <;> cases u <;> rfl

/-- A successful `COMMIT` leaves its unit valid, a failed one leaves it failed. -/
theorem statusOf_commitUnit_same (u : UnitId) (s : State) :
    statusOf u (commitUnit u s) =
      if checkCode u s = 0 then ⟨true, false, 0⟩ else ⟨false, true, checkCode u s⟩ := by
  rcases commitUnit_cases u s with ⟨c, h⟩ | ⟨c, h⟩ <;> rw [h, statusOf_setStatus_same]
  · rw [if_pos c]
  · rw [if_neg c]

theorem statusOf_commitUnit_other {u v : UnitId} (hv : v ≠ u) (s : State) :
    statusOf v (commitUnit u s) = statusOf v s := by
  rcases commitUnit_cases u s with ⟨-, h⟩ | ⟨-, h⟩ <;> rw [h, statusOf_setStatus_other hv]
  cases u <;> cases v <;> first | rfl | exact absurd rfl hv

@[simp] theorem statusOf_resetUnit (u v : UnitId) (s : State) :
    statusOf v (resetUnit u s) = statusOf v s := by
  cases u <;> cases v <;> rfl

/-! ### The queues, `ABORTED` and the host's side are kept -/

@[simp] theorem resetUnit_qSrc (u : UnitId) (s : State) : (resetUnit u s).qSrc = s.qSrc := by
  have h := congrArg State.qSrc (resetUnit_onlyUnits u s); exact h
@[simp] theorem commitUnit_qSrc (u : UnitId) (s : State) : (commitUnit u s).qSrc = s.qSrc := by
  have h := congrArg State.qSrc (commitUnit_onlyUnits u s); exact h
@[simp] theorem resetUnit_qAgc (u : UnitId) (s : State) : (resetUnit u s).qAgc = s.qAgc := by
  have h := congrArg State.qAgc (resetUnit_onlyUnits u s); exact h
@[simp] theorem commitUnit_qAgc (u : UnitId) (s : State) : (commitUnit u s).qAgc = s.qAgc := by
  have h := congrArg State.qAgc (commitUnit_onlyUnits u s); exact h
@[simp] theorem resetUnit_qCar (u : UnitId) (s : State) : (resetUnit u s).qCar = s.qCar := by
  have h := congrArg State.qCar (resetUnit_onlyUnits u s); exact h
@[simp] theorem commitUnit_qCar (u : UnitId) (s : State) : (commitUnit u s).qCar = s.qCar := by
  have h := congrArg State.qCar (commitUnit_onlyUnits u s); exact h
@[simp] theorem resetUnit_qMf (u : UnitId) (s : State) : (resetUnit u s).qMf = s.qMf := by
  have h := congrArg State.qMf (resetUnit_onlyUnits u s); exact h
@[simp] theorem commitUnit_qMf (u : UnitId) (s : State) : (commitUnit u s).qMf = s.qMf := by
  have h := congrArg State.qMf (commitUnit_onlyUnits u s); exact h
@[simp] theorem resetUnit_qSym (u : UnitId) (s : State) : (resetUnit u s).qSym = s.qSym := by
  have h := congrArg State.qSym (resetUnit_onlyUnits u s); exact h
@[simp] theorem commitUnit_qSym (u : UnitId) (s : State) : (commitUnit u s).qSym = s.qSym := by
  have h := congrArg State.qSym (commitUnit_onlyUnits u s); exact h
@[simp] theorem resetUnit_qBit (u : UnitId) (s : State) : (resetUnit u s).qBit = s.qBit := by
  have h := congrArg State.qBit (resetUnit_onlyUnits u s); exact h
@[simp] theorem commitUnit_qBit (u : UnitId) (s : State) : (commitUnit u s).qBit = s.qBit := by
  have h := congrArg State.qBit (commitUnit_onlyUnits u s); exact h
@[simp] theorem resetUnit_qSoft (u : UnitId) (s : State) : (resetUnit u s).qSoft = s.qSoft := by
  have h := congrArg State.qSoft (resetUnit_onlyUnits u s); exact h
@[simp] theorem commitUnit_qSoft (u : UnitId) (s : State) : (commitUnit u s).qSoft = s.qSoft := by
  have h := congrArg State.qSoft (commitUnit_onlyUnits u s); exact h
@[simp] theorem resetUnit_qByte (u : UnitId) (s : State) : (resetUnit u s).qByte = s.qByte := by
  have h := congrArg State.qByte (resetUnit_onlyUnits u s); exact h
@[simp] theorem commitUnit_qByte (u : UnitId) (s : State) : (commitUnit u s).qByte = s.qByte := by
  have h := congrArg State.qByte (commitUnit_onlyUnits u s); exact h
@[simp] theorem resetUnit_qFrame (u : UnitId) (s : State) : (resetUnit u s).qFrame = s.qFrame := by
  have h := congrArg State.qFrame (resetUnit_onlyUnits u s); exact h
@[simp] theorem commitUnit_qFrame (u : UnitId) (s : State) : (commitUnit u s).qFrame = s.qFrame := by
  have h := congrArg State.qFrame (commitUnit_onlyUnits u s); exact h
@[simp] theorem resetUnit_aborted (u : UnitId) (s : State) : (resetUnit u s).aborted = s.aborted := by
  have h := congrArg State.aborted (resetUnit_onlyUnits u s); exact h
@[simp] theorem commitUnit_aborted (u : UnitId) (s : State) : (commitUnit u s).aborted = s.aborted := by
  have h := congrArg State.aborted (commitUnit_onlyUnits u s); exact h
@[simp] theorem resetUnit_script (u : UnitId) (s : State) : (resetUnit u s).script = s.script := by
  have h := congrArg State.script (resetUnit_onlyUnits u s); exact h
@[simp] theorem commitUnit_script (u : UnitId) (s : State) : (commitUnit u s).script = s.script := by
  have h := congrArg State.script (commitUnit_onlyUnits u s); exact h
@[simp] theorem resetUnit_lines (u : UnitId) (s : State) : (resetUnit u s).lines = s.lines := by
  have h := congrArg State.lines (resetUnit_onlyUnits u s); exact h
@[simp] theorem commitUnit_lines (u : UnitId) (s : State) : (commitUnit u s).lines = s.lines := by
  have h := congrArg State.lines (commitUnit_onlyUnits u s); exact h
@[simp] theorem resetUnit_history (u : UnitId) (s : State) : (resetUnit u s).history = s.history := by
  have h := congrArg State.history (resetUnit_onlyUnits u s); exact h
@[simp] theorem commitUnit_history (u : UnitId) (s : State) : (commitUnit u s).history = s.history := by
  have h := congrArg State.history (commitUnit_onlyUnits u s); exact h
@[simp] theorem resetUnit_responses (u : UnitId) (s : State) : (resetUnit u s).responses = s.responses := by
  have h := congrArg State.responses (resetUnit_onlyUnits u s); exact h
@[simp] theorem commitUnit_responses (u : UnitId) (s : State) : (commitUnit u s).responses = s.responses := by
  have h := congrArg State.responses (commitUnit_onlyUnits u s); exact h
@[simp] theorem resetUnit_schedule (u : UnitId) (s : State) : (resetUnit u s).schedule = s.schedule := by
  have h := congrArg State.schedule (resetUnit_onlyUnits u s); exact h
@[simp] theorem commitUnit_schedule (u : UnitId) (s : State) : (commitUnit u s).schedule = s.schedule := by
  have h := congrArg State.schedule (commitUnit_onlyUnits u s); exact h
@[simp] theorem resetUnit_turns (u : UnitId) (s : State) : (resetUnit u s).turns = s.turns := by
  have h := congrArg State.turns (resetUnit_onlyUnits u s); exact h
@[simp] theorem commitUnit_turns (u : UnitId) (s : State) : (commitUnit u s).turns = s.turns := by
  have h := congrArg State.turns (commitUnit_onlyUnits u s); exact h

/-! ### Another unit is kept -/

theorem resetUnit_agc {u : UnitId} (h : u ≠ .agc) (s : State) : (resetUnit u s).agc = s.agc := by
  cases u <;> first | rfl | exact absurd rfl h
theorem commitUnit_agc {u : UnitId} (h : u ≠ .agc) (s : State) : (commitUnit u s).agc = s.agc := by
  rcases commitUnit_cases u s with ⟨-, e⟩ | ⟨-, e⟩ <;> rw [e] <;> cases u <;> first | rfl | exact absurd rfl h
theorem resetUnit_costas {u : UnitId} (h : u ≠ .costas) (s : State) : (resetUnit u s).costas = s.costas := by
  cases u <;> first | rfl | exact absurd rfl h
theorem commitUnit_costas {u : UnitId} (h : u ≠ .costas) (s : State) : (commitUnit u s).costas = s.costas := by
  rcases commitUnit_cases u s with ⟨-, e⟩ | ⟨-, e⟩ <;> rw [e] <;> cases u <;> first | rfl | exact absurd rfl h
theorem resetUnit_pll {u : UnitId} (h : u ≠ .pll) (s : State) : (resetUnit u s).pll = s.pll := by
  cases u <;> first | rfl | exact absurd rfl h
theorem commitUnit_pll {u : UnitId} (h : u ≠ .pll) (s : State) : (commitUnit u s).pll = s.pll := by
  rcases commitUnit_cases u s with ⟨-, e⟩ | ⟨-, e⟩ <;> rw [e] <;> cases u <;> first | rfl | exact absurd rfl h
theorem resetUnit_rrc {u : UnitId} (h : u ≠ .rrc) (s : State) : (resetUnit u s).rrc = s.rrc := by
  cases u <;> first | rfl | exact absurd rfl h
theorem commitUnit_rrc {u : UnitId} (h : u ≠ .rrc) (s : State) : (commitUnit u s).rrc = s.rrc := by
  rcases commitUnit_cases u s with ⟨-, e⟩ | ⟨-, e⟩ <;> rw [e] <;> cases u <;> first | rfl | exact absurd rfl h
theorem resetUnit_mm {u : UnitId} (h : u ≠ .mm) (s : State) : (resetUnit u s).mm = s.mm := by
  cases u <;> first | rfl | exact absurd rfl h
theorem commitUnit_mm {u : UnitId} (h : u ≠ .mm) (s : State) : (commitUnit u s).mm = s.mm := by
  rcases commitUnit_cases u s with ⟨-, e⟩ | ⟨-, e⟩ <;> rw [e] <;> cases u <;> first | rfl | exact absurd rfl h
theorem resetUnit_snr {u : UnitId} (h : u ≠ .snr) (s : State) : (resetUnit u s).snr = s.snr := by
  cases u <;> first | rfl | exact absurd rfl h
theorem commitUnit_snr {u : UnitId} (h : u ≠ .snr) (s : State) : (commitUnit u s).snr = s.snr := by
  rcases commitUnit_cases u s with ⟨-, e⟩ | ⟨-, e⟩ <;> rw [e] <;> cases u <;> first | rfl | exact absurd rfl h
theorem resetUnit_slicer {u : UnitId} (h : u ≠ .slicer) (s : State) : (resetUnit u s).slicer = s.slicer := by
  cases u <;> first | rfl | exact absurd rfl h
theorem commitUnit_slicer {u : UnitId} (h : u ≠ .slicer) (s : State) : (commitUnit u s).slicer = s.slicer := by
  rcases commitUnit_cases u s with ⟨-, e⟩ | ⟨-, e⟩ <;> rw [e] <;> cases u <;> first | rfl | exact absurd rfl h
theorem resetUnit_repacker {u : UnitId} (h : u ≠ .repacker) (s : State) : (resetUnit u s).repacker = s.repacker := by
  cases u <;> first | rfl | exact absurd rfl h
theorem commitUnit_repacker {u : UnitId} (h : u ≠ .repacker) (s : State) : (commitUnit u s).repacker = s.repacker := by
  rcases commitUnit_cases u s with ⟨-, e⟩ | ⟨-, e⟩ <;> rw [e] <;> cases u <;> first | rfl | exact absurd rfl h
theorem resetUnit_deframer {u : UnitId} (h : u ≠ .deframer) (s : State) : (resetUnit u s).deframer = s.deframer := by
  cases u <;> first | rfl | exact absurd rfl h
theorem commitUnit_deframer {u : UnitId} (h : u ≠ .deframer) (s : State) : (commitUnit u s).deframer = s.deframer := by
  rcases commitUnit_cases u s with ⟨-, e⟩ | ⟨-, e⟩ <;> rw [e] <;> cases u <;> first | rfl | exact absurd rfl h

end Sys2Proof.Machine
end

