-- ==== Sys2Proof/Laws/Exec.lean ====
section
/-! SUPPORT. What each operation can do, said once: the later proofs cite these and unfold no meaning. -/

namespace Sys2Proof.Machine

set_option Elab.async false

/-! ### Data steps: nothing, or the unit's step on the oldest item of its input queue -/

theorem exec_agcStep_cases {s t : State} (h : exec .agcStep s = .next t) :
    (dataEnabled .agc s = false ∧ t = s) ∨
    ∃ x xs, s.qSrc.items = x :: xs ∧ agcReady s = true ∧ t = agcTake x { s with qSrc := ⟨xs, s.qSrc.closed⟩ } := by
  simp only [exec, execAgcStep] at h
  split at h
  · next e => exact .inl ⟨by simp [dataEnabled, e], by cases h; rfl⟩
  · next x xs e =>
    by_cases r : agcReady s = true
    · rw [if_pos r] at h
      exact .inr ⟨x, xs, e, r, by cases h; simp [popped, e]⟩
    · rw [if_neg r] at h
      exact .inl ⟨by simp [dataEnabled, Bool.eq_false_iff.mpr r], by cases h; rfl⟩

theorem exec_agcStep_enabled {s : State} (h : dataEnabled .agc s = true) :
    ∃ x xs, s.qSrc.items = x :: xs ∧ agcReady s = true ∧
      exec .agcStep s = .next (agcTake x { s with qSrc := ⟨xs, s.qSrc.closed⟩ }) := by
  cases e : s.qSrc.items with
  | nil => simp [dataEnabled, e] at h
  | cons x xs =>
    have r : agcReady s = true := by simpa [dataEnabled, e] using h
    exact ⟨x, xs, rfl, r, by simp [exec, execAgcStep, e, r, popped]⟩

theorem exec_costasStep_cases {s t : State} (h : exec .costasStep s = .next t) :
    (dataEnabled .costas s = false ∧ t = s) ∨
    ∃ x xs, s.qAgc.items = x :: xs ∧ costasReady s = true ∧ t = costasTake x { s with qAgc := ⟨xs, s.qAgc.closed⟩ } := by
  simp only [exec, execCostasStep] at h
  split at h
  · next e => exact .inl ⟨by simp [dataEnabled, e], by cases h; rfl⟩
  · next x xs e =>
    by_cases r : costasReady s = true
    · rw [if_pos r] at h
      exact .inr ⟨x, xs, e, r, by cases h; simp [popped, e]⟩
    · rw [if_neg r] at h
      exact .inl ⟨by simp [dataEnabled, Bool.eq_false_iff.mpr r], by cases h; rfl⟩

theorem exec_costasStep_enabled {s : State} (h : dataEnabled .costas s = true) :
    ∃ x xs, s.qAgc.items = x :: xs ∧ costasReady s = true ∧
      exec .costasStep s = .next (costasTake x { s with qAgc := ⟨xs, s.qAgc.closed⟩ }) := by
  cases e : s.qAgc.items with
  | nil => simp [dataEnabled, e] at h
  | cons x xs =>
    have r : costasReady s = true := by simpa [dataEnabled, e] using h
    exact ⟨x, xs, rfl, r, by simp [exec, execCostasStep, e, r, popped]⟩

theorem exec_rrcStep_cases {s t : State} (h : exec .rrcStep s = .next t) :
    (dataEnabled .rrc s = false ∧ t = s) ∨
    ∃ x xs, s.qCar.items = x :: xs ∧ rrcReady s = true ∧ t = rrcTake x { s with qCar := ⟨xs, s.qCar.closed⟩ } := by
  simp only [exec, execRrcStep] at h
  split at h
  · next e => exact .inl ⟨by simp [dataEnabled, e], by cases h; rfl⟩
  · next x xs e =>
    by_cases r : rrcReady s = true
    · rw [if_pos r] at h
      exact .inr ⟨x, xs, e, r, by cases h; simp [popped, e]⟩
    · rw [if_neg r] at h
      exact .inl ⟨by simp [dataEnabled, Bool.eq_false_iff.mpr r], by cases h; rfl⟩

theorem exec_rrcStep_enabled {s : State} (h : dataEnabled .rrc s = true) :
    ∃ x xs, s.qCar.items = x :: xs ∧ rrcReady s = true ∧
      exec .rrcStep s = .next (rrcTake x { s with qCar := ⟨xs, s.qCar.closed⟩ }) := by
  cases e : s.qCar.items with
  | nil => simp [dataEnabled, e] at h
  | cons x xs =>
    have r : rrcReady s = true := by simpa [dataEnabled, e] using h
    exact ⟨x, xs, rfl, r, by simp [exec, execRrcStep, e, r, popped]⟩

theorem exec_mmStep_cases {s t : State} (h : exec .mmStep s = .next t) :
    (dataEnabled .mm s = false ∧ t = s) ∨
    ∃ x xs, s.qMf.items = x :: xs ∧ mmReady s = true ∧ t = mmTake x { s with qMf := ⟨xs, s.qMf.closed⟩ } := by
  simp only [exec, execMmStep] at h
  split at h
  · next e => exact .inl ⟨by simp [dataEnabled, e], by cases h; rfl⟩
  · next x xs e =>
    by_cases r : mmReady s = true
    · rw [if_pos r] at h
      exact .inr ⟨x, xs, e, r, by cases h; simp [popped, e]⟩
    · rw [if_neg r] at h
      exact .inl ⟨by simp [dataEnabled, Bool.eq_false_iff.mpr r], by cases h; rfl⟩

theorem exec_mmStep_enabled {s : State} (h : dataEnabled .mm s = true) :
    ∃ x xs, s.qMf.items = x :: xs ∧ mmReady s = true ∧
      exec .mmStep s = .next (mmTake x { s with qMf := ⟨xs, s.qMf.closed⟩ }) := by
  cases e : s.qMf.items with
  | nil => simp [dataEnabled, e] at h
  | cons x xs =>
    have r : mmReady s = true := by simpa [dataEnabled, e] using h
    exact ⟨x, xs, rfl, r, by simp [exec, execMmStep, e, r, popped]⟩

theorem exec_slice_cases {s t : State} (h : exec .slice s = .next t) :
    (dataEnabled .slicer s = false ∧ t = s) ∨
    ∃ x xs, s.qSym.items = x :: xs ∧ sliceReady s = true ∧ t = sliceTake x { s with qSym := ⟨xs, s.qSym.closed⟩ } := by
  simp only [exec, execSlice] at h
  split at h
  · next e => exact .inl ⟨by simp [dataEnabled, e], by cases h; rfl⟩
  · next x xs e =>
    by_cases r : sliceReady s = true
    · rw [if_pos r] at h
      exact .inr ⟨x, xs, e, r, by cases h; simp [popped, e]⟩
    · rw [if_neg r] at h
      exact .inl ⟨by simp [dataEnabled, Bool.eq_false_iff.mpr r], by cases h; rfl⟩

theorem exec_slice_enabled {s : State} (h : dataEnabled .slicer s = true) :
    ∃ x xs, s.qSym.items = x :: xs ∧ sliceReady s = true ∧
      exec .slice s = .next (sliceTake x { s with qSym := ⟨xs, s.qSym.closed⟩ }) := by
  cases e : s.qSym.items with
  | nil => simp [dataEnabled, e] at h
  | cons x xs =>
    have r : sliceReady s = true := by simpa [dataEnabled, e] using h
    exact ⟨x, xs, rfl, r, by simp [exec, execSlice, e, r, popped]⟩

theorem exec_repackBit_cases {s t : State} (h : exec .repackBit s = .next t) :
    (dataEnabled .repacker s = false ∧ t = s) ∨
    ∃ x xs, s.qBit.items = x :: xs ∧ repackReady s = true ∧ t = repackTake x { s with qBit := ⟨xs, s.qBit.closed⟩ } := by
  simp only [exec, execRepackBit] at h
  split at h
  · next e => exact .inl ⟨by simp [dataEnabled, e], by cases h; rfl⟩
  · next x xs e =>
    by_cases r : repackReady s = true
    · rw [if_pos r] at h
      exact .inr ⟨x, xs, e, r, by cases h; simp [popped, e]⟩
    · rw [if_neg r] at h
      exact .inl ⟨by simp [dataEnabled, Bool.eq_false_iff.mpr r], by cases h; rfl⟩

theorem exec_repackBit_enabled {s : State} (h : dataEnabled .repacker s = true) :
    ∃ x xs, s.qBit.items = x :: xs ∧ repackReady s = true ∧
      exec .repackBit s = .next (repackTake x { s with qBit := ⟨xs, s.qBit.closed⟩ }) := by
  cases e : s.qBit.items with
  | nil => simp [dataEnabled, e] at h
  | cons x xs =>
    have r : repackReady s = true := by simpa [dataEnabled, e] using h
    exact ⟨x, xs, rfl, r, by simp [exec, execRepackBit, e, r, popped]⟩

theorem exec_deframeByte_cases {s t : State} (h : exec .deframeByte s = .next t) :
    (dataEnabled .deframer s = false ∧ t = s) ∨
    ∃ x xs, s.qByte.items = x :: xs ∧ deframeReady s = true ∧ t = deframeTake (byteBits x) { s with qByte := ⟨xs, s.qByte.closed⟩ } := by
  simp only [exec, execDeframeByte] at h
  split at h
  · next e => exact .inl ⟨by simp [dataEnabled, e], by cases h; rfl⟩
  · next x xs e =>
    by_cases r : deframeReady s = true
    · rw [if_pos r] at h
      exact .inr ⟨x, xs, e, r, by cases h; simp [popped, e]⟩
    · rw [if_neg r] at h
      exact .inl ⟨by simp [dataEnabled, Bool.eq_false_iff.mpr r], by cases h; rfl⟩

theorem exec_deframeByte_enabled {s : State} (h : dataEnabled .deframer s = true) :
    ∃ x xs, s.qByte.items = x :: xs ∧ deframeReady s = true ∧
      exec .deframeByte s = .next (deframeTake (byteBits x) { s with qByte := ⟨xs, s.qByte.closed⟩ }) := by
  cases e : s.qByte.items with
  | nil => simp [dataEnabled, e] at h
  | cons x xs =>
    have r : deframeReady s = true := by simpa [dataEnabled, e] using h
    exact ⟨x, xs, rfl, r, by simp [exec, execDeframeByte, e, r, popped]⟩

/-! ### Operations issued alone -/

theorem exec_pllAdvance (e : F32) (s : State) :
    exec (.pllAdvance e) s = .next (if s.pll.status.cfgValid then pllTake e s else s) := by
  simp only [exec, execPllAdvance]; split <;> rfl

theorem exec_snrUpdate (x : Cplx) (s : State) :
    exec (.snrUpdate x) s = .next (if s.snr.status.cfgValid then snrTake x s else s) := by
  simp only [exec, execSnrUpdate]; split <;> rfl

theorem exec_deframeBit (x : Bool) (s : State) :
    exec (.deframeBit x) s = .next (if deframeReady s then deframeTake [x] s else s) := by
  simp only [exec, execDeframeBit]; split <;> rfl

/-! ### End of stream -/

theorem exec_eosPropagateAgc (s : State) :
    exec .eosPropagateAgc s = .next (if agcEosReady s then { s with qAgc := close s.qAgc } else s) := by
  simp only [exec, execEosPropagateAgc]; split <;> rfl

theorem exec_eosPropagateCostas (s : State) :
    exec .eosPropagateCostas s = .next (if costasEosReady s then { s with qCar := close s.qCar } else s) := by
  simp only [exec, execEosPropagateCostas]; split <;> rfl

theorem exec_eosPropagateRrc (s : State) :
    exec .eosPropagateRrc s = .next (if rrcEosReady s then { s with qMf := close s.qMf } else s) := by
  simp only [exec, execEosPropagateRrc]; split <;> rfl

theorem exec_eosPropagateMm (s : State) :
    exec .eosPropagateMm s = .next (if mmEosReady s then { s with qSym := close s.qSym } else s) := by
  simp only [exec, execEosPropagateMm]; split <;> rfl

theorem exec_eosPropagateSlicer (s : State) :
    exec .eosPropagateSlicer s = .next (if slicerEosReady s then { s with qBit := close s.qBit, qSoft := close s.qSoft } else s) := by
  simp only [exec, execEosPropagateSlicer]; split <;> rfl

theorem exec_eosPropagateRepacker (s : State) :
    exec .eosPropagateRepacker s = .next (if repackerEosReady s then { s with qByte := close s.qByte } else s) := by
  simp only [exec, execEosPropagateRepacker]; split <;> rfl

theorem exec_eosPropagateDeframer (s : State) :
    exec .eosPropagateDeframer s = .next (if deframerEosReady s then { s with qFrame := close s.qFrame } else s) := by
  simp only [exec, execEosPropagateDeframer]; split <;> rfl

/-! ### Control actions -/

theorem exec_commitAgc (s : State) : exec .commitAgc s = .next (commitUnit .agc s) := rfl
theorem exec_sresetAgc (s : State) : exec .sresetAgc s = .next (resetUnit .agc s) := rfl
theorem exec_commitCostas (s : State) : exec .commitCostas s = .next (commitUnit .costas s) := rfl
theorem exec_sresetCostas (s : State) : exec .sresetCostas s = .next (resetUnit .costas s) := rfl
theorem exec_commitPll (s : State) : exec .commitPll s = .next (commitUnit .pll s) := rfl
theorem exec_sresetPll (s : State) : exec .sresetPll s = .next (resetUnit .pll s) := rfl
theorem exec_commitRrc (s : State) : exec .commitRrc s = .next (commitUnit .rrc s) := rfl
theorem exec_sresetRrc (s : State) : exec .sresetRrc s = .next (resetUnit .rrc s) := rfl
theorem exec_commitMm (s : State) : exec .commitMm s = .next (commitUnit .mm s) := rfl
theorem exec_sresetMm (s : State) : exec .sresetMm s = .next (resetUnit .mm s) := rfl
theorem exec_commitSnr (s : State) : exec .commitSnr s = .next (commitUnit .snr s) := rfl
theorem exec_sresetSnr (s : State) : exec .sresetSnr s = .next (resetUnit .snr s) := rfl
theorem exec_commitSlicer (s : State) : exec .commitSlicer s = .next (commitUnit .slicer s) := rfl
theorem exec_sresetSlicer (s : State) : exec .sresetSlicer s = .next (resetUnit .slicer s) := rfl
theorem exec_commitRepacker (s : State) : exec .commitRepacker s = .next (commitUnit .repacker s) := rfl
theorem exec_sresetRepacker (s : State) : exec .sresetRepacker s = .next (resetUnit .repacker s) := rfl
theorem exec_commitDeframer (s : State) : exec .commitDeframer s = .next (commitUnit .deframer s) := rfl
theorem exec_sresetDeframer (s : State) : exec .sresetDeframer s = .next (resetUnit .deframer s) := rfl
theorem exec_commitAll (s : State) : exec .commitAll s = .next (commitEvery s) := rfl
theorem exec_sresetAll (s : State) : exec .sresetAll s = .next (newSession s) := rfl
theorem exec_stop (s : State) : exec .stop s = .next (stopInput s) := rfl
theorem exec_abort (s : State) : exec .abort s = .next (abortAll s) := rfl

/-! ### Host transactions -/

theorem exec_regRead (a : Half) (s : State) :
    exec (.regRead a) s = .next (match accessed a with
      | none => raiseBusError s
      | some r => respond (.okData (regShows r s)) s) := by
  cases h : accessed a <;> simp [exec, execRegRead, h]

theorem exec_regWrite (a : Half) (v : Word) (s : State) :
    exec (.regWrite a v) s = .next (match accessed a with
      | none => raiseBusError s
      | some r => if regClass r = .ro then raiseBusError s else respond .ok (writeReg r v s)) := by
  cases h : accessed a with
  | none => simp [exec, execRegWrite, h]
  | some r => simp only [exec, execRegWrite, h]; split <;> rfl

theorem exec_srcPush (x : Cplx) (s : State) :
    exec (.srcPush x) s = .next (
      if s.qSrc.closed then raiseBusError s
      else if s.qSrc.items.length < Config.fifoDepth then respond .ok { s with qSrc := push s.qSrc x }
      else s) := by
  simp only [exec, execSrcPush]
  split
  · rfl
  · split <;> rfl

/-- A `FRAME_POP` answers a frame, answers end of stream, or is held. -/
theorem exec_framePop_cases {s t : State} (h : exec .framePop s = .next t) :
    (∃ f fs, s.qFrame.items = f :: fs ∧ t = respond (.frame f) { s with qFrame := ⟨fs, s.qFrame.closed⟩ }) ∨
    (s.qFrame.items = [] ∧ s.qFrame.closed = true ∧ t = respond .eos s) ∨
    (s.qFrame.items = [] ∧ s.qFrame.closed = false ∧ t = s) := by
  simp only [exec, execFramePop] at h
  split at h
  · next f fs e => exact .inl ⟨f, fs, e, by cases h; simp [popped, e]⟩
  · next e =>
    by_cases c : s.qFrame.closed = true
    · rw [if_pos c] at h; exact .inr (.inl ⟨e, c, by cases h; rfl⟩)
    · rw [if_neg c] at h; exact .inr (.inr ⟨e, Bool.eq_false_iff.mpr c, by cases h; rfl⟩)

/-- A `SOFT_POP` answers a soft value, answers end of stream, or is held. -/
theorem exec_softPop_cases {s t : State} (h : exec .softPop s = .next t) :
    (∃ v vs, s.qSoft.items = v :: vs ∧ t = respond (.soft v) { s with qSoft := ⟨vs, s.qSoft.closed⟩ }) ∨
    (s.qSoft.items = [] ∧ s.qSoft.closed = true ∧ t = respond .eos s) ∨
    (s.qSoft.items = [] ∧ s.qSoft.closed = false ∧ t = s) := by
  simp only [exec, execSoftPop] at h
  split at h
  · next v vs e => exact .inl ⟨v, vs, e, by cases h; simp [popped, e]⟩
  · next e =>
    by_cases c : s.qSoft.closed = true
    · rw [if_pos c] at h; exact .inr (.inl ⟨e, c, by cases h; rfl⟩)
    · rw [if_neg c] at h; exact .inr (.inr ⟨e, Bool.eq_false_iff.mpr c, by cases h; rfl⟩)

/-! ### Steps -/

/-- A step that answers a next state ran an operation of `fetch`, or only let the turn pass. -/
theorem step_cases {s t : State} (h : step s = .next t) :
    (∃ i u, fetch s = .run i u ∧ exec i u = .next t) ∨ fetch s = .pass t := by
  simp only [step] at h
  split at h
  · next i u e => exact .inl ⟨i, u, e, h⟩
  · next u e => cases h; exact .inr e
  · cases h

/-- What the host's next words are: those it has, or those of its next line. The block is not touched. -/
theorem takeLine_cases (s : State) :
    takeLine s = s ∨ ∃ l more, s.script = [] ∧ s.lines = l :: more ∧
      takeLine s = { s with
        script := opWords (lineOps l), lines := if lineDone l s then more else l :: more } := by
  simp only [takeLine]
  split
  · next l more h1 h2 => exact .inr ⟨l, more, h1, h2, rfl⟩
  · exact .inl rfl

/-- What a turn can come to: the host's operation, a unit's enabled step, an issued operation, the reset input, or
nothing. What is run is recorded. -/
theorem fetch_run_cases {s u : State} {i : Instr} (h : fetch s = .run i u) :
    (∃ after, decode (takeLine s).script = .ok (i, after) ∧ held i s = false ∧
      u = record i (endTurn { takeLine s with script := after })) ∨
    (∃ a, agentStep a s = some i ∧ u = record i (endTurn s)) ∨
    (∃ ws after, decode ws = .ok (i, after) ∧ u = record i (endTurn s)) := by
  simp only [fetch] at h
  split at h
  · simp only [hostTurn] at h
    split at h
    · cases h
    · next d rest e =>
      split at h
      · split at h
        · cases h
        · next j after e2 =>
          split at h
          · cases h
          · next hh =>
            injection h with h1 h2
            subst h1 h2
            exact .inl ⟨after, e2, Bool.eq_false_iff.mpr hh, rfl⟩
      · cases h
  · next a _ _ =>
    simp only [unitTurn] at h
    split at h
    · cases h
    · next j e => injection h with h1 h2; subst h1 h2; exact .inr (.inl ⟨a, e, rfl⟩)
  · cases h
  · next ws _ =>
    simp only [issueTurn] at h
    split at h
    · cases h
    · next j after e => injection h with h1 h2; subst h1 h2; exact .inr (.inr ⟨ws, after, e, rfl⟩)

end Sys2Proof.Machine
end

