-- ==== Sys2Proof/Laws/Float.lean ====
section
/-! SUPPORT. The order of binary32 values, and what the helpers of 00_scope.md R9, R10 answer. -/

namespace Sys2Proof

/-! ### Classes -/

theorem Fp.finite_zero : Fp.finite Fp.zero = true := by decide

theorem Fp.isNaN_of_finite {x : F32} (h : Fp.finite x = true) : Fp.isNaN x = false := by
  simp only [Fp.finite, bne_iff_ne, ne_eq] at h
  simp [Fp.isNaN, h]

theorem Fp.isInf_of_finite {x : F32} (h : Fp.finite x = true) : Fp.isInf x = false := by
  simp only [Fp.finite, bne_iff_ne, ne_eq] at h
  simp [Fp.isInf, h]

/-- A value is finite, infinite or a NaN. -/
theorem Fp.finite_eq (x : F32) : Fp.finite x = (!Fp.isNaN x && !Fp.isInf x) := by
  by_cases h : Fp.expField x = 255
  · by_cases g : Fp.fracField x = 0 <;> simp [Fp.finite, Fp.isNaN, Fp.isInf, h, g]
  · have e : Fp.finite x = true := by simpa [Fp.finite] using h
    simp [e, Fp.isNaN_of_finite e, Fp.isInf_of_finite e]

/-- The magnitude bits of a value. -/
theorem Fp.magnitude_eq (x : F32) :
    (x.extractLsb' 0 31).toNat = Fp.expField x * 2 ^ 23 + Fp.fracField x := by
  simp only [Fp.expField, Fp.fracField, BitVec.extractLsb'_toNat, Nat.shiftRight_eq_div_pow]
  have := x.isLt
  omega

theorem Fp.fracField_lt (x : F32) : Fp.fracField x < 2 ^ 23 := (x.extractLsb' 0 23).isLt

theorem Fp.expField_lt (x : F32) : Fp.expField x < 256 := (x.extractLsb' 23 8).isLt

/-- A value is finite exactly when its rank is strictly inside the infinities. -/
theorem Fp.finite_iff_rank (x : F32) :
    Fp.finite x = true ↔ -0x7F800000 < Fp.rank x ∧ Fp.rank x < 0x7F800000 := by
  have h1 := Fp.magnitude_eq x
  have h2 := Fp.fracField_lt x
  have h3 := Fp.expField_lt x
  simp only [Fp.finite, bne_iff_ne, ne_eq, Fp.rank, h1]
  split <;> omega

/-! ### Order -/

theorem Fp.lt_iff (a b : F32) :
    Fp.lt a b = true ↔ Fp.isNaN a = false ∧ Fp.isNaN b = false ∧ Fp.rank a < Fp.rank b := by
  simp [Fp.lt, and_assoc]

theorem Fp.le_iff (a b : F32) :
    Fp.le a b = true ↔ Fp.isNaN a = false ∧ Fp.isNaN b = false ∧ Fp.rank a ≤ Fp.rank b := by
  simp [Fp.le, and_assoc]

theorem Fp.le_refl {a : F32} (h : Fp.isNaN a = false) : Fp.le a a = true := by simp [Fp.le_iff, h]

theorem Fp.le_trans {a b c : F32} (h : Fp.le a b = true) (g : Fp.le b c = true) : Fp.le a c = true := by
  rw [Fp.le_iff] at *; exact ⟨h.1, g.2.1, by omega⟩

theorem Fp.le_of_lt {a b : F32} (h : Fp.lt a b = true) : Fp.le a b = true := by
  rw [Fp.lt_iff] at h; rw [Fp.le_iff]; exact ⟨h.1, h.2.1, by omega⟩

/-- Of two numbers one is not above the other. -/
theorem Fp.le_of_not_lt {a b : F32} (ha : Fp.isNaN a = false) (hb : Fp.isNaN b = false)
    (h : Fp.lt a b = false) : Fp.le b a = true := by
  have h : ¬ Fp.lt a b = true := by simp [h]
  rw [Fp.lt_iff] at h; rw [Fp.le_iff]; exact ⟨hb, ha, by by_contra; exact h ⟨ha, hb, by omega⟩⟩

/-- A value between two finite values is finite. -/
theorem Fp.finite_of_le_of_le {a b c : F32} (ha : Fp.finite a = true) (hc : Fp.finite c = true)
    (h : Fp.le a b = true) (g : Fp.le b c = true) : Fp.finite b = true := by
  rw [Fp.finite_iff_rank] at *
  rw [Fp.le_iff] at h g
  omega

/-- A change of sign changes bit 31. -/
theorem Fp.sign_neg (x : F32) : Fp.sign (Fp.neg x) = !Fp.sign x := by
  simp only [Fp.sign, Fp.neg, BitVec.getLsbD_xor]
  rw [show BitVec.getLsbD (0x80000000 : F32) 31 = true from rfl]; simp

/-- A change of sign changes no bit below 31. -/
theorem Fp.extract_neg (x : F32) (s n : Nat) (h : s + n ≤ 31) :
    (Fp.neg x).extractLsb' s n = x.extractLsb' s n := by
  apply BitVec.eq_of_getLsbD_eq
  intro i hi
  have e : BitVec.getLsbD (0x80000000 : F32) (s + i) = false := by
    have h31 : s + i < 31 := by omega
    generalize s + i = k at h31
    interval_cases k <;> rfl
  simp only [Fp.neg, BitVec.getLsbD_extractLsb', BitVec.getLsbD_xor, e, Bool.xor_false]

/-- The sign bit changes and the magnitude stays, so the rank is negated. -/
theorem Fp.rank_neg (x : F32) : Fp.rank (Fp.neg x) = -Fp.rank x := by
  simp only [Fp.rank, Fp.extract_neg x 0 31 (by decide), Fp.sign_neg]
  cases Fp.sign x <;> simp

theorem Fp.isNaN_neg (x : F32) : Fp.isNaN (Fp.neg x) = Fp.isNaN x := by
  simp only [Fp.isNaN, Fp.expField, Fp.fracField, Fp.extract_neg x 23 8 (by decide),
    Fp.extract_neg x 0 23 (by decide)]

/-! ### Helpers of R9 and R10 -/

/-- `fin0` answers a finite value. -/
@[simp] theorem Fp.finite_fin0 (v : F32) : Fp.finite (Fp.fin0 v) = true := by
  unfold Fp.fin0; split
  · assumption
  · exact Fp.finite_zero

theorem Fp.fin0_of_finite {v : F32} (h : Fp.finite v = true) : Fp.fin0 v = v := by simp [Fp.fin0, h]

@[simp] theorem Fp.finiteC_fin0c (a : Cplx) : Fp.finiteC (Fp.fin0c a) = true := by
  simp [Fp.finiteC, Fp.fin0c]

/-- A clamped number lies between its bounds, whatever it was. -/
theorem Fp.clamp_range {v lo hi : F32} (hv : Fp.isNaN v = false) (h : Fp.le lo hi = true) :
    Fp.le lo (Fp.clamp v lo hi) = true ∧ Fp.le (Fp.clamp v lo hi) hi = true := by
  have hl := (Fp.le_iff lo hi).mp h
  unfold Fp.clamp
  split
  · exact ⟨Fp.le_refl hl.1, h⟩
  · next a =>
    have a := Fp.le_of_not_lt hv hl.1 (Bool.eq_false_iff.mpr a)
    split
    · exact ⟨h, Fp.le_refl hl.2.1⟩
    · next b => exact ⟨a, Fp.le_of_not_lt hl.2.1 hv (Bool.eq_false_iff.mpr b)⟩

/-- `clip1` answers a finite value in `[-1, 1]`. -/
theorem Fp.clip1_range (v : F32) :
    Fp.finite (Fp.clip1 v) = true ∧ Fp.le Fp.negOne (Fp.clip1 v) = true ∧ Fp.le (Fp.clip1 v) Fp.one = true := by
  have key : Fp.le Fp.negOne (Fp.clip1 v) = true ∧ Fp.le (Fp.clip1 v) Fp.one = true := by
    unfold Fp.clip1
    split
    · decide
    · next n =>
      have n := Bool.eq_false_iff.mpr n
      split
      · decide
      · next a =>
        split
        · decide
        · next b =>
          exact ⟨Fp.le_of_not_lt n (by decide) (Bool.eq_false_iff.mpr b),
            Fp.le_of_not_lt (by decide) n (Bool.eq_false_iff.mpr a)⟩
  exact ⟨Fp.finite_of_le_of_le (by decide) (by decide) key.1 key.2, key⟩

/-- `min` of two numbers is one of them and not above either. -/
theorem Fp.min_range {a b : F32} (ha : Fp.isNaN a = false) (hb : Fp.isNaN b = false) :
    Fp.le (Fp.min a b) a = true ∧ Fp.le (Fp.min a b) b = true := by
  unfold Fp.min; split
  · next h => exact ⟨Fp.le_refl ha, Fp.le_of_lt h⟩
  · next h => exact ⟨Fp.le_of_not_lt ha hb (Bool.eq_false_iff.mpr h), Fp.le_refl hb⟩

/-- `max` of two numbers is one of them and not below either. -/
theorem Fp.max_range {a b : F32} (ha : Fp.isNaN a = false) (hb : Fp.isNaN b = false) :
    Fp.le a (Fp.max a b) = true ∧ Fp.le b (Fp.max a b) = true := by
  unfold Fp.max; split
  · next h => exact ⟨Fp.le_refl ha, Fp.le_of_lt h⟩
  · next h => exact ⟨Fp.le_of_not_lt hb ha (Bool.eq_false_iff.mpr h), Fp.le_refl hb⟩

end Sys2Proof
end

