-- ==== Sys2Proof/Laws/PerInstr.lean ====
section
/-! SUPPORT. Per operation: the descriptor at the head of its words has the operation's fields, a zero `Z`, and is
that of a host transaction exactly when the operation is one (30_encoding.md R100, R102). -/

namespace Sys2Proof.Laws

/-- The descriptor of an operation reads as it was written. -/
def Descriptor.Statement (i : Instr) : Prop :=
  ∃ d ps, encode i = d :: ps ∧ descUnit d = i.unitOp.1 ∧ descOp d = i.unitOp.2 ∧ descZ d = 0 ∧
    isHostDescriptor d = i.isHostTransaction

/-- The statement from the operation's `UNIT` and `OP`, checked on the numbers alone. -/
theorem Descriptor.fromFields {i : Instr} (u o : Nat) (b : Bool) (hi : i.unitOp = (u, o))
    (hb : i.isHostTransaction = b)
    (h : descUnit (descOf u o) = u ∧ descOp (descOf u o) = o ∧ descZ (descOf u o) = 0 ∧
      isHostDescriptor (descOf u o) = b) : Descriptor.Statement i := by
  refine ⟨descOf u o, i.payload, by rw [encode, Instr.descriptor, hi], ?_, ?_, h.2.2.1, by rw [hb]; exact h.2.2.2⟩ <;> rw [hi]
  · exact h.1
  · exact h.2.1

theorem Descriptor.regRead (a : Half) : Descriptor.Statement (.regRead a) :=
  Descriptor.fromFields _ _ true rfl rfl (by decide)
theorem Descriptor.regWrite (a : Half) (v : Word) : Descriptor.Statement (.regWrite a v) :=
  Descriptor.fromFields _ _ true rfl rfl (by decide)
theorem Descriptor.srcPush (x : Cplx) : Descriptor.Statement (.srcPush x) :=
  Descriptor.fromFields _ _ true rfl rfl (by decide)
theorem Descriptor.framePop : Descriptor.Statement .framePop :=
  Descriptor.fromFields _ _ true rfl rfl (by decide)
theorem Descriptor.softPop : Descriptor.Statement .softPop :=
  Descriptor.fromFields _ _ true rfl rfl (by decide)
theorem Descriptor.commitAll : Descriptor.Statement .commitAll :=
  Descriptor.fromFields _ _ false rfl rfl (by decide)
theorem Descriptor.sresetAll : Descriptor.Statement .sresetAll :=
  Descriptor.fromFields _ _ false rfl rfl (by decide)
theorem Descriptor.stop : Descriptor.Statement .stop :=
  Descriptor.fromFields _ _ false rfl rfl (by decide)
theorem Descriptor.abort : Descriptor.Statement .abort :=
  Descriptor.fromFields _ _ false rfl rfl (by decide)
theorem Descriptor.agcStep : Descriptor.Statement .agcStep :=
  Descriptor.fromFields _ _ false rfl rfl (by decide)
theorem Descriptor.costasStep : Descriptor.Statement .costasStep :=
  Descriptor.fromFields _ _ false rfl rfl (by decide)
theorem Descriptor.pllAdvance (e : F32) : Descriptor.Statement (.pllAdvance e) :=
  Descriptor.fromFields _ _ false rfl rfl (by decide)
theorem Descriptor.rrcStep : Descriptor.Statement .rrcStep :=
  Descriptor.fromFields _ _ false rfl rfl (by decide)
theorem Descriptor.mmStep : Descriptor.Statement .mmStep :=
  Descriptor.fromFields _ _ false rfl rfl (by decide)
theorem Descriptor.snrUpdate (x : Cplx) : Descriptor.Statement (.snrUpdate x) :=
  Descriptor.fromFields _ _ false rfl rfl (by decide)
theorem Descriptor.slice : Descriptor.Statement .slice :=
  Descriptor.fromFields _ _ false rfl rfl (by decide)
theorem Descriptor.repackBit : Descriptor.Statement .repackBit :=
  Descriptor.fromFields _ _ false rfl rfl (by decide)
theorem Descriptor.deframeByte : Descriptor.Statement .deframeByte :=
  Descriptor.fromFields _ _ false rfl rfl (by decide)
theorem Descriptor.deframeBit (x : Bool) : Descriptor.Statement (.deframeBit x) :=
  Descriptor.fromFields _ _ false rfl rfl (by decide)
theorem Descriptor.commitAgc : Descriptor.Statement .commitAgc :=
  Descriptor.fromFields _ _ false rfl rfl (by decide)
theorem Descriptor.commitCostas : Descriptor.Statement .commitCostas :=
  Descriptor.fromFields _ _ false rfl rfl (by decide)
theorem Descriptor.commitPll : Descriptor.Statement .commitPll :=
  Descriptor.fromFields _ _ false rfl rfl (by decide)
theorem Descriptor.commitRrc : Descriptor.Statement .commitRrc :=
  Descriptor.fromFields _ _ false rfl rfl (by decide)
theorem Descriptor.commitMm : Descriptor.Statement .commitMm :=
  Descriptor.fromFields _ _ false rfl rfl (by decide)
theorem Descriptor.commitSnr : Descriptor.Statement .commitSnr :=
  Descriptor.fromFields _ _ false rfl rfl (by decide)
theorem Descriptor.commitSlicer : Descriptor.Statement .commitSlicer :=
  Descriptor.fromFields _ _ false rfl rfl (by decide)
theorem Descriptor.commitRepacker : Descriptor.Statement .commitRepacker :=
  Descriptor.fromFields _ _ false rfl rfl (by decide)
theorem Descriptor.commitDeframer : Descriptor.Statement .commitDeframer :=
  Descriptor.fromFields _ _ false rfl rfl (by decide)
theorem Descriptor.sresetAgc : Descriptor.Statement .sresetAgc :=
  Descriptor.fromFields _ _ false rfl rfl (by decide)
theorem Descriptor.sresetCostas : Descriptor.Statement .sresetCostas :=
  Descriptor.fromFields _ _ false rfl rfl (by decide)
theorem Descriptor.sresetPll : Descriptor.Statement .sresetPll :=
  Descriptor.fromFields _ _ false rfl rfl (by decide)
theorem Descriptor.sresetRrc : Descriptor.Statement .sresetRrc :=
  Descriptor.fromFields _ _ false rfl rfl (by decide)
theorem Descriptor.sresetMm : Descriptor.Statement .sresetMm :=
  Descriptor.fromFields _ _ false rfl rfl (by decide)
theorem Descriptor.sresetSnr : Descriptor.Statement .sresetSnr :=
  Descriptor.fromFields _ _ false rfl rfl (by decide)
theorem Descriptor.sresetSlicer : Descriptor.Statement .sresetSlicer :=
  Descriptor.fromFields _ _ false rfl rfl (by decide)
theorem Descriptor.sresetRepacker : Descriptor.Statement .sresetRepacker :=
  Descriptor.fromFields _ _ false rfl rfl (by decide)
theorem Descriptor.sresetDeframer : Descriptor.Statement .sresetDeframer :=
  Descriptor.fromFields _ _ false rfl rfl (by decide)
theorem Descriptor.eosPropagateAgc : Descriptor.Statement .eosPropagateAgc :=
  Descriptor.fromFields _ _ false rfl rfl (by decide)
theorem Descriptor.eosPropagateCostas : Descriptor.Statement .eosPropagateCostas :=
  Descriptor.fromFields _ _ false rfl rfl (by decide)
theorem Descriptor.eosPropagateRrc : Descriptor.Statement .eosPropagateRrc :=
  Descriptor.fromFields _ _ false rfl rfl (by decide)
theorem Descriptor.eosPropagateMm : Descriptor.Statement .eosPropagateMm :=
  Descriptor.fromFields _ _ false rfl rfl (by decide)
theorem Descriptor.eosPropagateSlicer : Descriptor.Statement .eosPropagateSlicer :=
  Descriptor.fromFields _ _ false rfl rfl (by decide)
theorem Descriptor.eosPropagateRepacker : Descriptor.Statement .eosPropagateRepacker :=
  Descriptor.fromFields _ _ false rfl rfl (by decide)
theorem Descriptor.eosPropagateDeframer : Descriptor.Statement .eosPropagateDeframer :=
  Descriptor.fromFields _ _ false rfl rfl (by decide)

end Sys2Proof.Laws
end

