-- ==== Sys2Proof/Laws/Rounding.lean ====
section
/-! SUPPORT. Rounding: what the operations of 00_scope.md R7 answer, as a relation to the exact value, and that the
relation is monotone. A bound of a result follows by comparing exact values. -/

namespace Sys2Proof

/-! ### Round to nearest, ties to even, on a rational -/

/-- `n` is `x` rounded to an integer, ties to even. -/
def IsRne (x : ℚ) (n : ℕ) : Prop :=
  (n : ℚ) - 1 / 2 ≤ x ∧ x ≤ (n : ℚ) + 1 / 2 ∧ (x = (n : ℚ) - 1 / 2 ∨ x = (n : ℚ) + 1 / 2 → n % 2 = 0)

theorem IsRne.mono {x y : ℚ} {n k : ℕ} (hx : IsRne x n) (hy : IsRne y k) (h : x ≤ y) : n ≤ k := by
  by_contra hc
  have hc : k + 1 ≤ n := by omega
  have hq : (k : ℚ) + 1 ≤ n := by exact_mod_cast hc
  have e1 : x = (n : ℚ) - 1 / 2 := by linarith [hx.1, hy.2.1]
  have e2 : y = (k : ℚ) + 1 / 2 := by linarith [hx.1, hy.2.1]
  have e3 : (n : ℚ) = k + 1 := by linarith [hx.1, hy.2.1]
  have e4 : n = k + 1 := by exact_mod_cast e3
  have p1 := hx.2.2 (.inl e1)
  have p2 := hy.2.2 (.inr e2)
  omega

theorem IsRne.nat (n : ℕ) : IsRne (n : ℚ) n :=
  ⟨by linarith, by linarith, by rintro (h | h) <;> linarith⟩

/-- `roundShift` rounds the quotient by a power of two. -/
theorem roundShift_isRne (m k : ℕ) : IsRne ((m : ℚ) / 2 ^ k) (Fp.roundShift m k) := by
  have hp : (0 : ℚ) < 2 ^ k := by positivity
  have hdm : (m : ℚ) = 2 ^ k * (m / 2 ^ k : ℕ) + (m % 2 ^ k : ℕ) := by exact_mod_cast (Nat.div_add_mod m (2 ^ k)).symm
  have hr : m % 2 ^ k < 2 ^ k := Nat.mod_lt _ (by positivity)
  set d := m / 2 ^ k with hd
  set r := m % 2 ^ k with hr'
  have hx : (m : ℚ) / 2 ^ k = d + r / 2 ^ k := by rw [hdm]; field_simp
  have hrq : (r : ℚ) < 2 ^ k := by exact_mod_cast hr
  have h0 : (0 : ℚ) ≤ r / 2 ^ k := by positivity
  rw [hx]
  simp only [Fp.roundShift, ← hd, ← hr']
  split
  · next c =>
    have c2 : (2 ^ k : ℚ) ≤ 2 * r := by
      rcases c with c | c
      · exact_mod_cast c.le
      · exact_mod_cast c.1.ge
    have a1 : (1 : ℚ) / 2 ≤ r / 2 ^ k := by rw [le_div_iff₀ hp]; linarith
    have a2 : (r : ℚ) / 2 ^ k < 1 := by rw [div_lt_one hp]; exact hrq
    refine ⟨by push_cast; linarith, by push_cast; linarith, ?_⟩
    rintro (e | e)
    · have e' : (r : ℚ) / 2 ^ k = 1 / 2 := by push_cast at e; linarith
      rw [div_eq_iff hp.ne'] at e'
      have : 2 * r = 2 ^ k := by
        have : (2 : ℚ) * r = 2 ^ k := by linarith
        exact_mod_cast this
      omega
    · push_cast at e; linarith
  · next c =>
    have c2 : 2 * r ≤ 2 ^ k := by omega
    have c3 : (2 * r : ℚ) ≤ 2 ^ k := by exact_mod_cast c2
    have a1 : (r : ℚ) / 2 ^ k ≤ 1 / 2 := by rw [div_le_iff₀ hp]; linarith
    refine ⟨by linarith, by linarith, ?_⟩
    rintro (e | e)
    · linarith
    · have e' : (r : ℚ) / 2 ^ k = 1 / 2 := by linarith
      rw [div_eq_iff hp.ne'] at e'
      have : 2 * r = 2 ^ k := by
        have : (2 : ℚ) * r = 2 ^ k := by linarith
        exact_mod_cast this
      omega

/-! ### Magnitudes -/

/-- The magnitude bits `n`, before the cut at infinity, are those of the non-negative `v` rounded: with the biased
exponent `e`, the last place is worth `2 ^ (e - 149)`. -/
def RoundsTo (v : ℚ) (n : ℕ) : Prop :=
  ∃ e mant : ℕ, n = e * 2 ^ 23 + mant ∧ IsRne (v / 2 ^ ((e : ℤ) - 149)) mant ∧
    v / 2 ^ ((e : ℤ) - 149) < 2 ^ 24 ∧ (e = 0 ∨ 2 ^ 23 ≤ v / 2 ^ ((e : ℤ) - 149))

theorem IsRne.le_of_le {x : ℚ} {n k : ℕ} (h : IsRne x n) (hx : x ≤ k) : n ≤ k := h.mono (IsRne.nat k) hx

theorem IsRne.ge_of_ge {x : ℚ} {n k : ℕ} (h : IsRne x n) (hx : (k : ℚ) ≤ x) : k ≤ n := (IsRne.nat k).mono h hx

/-- Rounding is monotone. -/
theorem RoundsTo.mono {v w : ℚ} {n k : ℕ} (hv : RoundsTo v n) (hw : RoundsTo w k) (h : v ≤ w) :
    n ≤ k := by
  obtain ⟨e, m, rfl, rv, uv, lv⟩ := hv
  obtain ⟨f, l, rfl, rw', uw, lw⟩ := hw
  have pe : (0 : ℚ) < 2 ^ ((e : ℤ) - 149) := by positivity
  have pf : (0 : ℚ) < 2 ^ ((f : ℤ) - 149) := by positivity
  rcases lt_trichotomy e f with c | c | c
  · have m1 : m ≤ 2 ^ 24 := rv.le_of_le (by exact_mod_cast uv.le)
    have l1 : 2 ^ 23 ≤ l := by
      rcases lw with z | z
      · omega
      · exact rw'.ge_of_ge (by exact_mod_cast z)
    omega
  · subst c
    have : m ≤ l := rv.mono rw' (by gcongr)
    omega
  · exfalso
    rcases lv with z | z
    · omega
    · rw [le_div_iff₀ pe] at z
      rw [div_lt_iff₀ pf] at uw
      have step : (2 : ℚ) * 2 ^ ((f : ℤ) - 149) ≤ 2 ^ ((e : ℤ) - 149) := by
        have : (2 : ℚ) * 2 ^ ((f : ℤ) - 149) = 2 ^ ((f : ℤ) - 149 + 1) := by
          rw [zpow_add₀ (by norm_num)]; ring
        rw [this]
        exact zpow_le_zpow_right₀ (by norm_num) (by omega)
      nlinarith

/-! ### `roundPack` -/

/-- The magnitude bits of `roundPack`, before the cut at infinity. -/
def Fp.packed (m : ℕ) (q : ℤ) : ℕ :=
  let e : ℤ := Max.max (q + (m.log2 : ℤ) - 23) (-149)
  (e + 149).toNat * 2 ^ 23 + if e ≤ q then m * 2 ^ (q - e).toNat else Fp.roundShift m (e - q).toNat

theorem Fp.roundPack_eq (s : Bool) {m : ℕ} (h : m ≠ 0) (q : ℤ) :
    Fp.roundPack s m q = if 0x7F800000 ≤ Fp.packed m q then Fp.infOf s else Fp.withSign s (Fp.packed m q) := by
  rw [Fp.roundPack, if_neg h]; rfl

theorem Fp.packed_roundsTo {m : ℕ} (h : m ≠ 0) (q : ℤ) : RoundsTo ((m : ℚ) * 2 ^ q) (Fp.packed m q) := by
  have h1 : 2 ^ m.log2 ≤ m := Nat.log2_self_le h
  have h2 : m < 2 ^ (m.log2 + 1) := Nat.lt_log2_self
  set L := m.log2
  set e : ℤ := Max.max (q + (L : ℤ) - 23) (-149) with he
  have he0 : -149 ≤ e := le_max_right _ _
  have heq : (((e + 149).toNat : ℕ) : ℤ) - 149 = e := by omega
  have pe : (0 : ℚ) < 2 ^ e := by positivity
  have h1q : (2 : ℚ) ^ (L : ℤ) ≤ m := by exact_mod_cast h1
  have h2q : (m : ℚ) < 2 ^ ((L : ℤ) + 1) := by exact_mod_cast h2
  have pq : (0 : ℚ) < 2 ^ q := by positivity
  refine ⟨(e + 149).toNat, _, rfl, ?_, ?_, ?_⟩ <;> rw [heq]
  · split
    · next c =>
      have : (m : ℚ) * 2 ^ q / 2 ^ e = ((m * 2 ^ (q - e).toNat : ℕ) : ℚ) := by
        rw [mul_div_assoc, ← zpow_sub₀ (by norm_num)]
        push_cast
        rw [← zpow_natCast, Int.toNat_of_nonneg (by omega)]
      rw [this]; exact IsRne.nat _
    · next c =>
      have : (m : ℚ) * 2 ^ q / 2 ^ e = (m : ℚ) / 2 ^ (e - q).toNat := by
        rw [mul_div_assoc, ← zpow_sub₀ (by norm_num), ← zpow_natCast, Int.toNat_of_nonneg (by omega),
          show q - e = -(e - q) by ring, zpow_neg]
        rfl
      rw [this]; exact roundShift_isRne _ _
  · rw [div_lt_iff₀ pe]
    calc (m : ℚ) * 2 ^ q < 2 ^ ((L : ℤ) + 1) * 2 ^ q := by gcongr
      _ = 2 ^ ((L : ℤ) + 1 + q) := (zpow_add₀ (by norm_num) _ _).symm
      _ ≤ 2 ^ ((24 : ℤ) + e) := zpow_le_zpow_right₀ (by norm_num) (by omega)
      _ = 2 ^ 24 * 2 ^ e := by rw [zpow_add₀ (by norm_num)]; norm_num
  · rcases le_or_gt (q + (L : ℤ) - 23) (-149) with c | c
    · left; omega
    · right
      rw [le_div_iff₀ pe]
      calc (2 : ℚ) ^ 23 * 2 ^ e = 2 ^ ((23 : ℤ) + e) := by rw [zpow_add₀ (by norm_num)]; norm_num
        _ ≤ 2 ^ ((L : ℤ) + q) := zpow_le_zpow_right₀ (by norm_num) (by omega)
        _ = 2 ^ (L : ℤ) * 2 ^ q := zpow_add₀ (by norm_num) _ _
        _ ≤ m * 2 ^ q := by gcongr

/-! ### Signed values -/

/-- `r` is the exact value `v` rounded to binary32: a number whose rank is that of the rounded magnitude, cut at
infinity, with the sign of `v`. -/
def Rounded (v : ℚ) (r : F32) : Prop :=
  Fp.isNaN r = false ∧ ∃ n : ℕ, RoundsTo |v| n ∧
    ((0 ≤ v ∧ Fp.rank r = Min.min (n : ℤ) 0x7F800000) ∨ (v ≤ 0 ∧ Fp.rank r = -Min.min (n : ℤ) 0x7F800000))

theorem RoundsTo.of_zero {n : ℕ} (h : RoundsTo 0 n) : n = 0 := by
  obtain ⟨e, m, rfl, r, u, l⟩ := h
  rw [zero_div] at r l
  have : m ≤ 0 := r.le_of_le (by norm_num)
  rcases l with rfl | l
  · omega
  · norm_num at l

/-- Rounding keeps the order of exact values. -/
theorem Rounded.mono {v w : ℚ} {r t : F32} (hr : Rounded v r) (ht : Rounded w t) (h : v ≤ w) :
    Fp.rank r ≤ Fp.rank t := by
  obtain ⟨-, n, hn, r1⟩ := hr
  obtain ⟨-, k, hk, t1⟩ := ht
  rcases r1 with ⟨v0, r1⟩ | ⟨v0, r1⟩ <;> rcases t1 with ⟨w0, t1⟩ | ⟨w0, t1⟩
  · have : n ≤ k := hn.mono hk (by rw [abs_of_nonneg v0, abs_of_nonneg w0]; exact h)
    omega
  · have ev : v = 0 := le_antisymm (h.trans w0) v0
    have ew : w = 0 := le_antisymm w0 (v0.trans h)
    rw [ev, abs_zero] at hn; rw [ew, abs_zero] at hk
    have := hn.of_zero; have := hk.of_zero
    omega
  · omega
  · have : k ≤ n := hk.mono hn (by rw [abs_of_nonpos v0, abs_of_nonpos w0]; linarith)
    omega

theorem Rounded.le {v w : ℚ} {r t : F32} (hr : Rounded v r) (ht : Rounded w t) (h : v ≤ w) : Fp.le r t = true :=
  (Fp.le_iff r t).mpr ⟨hr.1, ht.1, hr.mono ht h⟩

theorem Fp.withSign_fields (s : Bool) {n : ℕ} (h : n < 2 ^ 31) :
    (Fp.withSign s n).extractLsb' 0 31 = BitVec.ofNat 31 n ∧ Fp.sign (Fp.withSign s n) = s := by
  constructor
  · apply BitVec.eq_of_toNat_eq
    simp only [Fp.withSign, BitVec.extractLsb'_toNat, BitVec.toNat_ofNat]
    cases s <;> simp <;> omega
  · simp only [Fp.sign, Fp.withSign, ← BitVec.testBit_toNat, BitVec.toNat_ofNat]
    cases s
    · simp only [Bool.false_eq_true, if_false]
      rw [Nat.testBit_lt_two_pow (by omega)]
    · have : (n + 2 ^ 31) % 2 ^ 32 = 2 ^ 31 + n := by omega
      simp only [if_true, this]
      rw [Nat.testBit_two_pow_add_eq, Nat.testBit_lt_two_pow h]; rfl

theorem Fp.rank_withSign (s : Bool) {n : ℕ} (h : n < 2 ^ 31) :
    Fp.rank (Fp.withSign s n) = if s then -(n : ℤ) else n := by
  have := Fp.withSign_fields s h
  simp only [Fp.rank, this.1, this.2, BitVec.toNat_ofNat, Nat.mod_eq_of_lt h]

theorem Fp.isNaN_iff_rank (x : F32) :
    Fp.isNaN x = true ↔ 0x7F800000 < Fp.rank x ∨ Fp.rank x < -0x7F800000 := by
  have h1 := Fp.magnitude_eq x
  have h2 := Fp.fracField_lt x
  have h3 := Fp.expField_lt x
  simp only [Fp.isNaN, Bool.and_eq_true, beq_iff_eq, bne_iff_ne, ne_eq, Fp.rank, h1]
  split <;> omega

theorem Fp.isNaN_withSign (s : Bool) {n : ℕ} (h : n ≤ 0x7F800000) : Fp.isNaN (Fp.withSign s n) = false := by
  rw [Bool.eq_false_iff, ne_eq, Fp.isNaN_iff_rank, Fp.rank_withSign s (by omega)]
  cases s <;> simp <;> omega

/-- The factor of a sign. -/
def signFactor (s : Bool) : ℚ := if s then -1 else 1

theorem Rounded.of_magnitude {v : ℚ} {s : Bool} {n k : ℕ} (h : RoundsTo v n) (h0 : 0 ≤ v)
    (hk : k = Min.min n 0x7F800000) : Rounded (signFactor s * v) (Fp.withSign s k) := by
  refine ⟨Fp.isNaN_withSign s (by omega), n, ?_, ?_⟩
  · cases s <;> simpa [signFactor, abs_of_nonneg h0] using h
  · rw [Fp.rank_withSign s (by omega), hk]
    cases s
    · exact .inl ⟨by simpa [signFactor] using h0, by simp⟩
    · exact .inr ⟨by simpa [signFactor] using h0, by simp⟩

theorem RoundsTo.zero : RoundsTo 0 0 := ⟨0, 0, rfl, by simpa using IsRne.nat 0, by norm_num, .inl rfl⟩

/-- `roundPack` rounds its exact value. -/
theorem Fp.roundPack_rounded (s : Bool) (m : ℕ) (q : ℤ) :
    Rounded (signFactor s * ((m : ℚ) * 2 ^ q)) (Fp.roundPack s m q) := by
  by_cases h : m = 0
  · subst h
    have := Rounded.of_magnitude (s := s) RoundsTo.zero le_rfl (k := 0) rfl
    simpa [Fp.roundPack, Fp.zeroOf] using this
  · rw [Fp.roundPack_eq s h]
    have hr := Fp.packed_roundsTo h q
    split
    · exact Rounded.of_magnitude hr (by positivity) (by omega)
    · exact Rounded.of_magnitude hr (by positivity) (by omega)

/-! ### Finite values are themselves -/

theorem Fp.realValue_eq (x : F32) :
    Machine.realValue x = signFactor (Fp.sign x) * ((Fp.sig x : ℚ) * 2 ^ Fp.expo x) := by
  simp only [Machine.realValue, signFactor, mul_assoc]

theorem Fp.sig_lt (x : F32) : Fp.sig x < 2 ^ 24 := by
  have := Fp.fracField_lt x
  simp only [Fp.sig]; split <;> omega

theorem Fp.expo_ge (x : F32) : -149 ≤ Fp.expo x := by
  simp only [Fp.expo]; split <;> omega

/-- The rank from significand and exponent. -/
theorem Fp.rank_eq (x : F32) :
    Fp.rank x = if Fp.sign x then -(((Fp.expo x + 149).toNat * 2 ^ 23 + Fp.sig x : ℕ) : ℤ)
      else (((Fp.expo x + 149).toNat * 2 ^ 23 + Fp.sig x : ℕ) : ℤ) := by
  have h1 := Fp.magnitude_eq x
  have : (Fp.expo x + 149).toNat * 2 ^ 23 + Fp.sig x = Fp.expField x * 2 ^ 23 + Fp.fracField x := by
    simp only [Fp.expo, Fp.sig]
    split
    · next h => rw [h]; simp
    · next h =>
      have : ((Fp.expField x : ℤ) - 150 + 149).toNat = Fp.expField x - 1 := by omega
      rw [this]; omega
  simp only [Fp.rank, h1, this]

theorem Fp.magnitude_roundsTo (x : F32) :
    RoundsTo ((Fp.sig x : ℚ) * 2 ^ Fp.expo x) ((Fp.expo x + 149).toNat * 2 ^ 23 + Fp.sig x) := by
  have he := Fp.expo_ge x
  have hc : (((Fp.expo x + 149).toNat : ℕ) : ℤ) - 149 = Fp.expo x := by omega
  have hp : (2 : ℚ) ^ Fp.expo x ≠ 0 := by positivity
  refine ⟨(Fp.expo x + 149).toNat, Fp.sig x, rfl, ?_, ?_, ?_⟩ <;> rw [hc, mul_div_assoc, div_self hp, mul_one]
  · exact IsRne.nat _
  · exact_mod_cast Fp.sig_lt x
  · by_cases h : Fp.expField x = 0
    · left; simp [Fp.expo, h]
    · right; simp only [Fp.sig, if_neg h]; push_cast; linarith [(Nat.cast_nonneg (Fp.fracField x) : (0 : ℚ) ≤ _)]

/-- A finite value is its own rounding. -/
theorem Fp.rounded_self {x : F32} (h : Fp.finite x = true) : Rounded (Machine.realValue x) x := by
  rw [Fp.realValue_eq]
  have hr := (Fp.finite_iff_rank x).mp h
  have h0 : (0 : ℚ) ≤ (Fp.sig x : ℚ) * 2 ^ Fp.expo x := by positivity
  refine ⟨Fp.isNaN_of_finite h, (Fp.expo x + 149).toNat * 2 ^ 23 + Fp.sig x, ?_, ?_⟩
  · rw [show |signFactor (Fp.sign x) * ((Fp.sig x : ℚ) * 2 ^ Fp.expo x)| = (Fp.sig x : ℚ) * 2 ^ Fp.expo x by
      cases Fp.sign x <;> simp [signFactor, abs_of_nonneg h0]]
    exact Fp.magnitude_roundsTo x
  · rw [Fp.rank_eq] at hr ⊢
    cases Fp.sign x
    · simp only [Bool.false_eq_true, if_false] at hr ⊢
      exact .inl ⟨by simpa [signFactor] using h0, by omega⟩
    · simp only [if_true] at hr ⊢
      exact .inr ⟨by simpa [signFactor] using h0, by omega⟩

/-- A result is not above a finite value that its exact value is not above. -/
theorem Rounded.le_finite {v : ℚ} {r x : F32} (hr : Rounded v r) (hx : Fp.finite x = true)
    (h : v ≤ Machine.realValue x) : Fp.le r x = true := hr.le (Fp.rounded_self hx) h

/-- A result is not below a finite value that its exact value is not below. -/
theorem Rounded.finite_le {v : ℚ} {r x : F32} (hr : Rounded v r) (hx : Fp.finite x = true)
    (h : Machine.realValue x ≤ v) : Fp.le x r = true := (Fp.rounded_self hx).le hr h

/-- The order of finite values is that of their exact values. -/
theorem Fp.le_of_realValue {a b : F32} (ha : Fp.finite a = true) (hb : Fp.finite b = true)
    (h : Machine.realValue a ≤ Machine.realValue b) : Fp.le a b = true :=
  (Fp.rounded_self ha).le_finite hb h

theorem Fp.realValue_eq_of_rank {a b : F32} (h : Fp.rank a = Fp.rank b) :
    Machine.realValue a = Machine.realValue b := by
  have a1 := Fp.magnitude_eq a
  have a2 := Fp.fracField_lt a
  have b1 := Fp.magnitude_eq b
  have b2 := Fp.fracField_lt b
  simp only [Fp.rank, a1, b1] at h
  have key : Fp.expField a = Fp.expField b ∧ Fp.fracField a = Fp.fracField b := by
    cases Fp.sign a <;> cases Fp.sign b <;> simp at h <;> omega
  have hs : Fp.sig a = Fp.sig b := by simp only [Fp.sig, key.1, key.2]
  have he : Fp.expo a = Fp.expo b := by simp only [Fp.expo, key.1]
  rw [Fp.realValue_eq, Fp.realValue_eq, hs, he]
  by_cases z : Fp.sig b = 0
  · simp [z]
  · have nz : ¬ (Fp.expField b * 2 ^ 23 + Fp.fracField b = 0) := by
      intro c; apply z; simp only [Fp.sig]; split <;> omega
    rw [key.1, key.2] at h
    have : Fp.sign a = Fp.sign b := by
      cases ha : Fp.sign a <;> cases hb : Fp.sign b <;> simp [ha, hb] at h ⊢ <;> omega
    rw [this]

/-- The exact values of finite values in order are in order. -/
theorem Fp.realValue_le {a b : F32} (ha : Fp.finite a = true) (hb : Fp.finite b = true)
    (h : Fp.le a b = true) : Machine.realValue a ≤ Machine.realValue b := by
  by_contra c
  have g := (Fp.le_iff b a).mp (Fp.le_of_realValue hb ha (not_le.mp c).le)
  have h := (Fp.le_iff a b).mp h
  exact c (Fp.realValue_eq_of_rank (by omega)).le

theorem Fp.realValue_lt {a b : F32} (ha : Fp.finite a = true) (hb : Fp.finite b = true)
    (h : Fp.lt a b = true) : Machine.realValue a < Machine.realValue b := by
  by_contra c
  have g := (Fp.le_iff b a).mp (Fp.le_of_realValue hb ha (not_lt.mp c))
  have h := (Fp.lt_iff a b).mp h
  omega

/-! ### The operations on finite values -/

theorem Fp.realValue_zero : Machine.realValue Fp.zero = 0 := by
  simp [Machine.realValue, show Fp.sig Fp.zero = 0 from rfl]

theorem Fp.expField_neg (x : F32) : Fp.expField (Fp.neg x) = Fp.expField x := by
  simp only [Fp.expField, Fp.extract_neg x 23 8 (by decide)]

theorem Fp.fracField_neg (x : F32) : Fp.fracField (Fp.neg x) = Fp.fracField x := by
  simp only [Fp.fracField, Fp.extract_neg x 0 23 (by decide)]

theorem Fp.finite_neg (x : F32) : Fp.finite (Fp.neg x) = Fp.finite x := by
  rw [Fp.finite, Fp.expField_neg, Fp.finite]

theorem Fp.sig_neg (x : F32) : Fp.sig (Fp.neg x) = Fp.sig x := by
  rw [Fp.sig, Fp.expField_neg, Fp.fracField_neg, Fp.sig]

theorem Fp.expo_neg (x : F32) : Fp.expo (Fp.neg x) = Fp.expo x := by
  rw [Fp.expo, Fp.expField_neg, Fp.expo]

theorem Fp.realValue_neg (x : F32) : Machine.realValue (Fp.neg x) = -Machine.realValue x := by
  rw [Fp.realValue_eq, Fp.realValue_eq, Fp.sig_neg, Fp.expo_neg, Fp.sign_neg]
  cases Fp.sign x <;> simp [signFactor]

theorem Fp.scaled_value (x : F32) {q : ℤ} (h : q ≤ Fp.expo x) :
    (Fp.scaled x q : ℚ) * 2 ^ q = Machine.realValue x := by
  have e : (2 : ℚ) ^ (Fp.expo x - q).toNat * 2 ^ q = 2 ^ Fp.expo x := by
    rw [← zpow_natCast, Int.toNat_of_nonneg (by omega), ← zpow_add₀ (by norm_num)]; congr 1; ring
  rw [Fp.realValue_eq, ← e]
  simp only [Fp.scaled, signFactor]
  split <;> push_cast <;> ring

theorem Fp.roundPack_int (t q : ℤ) :
    Rounded ((t : ℚ) * 2 ^ q) (Fp.roundPack (decide (t < 0)) t.natAbs q) := by
  have h := Fp.roundPack_rounded (decide (t < 0)) t.natAbs q
  have e : signFactor (decide (t < 0)) * (t.natAbs : ℚ) = t := by
    have hc : ((t.natAbs : ℕ) : ℚ) = ((|t| : ℤ) : ℚ) := by rw [Int.abs_eq_natAbs]; simp
    rw [hc]
    by_cases n : t < 0
    · simp [signFactor, n, abs_of_neg n]
    · simp [signFactor, n, abs_of_nonneg (not_lt.mp n)]
  rwa [← mul_assoc, e] at h

theorem Fp.zeroOf_rounded (s : Bool) : Rounded 0 (Fp.zeroOf s) := by
  simpa [Fp.roundPack] using Fp.roundPack_rounded s 0 0

theorem Fp.addFinite_rounded (a b : F32) :
    Rounded (Machine.realValue a + Machine.realValue b) (Fp.addFinite a b) := by
  have ha := Fp.scaled_value a (q := Min.min (Fp.expo a) (Fp.expo b)) (min_le_left _ _)
  have hb := Fp.scaled_value b (q := Min.min (Fp.expo a) (Fp.expo b)) (min_le_right _ _)
  rw [← ha, ← hb, ← add_mul]
  unfold Fp.addFinite
  dsimp only
  generalize Min.min (Fp.expo a) (Fp.expo b) = q
  have h := Fp.roundPack_int (Fp.scaled a q + Fp.scaled b q) q
  rw [Int.cast_add] at h
  generalize Fp.scaled a q = x at h ⊢
  generalize Fp.scaled b q = y at h ⊢
  by_cases z : x + y = 0
  · rw [if_pos z, ← Int.cast_add, z, Int.cast_zero, zero_mul]; exact Fp.zeroOf_rounded _
  · rw [if_neg z]; exact h

/-- A sum of finite values is the exact sum rounded. -/
theorem Fp.add_rounded {a b : F32} (ha : Fp.finite a = true) (hb : Fp.finite b = true) :
    Rounded (Machine.realValue a + Machine.realValue b) (Fp.add a b) := by
  simp only [Fp.add, Fp.addWith, Fp.isNaN_of_finite ha, Fp.isNaN_of_finite hb, Fp.isInf_of_finite ha,
    Fp.isInf_of_finite hb, Bool.or_self, Bool.false_eq_true, if_false]
  exact Fp.addFinite_rounded a b

/-- A difference of finite values is the exact difference rounded. -/
theorem Fp.sub_rounded {a b : F32} (ha : Fp.finite a = true) (hb : Fp.finite b = true) :
    Rounded (Machine.realValue a - Machine.realValue b) (Fp.sub a b) := by
  have hn : Fp.finite (Fp.neg b) = true := by rw [Fp.finite_neg, hb]
  simp only [Fp.sub, Fp.addWith, Fp.isNaN_of_finite ha, Fp.isNaN_of_finite hn, Fp.isInf_of_finite ha,
    Fp.isInf_of_finite hn, Bool.or_self, Bool.false_eq_true, if_false]
  rw [sub_eq_add_neg, ← Fp.realValue_neg]
  exact Fp.addFinite_rounded a (Fp.neg b)

/-- A product of finite values is the exact product rounded. -/
theorem Fp.mul_rounded {a b : F32} (ha : Fp.finite a = true) (hb : Fp.finite b = true) :
    Rounded (Machine.realValue a * Machine.realValue b) (Fp.mul a b) := by
  simp only [Fp.mul, Fp.isNaN_of_finite ha, Fp.isNaN_of_finite hb, Fp.isInf_of_finite ha, Fp.isInf_of_finite hb,
    Bool.or_self, Bool.false_eq_true, if_false]
  have h := Fp.roundPack_rounded (Fp.sign a != Fp.sign b) (Fp.sig a * Fp.sig b) (Fp.expo a + Fp.expo b)
  have e : Machine.realValue a * Machine.realValue b = signFactor (Fp.sign a != Fp.sign b) *
      (((Fp.sig a * Fp.sig b : ℕ) : ℚ) * 2 ^ (Fp.expo a + Fp.expo b)) := by
    rw [Fp.realValue_eq, Fp.realValue_eq, zpow_add₀ (by norm_num)]
    cases Fp.sign a <;> cases Fp.sign b <;> simp [signFactor] <;> ring
  rw [e]; exact h

/-- An integer as a binary32 value is the integer rounded. -/
theorem Fp.ofInt_rounded (n : ℤ) : Rounded n (Fp.ofInt n) := by
  simpa [Fp.ofInt] using Fp.roundPack_int n 0

/-! ### Quotients: a sticky bit stands for the part left out -/

/-- With enough bits, a value strictly between an odd number's neighbours rounds as the odd number. -/
theorem Fp.packed_sticky {m : ℕ} (hm : 2 ^ 26 ≤ m) (hodd : m % 2 = 1) (q : ℤ) {x : ℚ}
    (h1 : (m : ℚ) - 1 < x) (h2 : x < m + 1) : RoundsTo (x * 2 ^ q) (Fp.packed m q) := by
  obtain ⟨e, n, hp, hr, hu, hl⟩ := Fp.packed_roundsTo (m := m) (by omega) q
  have hmq : (2 : ℚ) ^ 26 ≤ m := by exact_mod_cast hm
  have scale : ∀ y : ℚ, y * 2 ^ q / 2 ^ ((e : ℤ) - 149) = y / 2 ^ ((e : ℤ) - 149 - q) := by
    intro y
    rw [zpow_sub₀ (by norm_num : (2 : ℚ) ≠ 0) ((e : ℤ) - 149) q]; field_simp
  rw [scale] at hr hu hl
  have hd : 3 ≤ (e : ℤ) - 149 - q := by
    by_contra c
    have : (2 : ℚ) ^ ((e : ℤ) - 149 - q) ≤ 2 ^ (2 : ℤ) := zpow_le_zpow_right₀ (by norm_num) (by omega)
    rw [div_lt_iff₀ (by positivity)] at hu
    have h4 : (2 : ℚ) ^ (2 : ℤ) = 4 := by norm_num
    rw [h4] at this
    linarith
  obtain ⟨d, hd'⟩ : ∃ d : ℕ, (e : ℤ) - 149 - q = ((d + 2 : ℕ) : ℤ) := ⟨((e : ℤ) - 149 - q - 2).toNat, by omega⟩
  rw [hd', zpow_natCast] at hr hu hl
  have hw : (2 : ℚ) ^ (d + 2) = 4 * (2 ^ d : ℕ) := by push_cast; ring
  have hw0 : (0 : ℚ) < 4 * (2 ^ d : ℕ) := by positivity
  rw [hw] at hr hu hl
  generalize 2 ^ d = w at *
  have b1 : (2 * (n : ℤ) - 1) * (2 * w) ≤ m := by
    have := hr.1
    rw [le_div_iff₀ hw0] at this
    have : (2 * (n : ℚ) - 1) * (2 * w) ≤ m := by linarith
    exact_mod_cast this
  have b2 : (m : ℤ) ≤ (2 * n + 1) * (2 * w) := by
    have := hr.2.1
    rw [div_le_iff₀ hw0] at this
    have : (m : ℚ) ≤ (2 * n + 1) * (2 * w) := by linarith
    exact_mod_cast this
  have c1 : (2 * (n : ℤ) - 1) * (2 * w) ≤ m - 1 := by
    have : (2 * (n : ℤ) - 1) * (2 * w) = 2 * ((2 * n - 1) * w) := by ring
    omega
  have c2 : (m : ℤ) + 1 ≤ (2 * n + 1) * (2 * w) := by
    have : (2 * (n : ℤ) + 1) * (2 * w) = 2 * ((2 * n + 1) * w) := by ring
    omega
  have c1q : (2 * (n : ℚ) - 1) * (2 * w) ≤ m - 1 := by exact_mod_cast c1
  have c2q : (m : ℚ) + 1 ≤ (2 * n + 1) * (2 * w) := by exact_mod_cast c2
  have g1 : (n : ℚ) - 1 / 2 < x / (4 * w) := by rw [lt_div_iff₀ hw0]; linarith
  have g2 : x / (4 * w) < (n : ℚ) + 1 / 2 := by rw [div_lt_iff₀ hw0]; linarith
  refine ⟨e, n, hp, ?_, ?_, ?_⟩
  · rw [scale, hd', zpow_natCast, hw]
    exact ⟨g1.le, g2.le, by rintro (h | h) <;> linarith⟩
  · rw [scale, hd', zpow_natCast, hw, div_lt_iff₀ hw0]
    rw [div_lt_iff₀ hw0] at hu
    have : (m : ℤ) < 2 ^ 24 * (4 * w) := by exact_mod_cast hu
    have : (m : ℤ) + 1 ≤ 2 ^ 24 * (4 * w) := by omega
    have : (m : ℚ) + 1 ≤ 2 ^ 24 * (4 * w) := by exact_mod_cast this
    linarith
  · rcases hl with z | z
    · exact .inl z
    · right
      rw [scale, hd', zpow_natCast, hw, le_div_iff₀ hw0]
      rw [le_div_iff₀ hw0] at z
      have : (2 : ℤ) ^ 23 * (4 * w) ≤ m := by exact_mod_cast z
      have : (2 : ℤ) ^ 23 * (4 * w) ≤ m - 1 := by omega
      have : (2 : ℚ) ^ 23 * (4 * w) ≤ m - 1 := by exact_mod_cast this
      linarith

theorem Fp.sig_ne_zero {x : F32} (h : Fp.isZero x = false) : Fp.sig x ≠ 0 := by
  intro c
  have : Fp.expField x = 0 ∧ Fp.fracField x = 0 := by
    simp only [Fp.sig] at c
    split at c
    · next e => exact ⟨e, c⟩
    · omega
  simp [Fp.isZero, this.1, this.2] at h

/-- The quotient of a sign and two magnitudes, rounded. -/
theorem Fp.divFinite_rounded (s : Bool) (a b : F32) (hb : Fp.sig b ≠ 0) :
    Rounded (signFactor s * (((Fp.sig a : ℚ) * 2 ^ Fp.expo a) / ((Fp.sig b : ℚ) * 2 ^ Fp.expo b)))
      (Fp.divFinite s a b) := by
  have hbq : (0 : ℚ) < Fp.sig b := by exact_mod_cast Nat.pos_of_ne_zero hb
  unfold Fp.divFinite
  dsimp only
  have hv : ((Fp.sig a : ℚ) * 2 ^ Fp.expo a) / ((Fp.sig b : ℚ) * 2 ^ Fp.expo b) =
      (2 * ((Fp.sig a * 2 ^ 60 : ℕ) : ℚ) / Fp.sig b) * 2 ^ (Fp.expo a - Fp.expo b - 61) := by
    rw [zpow_sub₀ (by norm_num), zpow_sub₀ (by norm_num)]
    push_cast
    field_simp
    norm_num
    ring
  rw [hv]
  have hlt := Fp.sig_lt b
  generalize Fp.expo a - Fp.expo b - 61 = q
  generalize hn : Fp.sig a * 2 ^ 60 = n
  generalize Fp.sig b = d at *
  have hdm := Nat.div_add_mod n d
  have hmod : n % d < d := Nat.mod_lt _ (Nat.pos_of_ne_zero hb)
  have hq : (n : ℚ) = d * (n / d : ℕ) + (n % d : ℕ) := by exact_mod_cast hdm.symm
  by_cases z : n % d = 0
  · rw [if_pos z]
    have : 2 * (n : ℚ) / d = ((2 * (n / d) + 0 : ℕ) : ℚ) := by
      rw [hq, z]; push_cast; field_simp; ring
    rw [this]; exact Fp.roundPack_rounded s _ q
  · rw [if_neg z]
    have hn0 : n ≠ 0 := by rintro rfl; simp at z
    have hbig : 2 ^ 60 ≤ n := by
      have : Fp.sig a ≠ 0 := by rintro c; rw [c] at hn; omega
      have : 1 ≤ Fp.sig a := by omega
      omega
    have hQ : 2 ^ 26 ≤ 2 * (n / d) + 1 := by
      have : 2 ^ 36 ≤ n / d := by
        rw [Nat.le_div_iff_mul_le (Nat.pos_of_ne_zero hb)]
        calc 2 ^ 36 * d ≤ 2 ^ 36 * 2 ^ 24 := Nat.mul_le_mul_left _ hlt.le
          _ ≤ n := by simpa using hbig
      omega
    have hx : 2 * (n : ℚ) / d = 2 * (n / d : ℕ) + 2 * ((n % d : ℕ) / d) := by
      rw [hq]; field_simp
    have f0 : (0 : ℚ) < ((n % d : ℕ) : ℚ) / d := by
      have : (0 : ℚ) < (n % d : ℕ) := by exact_mod_cast Nat.pos_of_ne_zero z
      positivity
    have f1 : ((n % d : ℕ) : ℚ) / d < 1 := by rw [div_lt_one hbq]; exact_mod_cast hmod
    have hs := Fp.packed_sticky hQ (by omega) q (x := 2 * (n : ℚ) / d)
      (by rw [hx]; push_cast; linarith) (by rw [hx]; push_cast; linarith)
    have h0 : (0 : ℚ) ≤ 2 * (n : ℚ) / d * 2 ^ q := by positivity
    rw [Fp.roundPack_eq s (by omega)]
    split
    · exact Rounded.of_magnitude hs h0 (by omega)
    · exact Rounded.of_magnitude hs h0 (by omega)

/-- A quotient of finite values, the divisor not zero, is the exact quotient rounded. -/
theorem Fp.div_rounded {a b : F32} (ha : Fp.finite a = true) (hb : Fp.finite b = true) (hz : Fp.isZero b = false) :
    Rounded (Machine.realValue a / Machine.realValue b) (Fp.div a b) := by
  simp only [Fp.div, Fp.isNaN_of_finite ha, Fp.isNaN_of_finite hb, Fp.isInf_of_finite ha, Fp.isInf_of_finite hb,
    hz, Bool.or_self, Bool.false_eq_true, if_false]
  have h := Fp.divFinite_rounded (Fp.sign a != Fp.sign b) a b (Fp.sig_ne_zero hz)
  have e : Machine.realValue a / Machine.realValue b = signFactor (Fp.sign a != Fp.sign b) *
      (((Fp.sig a : ℚ) * 2 ^ Fp.expo a) / ((Fp.sig b : ℚ) * 2 ^ Fp.expo b)) := by
    rw [Fp.realValue_eq, Fp.realValue_eq]
    cases Fp.sign a <;> cases Fp.sign b <;> simp [signFactor, neg_div, div_neg]
  rw [e]; exact h

end Sys2Proof
end

