-- ==== Sys2Proof/Tests/Slice0.lean ====
section
/-! SUPPORT. The model's own tests: one step each, their expected values from 95_test_vectors.md and the tables of the
section files; and, for every statement with hypotheses, a state and operands that meet them. -/

namespace Sys2Proof.Machine.Tests

set_option Elab.async false

open Sys2Proof Sys2Proof.Machine

/-! ### Helpers -/

/-- The outcome is a next state. -/
def isNext (o : Host.Outcome State Fault Refusal) : Bool :=
  match o with
  | .next _ => true
  | _ => false

/-- A property of the next state of an outcome. -/
def after (o : Host.Outcome State Fault Refusal) (p : State → Bool) : Bool :=
  match o with
  | .next t => p t
  | _ => false

theorem next_of_isNext {o : Host.Outcome State Fault Refusal} (h : isNext o = true) : ∃ t, o = .next t := by
  cases o with
  | next t => exact ⟨t, rfl⟩
  | fault _ => cases h
  | refused _ => cases h

/-- The decoder reads the words as one operation with nothing left. -/
def reads (ws : List Half) (i : Instr) : Bool := (decode ws).toOption == some (i, [])

/-- Valid status. -/
def ok : UnitStatus := ⟨true, false, 0⟩

/-- A queue of some items, open. -/
def q {α : Type} (xs : List α) : Queue α := ⟨xs, false⟩

/-- The reset configuration committed. -/
def ready : State := commitEvery State.reset

/-- The same with an item in every queue, and `AGC`'s turn next. -/
def loaded : State :=
  { ready with
    qSrc := q [⟨0x3F000000, 0⟩], qAgc := q [⟨0x3F000000, 0x3E800000⟩], qCar := q [⟨0x3F800000, 0xBF800000⟩],
    qMf := q [⟨0x3F800000, 0⟩], qSym := q [⟨0x3F333333, 0xBE4CCCCD⟩], qBit := q [true], qSoft := q [16],
    qByte := q [0x1A], qFrame := q [⟨.syncing, [0x1D]⟩], schedule := [.agent .agc] }

/-! ### Well-formedness -/

/-- The one check there is: the symbol of `SNR_UPDATE` is finite (R272). A NaN and an infinity are refused. -/
theorem test_wellFormed_refuses_nonfinite_symbol :
    (Instr.snrUpdate ⟨0x7FC00000, 0⟩).wellFormed = false ∧ (Instr.snrUpdate ⟨0, 0xFF800000⟩).wellFormed = false ∧
    (Instr.snrUpdate ⟨0x7F7FFFFF, 0x80000000⟩).wellFormed = true := by decide

/-- An issued `SNR_UPDATE` runs on a NaN symbol too, and an issued host transaction is performed. -/
theorem test_issue_runs :
    after (step { State.reset with schedule := [.issue [0x6100, 0, 0x7FC0, 0, 0]] }) (fun t => t.turns == 1) ∧
    after (step { State.reset with schedule := [.issue [0x0100, 0x1008]] }) (fun t =>
      t.responses == [.okData 0x3F800000] && t.history == [0x0100]) := by decide +kernel

/-! ### Decoding: words written out from the map of 30_encoding.md R110 -/

theorem test_decode_host :
    reads [0x0100, 0x9024] (.regRead 0x9024) ∧ reads [0x0200, 0x400C, 0x0010, 0x0000] (.regWrite 0x400C 0x10) ∧
    reads [0x0300, 0x0000, 0x3F80, 0x0001, 0xC000] (.srcPush ⟨0x3F800000, 0xC0000001⟩) ∧
    reads [0x0400] .framePop ∧ reads [0x0500] .softPop := by decide

theorem test_decode_control :
    reads [0x0800] .commitAll ∧ reads [0x0900] .sresetAll ∧ reads [0x0A00] .stop ∧ reads [0x0B00] .abort := by decide

theorem test_decode_data :
    reads [0x1100] .agcStep ∧ reads [0x2100] .costasStep ∧ reads [0x4100] .rrcStep ∧ reads [0x5100] .mmStep ∧
    reads [0x7100] .slice ∧ reads [0x8100] .repackBit ∧ reads [0x9100] .deframeByte := by decide

theorem test_decode_internal :
    reads [0x3100, 0x0000, 0xBF00] (.pllAdvance 0xBF000000) ∧
    reads [0x6100, 0x0000, 0x3F00, 0x0002, 0x3E80] (.snrUpdate ⟨0x3F000000, 0x3E800002⟩) ∧
    reads [0x9200, 1] (.deframeBit true) ∧ reads [0x9200, 0] (.deframeBit false) := by decide

theorem test_decode_commit :
    reads [0x1800] .commitAgc ∧ reads [0x2800] .commitCostas ∧ reads [0x3800] .commitPll ∧
    reads [0x4800] .commitRrc ∧ reads [0x5800] .commitMm ∧ reads [0x6800] .commitSnr ∧
    reads [0x7800] .commitSlicer ∧ reads [0x8800] .commitRepacker ∧ reads [0x9800] .commitDeframer := by decide

theorem test_decode_sreset :
    reads [0x1900] .sresetAgc ∧ reads [0x2900] .sresetCostas ∧ reads [0x3900] .sresetPll ∧
    reads [0x4900] .sresetRrc ∧ reads [0x5900] .sresetMm ∧ reads [0x6900] .sresetSnr ∧
    reads [0x7900] .sresetSlicer ∧ reads [0x8900] .sresetRepacker ∧ reads [0x9900] .sresetDeframer := by decide

theorem test_decode_eos :
    reads [0x1C00] .eosPropagateAgc ∧ reads [0x2C00] .eosPropagateCostas ∧ reads [0x4C00] .eosPropagateRrc ∧
    reads [0x5C00] .eosPropagateMm ∧ reads [0x7C00] .eosPropagateSlicer ∧
    reads [0x8C00] .eosPropagateRepacker ∧ reads [0x9C00] .eosPropagateDeframer := by decide

/-- R102: `Z` not 0, `UNIT` 0xA, `OP` 0x2 of unit 1, `OP` 0xC of units 3 and 6, a gap in unit 0. -/
theorem test_decode_refuses_illegal :
    decode [0x0101] = .error .nonzeroZ ∧ decode [0xA100] = .error .reservedUnit ∧
    decode [0x1200] = .error .undefinedOp ∧ decode [0x3C00] = .error .undefinedOp ∧
    decode [0x6C00] = .error .undefinedOp ∧ decode [0x0600] = .error .undefinedOp ∧
    decode [0x0100] = .error .truncated ∧ decode [0x9200, 2] = .error .badOperand ∧ decode [] = .error .empty := by
  decide

/-- The table's numbering: bit 0 is the low bit of the first word; the words above 16 bits are zeros. -/
theorem test_decodeTableWord :
    decodeTableWord 16 0x0200 = some (.regWrite 0 0) ∧ decodeTableWord 16 0x9200 = some (.deframeBit false) ∧
    decodeTableWord 16 0x0F00 = none := by decide

/-! ### Host transactions (95_test_vectors.md section 2.10, 30_encoding.md R90) -/

theorem test_regRead_values :
    after (exec (.regRead 0x1008) State.reset) (fun t => t.responses == [.okData 0x3F800000]) ∧
    after (exec (.regRead 0x0004) ready) (fun t => t.responses == [.okData 1]) := by decide +kernel

/-- A misaligned address, the first address after the last tap, and `TAP[254]` at 0x47F8. -/
theorem test_regRead_errors :
    after (exec (.regRead 0x1009) State.reset) (fun t => t.responses == [.err]) ∧
    after (exec (.regRead 0x47FC) State.reset) (fun t => t.responses == [.err]) ∧
    after (exec (.regRead 0x47F8) State.reset) (fun t => t.responses == [.okData 0]) := by decide +kernel

/-- `AGC.REF` 0 then `COMMIT`: `STATUS` 0x00001102. -/
theorem test_regWrite_commit_fails :
    after (exec (.regWrite 0x1000 1) { State.reset with agc.shadow.ref := 0 }) (fun t =>
      statusWord .agc t == 0x1102 && gStatusWord t == 2 && t.responses == [.ok]) := by decide +kernel

/-- A write to an `RO` register is refused; of `SLICER.MODE` only the two defined bits are kept. -/
theorem test_regWrite_classes :
    after (exec (.regWrite 0x1014 0) State.reset) (fun t =>
      t.agc == State.reset.agc && t.responses == [.err]) ∧
    after (exec (.regWrite 0x7008 0xFFFFFFFE) State.reset) (fun t => regShows .slicerMode t == 2) := by decide +kernel

theorem test_srcPush :
    after (exec (.srcPush ⟨0x7FC00000, 1⟩) State.reset) (fun t =>
      t.qSrc.items == [⟨0x7FC00000, 1⟩] && t.responses == [.ok]) ∧
    after (exec (.srcPush ⟨0, 0⟩) { State.reset with qSrc := ⟨[], true⟩ }) (fun t =>
      t.qSrc.items == [] && t.responses == [.err]) := by decide +kernel

theorem test_framePop :
    after (exec .framePop { State.reset with qFrame := q [⟨.synced, [0x1D, 0xAB]⟩] }) (fun t =>
      t.responses == [.frame ⟨.synced, [0x1D, 0xAB]⟩] && t.qFrame == q []) ∧
    after (exec .framePop { State.reset with qFrame := ⟨[], true⟩ }) (fun t => t.responses == [.eos]) := by
  decide +kernel

theorem test_softPop :
    after (exec .softPop { State.reset with qSoft := q [16, 0xE7] }) (fun t =>
      t.responses == [.soft 16] && t.qSoft.items == [0xE7]) ∧
    held .softPop State.reset := by decide +kernel

/-! ### Control actions -/

theorem test_commitAll :
    after (exec .commitAll State.reset) (fun t =>
      gStatusWord t == 1 && t.agc.gainMin == 0x37800000 && t.pll.derived == ⟨0x3CB307C7, 0x397D2FEC⟩ &&
      t.mm.derived == ⟨0x3C000000, 0x3FFF0000, 0x40008000⟩ && t.snr.oneMAlpha == 0x3F7F0000 &&
      t.deframer.asm == 0x1ACFFC1D) := by decide +kernel

theorem test_sresetAll :
    after (exec .sresetAll (abortAll { ready with pll.data := ⟨1, 2⟩ })) (fun t =>
      gStatusWord t == 1 && t.pll.data == ⟨0, 0⟩ && t.qFrame == q []) := by decide +kernel

theorem test_stop : after (exec .stop loaded) (fun t =>
    gStatusWord t == 5 && statusWord .agc t == 5 && t.qSrc.items == loaded.qSrc.items) := by decide +kernel

theorem test_abort : after (exec .abort loaded) (fun t => gStatusWord t == 0x1D && t.qSoft == ⟨[], true⟩) := by
  decide +kernel

/-- `COMMIT` of each unit: vectors A, L, F7, M11, V9; the derived gains for `LOOP_BW` 2^-7. -/
theorem test_commit_failures :
    after (exec .commitAgc { State.reset with agc.shadow.maxGain := 0x7F800000 }) (fun t =>
      t.agc.status == ⟨false, true, 0x13⟩) ∧
    after (exec .commitCostas { State.reset with costas.shadow.order := 3 }) (fun t =>
      t.costas.status == ⟨false, true, 0x21⟩) ∧
    after (exec .commitPll { State.reset with pll.shadow.freqMax := 0x40490FDC }) (fun t =>
      t.pll.status == ⟨false, true, 0x32⟩) ∧
    after (exec .commitRrc { State.reset with rrc.shadow.ntaps := 2 }) (fun t => statusWord .rrc t == 0x4102) ∧
    after (exec .commitMm { State.reset with mm.shadow.omega := 0x3F800000 }) (fun t =>
      t.mm.status == ⟨false, true, 0x57⟩) ∧
    after (exec .commitSnr { State.reset with snr.shadow.cap := 0xBF800000 }) (fun t =>
      t.snr.status == ⟨false, true, 0x62⟩) ∧
    after (exec .commitSlicer { State.reset with slicer.shadow.softScale := 0 }) (fun t =>
      t.slicer.status == ⟨false, true, 0x71⟩) ∧
    after (exec .commitDeframer { State.reset with deframer.shadow.asmLen := 33, deframer.shadow.frameLen := 4 })
      (fun t => t.deframer.status == ⟨false, true, 0x93⟩) := by decide +kernel

/-- F10: a tap at or above `NTAPS` is not checked; M12: `GAIN_MU` may be -0.0; V18: a 64-bit marker. -/
theorem test_commit_passes :
    after (exec .commitRrc (writeShadow (.rrcTap ⟨1, by decide⟩) 0x7FC00000 State.reset)) (fun t =>
      t.rrc.status == ok) ∧
    after (exec .commitMm { State.reset with mm.shadow.gainMu := 0x80000000 }) (fun t => t.mm.status == ok) ∧
    after (exec .commitRepacker { State.reset with repacker.shadow.lsbFirst := true, repacker.data := ⟨5, 3⟩ })
      (fun t => t.repacker.cfg.lsbFirst && t.repacker.data == ⟨0, 0⟩ && t.repacker.status == ok) ∧
    after (exec .commitDeframer { State.reset with deframer.shadow :=
      ⟨0x89ABCDEF, 0x01234567, 64, 8, 0, 1, true⟩ }) (fun t => t.deframer.asm == 0x0123456789ABCDEF) := by
  decide +kernel

/-- `SRESET` of each unit with datapath state; `MM` restarts from the active configuration. -/
theorem test_sreset :
    after (exec .sresetAgc { State.reset with agc.data.g := 0x40000000 }) (fun t => t.agc.data.g == 0x3F800000) ∧
    after (exec .sresetCostas State.reset) (fun t => t.costas == State.reset.costas && t.turns == 0) ∧
    after (exec .sresetPll { State.reset with pll.data := ⟨1, 2⟩ }) (fun t => t.pll.data == ⟨0, 0⟩) ∧
    after (exec .sresetRrc { State.reset with rrc.data.d := State.reset.rrc.data.d.set 254 ⟨1, 1⟩ }) (fun t =>
      t.rrc.data.d[254] == ⟨0, 0⟩) ∧
    after (exec .sresetMm { State.reset with mm.data.wait := 1, mm.cfg.muInit := 0x3E800000 }) (fun t =>
      t.mm.data.mu == 0x3E800000 && t.mm.data.wait == 0) ∧
    after (exec .sresetSnr { State.reset with snr.data.peak := 0x42C80000 }) (fun t => t.snr.data.peak == 0) ∧
    after (exec .sresetSlicer State.reset) (fun t => t.slicer == State.reset.slicer && t.turns == 0) ∧
    after (exec .sresetRepacker { State.reset with repacker.data := ⟨5, 3⟩ }) (fun t =>
      t.repacker.data == ⟨0, 0⟩) ∧
    after (exec .sresetDeframer { State.reset with deframer.data.state := .synced, deframer.data.cnt := 3 }) (fun t =>
      t.deframer.data.state == .nosync && t.deframer.data.cnt == 0) := by decide +kernel

/-! ### `AGC` (section 2.1) -/

/-- `REF` 1.0, `RATE` 0.5, `MAX_GAIN` 4.0, gain `g`, one sample. -/
def agcState (g : F32) (x : Cplx) : State :=
  { State.reset with
    agc := ⟨AgcCfg.reset, ⟨0x3F800000, 0x3F000000, 0x40800000⟩, 0x3E800000, ok, ⟨g⟩⟩, qSrc := q [x] }

/-- A2. -/
theorem test_agcStep_A2 : after (exec .agcStep (agcState 0x3FA00000 ⟨0x3F000000, 0⟩)) (fun t =>
    t.qAgc.items == [⟨0x3F200000, 0⟩] && t.agc.data.g == 0x3FB80000 && t.qSrc.items == []) := by decide +kernel

/-- A8: the magnitude overflows. -/
theorem test_agcStep_A8 : after (exec .agcStep (agcState 0x40800000 ⟨0x7F61B1E6, 0⟩)) (fun t =>
    t.qAgc.items == [⟨0, 0⟩] && t.agc.data.g == 0x40800000) := by decide +kernel

/-! ### `PLL` and `COSTAS` (sections 2.2, 2.3) -/

/-- L1, and L4: the wrap. -/
theorem test_pllAdvance :
    after (exec (.pllAdvance 0x3E800000) ready) (fun t => t.pll.data == ⟨0x3BB50227, 0x387D2FEC⟩) ∧
    after (exec (.pllAdvance 0) { ready with pll.data := ⟨0x40400000, 0x3F000000⟩ }) (fun t =>
      t.pll.data == ⟨0xC0321FB6, 0x3F000000⟩) := by decide +kernel

/-- L8: the error is clipped to -1; L10: `PI` is not wrapped. -/
theorem test_pllAdvance_clips :
    after (exec (.pllAdvance 0xC0E00000) ready) (fun t => t.pll.data == ⟨0xBCB50227, 0xB97D2FEC⟩) ∧
    after (exec (.pllAdvance 0) { ready with pll.data := ⟨0x40490FDB, 0⟩ }) (fun t =>
      t.pll.data == ⟨0x40490FDB, 0⟩) := by decide +kernel

/-- K1 and K2. -/
theorem test_costasStep :
    after (exec .costasStep { ready with qAgc := q [⟨0x3F000000, 0x3E800000⟩] }) (fun t =>
      t.qCar.items == [⟨0x3F000000, 0x3E800000⟩] && t.pll.data == ⟨0x3BB50227, 0x387D2FEC⟩) ∧
    after (exec .costasStep { ready with qAgc := q [⟨0x3F000000, 0x3E800000⟩], costas.cfg.order := 4 }) (fun t =>
      t.qCar.items == [⟨0x3F000000, 0x3E800000⟩] && t.pll.data == ⟨0xBBB50227, 0xB87D2FEC⟩) := by decide +kernel

/-! ### `RRC` (section 2.4) -/

/-- F2, the first input: two outputs. -/
theorem test_rrcStep_F2 :
    after (exec .rrcStep { ready with
      rrc.cfg := ⟨3, 2, ((RrcCfg.reset.taps.set 0 0x3F000000).set 1 0x3F800000).set 2 0x3F000000⟩
      qCar := q [⟨0x3F800000, 0xBF800000⟩] }) (fun t =>
      t.qMf.items == [⟨0x3F000000, 0xBF000000⟩, ⟨0x3F800000, 0xBF800000⟩] &&
      t.rrc.data.d.toList.take 3 == [⟨0, 0⟩, ⟨0x3F800000, 0xBF800000⟩, ⟨0, 0⟩]) := by decide +kernel

/-- F3 and F4: a non-finite part counts as 0, the sign of a zero is kept. -/
theorem test_rrcStep_guards :
    after (exec .rrcStep { ready with qCar := q [⟨0x7FC00000, 0x40000000⟩] }) (fun t =>
      t.qMf.items == [⟨0, 0x40000000⟩]) ∧
    after (exec .rrcStep { ready with qCar := q [⟨0x80000000, 0x7F800000⟩] }) (fun t =>
      t.qMf.items == [⟨0x80000000, 0⟩]) := by decide +kernel

/-! ### `MM` and `SNR` (sections 2.5, 2.6) -/

/-- M1, the first symbol. -/
theorem test_mmStep_real :
    after (exec .mmStep { ready with qMf := q [⟨0x3F800000, 0⟩] }) (fun t =>
      t.qSym.items == [⟨0x3F000000, 0⟩] && t.mm.data.mu == 0x3EF80000 && t.mm.data.omega == 0x3FFFFC00 &&
      t.mm.data.wait == 1) := by decide +kernel

/-- M2, the second symbol, from the state after the first two inputs. -/
theorem test_mmStep_complex :
    after (exec .mmStep { ready with
      mm.cfg.mode := 1, snr.status.cfgValid := false, qMf := q [⟨0xBF800000, 0x3F800000⟩]
      mm.data := ⟨⟨0x3F800000, 0x3F800000⟩, ⟨0x3F800000, 0x3F800000⟩, 0, 0x3F000000, 0x40000000, 0,
        ⟨0x3F000000, 0x3F000000⟩, ⟨0, 0⟩, ⟨0x3F800000, 0x3F800000⟩, ⟨0, 0⟩⟩ }) (fun t =>
      t.qSym.items == [⟨0, 0x3F800000⟩] && t.mm.data.mu == 0x3F080000 && t.mm.data.omega == 0x40000400) := by
  decide +kernel

/-- N12, and N15: the overflowed averages become 0. -/
theorem test_snrUpdate :
    after (exec (.snrUpdate ⟨0x3F000000, 0⟩) { ready with snr.cfg.alpha := 0x3F800000, snr.oneMAlpha := 0 })
      (fun t => t.snr.data == ⟨0x3E800000, 0x3D800000, 0x42C80000, 0x42C80000⟩) ∧
    after (exec (.snrUpdate ⟨0x5FD02AB5, 0⟩) { ready with snr.cfg.alpha := 0x3F800000, snr.oneMAlpha := 0 })
      (fun t => t.snr.data == ⟨0, 0, 0, 0⟩) := by decide +kernel

/-! ### `SLICER` and `REPACKER` (sections 2.7, 2.8) -/

/-- S4, and S3 with hard decisions of zeros. -/
theorem test_slice :
    after (exec .slice { ready with slicer.cfg := ⟨true, true, 0x42FE0000⟩, qSym := q [⟨0x3F333333, 0xBE4CCCCD⟩] })
      (fun t => t.qBit.items == [true, false] && t.qSoft.items == [89, 0xE7]) ∧
    after (exec .slice { ready with slicer.cfg.cplx := true, qSym := q [⟨0x80000000, 0⟩] }) (fun t =>
      t.qBit.items == [false, false] && t.qSoft.items == []) := by decide +kernel

/-- Q1, Q3, Q5, Q6, Q7, Q13, Q14 and S5. -/
theorem test_softValues :
    [(0x42FE0000, 0x3F000000), (0x42FE0000, 0x40000000), (0x3F800000, 0x3F000000), (0x3F800000, 0x3FC00000),
     (0x3F800000, 0x40200000), (0x42FE0000, 0xC0400000), (0x42C80000, 0x3E000000),
     (0x42FE0000, 0x800116C2)].map (fun p : F32 × F32 => softInt p.1 p.2) = [64, 127, 0, 2, 2, -127, 12, 0] := by
  decide +kernel

/-- The last bits of P-1 and P-2. -/
theorem test_repackBit :
    after (exec .repackBit { ready with repacker.data := ⟨0x0D, 7⟩, qBit := q [false] }) (fun t =>
      t.qByte.items == [0x1A] && t.repacker.data == ⟨0, 0⟩) ∧
    after (exec .repackBit { ready with repacker := ⟨⟨true⟩, ⟨true⟩, ok, ⟨0x18, 6⟩⟩, qBit := q [true] }) (fun t =>
      t.qByte.items == [] && t.repacker.data == ⟨0x58, 7⟩) := by decide +kernel

/-! ### `DEFRAMER` (section 2.9) -/

/-- `M` 8, the marker 0x1D, `F`, `T` and `K` given. -/
def defState (f tol k : Word) (bytes : List Byte) (d : DeframerData) : State :=
  { State.reset with
    deframer := ⟨DeframerCfg.reset, ⟨0x1D, 0, 8, f, tol, k, true⟩, 0x1D, ok, d⟩, qByte := q bytes }

/-- V8: the normal polarity wins the tie. -/
theorem test_deframeByte_tie :
    after (exec .deframeByte (defState 1 4 1 [0x12] DeframerData.reset)) (fun t =>
      t.qFrame.items == [⟨.syncing, [0x12]⟩] && !t.deframer.data.inv && t.qByte.items == []) := by decide +kernel

/-- The first byte of V5: the inverted marker is found. -/
theorem test_deframeByte_inverted :
    after (exec .deframeByte (defState 2 0 1 [0xE2] DeframerData.reset)) (fun t =>
      t.deframer.data.state == .syncing && t.deframer.data.inv && t.deframer.data.cnt == 8 &&
      t.qFrame.items == []) := by decide +kernel

/-- The check of V2 @40 and of V2 @56: a miss within the tolerance, and the loss of the lock. -/
theorem test_deframeBit_miss :
    after (exec (.deframeBit false) (defState 2 0 1 [] ⟨.synced, 0x0E, 8, 7, 0, false, 0⟩)) (fun t =>
      t.deframer.data.state == .syncedMissed && t.deframer.data.miss == 1 && t.deframer.data.win == 0x1C) ∧
    after (exec (.deframeBit true) (defState 2 0 1 [] ⟨.syncedMissed, 0x1E, 8, 7, 1, false, 0⟩)) (fun t =>
      t.deframer.data.state == .nosync && t.deframer.data.miss == 0 && t.deframer.data.cnt == 0) := by decide +kernel

/-! ### End of stream (40_control.md R212) -/

theorem test_eosPropagate :
    after (exec .eosPropagateAgc { State.reset with qSrc := ⟨[], true⟩ }) (fun t => t.qAgc.closed) ∧
    after (exec .eosPropagateCostas { State.reset with qAgc := ⟨[], true⟩ }) (fun t => t.qCar.closed) ∧
    after (exec .eosPropagateRrc { State.reset with qCar := ⟨[], true⟩ }) (fun t => t.qMf.closed) ∧
    after (exec .eosPropagateMm { State.reset with qMf := ⟨[], true⟩ }) (fun t => t.qSym.closed) ∧
    after (exec .eosPropagateSlicer { State.reset with qSym := ⟨[], true⟩ }) (fun t =>
      t.qBit.closed && t.qSoft.closed) ∧
    after (exec .eosPropagateRepacker { State.reset with qBit := ⟨[], true⟩ }) (fun t => t.qByte.closed) ∧
    after (exec .eosPropagateDeframer { State.reset with qByte := ⟨[], true⟩ }) (fun t => t.qFrame.closed) := by
  decide +kernel

/-- With an item still in the input queue nothing is closed. -/
theorem test_eosPropagate_waits :
    after (exec .eosPropagateAgc { State.reset with qSrc := ⟨[⟨0, 0⟩], true⟩ }) (fun t => !t.qAgc.closed) := by
  decide +kernel

/-! ### Steps -/

/-- The word of a host transaction and the word of an issued operation run as the next step from reset. -/
theorem test_withFetchWord :
    after (step (State.reset.withFetchWord 16 0x0100)) (fun t => t.responses == [.okData 0] && t.script == []) ∧
    after (step (State.reset.withFetchWord 16 0x1800)) (fun t => t.agc.status == ok && t.turns == 1) ∧
    after (step (State.reset.withFetchWord 16 0x0F00)) (fun t => t.responses == [.err]) := by decide +kernel

/-- The host's turn comes. -/
def hostNext (s : State) : State := { s with schedule := .agent .host :: s.schedule }

/-- The pseudo-instruction `pushbpsk "10", 1.0, 2` (R112); then a line is sent: its first transaction is performed and the
rest are words. -/
theorem test_script :
    lineOps (.pushbpsk [true, false] 0x3F800000 2) =
      [.srcPush ⟨0x3F800000, 0⟩, .srcPush ⟨0x3F800000, 0⟩, .srcPush ⟨0xBF800000, 0⟩, .srcPush ⟨0xBF800000, 0⟩] ∧
    after (step (hostNext { State.reset with lines := [.pushn 2 0x3F800000 0, .popf] })) (fun t =>
      t.qSrc.items == [⟨0x3F800000, 0⟩] && t.script == [0x0300, 0, 0x3F80, 0, 0] && t.lines == [.popf]) := by
  decide +kernel

/-- `drain` repeats `popf` until `EOS` (R112): a frame, the end of the stream, and a wait. -/
theorem test_drain :
    after (step (hostNext { State.reset with lines := [.drain], qFrame := ⟨[⟨.synced, [0x1D]⟩], true⟩ })) (fun t =>
      t.responses == [.frame ⟨.synced, [0x1D]⟩] && t.lines == [.drain] && t.script == []) ∧
    after (step (hostNext { State.reset with lines := [.drain], qFrame := ⟨[], true⟩ })) (fun t =>
      t.responses == [.eos] && t.lines == []) ∧
    after (step (hostNext { State.reset with lines := [.drain] })) (fun t =>
      t.responses == [] && t.lines == [.drain] && t.history == []) := by decide +kernel

/-- The event history: `REG_WRITE` of 1 to `SNR.CTRL` performs `COMMIT` and, its checks passing, `SRESET`; a failing one
does not; `PLL_ADVANCE` is part of a `COSTAS_STEP` (R100, R206, R244). -/
theorem test_history :
    after (step (hostNext { State.reset with lines := [.commit .snr] })) (fun t =>
      t.history == [0x6900, 0x6800, 0x0200]) ∧
    after (step (hostNext { State.reset with lines := [.commit .agc], agc.shadow.ref := 0 })) (fun t =>
      t.history == [0x1800, 0x0200]) ∧
    after (step { ready with qAgc := q [⟨0x3F000000, 0⟩], schedule := [.agent .costas] }) (fun t =>
      t.history == [0x3100, 0x2100]) := by decide +kernel

/-! ### Witnesses: for every statement with hypotheses, a state and operands that meet them together. The statements
whose hypotheses only name a value (`x = …`) add nothing to what is shown here. -/

theorem witness_DecodeEncodeAgree : (Instr.snrUpdate ⟨0x3F000000, 0⟩).wellFormed = true := by decide

theorem witness_DecodedWordsAreTheEncoding : decode [0x1100, 7] = .ok (.agcStep, [7]) := rfl

/-- A transaction that runs, one that is held, an issued operation, an agent with a step and one without. -/
theorem witness_StepRunsDecodedOperation :
    (∃ (s : State) (i : Instr) (rest : List Half), nextTurn s = .agent .host ∧ decode s.script = .ok (i, rest) ∧
      i.isHostTransaction = true ∧ held i s = false) ∧
    (∃ (s : State) (i : Instr) (rest : List Half), nextTurn s = .agent .host ∧ decode s.script = .ok (i, rest) ∧
      i.isHostTransaction = true ∧ held i s = true) ∧
    (∃ (s : State) (ws : List Half) (i : Instr) (rest : List Half), nextTurn s = .issue ws ∧
      decode ws = .ok (i, rest)) ∧
    (∃ (s : State) (a : Agent), a ≠ .host ∧ nextTurn s = .agent a ∧ agentStep a s ≠ none) ∧
    (∃ (s : State) (a : Agent), a ≠ .host ∧ nextTurn s = .agent a ∧ agentStep a s = none) := by
  refine ⟨⟨{ State.reset with schedule := [.agent .host], script := [0x0100, 4] }, .regRead 4, [], rfl, rfl, rfl, rfl⟩,
    ⟨{ State.reset with schedule := [.agent .host], script := [0x0400] }, .framePop, [], rfl, rfl, rfl, rfl⟩,
    ⟨{ State.reset with schedule := [.issue [0x1800]] }, [0x1800], .commitAgc, [], rfl, rfl⟩,
    ⟨{ State.reset with schedule := [.agent .agc], qSrc := ⟨[], true⟩ }, .agc, by decide, rfl, by decide +kernel⟩,
    ⟨{ State.reset with schedule := [.agent .agc] }, .agc, by decide, rfl, by decide +kernel⟩⟩

theorem witness_ResetInputResetsTheBlock : nextTurn { loaded with schedule := [.reset] } = .reset := rfl

theorem witness_RegReadAnswersTheShownValue : regClass (.ctrl .pll) = .wc := rfl

theorem witness_WriteThenReadShadow :
    regClass .slicerMode = .rw ∧ regClass (.rrcTap ⟨254, by decide⟩) = .rw := ⟨rfl, rfl⟩

/-- No register is at the first address after the last tap. -/
theorem unmapped_after_taps : ∀ r, regAddr r ≠ 0x47FC := by
  intro r
  cases r with
  | rrcTap k => revert k; decide +kernel
  | ctrl u => cases u <;> decide
  | status u => cases u <;> decide
  | _ => decide

/-- The five causes, each at a boundary value; the fourth with a well-formed descriptor of another operation. -/
theorem witness_BusErrorAnswersErrAndChangesNothing :
    ((0x1009 : Half).toNat % 4 ≠ 0) ∧ (∀ r, regAddr r ≠ 0x47FC) ∧ regClass .deframerFill = .ro ∧
    (∃ (s : State) (d : Half) (rest : List Half), nextTurn s = .agent .host ∧ s.script = d :: rest ∧
      d ∉ ([0x0100, 0x0200, 0x0300, 0x0400, 0x0500] : List Half)) ∧ (stopInput loaded).qSrc.closed = true :=
  ⟨by decide, unmapped_after_taps, rfl,
    ⟨{ State.reset with schedule := [.agent .host], script := [0x0800] }, 0x0800, [], rfl, rfl, by decide⟩, rfl⟩

/-- Closed; open with one place left; open and exactly full. -/
theorem witness_SrcPushQueuesOrHolds :
    (stopInput loaded).qSrc.closed = true ∧
    (∃ s : State, s.qSrc.closed = false ∧ s.qSrc.items.length < Config.fifoDepth) ∧
    (∃ s : State, s.qSrc.closed = false ∧ Config.fifoDepth ≤ s.qSrc.items.length) :=
  ⟨rfl, ⟨State.reset, rfl, by decide +kernel⟩,
    ⟨{ State.reset with qSrc := q (List.replicate Config.fifoDepth ⟨0, 0⟩) }, rfl, by simp [q]⟩⟩

theorem witness_PopsAnswerOldestOrEos :
    loaded.qFrame.items = [⟨.syncing, [0x1D]⟩] ∧ loaded.qSoft.items = [16] ∧
    (abortAll loaded).qFrame = ⟨[], true⟩ ∧ (abortAll loaded).qSoft = ⟨[], true⟩ ∧
    State.reset.qFrame = ⟨[], false⟩ ∧ State.reset.qSoft = ⟨[], false⟩ := ⟨rfl, rfl, rfl, rfl, rfl, rfl⟩

theorem witness_CommitAppliesShadowConfiguration :
    validateAgc State.reset.agc.shadow = 0 ∧ validateCostas State.reset.costas.shadow = 0 ∧
    validatePll State.reset.pll.shadow = 0 ∧ validateRrc State.reset.rrc.shadow = 0 ∧
    validateMm State.reset.mm.shadow = 0 ∧ validateSnr State.reset.snr.shadow = 0 ∧
    validateSlicer State.reset.slicer.shadow = 0 ∧ validateDeframer State.reset.deframer.shadow = 0 := by
  decide +kernel

/-- A failing configuration of each unit that has checks, and a unit that is not valid. -/
theorem witness_FailedCommitRecordsOnlyTheError :
    validateAgc { AgcCfg.reset with ref := 0 } = 0x11 ∧ validateCostas ⟨3⟩ = 0x21 ∧
    validatePll { PllCfg.reset with loopBw := 0 } = 0x31 ∧ validateRrc { RrcCfg.reset with ntaps := 256 } = 0x41 ∧
    validateMm { MmCfg.reset with mode := 2 } = 0x51 ∧ validateSnr { SnrCfg.reset with alpha := 0 } = 0x61 ∧
    validateSlicer { SlicerCfg.reset with softScale := 0 } = 0x71 ∧
    validateDeframer { DeframerCfg.reset with missTol := 256 } = 0x95 ∧
    (statusOf .pll State.reset).cfgValid = false := by
  decide +kernel

theorem witness_CommitAllCommitsEachUnitOnItsOwn :
    ∀ u, (statusOf u (commitUnit u State.reset)).cfgErr = false := by
  intro u; cases u <;> decide +kernel

/-- Every data step enabled at once, and none enabled. -/
theorem witness_DataStepsAreEnabledByTheRule :
    (∀ a, a ≠ .host → dataEnabled a loaded = true) ∧ (∀ a, dataEnabled a State.reset = false) ∧
    State.reset.pll.status.cfgValid = false ∧ State.reset.snr.status.cfgValid = false ∧
    State.reset.deframer.status.cfgValid = false := by
  refine ⟨?_, ?_, rfl, rfl, rfl⟩ <;> intro a <;> cases a <;> decide +kernel

theorem witness_AgcStepScalesAndUpdatesTheGain : ∃ (s : State) (x : Cplx) (xs : List Cplx) (xr xi yr yi m gc : F32),
    s.qSrc.items = x :: xs ∧ dataEnabled .agc s = true ∧ xr = Fp.fin0 x.re ∧ xi = Fp.fin0 x.im ∧
    yr = Fp.mul s.agc.data.g xr ∧ yi = Fp.mul s.agc.data.g xi ∧
    m = Fp.sqrt (Fp.add (Fp.mul yr yr) (Fp.mul yi yi)) ∧
    gc = Fp.add s.agc.data.g (Fp.mul s.agc.cfg.rate (Fp.sub s.agc.cfg.ref m)) :=
  ⟨loaded, ⟨0x3F000000, 0⟩, [], _, _, _, _, _, _, rfl, by decide +kernel, rfl, rfl, rfl, rfl, rfl, rfl⟩

theorem witness_AgcStepKeepsGainInRange : ∃ s t : State, GainInRange s ∧ exec .agcStep s = .next t := by
  obtain ⟨t, h⟩ := next_of_isNext (o := exec .agcStep loaded) (by decide +kernel)
  exact ⟨loaded, t, by unfold GainInRange; decide +kernel, h⟩

theorem witness_PllAdvanceUpdatesFreqThenPhase : loaded.pll.status.cfgValid = true := by decide +kernel

theorem witness_LoopKeepsFrequencyInRange : ∃ s t : State, FreqInRange s ∧ Fp.finite s.pll.cfg.freqMax = true ∧
    Fp.finite s.pll.derived.beta = true ∧
    ((∃ e, exec (.pllAdvance e) s = .next t) ∧ exec .costasStep { s with qAgc := q [] } = .next { s with qAgc := q [] }) := by
  obtain ⟨t, h⟩ := next_of_isNext (o := exec (.pllAdvance 0x3E800000) loaded) (by decide +kernel)
  exact ⟨loaded, t, by unfold FreqInRange; decide +kernel, by decide +kernel, by decide +kernel, ⟨_, h⟩, rfl⟩

theorem witness_CostasStepDerotatesAndAdvancesTheLoop :
    loaded.qAgc.items = [⟨0x3F000000, 0x3E800000⟩] ∧ dataEnabled .costas loaded = true := by decide +kernel

theorem witness_RrcStepFiltersTheZeroStuffedSample :
    loaded.qCar.items = [⟨0x3F800000, 0xBF800000⟩] ∧ dataEnabled .rrc loaded = true ∧
    validateRrc loaded.rrc.cfg = 0 := by decide +kernel

/-- A sample that only fills the history, and one that completes a cycle. -/
theorem witness_MmStepRecoversSymbols :
    loaded.qMf.items = [⟨0x3F800000, 0⟩] ∧ dataEnabled .mm loaded = true ∧ loaded.mm.data.wait = 0 ∧
    dataEnabled .mm { loaded with mm.data.wait := 1 } = true ∧
    0 < ({ loaded with mm.data.wait := 1 } : State).mm.data.wait := by decide +kernel

theorem witness_MmStepKeepsOmegaInRange : ∃ s t : State, OmegaInRange s ∧ Fp.finite s.mm.data.omega = true ∧
    Fp.finite s.mm.cfg.gainOmega = true ∧ exec .mmStep s = .next t := by
  obtain ⟨t, h⟩ := next_of_isNext (o := exec .mmStep loaded) (by decide +kernel)
  exact ⟨loaded, t, by unfold OmegaInRange; decide +kernel, by decide +kernel, by decide +kernel, h⟩

theorem witness_SnrUpdateAveragesAndEstimates : loaded.snr.status.cfgValid = true := by decide +kernel

theorem witness_SnrStaysInRange : ∃ s t : State, SnrInRange s ∧ Fp.le 0 s.snr.cfg.cap = true ∧
    (∃ x, exec (.snrUpdate x) s = .next t) := by
  obtain ⟨t, h⟩ := next_of_isNext (o := exec (.snrUpdate ⟨0x3F000000, 0⟩) loaded) (by decide +kernel)
  exact ⟨loaded, t, by unfold SnrInRange; decide +kernel, by decide +kernel, _, h⟩

theorem witness_SlicePushesHardAndSoftDecisions :
    loaded.qSym.items = [⟨0x3F333333, 0xBE4CCCCD⟩] ∧ dataEnabled .slicer loaded = true := by decide +kernel

/-- A finite product at a tie, and the products that overflow. -/
theorem witness_SoftValueRangeAndSign_cases : Fp.finite (Fp.mul 0x3F000000 0x3F800000) = true ∧
    Fp.mul 0x7F000000 0x42FE0000 = 0x7F800000 ∧ Fp.mul 0xFF000000 0x42FE0000 = 0xFF800000 := by decide +kernel

/-- A NaN product. -/
theorem witness_SoftValueRangeAndSign : Fp.isNaN (Fp.mul 0x7FC00000 0x42FE0000) = true := by
  simp [Fp.mul, Fp.isNaN, Fp.expField, Fp.fracField, Fp.nanOf, Fp.withSign]
  generalize Config.nanSign _ _ _ = b
  generalize hp : Config.nanPayload _ _ _ = p
  have := p.isLt
  cases b <;> simp <;> omega

theorem witness_RepackBitPlacesTheBit : loaded.qBit.items = [true] ∧ dataEnabled .repacker loaded = true := by
  decide +kernel

theorem witness_RepackerNeverDropsABit : ∃ (s : State) (bits more : List Bool), s.qBit.items = bits ++ more ∧
    s.repacker.status.cfgValid = true ∧ RepackerOk s.repacker.data ∧
    hasRoom s.qByte ((s.repacker.data.n + bits.length) / 8 + 1) = true :=
  ⟨{ loaded with repacker.data := ⟨5, 3⟩, qBit := q [true, false, true, true, false, true] }, [true, false, true, true, false],
    [true], rfl, by decide +kernel, by unfold RepackerOk; decide +kernel, by decide +kernel⟩

theorem witness_SlicedSymbolsRepackToTheSameBytes : ∃ (s : State) (ys : List Byte) (amp : F32) (more : List Cplx),
    Fp.lt 0 amp = true ∧
    s.qSym.items = ((ys.flatMap byteBits).map fun b => ⟨if b then amp else Fp.neg amp, 0⟩) ++ more ∧
    s.slicer.status.cfgValid = true ∧ s.slicer.cfg.cplx = false ∧ s.slicer.cfg.softEn = false ∧
    s.repacker.status.cfgValid = true ∧ s.repacker.cfg.lsbFirst = false ∧ s.repacker.data = ⟨0, 0⟩ ∧
    s.qBit.items = [] ∧ s.qBit.closed = false ∧ hasRoom s.qSoft 0 = true ∧ hasRoom s.qByte (ys.length + 1) = true :=
  ⟨{ loaded with
      qBit := q [], qSym := q (([0x1A].flatMap byteBits).map fun b => ⟨if b then 0x3F800000 else Fp.neg 0x3F800000, 0⟩) },
    [0x1A], 0x3F800000, [], by decide, by simp [q], by decide +kernel, by decide +kernel, by decide +kernel,
    by decide +kernel, by decide +kernel, by decide +kernel, rfl, rfl, by decide +kernel, by decide +kernel⟩

/-- A configuration with `M` 8, `F`, `T` and `K` 1. -/
def small (f tol : Word) : DeframerCfg := ⟨0x1D, 0, 8, f, tol, 1, true⟩

/-- The deframer `d` under `small f tol`, valid. -/
def smallState (f tol : Word) (d : DeframerData) : State :=
  { loaded with deframer := ⟨small f tol, small f tol, 0x1D, ok, d⟩ }

/-- The common hypotheses, at a state of each kind. -/
theorem witness_DeframeBitTransitions :
    ∀ d ∈ ([DeframerData.reset, ⟨.nosync, 0x0E, 7, 0, 0, false, 0⟩, ⟨.syncing, 0x0E, 8, 7, 0, false, 0⟩,
      ⟨.synced, 0x1E, 8, 7, 0, false, 0⟩, ⟨.syncedMissed, 0x1E, 8, 7, 1, false, 0⟩,
      ⟨.synced, 0x1E, 8, 15, 0, true, 0⟩] : List DeframerData),
      validateDeframer (smallState 2 0 d).deframer.cfg = 0 ∧
      DeframerOk (smallState 2 0 d).deframer.cfg (smallState 2 0 d).deframer.data ∧
      (smallState 2 0 d).deframer.status.cfgValid = true ∧ hasRoom (smallState 2 0 d).qFrame 1 = true := by
  simp only [List.mem_cons, List.not_mem_nil, or_false]
  rintro d (rfl | rfl | rfl | rfl | rfl | rfl) <;>
    exact ⟨by decide +kernel, by unfold DeframerOk; decide +kernel, rfl, by decide +kernel⟩

/-- The cases of the transitions: no search, a search that fails, one that finds with `M < 8F` and with `M = 8F`; a check
that matches, a miss, the loss; a bit between checks; the last bit of a frame. -/
theorem witness_DeframeBitTransitions_cases :
    min (DeframerData.reset.fill + 1) 8 < 8 ∧ search (small 2 0) 0x1D 0x1C = none ∧
    search (small 2 0) 0x1D ((((0x0E : BitVec 64) <<< 1) ||| 1) &&& mask 8) = some false ∧ min (7 + 1) 8 = 8 ∧
    (8 : Nat) < 8 * (small 2 0).frameLen.toNat ∧ (small 1 0).asmLen.toNat = 8 * (small 1 0).frameLen.toNat ∧
    decide (popcount (((((0x0E : BitVec 64) <<< 1) ||| 1) &&& mask 8) ^^^ 0 ^^^ 0x1D) ≤ 0) = true ∧
    decide (popcount (((((0x1E : BitVec 64) <<< 1) ||| 1) &&& mask 8) ^^^ 0 ^^^ 0x1D) ≤ 0) = false ∧
    0 + 1 ≤ (small 2 0).missTol.toNat ∧ (small 2 0).missTol.toNat < 1 + 1 ∧ 7 + 1 = (small 2 0).asmLen.toNat ∧
    15 + 1 = 8 * (small 2 0).frameLen.toNat ∧ 15 + 1 ≠ (small 2 0).asmLen.toNat := by decide +kernel

/-- Two places in `Q_FRAME`; and exactly one. -/
theorem witness_DeframeByteIsEightDeframeBits : loaded.qByte.items = [0x1A] ∧ dataEnabled .deframer loaded = true ∧
    validateDeframer loaded.deframer.cfg = 0 ∧ DeframerOk loaded.deframer.cfg loaded.deframer.data ∧
    hasRoom loaded.qFrame 2 = true :=
  ⟨rfl, by decide +kernel, by decide +kernel, by unfold DeframerOk; decide +kernel, by decide +kernel⟩

theorem witness_DeframeByteIsEightDeframeBits_onePlace : ∃ s : State, s.qByte.items = [0x1A] ∧
    dataEnabled .deframer s = true ∧ hasRoom s.qFrame 2 = false := by
  have h1 : loaded.deframer.status.cfgValid = true := by decide +kernel
  have h2 : hasRoom (q (List.replicate (Config.fifoDepthExtra + 15) (⟨.synced, [0x1D]⟩ : Frame))) 1 = true := by
    simp [hasRoom, q, Config.fifoDepth]
  refine ⟨{ loaded with qFrame := q (List.replicate (Config.fifoDepthExtra + 15) ⟨.synced, [0x1D]⟩) }, rfl, ?_, ?_⟩
  · simp only [dataEnabled, deframeReady, h1, h2]
    rfl
  · simp [hasRoom, q, Config.fifoDepth]

theorem witness_AtMostOneFramePerByte : ∃ s t : State, validateDeframer s.deframer.cfg = 0 ∧
    DeframerOk s.deframer.cfg s.deframer.data ∧ exec .deframeByte s = .next t := by
  obtain ⟨t, h⟩ := next_of_isNext (o := exec .deframeByte loaded) (by decide +kernel)
  exact ⟨loaded, t, by decide +kernel, by unfold DeframerOk; decide +kernel, h⟩

/-- Two frames of two bytes, each starting with the marker 0x1D. -/
theorem witness_DeframerRecoversInjectedFrames : ∃ (c : DeframerCfg) (asm : BitVec 64) (fs : List (List Byte)),
    fs.length = 2 ∧ validateDeframer c = 0 ∧ asm = deriveDeframer c ∧
    ∀ f ∈ fs, f.length = c.frameLen.toNat ∧ (f.flatMap byteBits).take c.asmLen.toNat =
      (List.range c.asmLen.toNat).map fun i => asm.getLsbD (c.asmLen.toNat - 1 - i) :=
  ⟨small 2 0, _, [[0x1D, 0xAB], [0x1D, 0xCD]], rfl, by decide +kernel, rfl, by decide +kernel⟩

theorem witness_InvertedStreamGivesTheSameFrames : validateDeframer (small 2 3) = 0 ∧ (small 2 3).invEn = true ∧
    2 * (small 2 3).bitErrTol.toNat < (small 2 3).asmLen.toNat := by decide +kernel

/-- The scheduler that gives each agent its turn in order. -/
def roundRobin (n : Nat) : Agent :=
  [Agent.host, .agc, .costas, .rrc, .mm, .slicer, .repacker, .deframer][n % 8]!

theorem roundRobin_fair : FairSchedule roundRobin := by
  intro a n
  have h : ∀ k, k < 8 → roundRobin (8 * n + k) = roundRobin k := by
    intro k hk; simp [roundRobin]
  cases a
  · exact ⟨8 * n + 0, by omega, by rw [h 0 (by decide)]; rfl⟩
  · exact ⟨8 * n + 1, by omega, by rw [h 1 (by decide)]; rfl⟩
  · exact ⟨8 * n + 2, by omega, by rw [h 2 (by decide)]; rfl⟩
  · exact ⟨8 * n + 3, by omega, by rw [h 3 (by decide)]; rfl⟩
  · exact ⟨8 * n + 4, by omega, by rw [h 4 (by decide)]; rfl⟩
  · exact ⟨8 * n + 5, by omega, by rw [h 5 (by decide)]; rfl⟩
  · exact ⟨8 * n + 6, by omega, by rw [h 6 (by decide)]; rfl⟩
  · exact ⟨8 * n + 7, by omega, by rw [h 7 (by decide)]; rfl⟩

theorem witness_FairTurnsCloseTheFrameQueue : ∃ (choice : Nat → Agent) (s : State), FairSchedule choice ∧
    s.script = [] ∧ s.lines = [] ∧ s.schedule = [] ∧ s.qSrc = ⟨[], true⟩ ∧ s.qAgc.items = [] ∧ s.qCar.items = [] ∧
    s.qMf.items = [] ∧ s.qSym.items = [] ∧ s.qBit.items = [] ∧ s.qByte.items = [] ∧ s.qFrame.closed = false :=
  ⟨roundRobin, stopInput State.reset, roundRobin_fair, rfl, rfl, rfl, rfl, rfl, rfl, rfl, rfl, rfl, rfl, rfl⟩

theorem witness_DataStepsOfTwoAgentsCommute : ∃ (s : State) (a b : Agent) (i j : Instr), a ≠ b ∧
    dataStep a = some i ∧ dataStep b = some j ∧ dataEnabled a s = true ∧ dataEnabled b s = true :=
  ⟨loaded, .mm, .slicer, .mmStep, .slice, by decide, rfl, rfl, by decide +kernel, by decide +kernel⟩

/-! The invariants at `loaded`, with a turn that does something. -/

theorem loaded_configInv : ConfigInv loaded :=
  ⟨by unfold ActiveLegal; decide +kernel, by unfold DerivedCurrent; decide +kernel,
    by intro u; cases u <;> (unfold StatusOk; decide +kernel)⟩

theorem loaded_datapathInv : DatapathInv loaded :=
  ⟨loaded_configInv, by unfold RepackerOk; decide +kernel, by unfold DeframerOk; decide +kernel⟩

theorem witness_StepKeepsConfiguration :
    ∃ s t : State, ConfigInv s ∧ step s = .next t := by
  obtain ⟨t, h⟩ := next_of_isNext (o := step loaded) (by decide +kernel)
  exact ⟨loaded, t, loaded_configInv, h⟩

theorem witness_StepKeepsDatapathRanges : ∃ s t : State, DatapathInv s ∧ step s = .next t := by
  obtain ⟨t, h⟩ := next_of_isNext (o := step loaded) (by decide +kernel)
  exact ⟨loaded, t, loaded_datapathInv, h⟩

theorem witness_StepKeepsQueues : ∃ s t : State, QueueInv s ∧ step s = .next t := by
  obtain ⟨t, h⟩ := next_of_isNext (o := step loaded) (by decide +kernel)
  refine ⟨loaded, t, ⟨loaded_datapathInv, ?_, ?_, ?_⟩, h⟩
  · unfold QueuesBounded; decide +kernel
  · unfold ClosedDownChain; decide +kernel
  · unfold AbortedEmpty; decide +kernel

theorem witness_StepKeepsItems : ∃ s t : State, ItemsInv s ∧ step s = .next t := by
  obtain ⟨t, h⟩ := next_of_isNext (o := step loaded) (by decide +kernel)
  refine ⟨loaded, t, ⟨loaded_configInv, ?_, ?_, ?_⟩, h⟩
  · unfold SamplesFinite; decide +kernel
  · unfold SoftsInRange; decide +kernel
  · unfold FramesOk; decide +kernel

theorem witness_StepKeepsNumbers : ∃ s t : State, NumbersInv s ∧ step s = .next t := by
  obtain ⟨t, h⟩ := next_of_isNext (o := step loaded) (by decide +kernel)
  refine ⟨loaded, t, ⟨loaded_configInv, ?_, ?_, ?_, ?_, ?_, ?_, ?_⟩, h⟩
  · unfold DatapathFinite; decide +kernel
  · unfold PhaseInRange; decide +kernel
  · unfold FreqInRange; decide +kernel
  · unfold MuInRange; decide +kernel
  · unfold SnrInRange; decide +kernel
  · intro _; unfold GainInRange; decide +kernel
  · intro _; unfold OmegaInRange; decide +kernel

theorem witness_NumericsHaveTheRequiredProperties :
    Fp.finite 0x3F000000 = true ∧ Fp.finite 0x3F000001 = true ∧ Fp.lt 0 0x3F000000 = true ∧
    Fp.le 0x3F000000 0x3F000001 = true := by decide

theorem witness_SumsAndProductsAreNearest : Fp.finite 0x3DCCCCCD = true ∧ Fp.finite 0x3E4CCCCD = true ∧
    Fp.finite 0 = true ∧ Fp.finite (Fp.add 0x3DCCCCCD 0x3E4CCCCD) = true ∧
    Fp.finite (Fp.mul 0x3DCCCCCD 0x3E4CCCCD) = true ∧ realValue 0x3F800000 ≠ 0 ∧ 0 ≤ realValue 0x3F800000 ∧
    Fp.isNaN 0x7FC00000 = true := by
  have h1 : Fp.sign (0x3F800000 : F32) = false := by decide
  have h2 : Fp.sig (0x3F800000 : F32) = 2 ^ 23 := by decide
  have h3 : Fp.expo (0x3F800000 : F32) = -23 := by decide
  refine ⟨by decide, by decide, by decide, by decide +kernel, by decide +kernel, ?_, ?_, by decide⟩ <;>
    (rw [realValue, h1, h2, h3]; norm_num)

/-- Every enabled data step; a step that runs an operation, and one that runs none; a write of an `RW` register, and one
of a misaligned address; a step that is not enabled. -/
theorem witness_EventHistoryNamesTheOperations :
    (∀ a, a ≠ .host → dataEnabled a loaded = true) ∧
    (∃ u, fetch { loaded with schedule := [.agent .agc] } = .run .agcStep u ∧ isNext (exec .agcStep u) = true) ∧
    (∃ u, fetch { State.reset with schedule := [.agent .agc] } = .pass u) ∧
    (∀ r, regAddr r = 0x1008 → regClass r ≠ .wc) ∧ (∀ r, regAddr r = 0x47FC → regClass r ≠ .wc) ∧
    dataStep .rrc = some .rrcStep ∧ dataEnabled .rrc State.reset = false ∧ eosStep .rrc = some .eosPropagateRrc := by
  have run : agentStep .agc { loaded with schedule := [.agent .agc] } = some .agcStep := by decide +kernel
  have idle : agentStep .agc { State.reset with schedule := [.agent .agc] } = none := by decide +kernel
  refine ⟨?_, ⟨record .agcStep (endTurn { loaded with schedule := [.agent .agc] }), ?_, by decide +kernel⟩,
    ⟨endTurn { State.reset with schedule := [.agent .agc] }, ?_⟩, ?_,
    fun r h => absurd h (unmapped_after_taps r), rfl, by decide +kernel, rfl⟩
  · intro a; cases a <;> decide +kernel
  · simp only [fetch, nextTurn, unitTurn, run, perform]
  · simp only [fetch, nextTurn, unitTurn, idle]
  · intro r
    cases r with
    | ctrl u => cases u <;> decide
    | _ => simp [regClass, regAddr]

/-- A line that is sent and one that is held; one without a transaction; a `drain` with a frame there, at the end of the
stream, and waiting. -/
theorem witness_ScriptLinesAreSentInOrder :
    nextTurn (hostNext State.reset) = .agent .host ∧ (hostNext State.reset).script = [] ∧
    lineOps .commitAll = [.regWrite 0 1] ∧ held (.regWrite 0 1) State.reset = false ∧
    lineOps .popf = [.framePop] ∧ held .framePop State.reset = true ∧ lineOps (.pushn 0 0 0) = [] ∧
    loaded.qFrame.items = [⟨.syncing, [0x1D]⟩] ∧ (abortAll loaded).qFrame = ⟨[], true⟩ ∧
    State.reset.qFrame = ⟨[], false⟩ := ⟨rfl, rfl, rfl, rfl, rfl, rfl, rfl, rfl, rfl, rfl⟩

theorem witness_DeframeBitChangesOnlyTheDeframer :
    loaded.deframer.status.cfgValid = true ∧ hasRoom loaded.qFrame 1 = true := by decide +kernel

/-- A value with bit 0, one with bit 1 alone, one with neither. -/
theorem witness_ControlWritesStartActions :
    (3 : Word).getLsbD 0 = true ∧ (2 : Word).getLsbD 0 = false ∧ (2 : Word).getLsbD 1 = true ∧
    (4 : Word).getLsbD 0 = false ∧ (4 : Word).getLsbD 1 = false := by decide

theorem witness_AgcCommitPutsGainInRange : validateAgc State.reset.agc.shadow = 0 := by decide +kernel

end Sys2Proof.Machine.Tests
end

/-! PROOFS. `sin`, `cos` and `log10` have the properties of 00_scope.md R7. Between two pins `log10` is a free
non-decreasing choice among places; ranks carry its order to the order of binary32 values. -/

namespace Sys2Proof

/-! ### Ranks, encodings and places -/

theorem Fp.sign_eq_decide (x : F32) : Fp.sign x = decide (2 ^ 31 ≤ x.toNat) := BitVec.msb_eq_decide x

/-- A value of rank above 0 has the sign bit clear, so its encoding is its rank. -/
theorem Fp.toNat_of_rank_pos {x : F32} (h : 0 < Fp.rank x) : (x.toNat : ℤ) = Fp.rank x := by
  have hx := x.isLt
  simp only [Fp.rank, Fp.sign_eq_decide, BitVec.extractLsb'_toNat, Nat.shiftRight_zero, decide_eq_true_eq] at h ⊢
  split at h <;> omega

/-- The rank of the value at a place of the order of encodings: both zeros have rank 0. -/
def Fp.rankAt (k : ℕ) : ℤ := if k < 0x80000000 then (k : ℤ) - 0x7FFFFFFF else (k : ℤ) - 0x80000000

theorem Fp.rankAt_mono {k l : ℕ} (h : k ≤ l) : Fp.rankAt k ≤ Fp.rankAt l := by
  unfold Fp.rankAt; split <;> split <;> omega

theorem Fp.rankAt_place (x : F32) : Fp.rankAt (Fp.place x) = Fp.rank x := by
  have hx := x.isLt
  simp only [Fp.rankAt, Fp.place, Fp.rank, Fp.sign_eq_decide, BitVec.extractLsb'_toNat, Nat.shiftRight_zero, decide_eq_true_eq]
  by_cases h : 2 ^ 31 ≤ x.toNat
  · simp only [h, if_true]; split <;> omega
  · simp only [h, if_false]; split <;> omega

theorem Fp.place_ofPlace {k : ℕ} (h : k < 2 ^ 32) : Fp.place (Fp.ofPlace k) = k := by
  simp only [Fp.place, Fp.sign_eq_decide, Fp.ofPlace, BitVec.toNat_ofNat, decide_eq_true_eq]
  split <;> split <;> omega

theorem Fp.rank_ofPlace {k : ℕ} (h : k < 2 ^ 32) : Fp.rank (Fp.ofPlace k) = Fp.rankAt k := by
  rw [← Fp.rankAt_place, Fp.place_ofPlace h]

theorem Fp.rank_zeroOf (s : Bool) : Fp.rank (Fp.zeroOf s) = 0 := by cases s <;> decide

theorem Fp.rank_of_isZero {v : F32} (h : Fp.isZero v = true) : Fp.rank v = 0 := by
  obtain ⟨he, hf⟩ : Fp.expField v = 0 ∧ Fp.fracField v = 0 := by simpa [Fp.isZero] using h
  simp only [Fp.rank, Fp.magnitude_eq, he, hf]; simp

/-! ### `sin` and `cos` -/

/-- Both bounds make a value finite. -/
theorem Fp.finite_of_inUnit {v : F32} (h : Fp.inUnit v = true) :
    Fp.finite v = true ∧ Fp.le Fp.negOne v = true ∧ Fp.le v Fp.one = true := by
  obtain ⟨hl, hu⟩ : Fp.le Fp.negOne v = true ∧ Fp.le v Fp.one = true := by simpa [Fp.inUnit] using h
  exact ⟨Fp.finite_of_le_of_le (by decide) (by decide) hl hu, hl, hu⟩

/-- A raw answer for a finite argument is held to `[-1, 1]`. -/
theorem Fp.inUnit_unitOf {x : F32} (hx : Fp.finite x = true) (raw : F32) : Fp.inUnit (Fp.unitOf x raw) = true := by
  unfold Fp.unitOf; split
  · next h => simpa [hx] using h
  · decide

theorem Fp.inUnit_sin {x : F32} (hx : Fp.finite x = true) : Fp.inUnit (Fp.sin x) = true := by
  unfold Fp.sin; split
  · decide
  · exact Fp.inUnit_unitOf hx _

theorem Fp.inUnit_cos {x : F32} (hx : Fp.finite x = true) : Fp.inUnit (Fp.cos x) = true := by
  unfold Fp.cos; split
  · decide
  · exact Fp.inUnit_unitOf hx _

/-! ### The free choice between two pins -/

/-- A node's middle value lies between its bounds. -/
theorem Fp.choice_between (c : ℕ) {lo hi : ℕ} (h : lo ≤ hi) :
    lo ≤ lo + c % (hi + 1 - lo) ∧ lo + c % (hi + 1 - lo) ≤ hi := by
  have := Nat.mod_lt c (show hi + 1 - lo > 0 by omega)
  omega

theorem Fp.monotoneChoice_range (choice : ℕ → ℕ) (d : ℕ) : ∀ (node lo hi x : ℕ), lo ≤ hi →
    lo ≤ Fp.monotoneChoice choice d node lo hi x ∧ Fp.monotoneChoice choice d node lo hi x ≤ hi := by
  induction d with
  | zero => exact fun node lo hi _ h => Fp.choice_between (choice node) h
  | succ d ih =>
    intro node lo hi x h
    obtain ⟨hl, hu⟩ := Fp.choice_between (choice node) h
    simp only [Fp.monotoneChoice]
    split
    · exact (ih _ _ _ x hl).imp_right (·.trans hu)
    · exact (ih _ _ _ (x - 2 ^ d) hu).imp_left hl.trans

theorem Fp.monotoneChoice_mono (choice : ℕ → ℕ) (d : ℕ) : ∀ (node lo hi x y : ℕ), lo ≤ hi → x ≤ y →
    Fp.monotoneChoice choice d node lo hi x ≤ Fp.monotoneChoice choice d node lo hi y := by
  induction d with
  | zero => exact fun _ _ _ _ _ _ _ => le_rfl
  | succ d ih =>
    intro node lo hi x y h hxy
    obtain ⟨hl, hu⟩ := Fp.choice_between (choice node) h
    simp only [Fp.monotoneChoice]
    by_cases hy : y < 2 ^ d
    · rw [if_pos hy, if_pos (hxy.trans_lt hy)]; exact ih _ _ _ _ _ hl hxy
    · rw [if_neg hy]
      split
      · exact (Fp.monotoneChoice_range choice d _ _ _ _ hl).2.trans (Fp.monotoneChoice_range choice d _ _ _ _ hu).1
      · exact ih _ _ _ _ _ hu (by omega)

/-- The free sign of a zero leaves the rank, so the answer ranks as the place chosen. -/
theorem Fp.rank_log10Between (seg : ℕ) {lo hi : ℕ} (x : F32) (h : lo ≤ hi) (hhi : hi < 2 ^ 32) :
    Fp.rank (Fp.log10Between seg lo hi x) =
      Fp.rankAt (Fp.monotoneChoice (Config.log10Choice seg) 31 1 lo hi x.toNat) := by
  have hr := (Fp.monotoneChoice_range (Config.log10Choice seg) 31 1 lo hi x.toNat h).2
  rw [← Fp.rank_ofPlace (hr.trans_lt hhi), Fp.log10Between]
  split
  · next hz => rw [Fp.rank_zeroOf, Fp.rank_of_isZero hz]
  · rfl

theorem Fp.log10Between_range (seg : ℕ) {lo hi : ℕ} (x : F32) (h : lo ≤ hi) (hhi : hi < 2 ^ 32) :
    Fp.rankAt lo ≤ Fp.rank (Fp.log10Between seg lo hi x) ∧ Fp.rank (Fp.log10Between seg lo hi x) ≤ Fp.rankAt hi := by
  rw [Fp.rank_log10Between seg x h hhi]
  exact (Fp.monotoneChoice_range _ _ _ _ _ _ h).imp Fp.rankAt_mono Fp.rankAt_mono

theorem Fp.log10Between_mono (seg : ℕ) {lo hi : ℕ} {x y : F32} (h : lo ≤ hi) (hhi : hi < 2 ^ 32)
    (hxy : x.toNat ≤ y.toNat) :
    Fp.rank (Fp.log10Between seg lo hi x) ≤ Fp.rank (Fp.log10Between seg lo hi y) := by
  rw [Fp.rank_log10Between seg x h hhi, Fp.rank_log10Between seg y h hhi]
  exact Fp.rankAt_mono (Fp.monotoneChoice_mono _ _ _ _ _ _ _ h hxy)

/-! ### The search through the pins -/

/-- The places of the pinned values go down from `hi`, and not below `-Inf`. -/
def Fp.pinsDescend : List (F32 × F32) → ℕ → Bool
  | [], hi => decide (Fp.place (Fp.infOf true) ≤ hi)
  | (_, k) :: more, hi => decide (Fp.place k ≤ hi) && Fp.pinsDescend more (Fp.place k)

theorem Fp.log10Pins_descend : Fp.pinsDescend Fp.log10Pins (Fp.place (Fp.infOf false)) = true := by decide

theorem Fp.log10Search_range (x : F32) (pins : List (F32 × F32)) : ∀ hi : ℕ, Fp.pinsDescend pins hi = true →
    hi < 2 ^ 32 → Fp.rank (Fp.infOf true) ≤ Fp.rank (Fp.log10Search x pins hi) ∧
      Fp.rank (Fp.log10Search x pins hi) ≤ Fp.rankAt hi := by
  induction pins with
  | nil =>
    intro hi hd hhi
    rw [← Fp.rankAt_place (Fp.infOf true)]
    exact Fp.log10Between_range 0 x (by simpa [Fp.pinsDescend] using hd) hhi
  | cons pin more ih =>
    obtain ⟨p, k⟩ := pin
    intro hi hd hhi
    obtain ⟨hk, hmore⟩ : Fp.place k ≤ hi ∧ Fp.pinsDescend more (Fp.place k) = true := by
      simpa [Fp.pinsDescend] using hd
    have hup := Fp.rankAt_mono hk
    obtain ⟨hlow, hbelow⟩ := ih (Fp.place k) hmore (by omega)
    have hbot : Fp.rank (Fp.infOf true) ≤ Fp.rankAt (Fp.place k) := hlow.trans hbelow
    simp only [Fp.log10Search]
    split
    · rw [Fp.rankAt_place] at hbot hup; exact ⟨hbot, hup⟩
    · split
      · exact (Fp.log10Between_range _ x hk hhi).imp_left hbot.trans
      · exact ⟨hlow, hbelow.trans hup⟩

/-- The search is non-decreasing: what it answers above a pin, at it and below it is above, at and below the pinned
value. -/
theorem Fp.log10Search_mono {x y : F32} (hxy : x.toNat ≤ y.toNat) (pins : List (F32 × F32)) :
    ∀ hi : ℕ, Fp.pinsDescend pins hi = true → hi < 2 ^ 32 →
      Fp.rank (Fp.log10Search x pins hi) ≤ Fp.rank (Fp.log10Search y pins hi) := by
  induction pins with
  | nil => exact fun hi hd hhi => Fp.log10Between_mono 0 (by simpa [Fp.pinsDescend] using hd) hhi hxy
  | cons pin more ih =>
    obtain ⟨p, k⟩ := pin
    intro hi hd hhi
    obtain ⟨hk, hmore⟩ : Fp.place k ≤ hi ∧ Fp.pinsDescend more (Fp.place k) = true := by
      simpa [Fp.pinsDescend] using hd
    have hbelow := (Fp.log10Search_range x more (Fp.place k) hmore (by omega)).2
    have habove := (Fp.log10Between_range (more.length + 1) y hk hhi).1
    rw [Fp.rankAt_place] at hbelow habove
    simp only [Fp.log10Search, ← BitVec.toNat_inj]
    rcases lt_trichotomy y.toNat p.toNat with hy | hy | hy
    · rw [if_neg (by omega), if_neg (by omega), if_neg (by omega), if_neg (by omega)]
      exact ih _ hmore (by omega)
    · rw [if_pos hy]
      split
      · exact le_rfl
      · rw [if_neg (by omega)]; exact hbelow
    · rw [if_neg hy.ne', if_pos hy]
      split
      · exact habove
      · split
        · exact Fp.log10Between_mono _ hk hhi hxy
        · exact hbelow.trans habove

/-! ### `log10` -/

theorem Fp.log10_eq_search {x : F32} (hx : Fp.finite x = true) (hpos : Fp.lt Fp.zero x = true) :
    Fp.log10 x = Fp.log10Search x Fp.log10Pins (Fp.place (Fp.infOf false)) := by
  rw [Fp.log10, hx, hpos]; rfl

theorem Fp.isNaN_log10 {x : F32} (hx : Fp.finite x = true) (hpos : Fp.lt Fp.zero x = true) :
    Fp.isNaN (Fp.log10 x) = false := by
  have h := Fp.log10Search_range x _ _ Fp.log10Pins_descend (by decide)
  rw [← Fp.log10_eq_search hx hpos, show Fp.rank (Fp.infOf true) = -0x7F800000 by decide, Fp.rankAt_place,
    show Fp.rank (Fp.infOf false) = 0x7F800000 by decide] at h
  rw [Bool.eq_false_iff, ne_eq, Fp.isNaN_iff_rank]
  omega

theorem Fp.log10_mono {x y : F32} (hx : Fp.finite x = true) (hy : Fp.finite y = true) (hpos : Fp.lt Fp.zero x = true)
    (hxy : Fp.le x y = true) : Fp.le (Fp.log10 x) (Fp.log10 y) = true := by
  obtain ⟨hz, -, hx0⟩ := (Fp.lt_iff _ _).mp hpos
  obtain ⟨-, hny, hr⟩ := (Fp.le_iff _ _).mp hxy
  have hypos : Fp.lt Fp.zero y = true := (Fp.lt_iff _ _).mpr ⟨hz, hny, hx0.trans_le hr⟩
  have h0 : Fp.rank Fp.zero = 0 := by decide
  have hnat : x.toNat ≤ y.toNat := by
    have := Fp.toNat_of_rank_pos (x := x) (by omega)
    have := Fp.toNat_of_rank_pos (x := y) (by omega)
    omega
  have hs := Fp.log10Search_mono hnat _ _ Fp.log10Pins_descend (by decide)
  rw [← Fp.log10_eq_search hx hpos, ← Fp.log10_eq_search hy hypos] at hs
  exact (Fp.le_iff _ _).mpr ⟨Fp.isNaN_log10 hx hpos, Fp.isNaN_log10 hy hypos, hs⟩

/-- The powers of ten are the pins, which the search compares with before it asks for a free value. -/
theorem Fp.log10_pow_ten {k : ℕ} (hk : k ≤ 10) : Fp.log10 (Fp.ofInt (10 ^ k : ℕ)) = Fp.ofInt k := by
  interval_cases k <;> decide +kernel

/-- Settles O56: the raw answers are held to R7 argument by argument, and the search through the pins keeps the order. -/
theorem numericsHaveTheRequiredProperties : Obligations.NumericsHaveTheRequiredProperties := by
  refine ⟨rfl, rfl, fun x hx => ?_, fun k hk => Fp.log10_pow_ten hk, fun x y hx hy => Fp.log10_mono hx hy⟩
  obtain ⟨hs, hs1, hs2⟩ := Fp.finite_of_inUnit (Fp.inUnit_sin hx)
  obtain ⟨hc, hc1, hc2⟩ := Fp.finite_of_inUnit (Fp.inUnit_cos hx)
  exact ⟨hs, hs1, hs2, hc, hc1, hc2⟩

end Sys2Proof

/-! PROOFS. What `Rounded` says, said by distances: no binary32 value is nearer, and a tie goes to the even significand
(00_scope.md R7). -/

namespace Sys2Proof

open Machine (realValue RoundsToEven)

/-! ### Ranks and encodings -/

/-- But for the two zeros, the rank fixes the encoding. -/
theorem Fp.eq_of_rank_eq {a b : F32} (h : Fp.rank a = Fp.rank b) (h0 : Fp.rank b ≠ 0) : a = b := by
  have ha := a.isLt
  have hb := b.isLt
  apply BitVec.eq_of_toNat_eq
  simp only [Fp.rank, Fp.sign_eq_decide, BitVec.extractLsb'_toNat, Nat.shiftRight_zero, decide_eq_true_eq] at h h0
  split at h <;> split at h <;> split at h0 <;> omega

/-- The last bit of the significand is the parity of the rank. -/
theorem Fp.lsb_eq_false_iff (x : F32) : x.getLsbD 0 = false ↔ Fp.rank x % 2 = 0 := by
  have hx := x.isLt
  rw [← BitVec.testBit_toNat, Nat.testBit_zero, decide_eq_false_iff_not]
  simp only [Fp.rank, BitVec.extractLsb'_toNat, Nat.shiftRight_zero]
  split <;> omega

/-! ### Exact values -/

/-- A normal significand has its leading bit. -/
theorem Fp.sig_normalized (x : F32) : Fp.expo x = -149 ∨ 2 ^ 23 ≤ Fp.sig x := by
  simp only [Fp.expo, Fp.sig]; split
  · exact .inl rfl
  · exact .inr (by omega)

theorem Fp.abs_realValue (x : F32) : |realValue x| = (Fp.sig x : ℚ) * 2 ^ Fp.expo x := by
  have h : (0 : ℚ) ≤ (Fp.sig x : ℚ) * 2 ^ Fp.expo x := by positivity
  rw [Fp.realValue_eq]
  cases Fp.sign x <;> simp [signFactor, abs_of_nonneg h]

/-- The exact value behind a rank that is written as an exponent and a significand; a significand of `2 ^ 24` carries into
the exponent. -/
theorem Fp.realValue_of_rank {r : F32} {e mant : ℕ} (hm : mant ≤ 2 ^ 24) (he : e = 0 ∨ 2 ^ 23 ≤ mant)
    (h : Fp.rank r = ((e * 2 ^ 23 + mant : ℕ) : ℤ)) : realValue r = (mant : ℚ) * 2 ^ ((e : ℤ) - 149) := by
  have hlt := Fp.sig_lt r
  have hge := Fp.expo_ge r
  have hnorm := Fp.sig_normalized r
  rw [Fp.rank_eq] at h
  rw [Fp.realValue_eq]
  cases hs : Fp.sign r with
  | true =>
    rw [hs, if_pos rfl] at h
    have h1 : Fp.sig r = 0 := by omega
    have h2 : mant = 0 := by omega
    simp [h1, h2]
  | false =>
    rw [hs, if_neg (by decide)] at h
    have cases : (Fp.expo r = (e : ℤ) - 149 ∧ Fp.sig r = mant) ∨
        (Fp.expo r = (e : ℤ) - 149 + 1 ∧ Fp.sig r = 2 ^ 23 ∧ mant = 2 ^ 24) := by omega
    rcases cases with ⟨h1, h2⟩ | ⟨h1, h2, h3⟩
    · simp [signFactor, h1, h2]
    · rw [h1, h2, h3, zpow_add₀ (by norm_num)]; simp only [signFactor]; norm_num; ring

/-! ### Nearest -/

/-- No integer is nearer than the rounded one, and one equally near makes it even. -/
theorem IsRne.nearest {x : ℚ} {n : ℕ} (h : IsRne x n) (k : ℤ) :
    |(n : ℚ) - x| ≤ |(k : ℚ) - x| ∧ (|(n : ℚ) - x| = |(k : ℚ) - x| → (k : ℚ) = n ∨ n % 2 = 0) := by
  obtain ⟨hlo, hhi, heven⟩ := h
  have hn : |(n : ℚ) - x| ≤ 1 / 2 := abs_le.mpr ⟨by linarith, by linarith⟩
  rcases lt_trichotomy k n with c | c | c
  · have hk : (k : ℚ) + 1 ≤ n := by exact_mod_cast c
    rw [abs_of_nonpos (show (k : ℚ) - x ≤ 0 by linarith)]
    exact ⟨by linarith, fun heq => .inr (heven (.inl (by linarith)))⟩
  · rw [c]; exact ⟨le_rfl, fun _ => .inl rfl⟩
  · have hk : (n : ℚ) + 1 ≤ k := by exact_mod_cast c
    rw [abs_of_nonneg (show 0 ≤ (k : ℚ) - x by linarith)]
    exact ⟨by linarith, fun heq => .inr (heven (.inr (by linarith)))⟩

/-- A value below an integer that the exact value is not below is farther than the rounded integer. -/
theorem IsRne.nearer {x y : ℚ} {n k : ℕ} (h : IsRne x n) (hk : (k : ℚ) ≤ x) (hy : y < k) :
    |(n : ℚ) - x| < |y - x| := by
  have hle := (h.nearest k).1
  rw [Int.cast_natCast, abs_of_nonpos (show (k : ℚ) - x ≤ 0 by linarith)] at hle
  rw [abs_of_nonpos (show y - x ≤ 0 by linarith)]
  linarith

/-- The rounded magnitude is nearest. A value with a finer last place than the result's is below the least normal value
with the result's exponent, and that one is a candidate that is nearer. -/
theorem RoundsTo.nearest {v : ℚ} {n : ℕ} (h : RoundsTo v n) {r : F32} (hr : Fp.rank r = n) (c : F32) :
    |realValue r - v| ≤ |realValue c - v| ∧
      (|realValue r - v| = |realValue c - v| → realValue c = realValue r ∨ n % 2 = 0) := by
  obtain ⟨e, mant, rfl, hrne, hlt, hge⟩ := h
  have hm : mant ≤ 2 ^ 24 := hrne.le_of_le (by exact_mod_cast hlt.le)
  have he : e = 0 ∨ 2 ^ 23 ≤ mant := hge.imp_right fun g => hrne.ge_of_ge (by exact_mod_cast g)
  rw [Fp.realValue_of_rank hm he hr]
  have hscaled : (e : ℤ) - 149 ≤ Fp.expo c → (Fp.scaled c ((e : ℤ) - 149) : ℚ) * 2 ^ ((e : ℤ) - 149) = realValue c :=
    Fp.scaled_value c
  have hfine : ¬ (e : ℤ) - 149 ≤ Fp.expo c → |realValue c| < 2 ^ 23 * 2 ^ ((e : ℤ) - 149) := by
    intro hc
    rw [Fp.abs_realValue]
    calc (Fp.sig c : ℚ) * 2 ^ Fp.expo c < 2 ^ 24 * 2 ^ Fp.expo c := by
          gcongr; exact_mod_cast Fp.sig_lt c
      _ = 2 ^ 23 * 2 ^ (Fp.expo c + 1) := by rw [zpow_add₀ (by norm_num)]; ring
      _ ≤ 2 ^ 23 * 2 ^ ((e : ℤ) - 149) := by gcongr <;> [norm_num; omega]
  have hexp : ¬ (e : ℤ) - 149 ≤ Fp.expo c → e ≠ 0 := by
    have := Fp.expo_ge c
    omega
  have hu : (0 : ℚ) < 2 ^ ((e : ℤ) - 149) := by positivity
  generalize (2 : ℚ) ^ ((e : ℤ) - 149) = u at *
  have dist (y : ℚ) : |y * u - v| = |y - v / u| * u := by
    rw [← abs_of_pos hu, ← abs_mul, abs_of_pos hu, sub_mul, div_mul_cancel₀ v hu.ne']
  by_cases hc : (e : ℤ) - 149 ≤ Fp.expo c
  · obtain ⟨hle, heq⟩ := hrne.nearest (Fp.scaled c ((e : ℤ) - 149))
    rw [← hscaled hc, dist, dist]
    refine ⟨by gcongr, fun g => (heq (mul_right_cancel₀ hu.ne' g)).imp (congrArg (· * u)) fun g => by omega⟩
  · have hlow : 2 ^ 23 ≤ v / u := hge.resolve_left (hexp hc)
    have hcu : realValue c / u < 2 ^ 23 := (div_lt_iff₀ hu).mpr ((le_abs_self _).trans_lt (hfine hc))
    have hlt : |(mant : ℚ) * u - v| < |realValue c - v| := by
      rw [dist, ← div_mul_cancel₀ (realValue c) hu.ne', dist]
      gcongr
      exact hrne.nearer (k := 2 ^ 23) (by exact_mod_cast hlow) (by exact_mod_cast hcu)
    exact ⟨hlt.le, fun g => absurd g hlt.ne⟩

/-! ### Overflow -/

/-- The least magnitude that rounds to an infinity: halfway between the largest finite value and `2 ^ 128`. -/
theorem RoundsTo.overflow_threshold : RoundsTo (2 ^ 128 - 2 ^ 103) 0x7F800000 :=
  ⟨253, 2 ^ 24, by norm_num, by unfold IsRne; norm_num, by norm_num, .inr (by norm_num)⟩

theorem RoundsTo.overflow_iff {v : ℚ} {n : ℕ} (h : RoundsTo v n) : 0x7F800000 ≤ n ↔ 2 ^ 128 - 2 ^ 103 ≤ v := by
  refine ⟨fun hn => ?_, RoundsTo.overflow_threshold.mono h⟩
  obtain ⟨e, mant, rfl, hrne, hlt, hge⟩ := h
  have hm : mant ≤ 2 ^ 24 := hrne.le_of_le (by exact_mod_cast hlt.le)
  have hu : (0 : ℚ) < 2 ^ ((e : ℤ) - 149) := by positivity
  rcases lt_trichotomy e 253 with he | rfl | he
  · omega
  · have hm : mant = 2 ^ 24 := by omega
    have hlo := hrne.1
    rw [hm, le_div_iff₀ hu] at hlo
    norm_num at hlo ⊢
    exact hlo
  · have hlo := hge.resolve_left (by omega)
    rw [le_div_iff₀ hu] at hlo
    have hpow : (2 : ℚ) ^ (105 : ℤ) ≤ 2 ^ ((e : ℤ) - 149) := zpow_le_zpow_right₀ (by norm_num) (by omega)
    norm_num at hpow hlo ⊢
    linarith

/-! ### `Rounded` is `RoundsToEven` -/

theorem Rounded.finite_iff {v : ℚ} {r : F32} (h : Rounded v r) :
    Fp.finite r = true ↔ |v| < 2 ^ 128 - 2 ^ 103 := by
  obtain ⟨-, n, hn, hr⟩ := h
  have hover := not_congr hn.overflow_iff
  rw [not_le, not_le] at hover
  rw [Fp.finite_iff_rank, ← hover]
  omega

/-- A finite result is nearest, and even in a tie; for a value below 0, by changing all signs. -/
theorem Rounded.nearest {v : ℚ} {r : F32} (h : Rounded v r) (hf : Fp.finite r = true) (c : F32) :
    |realValue r - v| ≤ |realValue c - v| ∧
      (|realValue r - v| = |realValue c - v| → realValue c = realValue r ∨ r.getLsbD 0 = false) := by
  obtain ⟨-, n, hn, ⟨hv, hr⟩ | ⟨hv, hr⟩⟩ := h <;> rw [Fp.finite_iff_rank] at hf <;> rw [Fp.lsb_eq_false_iff]
  · rw [abs_of_nonneg hv] at hn
    refine (hn.nearest (r := r) (by omega) c).imp_right fun g heq => (g heq).imp_right ?_
    omega
  · rw [abs_of_nonpos hv] at hn
    have hnear := hn.nearest (r := Fp.neg r) (by rw [Fp.rank_neg]; omega) (Fp.neg c)
    have flip (x : F32) : |realValue (Fp.neg x) - -v| = |realValue x - v| := by
      rw [Fp.realValue_neg, ← neg_sub', abs_neg]
    rw [flip, flip, Fp.realValue_neg, Fp.realValue_neg, neg_inj] at hnear
    refine hnear.imp_right fun g heq => (g heq).imp_right ?_
    omega

theorem Rounded.eq_infinity {v : ℚ} {r : F32} (h : Rounded v r) (hv : ¬ |v| < 2 ^ 128 - 2 ^ 103) :
    r = if 0 < v then 0x7F800000 else 0xFF800000 := by
  obtain ⟨-, n, hn, hr⟩ := h
  have hover := hn.overflow_iff.mpr (not_lt.mp hv)
  have hne : v ≠ 0 := by rintro rfl; norm_num at hv
  have hp : Fp.rank 0x7F800000 = 0x7F800000 := by decide
  have hm : Fp.rank 0xFF800000 = -0x7F800000 := by decide
  rcases hr with ⟨h0, hr⟩ | ⟨h0, hr⟩
  · rw [if_pos (lt_of_le_of_ne h0 hne.symm)]
    exact Fp.eq_of_rank_eq (by omega) (by omega)
  · rw [if_neg (not_lt.mpr h0)]
    exact Fp.eq_of_rank_eq (by omega) (by omega)

theorem Rounded.roundsToEven {v : ℚ} {r : F32} (h : Rounded v r) : RoundsToEven v r := by
  unfold RoundsToEven
  split
  · next hv =>
    have hf := h.finite_iff.mpr (by exact_mod_cast hv)
    exact ⟨hf, fun c _ => by exact_mod_cast h.nearest hf c⟩
  · next hv => exact_mod_cast h.eq_infinity (by exact_mod_cast hv)


end Sys2Proof

/-! PROOFS. Square roots, comparisons and helpers, and that the arithmetic of the model is the exact value rounded to
nearest, ties to even (00_scope.md R5, R7, R9). -/

namespace Sys2Proof

open Machine (realValue RoundsToEven)

/-! ### A value between two that round alike -/

/-- Which of two points is nearer is a linear condition: it holds between two points where it holds, and where it is an
equality strictly between them, it is one at both. -/
theorem abs_sub_le_between {r c x v y : ℝ} (hxv : x < v) (hvy : v < y) (hx : |r - x| ≤ |c - x|)
    (hy : |r - y| ≤ |c - y|) : |r - v| ≤ |c - v| ∧ (|r - v| = |c - v| → |r - x| = |c - x|) := by
  rw [← sq_le_sq] at hx hy ⊢
  rw [← sq_eq_sq_iff_abs_eq_abs, ← sq_eq_sq_iff_abs_eq_abs]
  have hline : (y - x) * ((c - v) ^ 2 - (r - v) ^ 2) =
      (y - v) * ((c - x) ^ 2 - (r - x) ^ 2) + (v - x) * ((c - y) ^ 2 - (r - y) ^ 2) := by ring
  have h1 : 0 ≤ (y - v) * ((c - x) ^ 2 - (r - x) ^ 2) := mul_nonneg (by linarith) (by linarith)
  have h2 : 0 ≤ (v - x) * ((c - y) ^ 2 - (r - y) ^ 2) := mul_nonneg (by linarith) (by linarith)
  refine ⟨?_, fun heq => ?_⟩
  · exact sub_nonneg.mp <| (mul_nonneg_iff_of_pos_left (show 0 < y - x by linarith)).mp <| by
      rw [hline]; exact add_nonneg h1 h2
  · have hzero : (y - v) * ((c - x) ^ 2 - (r - x) ^ 2) = 0 := by
      rw [heq, sub_self, mul_zero] at hline; linarith
    have := (mul_eq_zero.mp hzero).resolve_left (by linarith)
    linarith

/-- A finite result says that the exact value is below the overflow threshold and that nothing is nearer. -/
theorem roundsToEven_of_finite_iff {v : ℝ} {r : F32} (hf : Fp.finite r = true) :
    RoundsToEven v r ↔ |v| < 2 ^ 128 - 2 ^ 103 ∧ ∀ c, Fp.finite c = true →
      |(realValue r : ℝ) - v| ≤ |(realValue c : ℝ) - v| ∧
      (|(realValue r : ℝ) - v| = |(realValue c : ℝ) - v| → realValue c = realValue r ∨ r.getLsbD 0 = false) := by
  unfold RoundsToEven
  split
  · next hv => simp only [hf, hv, true_and]
  · next hv =>
    refine iff_of_false (fun h => ?_) fun h => hv h.1
    rw [h] at hf
    split at hf <;> exact absurd hf (by decide)

/-- An infinite result is that of the sign of an exact value from the overflow threshold up. -/
theorem roundsToEven_of_not_finite_iff {v : ℝ} {r : F32} (hf : ¬ Fp.finite r = true) :
    RoundsToEven v r ↔ (2 ^ 128 - 2 ^ 103 ≤ v ∧ r = 0x7F800000) ∨ (v ≤ -(2 ^ 128 - 2 ^ 103) ∧ r = 0xFF800000) := by
  unfold RoundsToEven
  split
  · next hv =>
    rw [abs_lt] at hv
    exact iff_of_false (fun h => hf h.1) (by rintro (⟨h, -⟩ | ⟨h, -⟩) <;> linarith)
  · next hv =>
    rw [not_lt, le_abs'] at hv
    split
    · exact ⟨fun h => .inl ⟨hv.resolve_left (by norm_num; linarith), h⟩,
        by rintro (⟨-, h⟩ | ⟨h, -⟩) <;> [exact h; (norm_num at h; linarith)]⟩
    · exact ⟨fun h => .inr ⟨hv.resolve_right (by norm_num; linarith), h⟩,
        by rintro (⟨h, -⟩ | ⟨-, h⟩) <;> [(norm_num at h; linarith); exact h]⟩

/-- What is below and above a value and rounds to one result makes the value round to it. -/
theorem roundsToEven_between {x v y : ℝ} {r : F32} (hx : RoundsToEven x r) (hy : RoundsToEven y r) (hxv : x < v)
    (hvy : v < y) : RoundsToEven v r := by
  by_cases hf : Fp.finite r = true
  · rw [roundsToEven_of_finite_iff hf] at hx hy ⊢
    obtain ⟨hxb, hx⟩ := hx
    obtain ⟨hyb, hy⟩ := hy
    rw [abs_lt] at hxb hyb
    refine ⟨abs_lt.mpr ⟨by linarith, by linarith⟩, fun c hc => ?_⟩
    obtain ⟨hle, heq⟩ := abs_sub_le_between hxv hvy (hx c hc).1 (hy c hc).1
    exact ⟨hle, fun g => (hx c hc).2 (heq g)⟩
  · rw [roundsToEven_of_not_finite_iff hf] at hx hy ⊢
    rcases hx with ⟨hx, hr⟩ | ⟨hx, hr⟩
    · exact .inl ⟨by linarith, hr⟩
    · have hne : ¬ r = 0x7F800000 := by rw [hr]; decide
      have hy := (hy.resolve_left fun h => hne h.2).1
      exact .inr ⟨by linarith, hr⟩

/-! ### Square roots -/

/-- One bit of the root at a time: the root stays below or at the bits found, and above them it is less than the bits
still to come. -/
theorem Fp.isqrtBits_spec (m : ℕ) : ∀ n root : ℕ, root * root ≤ m → m < (root + 2 ^ n) * (root + 2 ^ n) →
    Fp.isqrtBits m n root * Fp.isqrtBits m n root ≤ m ∧
      m < (Fp.isqrtBits m n root + 1) * (Fp.isqrtBits m n root + 1) := by
  intro n
  induction n with
  | zero => exact fun root hlo hhi => ⟨hlo, hhi⟩
  | succ n ih =>
    intro root hlo hhi
    simp only [Fp.isqrtBits]
    split
    · next h => exact ih _ h (by rw [add_assoc, ← two_mul, ← pow_succ']; exact hhi)
    · next h => exact ih _ hlo (not_le.mp h)

theorem Fp.isqrt_spec {m : ℕ} (h : m < 2 ^ 80) :
    Fp.isqrt m * Fp.isqrt m ≤ m ∧ m < (Fp.isqrt m + 1) * (Fp.isqrt m + 1) :=
  Fp.isqrtBits_spec m 40 0 (Nat.zero_le m) (by omega)

/-- With enough bits, a rational strictly between an odd number's neighbours rounds as the odd number. -/
theorem Fp.roundPack_sticky {m : ℕ} (hm : 2 ^ 26 ≤ m) (hodd : m % 2 = 1) (q : ℤ) {x : ℚ} (h1 : (m : ℚ) - 1 < x)
    (h2 : x < m + 1) : Rounded (x * 2 ^ q) (Fp.roundPack false m q) := by
  have hpos : (2 : ℚ) ^ 26 ≤ m := by exact_mod_cast hm
  have h0 : 0 ≤ x * 2 ^ q := mul_nonneg (by linarith) (by positivity)
  have hr := Fp.packed_sticky hm hodd q h1 h2
  rw [Fp.roundPack_eq false (by omega), ← one_mul (x * 2 ^ q)]
  split
  · exact Rounded.of_magnitude hr h0 (by omega)
  · exact Rounded.of_magnitude hr h0 (by omega)

/-- So does a real number, which lies between two such rationals. -/
theorem Fp.roundPack_sticky_real {m : ℕ} (hm : 2 ^ 26 ≤ m) (hodd : m % 2 = 1) (q : ℤ) {w : ℝ}
    (h1 : (m : ℝ) - 1 < w) (h2 : w < m + 1) :
    RoundsToEven (w * 2 ^ q) (Fp.roundPack false m q) := by
  obtain ⟨x, hx1, hx2⟩ := exists_rat_btwn h1
  obtain ⟨y, hy1, hy2⟩ := exists_rat_btwn h2
  have hround (z : ℚ) (g1 : (m : ℝ) - 1 < z) (g2 : (z : ℝ) < m + 1) :
      RoundsToEven (z * 2 ^ q) (Fp.roundPack false m q) := by
    have := (Fp.roundPack_sticky hm hodd q (x := z) (by exact_mod_cast g1) (by exact_mod_cast g2)).roundsToEven
    push_cast at this
    exact this
  have hq : (0 : ℝ) < 2 ^ q := by positivity
  exact roundsToEven_between (hround x hx1 (hx2.trans h2)) (hround y (h1.trans hy1) hy2) (by gcongr) (by gcongr)

/-- The root of `m` in units of `2 ^ h`: exact when `m` is a square, and with a sticky bit below its integer part when
not. -/
theorem Fp.roundPack_root {m : ℕ} (hlow : 2 ^ 54 ≤ m) (hhigh : m < 2 ^ 80) (h : ℤ) :
    RoundsToEven (Real.sqrt m * 2 ^ h)
      (Fp.roundPack false (2 * Fp.isqrt m + if Fp.isqrt m * Fp.isqrt m = m then 0 else 1) (h - 1)) := by
  obtain ⟨hlo, hhi⟩ := Fp.isqrt_spec hhigh
  generalize Fp.isqrt m = r at *
  have hunit (w : ℝ) : w * 2 ^ h = 2 * w * 2 ^ (h - 1) := by
    rw [zpow_sub_one₀ (by norm_num)]; ring
  rw [hunit]
  split
  · next hsq =>
    have hroot : Real.sqrt m = r := by
      rw [← hsq, Nat.cast_mul, Real.sqrt_mul_self (Nat.cast_nonneg r)]
    have := (Fp.roundPack_rounded false (2 * r + 0) (h - 1)).roundsToEven
    simp only [signFactor] at this
    push_cast at this
    rw [hroot]
    simpa using this
  · next hsq =>
    have hr : 2 ^ 26 ≤ 2 * r + 1 := by nlinarith
    have hlo' : (r : ℝ) < Real.sqrt m :=
      Real.lt_sqrt_of_sq_lt (by rw [sq]; exact_mod_cast lt_of_le_of_ne hlo hsq)
    have hhi' : Real.sqrt m < r + 1 :=
      (Real.sqrt_lt' (by positivity)).mpr (by rw [sq]; exact_mod_cast hhi)
    exact Fp.roundPack_sticky_real hr (by omega) (h - 1) (by push_cast; linarith) (by push_cast; linarith)

/-! ### Signs and zeros of exact values -/

theorem Fp.realValue_eq_zero_iff (x : F32) : realValue x = 0 ↔ Fp.isZero x = true := by
  refine ⟨fun h => ?_, fun h => ?_⟩
  · by_contra hz
    have hsig := Fp.sig_ne_zero (Bool.eq_false_iff.mpr hz)
    rw [← abs_eq_zero, Fp.abs_realValue] at h
    have : (0 : ℚ) < Fp.sig x * 2 ^ Fp.expo x := by
      have : (0 : ℚ) < Fp.sig x := by exact_mod_cast Nat.pos_of_ne_zero hsig
      positivity
    linarith
  · rw [Fp.realValue_eq_of_rank (b := Fp.zero) (by rw [Fp.rank_of_isZero h]; rfl), Fp.realValue_zero]

theorem Fp.sign_of_realValue_pos {x : F32} (h : 0 < realValue x) : Fp.sign x = false := by
  have hm : (0 : ℚ) ≤ Fp.sig x * 2 ^ Fp.expo x := by positivity
  rw [Fp.realValue_eq] at h
  cases hs : Fp.sign x with
  | false => rfl
  | true =>
    rw [hs, signFactor, if_pos rfl] at h
    linarith

/-- `sqrt` of a positive finite value: the shift makes the exponent even, and the root is taken of the significand. -/
theorem Fp.sqrt_of_pos {a : F32} (ha : Fp.finite a = true) (hz : Fp.isZero a = false) (hs : Fp.sign a = false) :
    ∃ (k : ℕ) (h : ℤ), 54 ≤ k ∧ k ≤ 55 ∧ Fp.expo a = k + 2 * h ∧
      Fp.sqrt a = Fp.roundPack false (2 * Fp.isqrt (Fp.sig a * 2 ^ k) +
        if Fp.isqrt (Fp.sig a * 2 ^ k) * Fp.isqrt (Fp.sig a * 2 ^ k) = Fp.sig a * 2 ^ k then 0 else 1) (h - 1) := by
  refine ⟨if Fp.expo a % 2 = 0 then 54 else 55, (Fp.expo a - (if Fp.expo a % 2 = 0 then 54 else 55 : ℕ)) / 2,
    by split <;> omega, by split <;> omega, by split <;> omega, ?_⟩
  simp only [Fp.sqrt, Fp.isNaN_of_finite ha, Fp.isInf_of_finite ha, hz, hs, Bool.false_eq_true, if_false]

theorem Fp.sqrt_roundsToEven {a : F32} (ha : Fp.finite a = true) (h0 : 0 ≤ realValue a) :
    RoundsToEven (Real.sqrt (realValue a)) (Fp.sqrt a) := by
  cases hz : Fp.isZero a with
  | true =>
    have hself := (Fp.rounded_self ha).roundsToEven
    rw [Fp.sqrt, Fp.isNaN_of_finite ha, if_neg (by decide), hz, if_pos rfl]
    rw [(Fp.realValue_eq_zero_iff a).mpr hz] at hself ⊢
    rwa [Rat.cast_zero, Real.sqrt_zero, ← Rat.cast_zero]
  | false =>
    have hne : realValue a ≠ 0 := fun h => by simp [(Fp.realValue_eq_zero_iff a).mp h] at hz
    have hs := Fp.sign_of_realValue_pos (lt_of_le_of_ne h0 hne.symm)
    obtain ⟨k, h, hk, hk', hexp, hsqrt⟩ := Fp.sqrt_of_pos ha hz hs
    have hpos : 1 ≤ Fp.sig a := Nat.pos_of_ne_zero (Fp.sig_ne_zero hz)
    have hlow : 2 ^ 54 ≤ Fp.sig a * 2 ^ k :=
      (Nat.pow_le_pow_right (by decide) hk).trans (Nat.le_mul_of_pos_left _ hpos)
    have hhigh : Fp.sig a * 2 ^ k < 2 ^ 80 :=
      calc Fp.sig a * 2 ^ k < 2 ^ 24 * 2 ^ k := Nat.mul_lt_mul_of_pos_right (Fp.sig_lt a) (by positivity)
        _ ≤ 2 ^ 24 * 2 ^ 55 := Nat.mul_le_mul_left _ (Nat.pow_le_pow_right (by decide) hk')
        _ < 2 ^ 80 := by decide
    have hval : ((realValue a : ℚ) : ℝ) = ((Fp.sig a * 2 ^ k : ℕ) : ℝ) * (2 ^ h) ^ 2 := by
      have hsq : ((2 : ℝ) ^ h) ^ 2 = 2 ^ (2 * h) := by rw [← zpow_natCast, ← zpow_mul, mul_comm]; rfl
      rw [Fp.realValue_eq, hs, hexp, hsq, zpow_add₀ (by norm_num)]
      simp only [signFactor]
      push_cast
      simp [mul_assoc]
    rw [hval, Real.sqrt_mul (by positivity), Real.sqrt_sq (by positivity), hsqrt]
    exact Fp.roundPack_root hlow hhigh h

/-! ### Comparisons -/

theorem Fp.le_iff_realValue {a b : F32} (ha : Fp.finite a = true) (hb : Fp.finite b = true) :
    Fp.le a b = true ↔ realValue a ≤ realValue b :=
  ⟨Fp.realValue_le ha hb, Fp.le_of_realValue ha hb⟩

theorem Fp.rank_le_iff_realValue {a b : F32} (ha : Fp.finite a = true) (hb : Fp.finite b = true) :
    Fp.rank a ≤ Fp.rank b ↔ realValue a ≤ realValue b := by
  rw [← Fp.le_iff_realValue ha hb, Fp.le_iff]
  simp [Fp.isNaN_of_finite ha, Fp.isNaN_of_finite hb]

theorem Fp.lt_iff_realValue {a b : F32} (ha : Fp.finite a = true) (hb : Fp.finite b = true) :
    Fp.lt a b = true ↔ realValue a < realValue b := by
  rw [Fp.lt_iff, ← not_le, Fp.rank_le_iff_realValue hb ha, not_le]
  simp [Fp.isNaN_of_finite ha, Fp.isNaN_of_finite hb]

theorem Fp.eq_iff_realValue {a b : F32} (ha : Fp.finite a = true) (hb : Fp.finite b = true) :
    Fp.eq a b = true ↔ realValue a = realValue b := by
  rw [le_antisymm_iff (a := realValue a), ← Fp.rank_le_iff_realValue ha hb, ← Fp.rank_le_iff_realValue hb ha, ← le_antisymm_iff]
  simp [Fp.eq, Fp.isNaN_of_finite ha, Fp.isNaN_of_finite hb]

theorem Fp.lt_zero_iff_realValue {a : F32} (ha : Fp.finite a = true) : Fp.lt Fp.zero a = true ↔ 0 < realValue a := by
  rw [Fp.lt_iff_realValue Fp.finite_zero ha, Fp.realValue_zero]

/-- No comparison with a NaN holds. -/
theorem Fp.compare_nan {a : F32} (ha : Fp.isNaN a = true) (b : F32) :
    Fp.lt a b = false ∧ Fp.lt b a = false ∧ Fp.le a b = false ∧ Fp.le b a = false ∧ Fp.eq a b = false ∧
      Fp.eq b a = false := by
  simp [Fp.lt, Fp.le, Fp.eq, ha]

/-! ### `floor` -/

theorem Fp.floorInt_eq {a : F32} (ha : Fp.finite a = true) : Fp.floorInt a = ⌊realValue a⌋ := by
  rw [Fp.floorInt, if_pos ha]
  split
  · next he =>
    rw [← Fp.scaled_value a he, zpow_zero, mul_one, Int.floor_intCast]
  · next he =>
    have hexp : Fp.expo a = -(((-Fp.expo a).toNat : ℕ) : ℤ) := by omega
    have hval : realValue a = ((if Fp.sign a then -(Fp.sig a : ℤ) else Fp.sig a : ℤ) : ℚ) /
        ((2 ^ (-Fp.expo a).toNat : ℕ) : ℚ) := by
      rw [Fp.realValue_eq]
      nth_rw 1 [hexp]
      rw [zpow_neg, zpow_natCast, ← div_eq_mul_inv]
      cases Fp.sign a <;> simp [signFactor, neg_div]
    rw [hval, Rat.floor_intCast_div_natCast]

/-! ### The parts of the statement -/

/-- The four operations on finite values are the exact ones rounded. -/
theorem Fp.arithmetic_roundsToEven {a b : F32} (ha : Fp.finite a = true) (hb : Fp.finite b = true) :
    RoundsToEven (realValue a + realValue b) (Fp.add a b) ∧
    RoundsToEven (realValue a - realValue b) (Fp.sub a b) ∧
    RoundsToEven (realValue a * realValue b) (Fp.mul a b) ∧
    (realValue b ≠ 0 → RoundsToEven (realValue a / realValue b) (Fp.div a b)) := by
  have hadd := (Fp.add_rounded ha hb).roundsToEven
  have hsub := (Fp.sub_rounded ha hb).roundsToEven
  have hmul := (Fp.mul_rounded ha hb).roundsToEven
  have hdiv (h : realValue b ≠ 0) := (Fp.div_rounded ha hb
    (Bool.eq_false_iff.mpr fun hz => h ((Fp.realValue_eq_zero_iff b).mpr hz))).roundsToEven
  push_cast at hadd hsub hmul hdiv
  exact ⟨hadd, hsub, hmul, hdiv⟩

theorem Fp.dec_of_finite {a : F32} (ha : Fp.finite a = true) :
    Fp.dec a = if 0 < realValue a then 0x3F800000 else 0xBF800000 := by
  simp only [Fp.dec, Fp.lt_zero_iff_realValue ha]; rfl

/-- A NaN compares with nothing, so it decides as a value not above 0. -/
theorem Fp.helpers_nan {a : F32} (ha : Fp.isNaN a = true) :
    Fp.dec a = 0xBF800000 ∧ Fp.bit a = false ∧ Fp.fin0 a = 0 := by
  have hlt := (Fp.compare_nan ha Fp.zero).2.1
  have hf : Fp.finite a = false := by rw [Fp.finite_eq, ha]; rfl
  refine ⟨?_, hlt, ?_⟩
  · rw [Fp.dec, hlt]; rfl
  · rw [Fp.fin0, hf]; rfl

/-- The classes by the fields of R104. -/
theorem Fp.finite_iff_field (a : F32) : Fp.finite a = true ↔ a.extractLsb' 23 8 ≠ 0xFF := by
  rw [Fp.finite, bne_iff_ne, Fp.expField, ne_eq, ne_eq, ← BitVec.toNat_inj]; rfl

theorem Fp.isNaN_iff_fields (a : F32) :
    Fp.isNaN a = true ↔ a.extractLsb' 23 8 = 0xFF ∧ a.extractLsb' 0 23 ≠ 0 := by
  rw [Fp.isNaN, Bool.and_eq_true, beq_iff_eq, bne_iff_ne, Fp.expField, Fp.fracField, ne_eq, ne_eq,
    ← BitVec.toNat_inj, ← BitVec.toNat_inj]; rfl

/-- Settles O57: each operation is `Rounded`, which is `RoundsToEven`; the square root lies between rationals that round
alike; comparisons go by rank, which orders the exact values. -/
theorem sumsAndProductsAreNearest : Obligations.SumsAndProductsAreNearest := by
  refine ⟨fun a b c ha hb _ => ⟨fun hf => ((Fp.add_rounded ha hb).nearest hf c).1,
      fun hf => ((Fp.mul_rounded ha hb).nearest hf c).1⟩,
    fun a b ha hb => ?_, fun a b ha => ?_,
    fun a b lo hi => ⟨Fp.finite_iff_field a, Fp.isNaN_iff_fields a, rfl, rfl, rfl, rfl, rfl, rfl, rfl, rfl⟩,
    fun n => ?_, by decide, by decide, by decide, by decide⟩
  · obtain ⟨hadd, hsub, hmul, hdiv⟩ := Fp.arithmetic_roundsToEven ha hb
    exact ⟨hadd, hsub, hmul, hdiv, Fp.sqrt_roundsToEven ha, Fp.lt_iff_realValue ha hb, Fp.le_iff_realValue ha hb,
      Fp.eq_iff_realValue ha hb, Fp.floorInt_eq ha, Fp.fin0_of_finite ha, Fp.dec_of_finite ha,
      Fp.lt_zero_iff_realValue ha⟩
  · obtain ⟨h1, h2, h3, h4, h5, h6⟩ := Fp.compare_nan ha b
    exact ⟨h1, h2, h3, h4, h5, h6, Fp.helpers_nan ha⟩
  · simpa using (Fp.ofInt_rounded n).roundsToEven

end Sys2Proof

/-! PROOFS. What one step can do to the units' configurations, the partial byte and the deframer, said once as a relation
(`Moves`); the configuration and the datapath invariant follow by induction on it. -/

namespace Sys2Proof.Machine

/-! ### What the invariants read -/

/-- `s` with everything that the configuration invariant does not read at its reset value: the active values, derived values
and statuses are left. -/
def configPart (s : State) : State :=
  { State.reset with
    agc.cfg := s.agc.cfg, agc.gainMin := s.agc.gainMin, agc.status := s.agc.status
    costas.cfg := s.costas.cfg, costas.status := s.costas.status
    pll.cfg := s.pll.cfg, pll.derived := s.pll.derived, pll.status := s.pll.status
    rrc.cfg := s.rrc.cfg, rrc.status := s.rrc.status
    mm.cfg := s.mm.cfg, mm.derived := s.mm.derived, mm.status := s.mm.status
    snr.cfg := s.snr.cfg, snr.oneMAlpha := s.snr.oneMAlpha, snr.status := s.snr.status
    slicer.cfg := s.slicer.cfg, slicer.status := s.slicer.status
    repacker.cfg := s.repacker.cfg, repacker.status := s.repacker.status
    deframer.cfg := s.deframer.cfg, deframer.asm := s.deframer.asm, deframer.status := s.deframer.status }

/-- `configPart` with the two datapaths that the datapath invariant reads besides. -/
def datapathPart (s : State) : State :=
  { configPart s with repacker.data := s.repacker.data, deframer.data := s.deframer.data }

theorem configPart_datapathPart (s : State) : configPart (datapathPart s) = configPart s := rfl

theorem configPart_congr {s t : State} (h : datapathPart t = datapathPart s) : configPart t = configPart s := by
  rw [← configPart_datapathPart t, h, configPart_datapathPart]

theorem configInv_configPart (s : State) : ConfigInv (configPart s) ↔ ConfigInv s := by
  have hstatus (u : UnitId) : statusOf u (configPart s) = statusOf u s := by cases u <;> rfl
  simp only [ConfigInv, hstatus]
  exact Iff.rfl

theorem configInv_congr {s t : State} (h : configPart t = configPart s) (hs : ConfigInv s) : ConfigInv t :=
  (configInv_configPart t).mp (h ▸ (configInv_configPart s).mpr hs)

theorem datapathInv_datapathPart (s : State) : DatapathInv (datapathPart s) ↔ DatapathInv s :=
  and_congr_left fun _ => (configInv_configPart (datapathPart s)).symm.trans (configInv_configPart s)

theorem datapathInv_congr {s t : State} (h : datapathPart t = datapathPart s) (hs : DatapathInv s) : DatapathInv t :=
  (datapathInv_datapathPart t).mp (h ▸ (datapathInv_datapathPart s).mpr hs)

/-! ### What one step can do -/

/-- `t` comes from `s` by `COMMIT`s and `SRESET`s of units, bits taken by the repacker and the deframer, the reset state, and
changes that `datapathPart` does not see. -/
inductive Moves : State → State → Prop where
  | keep {s t : State} (h : datapathPart t = datapathPart s) : Moves s t
  | commit (u : UnitId) (s : State) : Moves s (commitUnit u s)
  | sreset (u : UnitId) (s : State) : Moves s (resetUnit u s)
  | repack (b : Bool) (s : State) : Moves s (repackTake b s)
  | deframe (bits : List Bool) (s : State) : Moves s (deframeTake bits s)
  | reset (s : State) : Moves s State.reset
  | trans {s t u : State} (h : Moves s t) (k : Moves t u) : Moves s u

theorem Moves.refl (s : State) : Moves s s := .keep rfl

/-- A change `datapathPart` does not see, before a move. -/
theorem Moves.after {s s' t : State} (h : Moves s' t) (k : datapathPart s' = datapathPart s) : Moves s t :=
  .trans (.keep k) h

theorem Moves.ite (b : Bool) {s t : State} (h : Moves s t) : Moves s (if b then t else s) := by
  cases b
  · exact .refl s
  · exact h

theorem Moves.foldl {f : UnitId → State → State} (h : ∀ u s, Moves s (f u s)) (us : List UnitId) (s : State) :
    Moves s (us.foldl (fun t u => f u t) s) := by
  induction us generalizing s with
  | nil => exact .refl s
  | cons u us ih => exact .trans (h u s) (ih (f u s))

/-! The shared operations -/

theorem moves_commitEvery (s : State) : Moves s (commitEvery s) := .foldl .commit _ s

theorem moves_newSession (s : State) : Moves s (newSession s) := (Moves.foldl .sreset _ _).after rfl

theorem moves_respond {s t : State} (r : Response) (h : Moves s t) : Moves s (respond r t) := .trans h (.keep rfl)

theorem datapathPart_takeLine (s : State) : datapathPart (takeLine s) = datapathPart s := by
  obtain h | ⟨l, more, -, -, h⟩ := takeLine_cases s
  · rw [h]
  · rw [h]; rfl

theorem datapathPart_writeShadow (r : Reg) (v : Word) (s : State) :
    datapathPart (writeShadow r v s) = datapathPart s := by
  cases r <;> rfl

theorem datapathPart_mmTake (x : Cplx) (s : State) : datapathPart (mmTake x s) = datapathPart s := by
  have hemit (p : Cplx) (t : State) : datapathPart (mmEmit p t) = datapathPart t := by
    simp only [mmEmit]
    split <;> rfl
  simp only [mmTake]
  split
  · rfl
  · rw [hemit]; rfl

theorem moves_ctrlActions (u : UnitId) (v : Word) (s : State) : Moves s (ctrlActions u v s) := by
  simp only [ctrlActions]
  split
  · exact .commit u s
  · exact .ite _ (.sreset u s)

theorem moves_gCtrlActions (v : Word) (s : State) : Moves s (gCtrlActions v s) :=
  have habort : Moves s (actionIf (v.getLsbD 3) abortAll s) := .ite _ (.keep rfl)
  have hsreset := habort.trans (.ite (v.getLsbD 1) (moves_newSession _))
  have hcommit := hsreset.trans (.ite (v.getLsbD 0) (moves_commitEvery _))
  hcommit.trans (.ite (v.getLsbD 2) (.keep rfl))

theorem moves_writeReg (r : Reg) (v : Word) (s : State) : Moves s (writeReg r v s) := by
  simp only [writeReg]
  split
  · exact moves_gCtrlActions v s
  · exact moves_ctrlActions _ v s
  · exact .keep (datapathPart_writeShadow r v s)

/-! The operations -/

/-- An operation's move from its equation in `Laws/Exec`. -/
theorem moves_of_exec_eq {i : Instr} {s t u : State} (e : exec i s = .next u) (m : Moves s u)
    (h : exec i s = .next t) : Moves s t := by
  rw [e] at h
  cases h
  exact m

theorem moves_regRead {a : Half} {s t : State} : exec (.regRead a) s = .next t → Moves s t :=
  moves_of_exec_eq (exec_regRead a s) (by split <;> exact .keep rfl)

theorem moves_regWrite {a : Half} {v : Word} {s t : State} : exec (.regWrite a v) s = .next t → Moves s t := by
  refine moves_of_exec_eq (exec_regWrite a v s) ?_
  split
  · exact .keep rfl
  · next r _ =>
    split
    · exact .keep rfl
    · exact moves_respond .ok (moves_writeReg r v s)

theorem moves_srcPush {x : Cplx} {s t : State} : exec (.srcPush x) s = .next t → Moves s t := by
  refine moves_of_exec_eq (exec_srcPush x s) ?_
  split
  · exact .keep rfl
  · split <;> exact .keep rfl

/-- All that an operation can do to what the two invariants read. -/
theorem exec_moves {i : Instr} {s t : State} (h : exec i s = .next t) : Moves s t := by
  cases i with
  | regRead a => exact moves_regRead h
  | regWrite a v => exact moves_regWrite h
  | srcPush x => exact moves_srcPush h
  | framePop => obtain ⟨f, fs, -, rfl⟩ | ⟨-, -, rfl⟩ | ⟨-, -, rfl⟩ := exec_framePop_cases h <;> exact .keep rfl
  | softPop => obtain ⟨v, vs, -, rfl⟩ | ⟨-, -, rfl⟩ | ⟨-, -, rfl⟩ := exec_softPop_cases h <;> exact .keep rfl
  | commitAll => exact moves_of_exec_eq (exec_commitAll s) (moves_commitEvery s) h
  | sresetAll => exact moves_of_exec_eq (exec_sresetAll s) (moves_newSession s) h
  | stop => exact moves_of_exec_eq (exec_stop s) (.keep rfl) h
  | abort => exact moves_of_exec_eq (exec_abort s) (.keep rfl) h
  | agcStep => obtain ⟨-, rfl⟩ | ⟨x, xs, -, -, rfl⟩ := exec_agcStep_cases h <;> exact .keep rfl
  | costasStep => obtain ⟨-, rfl⟩ | ⟨x, xs, -, -, rfl⟩ := exec_costasStep_cases h <;> exact .keep rfl
  | rrcStep => obtain ⟨-, rfl⟩ | ⟨x, xs, -, -, rfl⟩ := exec_rrcStep_cases h <;> exact .keep rfl
  | slice => obtain ⟨-, rfl⟩ | ⟨x, xs, -, -, rfl⟩ := exec_slice_cases h <;> exact .keep rfl
  | mmStep =>
    obtain ⟨-, rfl⟩ | ⟨x, xs, -, -, rfl⟩ := exec_mmStep_cases h
    · exact .refl _
    · exact .keep (datapathPart_mmTake x _)
  | repackBit =>
    obtain ⟨-, rfl⟩ | ⟨b, bs, -, -, rfl⟩ := exec_repackBit_cases h
    · exact .refl _
    · exact (Moves.repack b _).after rfl
  | deframeByte =>
    obtain ⟨-, rfl⟩ | ⟨y, ys, -, -, rfl⟩ := exec_deframeByte_cases h
    · exact .refl _
    · exact (Moves.deframe (byteBits y) _).after rfl
  | pllAdvance e => exact moves_of_exec_eq (exec_pllAdvance e s) (.ite _ (.keep rfl)) h
  | snrUpdate x => exact moves_of_exec_eq (exec_snrUpdate x s) (.ite _ (.keep rfl)) h
  | deframeBit x => exact moves_of_exec_eq (exec_deframeBit x s) (.ite _ (.deframe [x] s)) h
  | commitAgc => exact moves_of_exec_eq (exec_commitAgc s) (.commit .agc s) h
  | commitCostas => exact moves_of_exec_eq (exec_commitCostas s) (.commit .costas s) h
  | commitPll => exact moves_of_exec_eq (exec_commitPll s) (.commit .pll s) h
  | commitRrc => exact moves_of_exec_eq (exec_commitRrc s) (.commit .rrc s) h
  | commitMm => exact moves_of_exec_eq (exec_commitMm s) (.commit .mm s) h
  | commitSnr => exact moves_of_exec_eq (exec_commitSnr s) (.commit .snr s) h
  | commitSlicer => exact moves_of_exec_eq (exec_commitSlicer s) (.commit .slicer s) h
  | commitRepacker => exact moves_of_exec_eq (exec_commitRepacker s) (.commit .repacker s) h
  | commitDeframer => exact moves_of_exec_eq (exec_commitDeframer s) (.commit .deframer s) h
  | sresetAgc => exact moves_of_exec_eq (exec_sresetAgc s) (.sreset .agc s) h
  | sresetCostas => exact moves_of_exec_eq (exec_sresetCostas s) (.sreset .costas s) h
  | sresetPll => exact moves_of_exec_eq (exec_sresetPll s) (.sreset .pll s) h
  | sresetRrc => exact moves_of_exec_eq (exec_sresetRrc s) (.sreset .rrc s) h
  | sresetMm => exact moves_of_exec_eq (exec_sresetMm s) (.sreset .mm s) h
  | sresetSnr => exact moves_of_exec_eq (exec_sresetSnr s) (.sreset .snr s) h
  | sresetSlicer => exact moves_of_exec_eq (exec_sresetSlicer s) (.sreset .slicer s) h
  | sresetRepacker => exact moves_of_exec_eq (exec_sresetRepacker s) (.sreset .repacker s) h
  | sresetDeframer => exact moves_of_exec_eq (exec_sresetDeframer s) (.sreset .deframer s) h
  | eosPropagateAgc => exact moves_of_exec_eq (exec_eosPropagateAgc s) (.ite _ (.keep rfl)) h
  | eosPropagateCostas => exact moves_of_exec_eq (exec_eosPropagateCostas s) (.ite _ (.keep rfl)) h
  | eosPropagateRrc => exact moves_of_exec_eq (exec_eosPropagateRrc s) (.ite _ (.keep rfl)) h
  | eosPropagateMm => exact moves_of_exec_eq (exec_eosPropagateMm s) (.ite _ (.keep rfl)) h
  | eosPropagateSlicer => exact moves_of_exec_eq (exec_eosPropagateSlicer s) (.ite _ (.keep rfl)) h
  | eosPropagateRepacker => exact moves_of_exec_eq (exec_eosPropagateRepacker s) (.ite _ (.keep rfl)) h
  | eosPropagateDeframer => exact moves_of_exec_eq (exec_eosPropagateDeframer s) (.ite _ (.keep rfl)) h

/-! The turn -/

/-- Taking a turn and recording the operation is not seen by `datapathPart`. -/
theorem datapathPart_of_fetch_run {s u : State} {i : Instr} (h : fetch s = .run i u) :
    datapathPart u = datapathPart s := by
  obtain ⟨after, -, -, rfl⟩ | ⟨a, -, rfl⟩ | ⟨ws, after, -, rfl⟩ := fetch_run_cases h
  · exact datapathPart_takeLine s
  · rfl
  · rfl

/-- A turn in which no operation is performed only passes, but for the reset input. -/
theorem moves_of_fetch_pass {s t : State} (h : fetch s = .pass t) : Moves s t := by
  simp only [fetch] at h
  split at h
  · simp only [hostTurn] at h
    split at h
    · cases h; exact .keep (datapathPart_takeLine s)
    · split at h
      · split at h
        · cases h; exact .keep rfl
        · split at h
          · cases h; exact .keep rfl
          · cases h
      · cases h; exact .keep (datapathPart_takeLine s)
  · simp only [unitTurn] at h
    split at h
    · cases h; exact .keep rfl
    · cases h
  · cases h; exact (Moves.reset s).trans (.keep rfl)
  · simp only [issueTurn] at h
    split at h <;> cases h

/-- All that a step can do to what the two invariants read. -/
theorem step_moves {s t : State} (h : step s = .next t) : Moves s t := by
  obtain ⟨i, u, hf, he⟩ | hf := step_cases h
  · exact (exec_moves he).after (datapathPart_of_fetch_run hf)
  · exact moves_of_fetch_pass hf

end Sys2Proof.Machine

/-! PROOFS. The configuration invariant, unit by unit, along the moves of a step. -/

namespace Sys2Proof.Machine

/-! ### The configuration invariant, unit by unit -/

/-- The active configuration of a unit passes its checks and, if the unit is valid, its derived values are current. -/
def UnitLegal (u : UnitId) (s : State) : Prop :=
  match u with
  | .agc => validateAgc s.agc.cfg = 0 ∧ (s.agc.status.cfgValid = true → s.agc.gainMin = deriveAgc s.agc.cfg)
  | .costas => validateCostas s.costas.cfg = 0
  | .pll => validatePll s.pll.cfg = 0 ∧ (s.pll.status.cfgValid = true → s.pll.derived = derivePll s.pll.cfg)
  | .rrc => validateRrc s.rrc.cfg = 0
  | .mm => validateMm s.mm.cfg = 0 ∧ (s.mm.status.cfgValid = true → s.mm.derived = deriveMm s.mm.cfg)
  | .snr => validateSnr s.snr.cfg = 0 ∧ (s.snr.status.cfgValid = true → s.snr.oneMAlpha = deriveSnr s.snr.cfg)
  | .slicer => validateSlicer s.slicer.cfg = 0
  | .repacker => True
  | .deframer => validateDeframer s.deframer.cfg = 0 ∧
      (s.deframer.status.cfgValid = true → s.deframer.asm = deriveDeframer s.deframer.cfg)

theorem configInv_iff (s : State) : ConfigInv s ↔ ∀ u, UnitLegal u s ∧ StatusOk u (statusOf u s) := by
  constructor
  · rintro ⟨⟨agc, costas, pll, rrc, mm, snr, slicer, deframer⟩, ⟨dAgc, dPll, dMm, dSnr, dDeframer⟩, status⟩ u
    refine ⟨?_, status u⟩
    cases u with
    | agc => exact ⟨agc, dAgc⟩
    | costas => exact costas
    | pll => exact ⟨pll, dPll⟩
    | rrc => exact rrc
    | mm => exact ⟨mm, dMm⟩
    | snr => exact ⟨snr, dSnr⟩
    | slicer => exact slicer
    | repacker => exact trivial
    | deframer => exact ⟨deframer, dDeframer⟩
  · intro h
    obtain ⟨agc, dAgc⟩ := (h .agc).1
    obtain ⟨pll, dPll⟩ := (h .pll).1
    obtain ⟨mm, dMm⟩ := (h .mm).1
    obtain ⟨snr, dSnr⟩ := (h .snr).1
    obtain ⟨deframer, dDeframer⟩ := (h .deframer).1
    exact ⟨⟨agc, (h .costas).1, pll, (h .rrc).1, mm, snr, (h .slicer).1, deframer⟩,
      ⟨dAgc, dPll, dMm, dSnr, dDeframer⟩, fun u => (h u).2⟩

/-! ### Error codes -/

/-- The code of a failing list of checks whose codes have the high nibble `n` has it too. -/
theorem firstFailing_nibble {l : List (Bool × BitVec 8)} {n : ℕ} (hl : ∀ p ∈ l, p.2.toNat / 16 = n)
    (h : firstFailing l ≠ 0) : (firstFailing l).toNat / 16 = n := by
  obtain ⟨p, hp, e⟩ := List.mem_map.mp (firstFailing_mem l h)
  rw [← e]
  exact hl p hp

/-- The high nibble of a unit's error code is the unit's number (60_exceptions.md R401). -/
theorem checkCode_nibble {u : UnitId} {s : State} (h : checkCode u s ≠ 0) :
    (checkCode u s).toNat / 16 = u.number := by
  cases u with
  | repacker => exact absurd rfl h
  | agc | costas | pll | rrc | mm | snr | slicer | deframer =>
    exact firstFailing_nibble (by simp [UnitId.number]) h

/-! ### `COMMIT` and `SRESET` -/

theorem configPart_resetUnit (u : UnitId) (s : State) : configPart (resetUnit u s) = configPart s := by
  cases u <;> rfl

/-- `COMMIT` leaves a status that R402 and R407 allow. -/
theorem statusOk_commitUnit_same (u : UnitId) (s : State) : StatusOk u (statusOf u (commitUnit u s)) := by
  rw [statusOf_commitUnit_same]
  split
  · exact rfl
  · next h => exact ⟨rfl, checkCode_nibble h⟩

/-- `COMMIT` makes the checked shadow values active and the derived values current, or leaves the unit invalid. -/
theorem unitLegal_commitUnit_same {u : UnitId} {s : State} (hs : UnitLegal u s) : UnitLegal u (commitUnit u s) := by
  obtain ⟨hc, h⟩ | ⟨-, h⟩ := commitUnit_cases u s <;> rw [h]
  · cases u with
    | agc | pll | mm | snr | deframer => exact ⟨hc, fun _ => rfl⟩
    | costas | rrc | slicer => exact hc
    | repacker => exact trivial
  · cases u with
    | agc | pll | mm | snr | deframer => exact ⟨hs.1, nofun⟩
    | costas | rrc | slicer => exact hs
    | repacker => exact trivial

theorem unitLegal_commitUnit_other {u v : UnitId} (huv : u ≠ v) {s : State} (hs : UnitLegal v s) :
    UnitLegal v (commitUnit u s) := by
  cases v with
  | agc => simpa only [UnitLegal, commitUnit_agc huv] using hs
  | costas => simpa only [UnitLegal, commitUnit_costas huv] using hs
  | pll => simpa only [UnitLegal, commitUnit_pll huv] using hs
  | rrc => simpa only [UnitLegal, commitUnit_rrc huv] using hs
  | mm => simpa only [UnitLegal, commitUnit_mm huv] using hs
  | snr => simpa only [UnitLegal, commitUnit_snr huv] using hs
  | slicer => simpa only [UnitLegal, commitUnit_slicer huv] using hs
  | repacker => exact trivial
  | deframer => simpa only [UnitLegal, commitUnit_deframer huv] using hs

theorem configInv_commitUnit (u : UnitId) {s : State} (hs : ConfigInv s) : ConfigInv (commitUnit u s) := by
  rw [configInv_iff] at hs ⊢
  intro v
  obtain ⟨hlegal, hstatus⟩ := hs v
  by_cases huv : u = v
  · subst huv
    exact ⟨unitLegal_commitUnit_same hlegal, statusOk_commitUnit_same u s⟩
  · exact ⟨unitLegal_commitUnit_other huv hlegal, by rwa [statusOf_commitUnit_other (Ne.symm huv)]⟩

/-! ### The invariant is kept -/

theorem configInv_reset : ConfigInv State.reset := by
  refine ⟨?_, ⟨nofun, nofun, nofun, nofun, nofun⟩, fun u => by cases u <;> exact rfl⟩
  exact ⟨by decide, by decide, by decide, by decide +kernel, by decide, by decide, by decide, by decide⟩

theorem Moves.configInv {s t : State} (h : Moves s t) (hs : ConfigInv s) : ConfigInv t := by
  induction h with
  | keep h => exact configInv_congr (configPart_congr h) hs
  | commit u s => exact configInv_commitUnit u hs
  | sreset u s => exact configInv_congr (configPart_resetUnit u s) hs
  | repack b s => exact configInv_congr rfl hs
  | deframe bits s => exact configInv_congr rfl hs
  | reset s => exact configInv_reset
  | trans _ _ ih ih' => exact ih' (ih hs)

/-- Settles O51: a step only moves the units, and every move keeps the invariant; `COMMIT` keeps it unit by unit. -/
theorem stepKeepsConfiguration : Obligations.StepKeepsConfiguration :=
  fun _ _ hs h => (step_moves h).configInv hs

end Sys2Proof.Machine

/-! PROOFS. The ranges of the partial byte and of the deframer, bit by bit, and along the moves of a step. -/

namespace Sys2Proof.Machine

/-! ### The partial byte -/

theorem repackerOk_reset : RepackerOk RepackerData.reset := ⟨by decide, by decide⟩

/-- A bit joins a partial byte of `n` bits without reaching above bit `n` (46_slicer_repacker.md R283). -/
theorem accAfter_lt (c : RepackerCfg) {d : RepackerData} (h : d.acc.toNat < 2 ^ d.n) (b : Bool) :
    (accAfter c d b).toNat < 2 ^ (d.n + 1) := by
  have hb : (BitVec.ofNat 8 (bitNat b)).toNat < 2 := by cases b <;> decide
  simp only [accAfter]
  split
  · rw [BitVec.toNat_or, BitVec.toNat_shiftLeft, Nat.shiftLeft_eq]
    refine Nat.or_lt_two_pow (h.trans (by omega)) (lt_of_le_of_lt (Nat.mod_le _ _) ?_)
    rw [pow_succ']
    exact Nat.mul_lt_mul_of_pos_right hb (Nat.two_pow_pos _)
  · rw [BitVec.toNat_or, BitVec.toNat_shiftLeft, Nat.shiftLeft_eq]
    refine Nat.or_lt_two_pow (lt_of_le_of_lt (Nat.mod_le _ _) ?_) (hb.trans_le ?_)
    · omega
    · have := Nat.two_pow_pos d.n; omega

theorem repackerOk_repacked (c : RepackerCfg) {d : RepackerData} (h : RepackerOk d) (b : Bool) :
    RepackerOk (repacked c d b).1 := by
  obtain ⟨hn, hacc⟩ := h
  simp only [repacked]
  split
  · exact repackerOk_reset
  · exact ⟨by dsimp only; omega, accAfter_lt c hacc b⟩

/-! ### The deframer -/

/-- A legal marker is not empty and fits in a frame (47_deframer.md R290). -/
theorem markerBits_bounds {c : DeframerCfg} (h : validateDeframer c = 0) :
    1 ≤ markerBits c ∧ markerBits c ≤ frameBits c := by
  rw [validateDeframer, firstFailing_eq_zero_iff _ (by simp)] at h
  simp only [List.forall_mem_cons, Bool.or_eq_false_iff, decide_eq_false_iff_not] at h
  simp only [markerBits, frameBits]
  omega

theorem and_mask_lt (v : BitVec 64) (m : ℕ) : (v &&& mask m).toNat < 2 ^ m := by
  have hmask : (mask m).toNat < 2 ^ m := by
    rw [mask, BitVec.toNat_ushiftRight, BitVec.toNat_allOnes, Nat.shiftRight_eq_div_pow]
    refine Nat.div_lt_of_lt_mul ?_
    rw [← pow_add]
    have hm : 64 ≤ 64 - m + m := by omega
    exact lt_of_lt_of_le (by decide) (Nat.pow_le_pow_right (by decide : 0 < 2) hm)
  rw [BitVec.toNat_and]
  exact Nat.and_le_right.trans_lt hmask

theorem deframerOk_reset {c : DeframerCfg} (h : validateDeframer c = 0) : DeframerOk c DeframerData.reset := by
  obtain ⟨hM, hMF⟩ := markerBits_bounds h
  exact ⟨Nat.two_pow_pos _, Nat.zero_le _, hM.trans hMF, Nat.zero_le _, fun _ => ⟨rfl, rfl, rfl⟩, fun h => absurd rfl h⟩

/-- A deframer in a lock whose `buf` may be full: what `frameEnd` is given. -/
structure Locked (c : DeframerCfg) (d : DeframerData) : Prop where
  win : d.win.toNat < 2 ^ markerBits c
  fill : d.fill = markerBits c
  cnt : d.cnt ≤ frameBits c
  miss : d.miss ≤ c.missTol.toNat
  state : d.state ≠ .nosync

section

variable {c : DeframerCfg} {d : DeframerData}

/-- `frameEnd` empties a full `buf`, so fewer than `8F` bits are held after it (47_deframer.md R292). -/
theorem Locked.frameEnd_ok (h : Locked c d) (hF : 0 < frameBits c) : DeframerOk c (frameEnd c d).1 := by
  simp only [frameEnd]
  split
  · exact ⟨h.win, h.fill.le, hF, h.miss, fun e => absurd e h.state, fun _ => h.fill⟩
  · next hne => exact ⟨h.win, h.fill.le, lt_of_le_of_ne h.cnt hne, h.miss, fun e => absurd e h.state, fun _ => h.fill⟩

theorem deframerOk_windowAfter (h : DeframerOk c d) (x : Bool) : DeframerOk c (windowAfter c x d) := by
  obtain ⟨-, -, hcnt, hmiss, hnosync, hlock⟩ := h
  refine ⟨and_mask_lt _ _, Nat.min_le_right _ _, hcnt, hmiss, hnosync, fun hs => ?_⟩
  have hfill : d.fill = markerBits c := hlock hs
  exact Nat.min_eq_right (by omega)

theorem deframerOk_searchStep (hc : validateDeframer c = 0) (asm : BitVec 64) (h : DeframerOk c d) :
    DeframerOk c (searchStep c asm d).1 := by
  obtain ⟨hM, hMF⟩ := markerBits_bounds hc
  have ⟨hwin, hfill, _⟩ := h
  simp only [searchStep]
  split
  · exact h
  · next hfull =>
    split
    · exact h
    · exact Locked.frameEnd_ok ⟨hwin, le_antisymm hfill (not_lt.mp hfull), hMF, Nat.zero_le _, nofun⟩ (hM.trans hMF)

/-- The marker check keeps the lock within the tolerance or reports it lost (47_deframer.md R294, R296). -/
theorem Locked.of_markerCheck {asm : BitVec 64} {d' : DeframerData} (h : Locked c d)
    (hd : markerCheck c asm d = some d') : Locked c d' := by
  simp only [markerCheck] at hd
  split at hd
  · cases hd
    exact ⟨h.win, h.fill, h.cnt, Nat.zero_le _, nofun⟩
  · split at hd
    · cases hd
    · next hmiss =>
      cases hd
      refine ⟨h.win, h.fill, h.cnt, not_lt.mp hmiss, ?_⟩
      dsimp only
      split
      · nofun
      · exact h.state

theorem deframerOk_lockStep (hc : validateDeframer c = 0) (asm : BitVec 64) (x : Bool) (h : DeframerOk c d)
    (hs : d.state ≠ .nosync) : DeframerOk c (lockStep c asm x d).1 := by
  obtain ⟨hM, hMF⟩ := markerBits_bounds hc
  obtain ⟨hwin, hfill, hcnt, hmiss, -, hlock⟩ := h
  have hlocked : Locked c { d with buf := setBit d.buf d.cnt (xor x d.inv), cnt := d.cnt + 1 } :=
    ⟨hwin, hlock hs, hcnt, hmiss, hs⟩
  simp only [lockStep]
  split
  · split
    · exact ⟨hwin, hfill, hM.trans hMF, Nat.zero_le _, fun _ => ⟨rfl, rfl, rfl⟩, fun e => absurd rfl e⟩
    · next d' hd => exact (hlocked.of_markerCheck hd).frameEnd_ok (hM.trans hMF)
  · exact hlocked.frameEnd_ok (hM.trans hMF)

theorem deframerOk_deframedBit (hc : validateDeframer c = 0) (asm : BitVec 64) (x : Bool) (h : DeframerOk c d) :
    DeframerOk c (deframedBit c asm x d).1 := by
  have hwindow := deframerOk_windowAfter h x
  simp only [deframedBit]
  split
  · exact deframerOk_searchStep hc asm hwindow
  · next hs => exact deframerOk_lockStep hc asm x hwindow hs

theorem deframerOk_deframedBits (hc : validateDeframer c = 0) (asm : BitVec 64) (bits : List Bool)
    (h : DeframerOk c d) : DeframerOk c (deframedBits c asm bits d).1 := by
  induction bits generalizing d with
  | nil => exact h
  | cons x xs ih => exact ih (deframerOk_deframedBit hc asm x h)

end

/-! ### The invariant is kept -/

theorem ConfigInv.deframer {s : State} (h : ConfigInv s) : validateDeframer s.deframer.cfg = 0 :=
  ((configInv_iff s).mp h .deframer).1.1

theorem repackerOk_resetUnit (u : UnitId) {s : State} (h : RepackerOk s.repacker.data) :
    RepackerOk (resetUnit u s).repacker.data := by
  by_cases hu : u = .repacker
  · subst hu; exact repackerOk_reset
  · rwa [resetUnit_repacker hu]

theorem repackerOk_commitUnit (u : UnitId) {s : State} (h : RepackerOk s.repacker.data) :
    RepackerOk (commitUnit u s).repacker.data := by
  by_cases hu : u = .repacker
  · subst hu; exact repackerOk_reset
  · rwa [commitUnit_repacker hu]

theorem deframerOk_resetUnit (u : UnitId) {s : State} (hc : validateDeframer s.deframer.cfg = 0)
    (h : DeframerOk s.deframer.cfg s.deframer.data) :
    DeframerOk (resetUnit u s).deframer.cfg (resetUnit u s).deframer.data := by
  by_cases hu : u = .deframer
  · subst hu; exact deframerOk_reset hc
  · rwa [resetUnit_deframer hu]

/-- A successful `COMMIT` of `DEFRAMER` makes a legal configuration active and resets the datapath with it; any other
`COMMIT` leaves both alone. -/
theorem deframerOk_commitUnit (u : UnitId) {s : State} (h : DeframerOk s.deframer.cfg s.deframer.data) :
    DeframerOk (commitUnit u s).deframer.cfg (commitUnit u s).deframer.data := by
  by_cases hu : u = .deframer
  · subst hu
    obtain ⟨hc, e⟩ | ⟨-, e⟩ := commitUnit_cases .deframer s <;> rw [e]
    · exact deframerOk_reset hc
    · exact h
  · rwa [commitUnit_deframer hu]

theorem datapathInv_reset : DatapathInv State.reset :=
  ⟨configInv_reset, repackerOk_reset, deframerOk_reset configInv_reset.deframer⟩

theorem Moves.datapathInv {s t : State} (h : Moves s t) (hs : DatapathInv s) : DatapathInv t := by
  induction h with
  | keep h => exact datapathInv_congr h hs
  | commit u s =>
    obtain ⟨hconfig, hrepacker, hdeframer⟩ := hs
    exact ⟨configInv_commitUnit u hconfig, repackerOk_commitUnit u hrepacker, deframerOk_commitUnit u hdeframer⟩
  | sreset u s =>
    obtain ⟨hconfig, hrepacker, hdeframer⟩ := hs
    exact ⟨(Moves.sreset u s).configInv hconfig, repackerOk_resetUnit u hrepacker,
      deframerOk_resetUnit u hconfig.deframer hdeframer⟩
  | repack b s =>
    obtain ⟨hconfig, hrepacker, hdeframer⟩ := hs
    exact ⟨(Moves.repack b s).configInv hconfig, repackerOk_repacked _ hrepacker b, hdeframer⟩
  | deframe bits s =>
    obtain ⟨hconfig, hrepacker, hdeframer⟩ := hs
    exact ⟨(Moves.deframe bits s).configInv hconfig, hrepacker,
      deframerOk_deframedBits hconfig.deframer _ bits hdeframer⟩
  | reset s => exact datapathInv_reset
  | trans _ _ ih ih' => exact ih' (ih hs)

/-- Settles O52: the ranges along the moves of a step; a bit keeps those of the partial byte (`repackerOk_repacked`) and of
the deframer (`deframerOk_deframedBit`). -/
theorem stepKeepsDatapathRanges : Obligations.StepKeepsDatapathRanges :=
  fun _ _ hs h => (step_moves h).datapathInv hs

end Sys2Proof.Machine

/-! PROOFS. What a data step pushes: at most as many items as 20_memory.md R84 asks room for. A byte completes at most one
frame, since a frame has at least 8 bits. -/

namespace Sys2Proof.Machine

/-! ### Frames -/

section

variable {c : DeframerCfg} {d : DeframerData} {k : ℕ}

/-- A marker check that keeps the lock keeps the bits held. -/
theorem markerCheck_some {asm : BitVec 64} {d' : DeframerData} (h : markerCheck c asm d = some d')
    (hs : d.state ≠ .nosync) : d'.state ≠ .nosync ∧ d'.cnt = d.cnt := by
  simp only [markerCheck] at h
  split at h
  · cases h; exact ⟨nofun, rfl⟩
  · split at h <;> cases h
    refine ⟨?_, rfl⟩
    dsimp only
    split
    · nofun
    · exact hs

/-- All that a bit can do to the bits held (47_deframer.md R292): in a lock it is one more, a marker found counts as `M`
bits, and `frameEnd` follows; or the search goes on, or the lock is lost at the marker's last bit. -/
theorem deframedBit_cases (c : DeframerCfg) (asm : BitVec 64) (x : Bool) (d : DeframerData) :
    (∃ d', deframedBit c asm x d = frameEnd c d' ∧ d'.state ≠ .nosync ∧
      (d'.cnt = d.cnt + 1 ∨ (d.state = .nosync ∧ d'.cnt = markerBits c))) ∨
    (∃ d', deframedBit c asm x d = (d', []) ∧ d'.cnt ≤ d.cnt ∧ (d.state = .nosync ∨ markerBits c = d.cnt + 1)) := by
  simp only [deframedBit]
  split
  · next hs =>
    have hs : d.state = .nosync := hs
    simp only [searchStep]
    split
    · exact .inr ⟨_, rfl, le_rfl, .inl hs⟩
    · split
      · exact .inr ⟨_, rfl, le_rfl, .inl hs⟩
      · exact .inl ⟨_, rfl, nofun, .inr ⟨hs, rfl⟩⟩
  · next hs =>
    simp only [lockStep]
    split
    · next hM =>
      split
      · exact .inr ⟨_, rfl, Nat.zero_le _, .inr hM.symm⟩
      · next d' hd =>
        obtain ⟨hs', hcnt⟩ := markerCheck_some hd hs
        exact .inl ⟨d', rfl, hs', .inl hcnt⟩
    · exact .inl ⟨_, rfl, hs, .inl rfl⟩

/-- `k` bits after a frame ended: at most `k` bits of the next one are held, and a marker is searched for only when the lock
was lost at the last of `M` bits. -/
def BitsSinceFrame (c : DeframerCfg) (k : ℕ) (d : DeframerData) : Prop :=
  d.cnt ≤ k ∧ (d.state = .nosync → markerBits c ≤ k)

theorem deframedBit_since (h : BitsSinceFrame c k d) (hk : k + 1 < frameBits c) (asm : BitVec 64) (x : Bool) :
    (deframedBit c asm x d).2 = [] ∧ BitsSinceFrame c (k + 1) (deframedBit c asm x d).1 := by
  obtain ⟨hcnt, hM⟩ := h
  obtain ⟨d', e, hs, hd⟩ | ⟨d', e, hle, hd⟩ := deframedBit_cases c asm x d
  · have hle : d'.cnt ≤ k + 1 := by
      obtain hd | ⟨hn, hd⟩ := hd
      · omega
      · have := hM hn; omega
    rw [e, frameEnd, if_neg (by omega)]
    exact ⟨rfl, hle, fun hn => absurd hn hs⟩
  · rw [e]
    refine ⟨rfl, by dsimp only; omega, fun _ => ?_⟩
    obtain hn | hd := hd
    · exact (hM hn).trans k.le_succ
    · omega

theorem deframedBits_since (asm : BitVec 64) (bits : List Bool) (h : BitsSinceFrame c k d)
    (hk : k + bits.length < frameBits c) : (deframedBits c asm bits d).2 = [] := by
  induction bits generalizing d k with
  | nil => rfl
  | cons x xs ih =>
    rw [List.length_cons] at hk
    obtain ⟨hnone, hnext⟩ := deframedBit_since h (by omega) asm x
    simp only [deframedBits, hnone, ih hnext (by omega), List.append_nil]

/-- A bit ends one frame or none. -/
theorem deframedBit_frames (c : DeframerCfg) (asm : BitVec 64) (x : Bool) (d : DeframerData) :
    (deframedBit c asm x d).2 = [] ∨
    ((deframedBit c asm x d).2.length = 1 ∧ BitsSinceFrame c 0 (deframedBit c asm x d).1) := by
  obtain ⟨d', e, hs, -⟩ | ⟨d', e, -⟩ := deframedBit_cases c asm x d <;> rw [e]
  · rw [frameEnd]
    split
    · exact .inr ⟨rfl, le_rfl, fun hn => absurd hn hs⟩
    · exact .inl rfl
  · exact .inl rfl

/-- As many bits as a frame has complete at most one frame. -/
theorem deframedBits_frames_le_one (asm : BitVec 64) (bits : List Bool) (d : DeframerData)
    (hb : bits.length ≤ frameBits c) : (deframedBits c asm bits d).2.length ≤ 1 := by
  induction bits generalizing d with
  | nil => exact Nat.zero_le 1
  | cons x xs ih =>
    rw [List.length_cons] at hb
    simp only [deframedBits, List.length_append]
    obtain hnone | ⟨hone, hsince⟩ := deframedBit_frames c asm x d
    · rw [hnone]
      simpa using ih _ (by omega)
    · rw [hone, deframedBits_since asm xs hsince (by omega)]
      exact le_rfl

end

/-- A legal frame has at least one byte (47_deframer.md R290). -/
theorem eight_le_frameBits {c : DeframerCfg} (h : validateDeframer c = 0) : 8 ≤ frameBits c := by
  rw [validateDeframer, firstFailing_eq_zero_iff _ (by simp)] at h
  simp only [List.forall_mem_cons, Bool.or_eq_false_iff, decide_eq_false_iff_not] at h
  simp only [frameBits]
  omega

/-! ### The other units -/

theorem repacked_length_le (c : RepackerCfg) (d : RepackerData) (b : Bool) : (repacked c d b).2.length ≤ 1 := by
  simp only [repacked]
  split <;> simp

theorem firRun_length (n : ℕ) (taps : Vector F32 Config.maxTaps) (us : List Cplx) (d : Vector Cplx Config.maxTaps) :
    (firRun n taps us d).2.length = us.length := by
  induction us generalizing d with
  | nil => rfl
  | cons u us ih => simp only [firRun, List.length_cons, ih]

theorem stuffed_length_le (l : ℕ) (x : Cplx) : (stuffed l x).length ≤ l := List.length_take_le _ _

/-- The soft values `SLICE` pushes (46_slicer_repacker.md R281). -/
def slicedSofts (c : SlicerCfg) (x : Cplx) : List (BitVec 8) :=
  if c.softEn then (slicedParts c x).map (softq c.softScale) else []

theorem sliceTake_eq (x : Cplx) (s : State) : sliceTake x s =
    { s with
      qBit := pushAll s.qBit ((slicedParts s.slicer.cfg x).map Fp.bit)
      qSoft := pushAll s.qSoft (slicedSofts s.slicer.cfg x) } := by
  simp only [sliceTake, slicedSofts]
  split
  · rfl
  · rw [pushAll_nil]

theorem slicedParts_length (c : SlicerCfg) (x : Cplx) : (slicedParts c x).length = maxBits c := by
  simp only [slicedParts, maxBits]
  split <;> rfl

theorem slicedSofts_length (c : SlicerCfg) (x : Cplx) : (slicedSofts c x).length = maxSofts c := by
  simp only [slicedSofts, maxSofts]
  split
  · rw [List.length_map, slicedParts_length]
  · rfl

/-- `SNR` after `MM` gave it a symbol or none (44_clock_recovery.md R262, 45_snr.md R270). -/
def snrFed (p : Option Cplx) (u : SnrUnit) : SnrUnit :=
  match p with
  | none => u
  | some x => if u.status.cfgValid then { u with data := snrUpdated u.cfg u.oneMAlpha u.data x } else u

theorem mmTake_eq (x : Cplx) (s : State) : mmTake x s =
    { s with
      mm.data := (mmRun s.mm.cfg s.mm.derived s.mm.data x).1
      snr := snrFed (mmRun s.mm.cfg s.mm.derived s.mm.data x).2 s.snr
      qSym := pushAll s.qSym (mmRun s.mm.cfg s.mm.derived s.mm.data x).2.toList } := by
  simp only [mmTake]
  split
  · next e => simp only [e, snrFed, Option.toList_none, pushAll_nil]
  · next p e =>
    simp only [e, snrFed, mmEmit, Option.toList_some]
    split <;> rfl

end Sys2Proof.Machine

/-! PROOFS. The data step of each agent: when it is enabled (20_memory.md R84), and its effect as one function of the
agent. -/

namespace Sys2Proof.Machine

/-! ### Enabling -/

section

variable (s : State)

theorem not_isEmpty_iff {α : Type} (xs : List α) : (!xs.isEmpty) = true ↔ 1 ≤ xs.length := by
  cases xs <;> simp

theorem dataEnabled_agc_iff : dataEnabled .agc s = true ↔ s.agc.status.cfgValid = true ∧ 1 ≤ s.qSrc.items.length ∧
    s.qAgc.closed = false ∧ s.qAgc.items.length + 1 ≤ Config.fifoDepth := by
  simp only [dataEnabled, agcReady, Bool.and_eq_true, not_isEmpty_iff, hasRoom_iff]
  exact and_left_comm

theorem dataEnabled_costas_iff : dataEnabled .costas s = true ↔
    s.costas.status.cfgValid = true ∧ s.pll.status.cfgValid = true ∧ 1 ≤ s.qAgc.items.length ∧
    s.qCar.closed = false ∧ s.qCar.items.length + 1 ≤ Config.fifoDepth := by
  simp only [dataEnabled, costasReady, Bool.and_eq_true, not_isEmpty_iff, hasRoom_iff]
  tauto

theorem dataEnabled_rrc_iff : dataEnabled .rrc s = true ↔ s.rrc.status.cfgValid = true ∧ 1 ≤ s.qCar.items.length ∧
    s.qMf.closed = false ∧ s.qMf.items.length + s.rrc.cfg.interp.toNat ≤ Config.fifoDepth := by
  simp only [dataEnabled, rrcReady, Bool.and_eq_true, not_isEmpty_iff, hasRoom_iff]
  exact and_left_comm

theorem dataEnabled_mm_iff : dataEnabled .mm s = true ↔ s.mm.status.cfgValid = true ∧ 1 ≤ s.qMf.items.length ∧
    s.qSym.closed = false ∧ s.qSym.items.length + 1 ≤ Config.fifoDepth := by
  simp only [dataEnabled, mmReady, Bool.and_eq_true, not_isEmpty_iff, hasRoom_iff]
  exact and_left_comm

theorem dataEnabled_slicer_iff : dataEnabled .slicer s = true ↔
    s.slicer.status.cfgValid = true ∧ 1 ≤ s.qSym.items.length ∧
    s.qBit.closed = false ∧ s.qBit.items.length + maxBits s.slicer.cfg ≤ Config.fifoDepth ∧
    s.qSoft.closed = false ∧ s.qSoft.items.length + maxSofts s.slicer.cfg ≤ Config.fifoDepth := by
  simp only [dataEnabled, sliceReady, Bool.and_eq_true, not_isEmpty_iff, hasRoom_iff]
  tauto

theorem dataEnabled_repacker_iff : dataEnabled .repacker s = true ↔
    s.repacker.status.cfgValid = true ∧ 1 ≤ s.qBit.items.length ∧
    s.qByte.closed = false ∧ s.qByte.items.length + 1 ≤ Config.fifoDepth := by
  simp only [dataEnabled, repackReady, Bool.and_eq_true, not_isEmpty_iff, hasRoom_iff]
  exact and_left_comm

theorem dataEnabled_deframer_iff : dataEnabled .deframer s = true ↔
    s.deframer.status.cfgValid = true ∧ 1 ≤ s.qByte.items.length ∧
    s.qFrame.closed = false ∧ s.qFrame.items.length + 1 ≤ Config.fifoDepth := by
  simp only [dataEnabled, deframeReady, Bool.and_eq_true, not_isEmpty_iff, hasRoom_iff]
  exact and_left_comm

end

/-! ### The effect -/

/-- `byteBits`, kept folded: no proof about `dataTake` evaluates the eight bits. -/
@[irreducible] def takenBits (y : Byte) : List Bool := byteBits y

theorem takenBits_length (y : Byte) : (takenBits y).length = 8 := by rw [takenBits]; rfl

/-- What the data step of an agent does when it is enabled: the oldest item of its input queue leaves it, and the agent's
units and output queues change. -/
def dataTake (a : Agent) (s : State) : State :=
  match a with
  | .host => s
  | .agc => agcTake (s.qSrc.items.headD Cplx.zero) { s with qSrc := popped s.qSrc }
  | .costas => costasTake (s.qAgc.items.headD Cplx.zero) { s with qAgc := popped s.qAgc }
  | .rrc => rrcTake (s.qCar.items.headD Cplx.zero) { s with qCar := popped s.qCar }
  | .mm =>
    let r := mmRun s.mm.cfg s.mm.derived s.mm.data (s.qMf.items.headD Cplx.zero)
    { s with mm.data := r.1, snr := snrFed r.2 s.snr, qMf := popped s.qMf, qSym := pushAll s.qSym r.2.toList }
  | .slicer => sliceTake (s.qSym.items.headD Cplx.zero) { s with qSym := popped s.qSym }
  | .repacker => repackTake (s.qBit.items.headD false) { s with qBit := popped s.qBit }
  | .deframer => deframeTake (takenBits (s.qByte.items.headD 0)) { s with qByte := popped s.qByte }

/-- A data step takes the oldest item when it is enabled, and changes nothing when it is not (20_memory.md R84; log 5). -/
theorem exec_dataStep {a : Agent} {i : Instr} (hi : dataStep a = some i) (s : State) :
    exec i s = .next (if dataEnabled a s then dataTake a s else s) := by
  cases a with
  | host => cases hi
  | agc =>
    cases hi
    cases hq : s.qSrc.items <;> cases hr : agcReady s <;>
      simp [exec, execAgcStep, dataEnabled, dataTake, hq, hr]
  | costas =>
    cases hi
    cases hq : s.qAgc.items <;> cases hr : costasReady s <;>
      simp [exec, execCostasStep, dataEnabled, dataTake, hq, hr]
  | rrc =>
    cases hi
    cases hq : s.qCar.items <;> cases hr : rrcReady s <;>
      simp [exec, execRrcStep, dataEnabled, dataTake, hq, hr]
  | mm =>
    cases hi
    cases hq : s.qMf.items <;> cases hr : mmReady s <;>
      simp [exec, execMmStep, dataEnabled, dataTake, mmTake_eq, hq, hr]
  | slicer =>
    cases hi
    cases hq : s.qSym.items <;> cases hr : sliceReady s <;>
      simp [exec, execSlice, dataEnabled, dataTake, hq, hr]
  | repacker =>
    cases hi
    cases hq : s.qBit.items <;> cases hr : repackReady s <;>
      simp [exec, execRepackBit, dataEnabled, dataTake, hq, hr]
  | deframer =>
    cases hi
    cases hq : s.qByte.items <;> cases hr : deframeReady s <;>
      simp [exec, execDeframeByte, dataEnabled, dataTake, takenBits, hq, hr]

/-- Settles O25: the enabling agent by agent; a data step that is not enabled changes nothing by `exec_dataStep`, an internal
operation by its equation. -/
theorem dataStepsAreEnabledByTheRule : Obligations.DataStepsAreEnabledByTheRule := by
  intro s
  refine ⟨dataEnabled_agc_iff s, dataEnabled_costas_iff s, dataEnabled_rrc_iff s, dataEnabled_mm_iff s, ?_,
    dataEnabled_repacker_iff s, dataEnabled_deframer_iff s, ?_, ?_, ?_, ?_⟩
  · rw [dataEnabled_slicer_iff, maxSofts, maxBits]
    cases s.slicer.cfg.softEn <;> rfl
  · intro a i hi h
    rw [exec_dataStep hi, h]; rfl
  · intro e h
    rw [exec_pllAdvance, h]; rfl
  · intro x h
    rw [exec_snrUpdate, h]; rfl
  · intro x h
    rw [exec_deframeBit, deframeReady, h]; rfl

end Sys2Proof.Machine

/-! PROOFS. The queue invariant. A step that does not empty the queues lets each queue `QueueFlow` and closes one only when
its input has ended (`Flow`); that keeps the invariant whatever the step is. -/

namespace Sys2Proof.Machine

/-! ### One queue -/

/-- A queue in a step that does not empty every queue: a closed one stays closed and takes nothing, an open one stays within
its depth (20_memory.md R81-R83). -/
structure QueueFlow {α : Type} (q q' : Queue α) : Prop where
  closed : q.closed = true → q'.closed = true
  items : q'.items.length ≤ q.items.length ∨ (q.closed = false ∧ q'.items.length ≤ Config.fifoDepth)

section

variable {α : Type} {q q' : Queue α}

theorem QueueFlow.refl (q : Queue α) : QueueFlow q q := ⟨id, .inl le_rfl⟩

theorem QueueFlow.popped (q : Queue α) : QueueFlow q (popped q) :=
  ⟨id, .inl (by rw [popped_items, List.length_tail]; exact Nat.sub_le _ _)⟩

theorem QueueFlow.taken {x : α} {xs : List α} (h : q.items = x :: xs) : QueueFlow q ⟨xs, q.closed⟩ := by
  have hpop : Machine.popped q = ⟨xs, q.closed⟩ := by rw [Machine.popped, h]; rfl
  exact hpop ▸ .popped q

theorem QueueFlow.close (q : Queue α) : QueueFlow q (close q) := ⟨fun _ => rfl, .inl le_rfl⟩

theorem QueueFlow.pushAll {n : ℕ} {xs : List α} (hq : q.closed = false)
    (hn : q.items.length + n ≤ Config.fifoDepth) (hx : xs.length ≤ n) : QueueFlow q (pushAll q xs) :=
  ⟨id, .inr ⟨hq, by rw [pushAll_items, List.length_append]; omega⟩⟩

theorem QueueFlow.bounded (h : QueueFlow q q') (hq : q.items.length ≤ Config.fifoDepth) :
    q'.items.length ≤ Config.fifoDepth :=
  h.items.elim (·.trans hq) And.right

theorem QueueFlow.ended (h : QueueFlow q q') (hq : ended q = true) : ended q' = true := by
  rw [ended_iff] at hq ⊢
  obtain ⟨hclosed, hitems⟩ := hq
  refine ⟨h.closed hclosed, ?_⟩
  obtain hle | ⟨hopen, -⟩ := h.items
  · rw [hitems] at hle
    exact List.length_eq_zero_iff.mp (Nat.le_zero.mp hle)
  · rw [hopen] at hclosed; cases hclosed

end

/-! ### All queues -/

/-- The queue invariant but for the ranges of the deframer. -/
structure QueuesOk (s : State) : Prop where
  bounded : QueuesBounded s
  chain : ClosedDownChain s
  aborted : AbortedEmpty s

/-- All that a step can do to the queues and `ABORTED` unless it empties every queue: the queues flow, and each inner queue
closes only when its input has ended (40_control.md R212). A field not given says that the queue, or whether it is closed,
is left as it was. -/
structure Flow (s t : State) : Prop where
  qSrc : QueueFlow s.qSrc t.qSrc := by exact .refl _
  qAgc : QueueFlow s.qAgc t.qAgc := by exact .refl _
  qCar : QueueFlow s.qCar t.qCar := by exact .refl _
  qMf : QueueFlow s.qMf t.qMf := by exact .refl _
  qSym : QueueFlow s.qSym t.qSym := by exact .refl _
  qBit : QueueFlow s.qBit t.qBit := by exact .refl _
  qSoft : QueueFlow s.qSoft t.qSoft := by exact .refl _
  qByte : QueueFlow s.qByte t.qByte := by exact .refl _
  qFrame : QueueFlow s.qFrame t.qFrame := by exact .refl _
  agcCloses : t.qAgc.closed = true → s.qAgc.closed = true ∨ ended s.qSrc = true := by exact Or.inl
  carCloses : t.qCar.closed = true → s.qCar.closed = true ∨ ended s.qAgc = true := by exact Or.inl
  mfCloses : t.qMf.closed = true → s.qMf.closed = true ∨ ended s.qCar = true := by exact Or.inl
  symCloses : t.qSym.closed = true → s.qSym.closed = true ∨ ended s.qMf = true := by exact Or.inl
  bitCloses : t.qBit.closed = true → s.qBit.closed = true ∨ ended s.qSym = true := by exact Or.inl
  byteCloses : t.qByte.closed = true → s.qByte.closed = true ∨ ended s.qBit = true := by exact Or.inl
  frameCloses : t.qFrame.closed = true → s.qFrame.closed = true ∨ ended s.qByte = true := by exact Or.inl
  softWithBit : s.qSoft.closed = s.qBit.closed → t.qSoft.closed = t.qBit.closed := by exact id
  aborted : t.aborted = s.aborted := by rfl

theorem QueuesOk.flow {s t : State} (hs : QueuesOk s) (h : Flow s t) : QueuesOk t := by
  obtain ⟨bounded, ⟨agc, car, mf, sym, bit, soft, byte, frame⟩, aborted⟩ := hs
  refine ⟨?_, ?_, fun ha => ?_⟩
  · obtain ⟨bSrc, bAgc, bCar, bMf, bSym, bBit, bSoft, bByte, bFrame⟩ := bounded
    exact ⟨h.qSrc.bounded bSrc, h.qAgc.bounded bAgc, h.qCar.bounded bCar, h.qMf.bounded bMf, h.qSym.bounded bSym,
      h.qBit.bounded bBit, h.qSoft.bounded bSoft, h.qByte.bounded bByte, h.qFrame.bounded bFrame⟩
  · exact ⟨fun hc => h.qSrc.ended ((h.agcCloses hc).elim agc id), fun hc => h.qAgc.ended ((h.carCloses hc).elim car id),
      fun hc => h.qCar.ended ((h.mfCloses hc).elim mf id), fun hc => h.qMf.ended ((h.symCloses hc).elim sym id),
      fun hc => h.qSym.ended ((h.bitCloses hc).elim bit id), h.softWithBit soft,
      fun hc => h.qBit.ended ((h.byteCloses hc).elim byte id), fun hc => h.qByte.ended ((h.frameCloses hc).elim frame id)⟩
  · obtain ⟨eSrc, eAgc, eCar, eMf, eSym, eBit, eSoft, eByte, eFrame⟩ := aborted (h.aborted ▸ ha)
    exact ⟨h.qSrc.ended eSrc, h.qAgc.ended eAgc, h.qCar.ended eCar, h.qMf.ended eMf, h.qSym.ended eSym, h.qBit.ended eBit,
      h.qSoft.ended eSoft, h.qByte.ended eByte, h.qFrame.ended eFrame⟩

/-- Emptying every queue, and closing them with `ABORTED` set or opening them with it clear (40_control.md R209, R211). -/
theorem queuesOk_emptied (c : Bool) (s : State) : QueuesOk { emptyAll c s with aborted := c } where
  bounded := ⟨Nat.zero_le _, Nat.zero_le _, Nat.zero_le _, Nat.zero_le _, Nat.zero_le _, Nat.zero_le _, Nat.zero_le _,
    Nat.zero_le _, Nat.zero_le _⟩
  chain := by
    have hended {α : Type} (hc : c = true) : ended (⟨[], c⟩ : Queue α) = true := by rw [hc]; rfl
    exact ⟨hended, hended, hended, hended, hended, rfl, hended, hended⟩
  aborted := by
    rintro rfl
    exact ⟨rfl, rfl, rfl, rfl, rfl, rfl, rfl, rfl, rfl⟩

/-- The queues and `ABORTED` of `s`, everything else at its reset value: what the invariant reads. -/
def queuePart (s : State) : State :=
  { State.reset with
    qSrc := s.qSrc, qAgc := s.qAgc, qCar := s.qCar, qMf := s.qMf, qSym := s.qSym, qBit := s.qBit, qSoft := s.qSoft
    qByte := s.qByte, qFrame := s.qFrame, aborted := s.aborted }

theorem QueuesOk.congr {s t : State} (hs : QueuesOk s) (h : queuePart t = queuePart s) : QueuesOk t := by
  have hpart (u : State) (hu : QueuesOk u) : QueuesOk (queuePart u) := ⟨hu.bounded, hu.chain, hu.aborted⟩
  have ht : QueuesOk (queuePart t) := h ▸ hpart s hs
  exact ⟨ht.bounded, ht.chain, ht.aborted⟩

theorem QueuesOk.ite {s t : State} (hs : QueuesOk s) {b : Bool} (ht : b = true → QueuesOk t) :
    QueuesOk (if b then t else s) := by
  cases b
  · exact hs
  · exact ht rfl

/-! ### Data steps and end of stream -/

/-- An enabled data step takes the oldest item of its input and pushes what there is room for. -/
theorem flow_dataTake {a : Agent} {s : State} (hF : 8 ≤ frameBits s.deframer.cfg) (h : dataEnabled a s = true) :
    Flow s (dataTake a s) := by
  cases a with
  | host => cases h
  | agc =>
    obtain ⟨-, -, hopen, hroom⟩ := (dataEnabled_agc_iff s).mp h
    exact { qSrc := .popped _, qAgc := .pushAll hopen hroom le_rfl }
  | costas =>
    obtain ⟨-, -, -, hopen, hroom⟩ := (dataEnabled_costas_iff s).mp h
    exact { qAgc := .popped _, qCar := .pushAll hopen hroom le_rfl }
  | rrc =>
    obtain ⟨-, -, hopen, hroom⟩ := (dataEnabled_rrc_iff s).mp h
    exact { qCar := .popped _
            qMf := .pushAll hopen hroom ((firRun_length _ _ _ _).trans_le (stuffed_length_le _ _)) }
  | mm =>
    obtain ⟨-, -, hopen, hroom⟩ := (dataEnabled_mm_iff s).mp h
    exact { qMf := .popped _, qSym := .pushAll hopen hroom Option.length_toList_le }
  | slicer =>
    obtain ⟨-, -, hbit, hbits, hsoft, hsofts⟩ := (dataEnabled_slicer_iff s).mp h
    rw [dataTake, sliceTake_eq]
    exact { qSym := .popped _
            qBit := .pushAll hbit hbits (by rw [List.length_map, slicedParts_length])
            qSoft := .pushAll hsoft hsofts (slicedSofts_length _ _).le }
  | repacker =>
    obtain ⟨-, -, hopen, hroom⟩ := (dataEnabled_repacker_iff s).mp h
    exact { qBit := .popped _, qByte := .pushAll hopen hroom (repacked_length_le _ _ _) }
  | deframer =>
    obtain ⟨-, -, hopen, hroom⟩ := (dataEnabled_deframer_iff s).mp h
    exact { qByte := .popped _
            qFrame := .pushAll hopen hroom (deframedBits_frames_le_one _ _ _ ((takenBits_length _).trans_le hF)) }

/-! ### Control actions and register writes -/

theorem queuePart_resetUnit (u : UnitId) (s : State) : queuePart (resetUnit u s) = queuePart s := by
  simp only [queuePart, resetUnit_qSrc, resetUnit_qAgc, resetUnit_qCar, resetUnit_qMf, resetUnit_qSym, resetUnit_qBit,
    resetUnit_qSoft, resetUnit_qByte, resetUnit_qFrame, resetUnit_aborted]

theorem queuePart_commitUnit (u : UnitId) (s : State) : queuePart (commitUnit u s) = queuePart s := by
  simp only [queuePart, commitUnit_qSrc, commitUnit_qAgc, commitUnit_qCar, commitUnit_qMf, commitUnit_qSym,
    commitUnit_qBit, commitUnit_qSoft, commitUnit_qByte, commitUnit_qFrame, commitUnit_aborted]

theorem queuePart_foldl {f : UnitId → State → State} (hf : ∀ u s, queuePart (f u s) = queuePart s) (us : List UnitId)
    (s : State) : queuePart (us.foldl (fun t u => f u t) s) = queuePart s := by
  induction us generalizing s with
  | nil => rfl
  | cons u us ih => exact (ih (f u s)).trans (hf u s)

theorem queuePart_writeShadow (r : Reg) (v : Word) (s : State) : queuePart (writeShadow r v s) = queuePart s := by
  cases r <;> rfl

theorem queuePart_takeLine (s : State) : queuePart (takeLine s) = queuePart s := by
  obtain h | ⟨l, more, -, -, h⟩ := takeLine_cases s <;> rw [h]
  rfl

section

variable {s t : State}

theorem QueuesOk.commitUnit (hs : QueuesOk s) (u : UnitId) : QueuesOk (commitUnit u s) :=
  hs.congr (queuePart_commitUnit u s)

theorem QueuesOk.resetUnit (hs : QueuesOk s) (u : UnitId) : QueuesOk (resetUnit u s) :=
  hs.congr (queuePart_resetUnit u s)

theorem QueuesOk.commitEvery (hs : QueuesOk s) : QueuesOk (commitEvery s) :=
  hs.congr (queuePart_foldl queuePart_commitUnit _ s)

theorem queuesOk_newSession (s : State) : QueuesOk (newSession s) :=
  (queuesOk_emptied false s).congr (queuePart_foldl queuePart_resetUnit _ _)

theorem queuesOk_abortAll (s : State) : QueuesOk (abortAll s) := queuesOk_emptied true s

theorem QueuesOk.stopInput (hs : QueuesOk s) : QueuesOk (stopInput s) := hs.flow { qSrc := .close _ }

theorem QueuesOk.ctrlActions (hs : QueuesOk s) (u : UnitId) (v : Word) : QueuesOk (ctrlActions u v s) := by
  rw [Machine.ctrlActions]
  split
  · exact hs.commitUnit u
  · exact hs.ite fun _ => hs.resetUnit u

theorem QueuesOk.gCtrlActions (hs : QueuesOk s) (v : Word) : QueuesOk (gCtrlActions v s) :=
  have habort : QueuesOk (actionIf (v.getLsbD 3) abortAll s) := hs.ite fun _ => queuesOk_abortAll _
  have hsreset := habort.ite (b := v.getLsbD 1) fun _ => queuesOk_newSession _
  have hcommit := hsreset.ite (b := v.getLsbD 0) fun _ => hsreset.commitEvery
  hcommit.ite (b := v.getLsbD 2) fun _ => hcommit.stopInput

theorem QueuesOk.writeReg (hs : QueuesOk s) (r : Reg) (v : Word) : QueuesOk (writeReg r v s) := by
  simp only [Machine.writeReg]
  split
  · exact hs.gCtrlActions v
  · exact hs.ctrlActions _ v
  · exact hs.congr (queuePart_writeShadow r v s)

/-! ### The operations -/

/-- What an operation keeps, from its equation. -/
theorem QueuesOk.of_exec_eq {i : Instr} {u : State} (e : exec i s = .next u) (hu : QueuesOk u)
    (h : exec i s = .next t) : QueuesOk t := by
  rw [e] at h
  cases h
  exact hu

theorem QueuesOk.regRead (hs : QueuesOk s) {a : Half} : exec (.regRead a) s = .next t → QueuesOk t :=
  .of_exec_eq (exec_regRead a s) (by split <;> exact hs.congr rfl)

theorem QueuesOk.regWrite (hs : QueuesOk s) {a : Half} {v : Word} : exec (.regWrite a v) s = .next t → QueuesOk t := by
  refine .of_exec_eq (exec_regWrite a v s) ?_
  split
  · exact hs.congr rfl
  · next r _ =>
    split
    · exact hs.congr rfl
    · exact (hs.writeReg r v).congr rfl

theorem QueuesOk.srcPush (hs : QueuesOk s) {x : Cplx} : exec (.srcPush x) s = .next t → QueuesOk t := by
  refine .of_exec_eq (exec_srcPush x s) ?_
  split
  · exact hs.congr rfl
  · next hopen =>
    split
    · next hroom => exact hs.flow { qSrc := .pushAll (Bool.eq_false_iff.mpr hopen) hroom le_rfl }
    · exact hs

theorem QueuesOk.framePop (hs : QueuesOk s) (h : exec .framePop s = .next t) : QueuesOk t := by
  obtain ⟨f, fs, e, rfl⟩ | ⟨-, -, rfl⟩ | ⟨-, -, rfl⟩ := exec_framePop_cases h
  · exact hs.flow { qFrame := .taken e }
  · exact hs.congr rfl
  · exact hs

theorem QueuesOk.softPop (hs : QueuesOk s) (h : exec .softPop s = .next t) : QueuesOk t := by
  obtain ⟨v, vs, e, rfl⟩ | ⟨-, -, rfl⟩ | ⟨-, -, rfl⟩ := exec_softPop_cases h
  · exact hs.flow { qSoft := .taken e }
  · exact hs.congr rfl
  · exact hs

theorem QueuesOk.dataStep (hs : QueuesOk s) (hF : 8 ≤ frameBits s.deframer.cfg) {a : Agent} {i : Instr}
    (hi : dataStep a = some i) : exec i s = .next t → QueuesOk t :=
  .of_exec_eq (exec_dataStep hi s) (hs.ite fun h => hs.flow (flow_dataTake hF h))

/-- A bit issued alone pushes at most one frame too. -/
theorem QueuesOk.deframeBit (hs : QueuesOk s) (hF : 8 ≤ frameBits s.deframer.cfg) {x : Bool} :
    exec (.deframeBit x) s = .next t → QueuesOk t :=
  .of_exec_eq (exec_deframeBit x s) (hs.ite fun h => by
    obtain ⟨hopen, hroom⟩ := (hasRoom_iff _ _).mp (Bool.and_elim_right h)
    have hle : ([x] : List Bool).length ≤ frameBits s.deframer.cfg := le_trans (by simp) hF
    exact hs.flow { qFrame := .pushAll hopen hroom (deframedBits_frames_le_one _ _ _ hle) })

/-- `EOS_PROPAGATE` closes the output of an agent whose input has ended. -/
theorem QueuesOk.eosStep (hs : QueuesOk s) {a : Agent} {i : Instr} (hi : eosStep a = some i) (h : exec i s = .next t) :
    QueuesOk t := by
  cases a with
  | host => cases hi
  | agc =>
    cases hi
    exact .of_exec_eq (exec_eosPropagateAgc s)
      (hs.ite fun r => hs.flow { qAgc := .close _, agcCloses := fun _ => .inr (Bool.and_elim_left r) }) h
  | costas =>
    cases hi
    exact .of_exec_eq (exec_eosPropagateCostas s)
      (hs.ite fun r => hs.flow { qCar := .close _, carCloses := fun _ => .inr (Bool.and_elim_left r) }) h
  | rrc =>
    cases hi
    exact .of_exec_eq (exec_eosPropagateRrc s)
      (hs.ite fun r => hs.flow { qMf := .close _, mfCloses := fun _ => .inr (Bool.and_elim_left r) }) h
  | mm =>
    cases hi
    exact .of_exec_eq (exec_eosPropagateMm s)
      (hs.ite fun r => hs.flow { qSym := .close _, symCloses := fun _ => .inr (Bool.and_elim_left r) }) h
  | slicer =>
    cases hi
    exact .of_exec_eq (exec_eosPropagateSlicer s)
      (hs.ite fun r => hs.flow { qBit := .close _, qSoft := .close _, bitCloses := fun _ => .inr (Bool.and_elim_left r)
                                 softWithBit := fun _ => rfl }) h
  | repacker =>
    cases hi
    exact .of_exec_eq (exec_eosPropagateRepacker s)
      (hs.ite fun r => hs.flow { qByte := .close _, byteCloses := fun _ => .inr (Bool.and_elim_left r) }) h
  | deframer =>
    cases hi
    exact .of_exec_eq (exec_eosPropagateDeframer s)
      (hs.ite fun r => hs.flow { qFrame := .close _, frameCloses := fun _ => .inr (Bool.and_elim_left r) }) h

theorem QueuesOk.commit (hs : QueuesOk s) (u : UnitId) (h : exec (commitOf u) s = .next t) : QueuesOk t :=
  .of_exec_eq (u := Machine.commitUnit u s) (by cases u <;> rfl) (hs.commitUnit u) h

theorem QueuesOk.sreset (hs : QueuesOk s) (u : UnitId) (h : exec (sresetOf u) s = .next t) : QueuesOk t :=
  .of_exec_eq (u := Machine.resetUnit u s) (by cases u <;> rfl) (hs.resetUnit u) h

/-- Every operation keeps the queues in order, given that a frame has at least a byte. -/
theorem QueuesOk.exec (hs : QueuesOk s) (hF : 8 ≤ frameBits s.deframer.cfg) {i : Instr} (h : exec i s = .next t) :
    QueuesOk t := by
  cases i with
  | regRead a => exact hs.regRead h
  | regWrite a v => exact hs.regWrite h
  | srcPush x => exact hs.srcPush h
  | framePop => exact hs.framePop h
  | softPop => exact hs.softPop h
  | commitAll => exact .of_exec_eq (exec_commitAll s) hs.commitEvery h
  | sresetAll => exact .of_exec_eq (exec_sresetAll s) (queuesOk_newSession s) h
  | stop => exact .of_exec_eq (exec_stop s) hs.stopInput h
  | abort => exact .of_exec_eq (exec_abort s) (queuesOk_abortAll s) h
  | agcStep => exact hs.dataStep hF (a := .agc) rfl h
  | costasStep => exact hs.dataStep hF (a := .costas) rfl h
  | rrcStep => exact hs.dataStep hF (a := .rrc) rfl h
  | mmStep => exact hs.dataStep hF (a := .mm) rfl h
  | slice => exact hs.dataStep hF (a := .slicer) rfl h
  | repackBit => exact hs.dataStep hF (a := .repacker) rfl h
  | deframeByte => exact hs.dataStep hF (a := .deframer) rfl h
  | pllAdvance e => exact .of_exec_eq (exec_pllAdvance e s) (hs.ite fun _ => hs.congr rfl) h
  | snrUpdate x => exact .of_exec_eq (exec_snrUpdate x s) (hs.ite fun _ => hs.congr rfl) h
  | deframeBit x => exact hs.deframeBit hF h
  | commitAgc => exact hs.commit .agc h
  | commitCostas => exact hs.commit .costas h
  | commitPll => exact hs.commit .pll h
  | commitRrc => exact hs.commit .rrc h
  | commitMm => exact hs.commit .mm h
  | commitSnr => exact hs.commit .snr h
  | commitSlicer => exact hs.commit .slicer h
  | commitRepacker => exact hs.commit .repacker h
  | commitDeframer => exact hs.commit .deframer h
  | sresetAgc => exact hs.sreset .agc h
  | sresetCostas => exact hs.sreset .costas h
  | sresetPll => exact hs.sreset .pll h
  | sresetRrc => exact hs.sreset .rrc h
  | sresetMm => exact hs.sreset .mm h
  | sresetSnr => exact hs.sreset .snr h
  | sresetSlicer => exact hs.sreset .slicer h
  | sresetRepacker => exact hs.sreset .repacker h
  | sresetDeframer => exact hs.sreset .deframer h
  | eosPropagateAgc => exact hs.eosStep (a := .agc) rfl h
  | eosPropagateCostas => exact hs.eosStep (a := .costas) rfl h
  | eosPropagateRrc => exact hs.eosStep (a := .rrc) rfl h
  | eosPropagateMm => exact hs.eosStep (a := .mm) rfl h
  | eosPropagateSlicer => exact hs.eosStep (a := .slicer) rfl h
  | eosPropagateRepacker => exact hs.eosStep (a := .repacker) rfl h
  | eosPropagateDeframer => exact hs.eosStep (a := .deframer) rfl h

/-! ### The turn -/

theorem queuePart_of_fetch_run {i : Instr} (h : fetch s = .run i t) : queuePart t = queuePart s := by
  obtain ⟨after, -, -, rfl⟩ | ⟨a, -, rfl⟩ | ⟨ws, after, -, rfl⟩ := fetch_run_cases h
  · exact queuePart_takeLine s
  · rfl
  · rfl

/-- What a turn comes to in which no operation is performed: it passes, the host having perhaps taken its next line or been
refused a word, or the block is reset. -/
theorem fetch_pass_cases (h : fetch s = .pass t) :
    t = endTurn s ∨ t = endTurn (takeLine s) ∨
    (∃ rest, t = endTurn (raiseBusError { takeLine s with script := rest })) ∨ t = endTurn (hardReset s) := by
  simp only [fetch] at h
  split at h
  · simp only [hostTurn] at h
    split at h
    · cases h; exact .inr (.inl rfl)
    · next d rest _ =>
      split at h
      · split at h
        · cases h; exact .inl rfl
        · split at h <;> cases h
          exact .inl rfl
      · cases h; exact .inr (.inr (.inl ⟨rest, rfl⟩))
  · simp only [unitTurn] at h
    split at h <;> cases h
    exact .inl rfl
  · cases h; exact .inr (.inr (.inr rfl))
  · simp only [issueTurn] at h
    split at h <;> cases h

theorem QueuesOk.pass (hs : QueuesOk s) (h : fetch s = .pass t) : QueuesOk t := by
  obtain rfl | rfl | ⟨rest, rfl⟩ | rfl := fetch_pass_cases h
  · exact hs.congr rfl
  · exact hs.congr (queuePart_takeLine s)
  · exact hs.congr (queuePart_takeLine s)
  · exact (queuesOk_emptied false s).congr rfl

theorem QueuesOk.step (hs : QueuesOk s) (hF : 8 ≤ frameBits s.deframer.cfg) (h : step s = .next t) : QueuesOk t := by
  obtain ⟨i, u, hf, he⟩ | hf := step_cases h
  · have hcfg : u.deframer.cfg = s.deframer.cfg := by
      have e := congrArg (fun p : State => p.deframer.cfg) (datapathPart_of_fetch_run hf)
      exact e
    exact (hs.congr (queuePart_of_fetch_run hf)).exec (hcfg ▸ hF) he
  · exact hs.pass hf

end

/-- Settles O53: the ranges are kept by O52's argument, and the queues by what every operation does to them; a legal frame
length bounds the frames that a byte completes. -/
theorem stepKeepsQueues : Obligations.StepKeepsQueues := by
  rintro s t ⟨hdata, bounded, chain, aborted⟩ h
  have hs : QueuesOk s := ⟨bounded, chain, aborted⟩
  have ht := hs.step (eight_le_frameBits hdata.1.deframer) h
  exact ⟨(step_moves h).datapathInv hdata, ht.bounded, ht.chain, ht.aborted⟩

end Sys2Proof.Machine

/-! PROOFS. Enabled data steps of two agents may be taken in either order (20_memory.md R87). Two agents share at most the
queue between them, of which the one takes the oldest item and the other adds behind the newest. -/

namespace Sys2Proof.Machine

/-- The agents in the order of the queues between them. -/
def agentChain : List Agent := [.host, .agc, .costas, .rrc, .mm, .slicer, .repacker, .deframer]

/-- The place of an agent along the chain. -/
def chainPlace (a : Agent) : ℕ := agentChain.idxOf a

theorem chainPlace_ne {a b : Agent} (h : a ≠ b) : chainPlace a ≠ chainPlace b :=
  mt (List.idxOf_inj (by cases a <;> decide)).mp h

/-- The data steps of `a` and `b` leave each other enabled and have one result in either order. -/
structure Swap (a b : Agent) (s : State) : Prop where
  second : dataEnabled b (dataTake a s) = true
  first : dataEnabled a (dataTake b s) = true
  same : dataTake b (dataTake a s) = dataTake a (dataTake b s)

theorem Swap.symm {a b : Agent} {s : State} (h : Swap a b s) : Swap b a s := ⟨h.first, h.second, h.same.symm⟩

/-! ### Neighbours

Where two agents share a queue, it holds an item `x` that the second takes: written as `x :: xs`, both orders compute to one
state. -/

section

variable {s : State}

/-- Pushing leaves a queue's oldest item, so a step that takes it stays enabled. -/
theorem enabled_of_pushed {α : Type} {xs : List α} (ys : List α) {r : Bool} (h : (!xs.isEmpty && r) = true) :
    (!(xs ++ ys).isEmpty && r) = true := by
  cases xs with
  | nil => cases h
  | cons x xs => exact h

/-- Taking an item leaves the room there was, so a step that pushes stays ready. -/
theorem hasRoom_popped {α : Type} {q : Queue α} {n : ℕ} (h : hasRoom q n = true) : hasRoom (popped q) n = true := by
  rw [hasRoom_iff] at h ⊢
  obtain ⟨hopen, hroom⟩ := h
  rw [popped_items, List.length_tail]
  exact ⟨hopen, by omega⟩

theorem enabled_of_popped {α : Type} {q : Queue α} {n : ℕ} {i v : Bool} (h : (i && (v && hasRoom q n)) = true) :
    (i && (v && hasRoom (popped q) n)) = true := by
  simp only [Bool.and_eq_true] at h ⊢
  exact h.imp_right (And.imp_right hasRoom_popped)

theorem swap_agc_costas (ha : dataEnabled .agc s = true) (hb : dataEnabled .costas s = true) : Swap .agc .costas s where
  second := enabled_of_pushed _ hb
  first := enabled_of_popped ha
  same := by
    obtain ⟨x, xs, e, -⟩ := exec_costasStep_enabled hb
    rw [show s = { s with qAgc := ⟨x :: xs, s.qAgc.closed⟩ } by rw [← e]]
    rfl

theorem swap_costas_rrc (ha : dataEnabled .costas s = true) (hb : dataEnabled .rrc s = true) : Swap .costas .rrc s where
  second := enabled_of_pushed _ hb
  first := enabled_of_popped ha
  same := by
    obtain ⟨x, xs, e, -⟩ := exec_rrcStep_enabled hb
    rw [show s = { s with qCar := ⟨x :: xs, s.qCar.closed⟩ } by rw [← e]]
    rfl

theorem swap_rrc_mm (ha : dataEnabled .rrc s = true) (hb : dataEnabled .mm s = true) : Swap .rrc .mm s where
  second := enabled_of_pushed _ hb
  first := enabled_of_popped ha
  same := by
    obtain ⟨x, xs, e, -⟩ := exec_mmStep_enabled hb
    rw [show s = { s with qMf := ⟨x :: xs, s.qMf.closed⟩ } by rw [← e]]
    rfl

theorem swap_mm_slicer (ha : dataEnabled .mm s = true) (hb : dataEnabled .slicer s = true) : Swap .mm .slicer s where
  second := enabled_of_pushed _ hb
  first := enabled_of_popped ha
  same := by
    obtain ⟨x, xs, e, -⟩ := exec_slice_enabled hb
    rw [show s = { s with qSym := ⟨x :: xs, s.qSym.closed⟩ } by rw [← e]]
    rfl

theorem swap_slicer_repacker (ha : dataEnabled .slicer s = true) (hb : dataEnabled .repacker s = true) :
    Swap .slicer .repacker s where
  second := enabled_of_pushed _ hb
  first := by
    obtain ⟨hitem, hready⟩ := Bool.and_eq_true_iff.mp ha
    obtain ⟨hbits, hsofts⟩ := Bool.and_eq_true_iff.mp hready
    exact Bool.and_eq_true_iff.mpr ⟨hitem, Bool.and_eq_true_iff.mpr ⟨enabled_of_popped (i := true) hbits, hsofts⟩⟩
  same := by
    obtain ⟨x, xs, e, -⟩ := exec_repackBit_enabled hb
    rw [show s = { s with qBit := ⟨x :: xs, s.qBit.closed⟩ } by rw [← e]]
    rfl

theorem swap_repacker_deframer (ha : dataEnabled .repacker s = true) (hb : dataEnabled .deframer s = true) :
    Swap .repacker .deframer s where
  second := enabled_of_pushed _ hb
  first := enabled_of_popped ha
  same := by
    obtain ⟨x, xs, e, -⟩ := exec_deframeByte_enabled hb
    rw [show s = { s with qByte := ⟨x :: xs, s.qByte.closed⟩ } by rw [← e]]
    rfl

/-! ### Any two agents -/

/-- Agents that are not neighbours share nothing: neither step reads or writes what the other writes. -/
theorem swap_of_place_lt {a b : Agent} (hab : chainPlace a < chainPlace b) (ha : dataEnabled a s = true)
    (hb : dataEnabled b s = true) : Swap a b s := by
  cases a with
  | host => cases ha
  | agc =>
    cases b with
    | host | agc => exact absurd hab (by decide)
    | costas => exact swap_agc_costas ha hb
    | rrc | mm | slicer | repacker | deframer => exact ⟨hb, ha, rfl⟩
  | costas =>
    cases b with
    | host | agc | costas => exact absurd hab (by decide)
    | rrc => exact swap_costas_rrc ha hb
    | mm | slicer | repacker | deframer => exact ⟨hb, ha, rfl⟩
  | rrc =>
    cases b with
    | host | agc | costas | rrc => exact absurd hab (by decide)
    | mm => exact swap_rrc_mm ha hb
    | slicer | repacker | deframer => exact ⟨hb, ha, rfl⟩
  | mm =>
    cases b with
    | host | agc | costas | rrc | mm => exact absurd hab (by decide)
    | slicer => exact swap_mm_slicer ha hb
    | repacker | deframer => exact ⟨hb, ha, rfl⟩
  | slicer =>
    cases b with
    | host | agc | costas | rrc | mm | slicer => exact absurd hab (by decide)
    | repacker => exact swap_slicer_repacker ha hb
    | deframer => exact ⟨hb, ha, rfl⟩
  | repacker =>
    cases b with
    | host | agc | costas | rrc | mm | slicer | repacker => exact absurd hab (by decide)
    | deframer => exact swap_repacker_deframer ha hb
  | deframer => cases b <;> exact absurd hab (by decide)

theorem swap_of_ne {a b : Agent} (hab : a ≠ b) (ha : dataEnabled a s = true) (hb : dataEnabled b s = true) :
    Swap a b s :=
  (chainPlace_ne hab).lt_or_gt.elim (fun h => swap_of_place_lt h ha hb) fun h => (swap_of_place_lt h hb ha).symm

theorem exec_dataStep_enabled {a : Agent} {i : Instr} (hi : dataStep a = some i) (h : dataEnabled a s = true) :
    exec i s = .next (dataTake a s) := by
  rw [exec_dataStep hi, if_pos h]

/-- Both steps in turn, each enabled when it is taken. -/
theorem execAll_dataSteps {a b : Agent} {i j : Instr} (hi : dataStep a = some i) (hj : dataStep b = some j)
    (ha : dataEnabled a s = true) (hb : dataEnabled b (dataTake a s) = true) :
    execAll [i, j] s = .next (dataTake b (dataTake a s)) := by
  simp only [execAll, exec_dataStep_enabled hi ha, exec_dataStep_enabled hj hb]

end

/-- Settles O49: the results are those of `dataTake`, which `swap_of_ne` puts in either order. -/
theorem dataStepsOfTwoAgentsCommute : Obligations.DataStepsOfTwoAgentsCommute := by
  intro s a b i j hab hi hj ha hb
  have hswap := swap_of_ne hab ha hb
  refine ⟨dataTake b (dataTake a s), execAll_dataSteps hi hj ha hswap.second, ?_⟩
  rw [hswap.same]
  exact execAll_dataSteps hj hi hb hswap.first

end Sys2Proof.Machine

/-! PROOFS. A step runs the decoded operation (20_memory.md R86, R88, 30_encoding.md R102). -/

namespace Sys2Proof

/-! ### Descriptors -/

section

variable {rest after : List Half} {i : Instr}

theorem unitOp_of_takeAddr (h : takeAddr rest = .ok (i, after)) : i.unitOp = (0, 0x1) := by
  unfold takeAddr at h
  split at h <;> cases h
  rfl

theorem unitOp_of_takeAddrData (h : takeAddrData rest = .ok (i, after)) : i.unitOp = (0, 0x2) := by
  unfold takeAddrData at h
  split at h <;> cases h
  rfl

theorem takeSample_ok {op : Cplx → Instr} (h : takeSample op rest = .ok (i, after)) : ∃ x, i = op x := by
  unfold takeSample at h
  split at h <;> cases h
  exact ⟨_, rfl⟩

theorem unitOp_of_takeF32 (h : takeF32 rest = .ok (i, after)) : i.unitOp = (3, 0x1) := by
  unfold takeF32 at h
  split at h <;> cases h
  rfl

theorem unitOp_of_takeBit (h : takeBit rest = .ok (i, after)) : i.unitOp = (9, 0x2) := by
  unfold takeBit at h
  split at h
  · split at h
    · cases h; rfl
    · split at h <;> cases h
      rfl
  · cases h

/-- The operation decoded from a unit number and an `OP` value has them (30_encoding.md R101, R110). -/
theorem unitOp_of_decodeOp {u o : ℕ} (h : decodeOp u o rest = .ok (i, after)) : i.unitOp = (u, o) := by
  unfold decodeOp at h
  split at h
  case h_1 => exact unitOp_of_takeAddr h
  case h_2 => exact unitOp_of_takeAddrData h
  case h_3 => obtain ⟨x, rfl⟩ := takeSample_ok h; rfl
  case h_12 => exact unitOp_of_takeF32 h
  case h_15 => obtain ⟨x, rfl⟩ := takeSample_ok h; rfl
  case h_19 => exact unitOp_of_takeBit h
  case h_45 => cases h
  all_goals cases h; rfl

/-- The words of a host transaction begin with the descriptor of one (R102). -/
theorem isHostDescriptor_of_decode {d : Half} (h : decode (d :: rest) = .ok (i, after))
    (hi : i.isHostTransaction = true) : isHostDescriptor d = true := by
  simp only [decode] at h
  split at h
  · cases h
  · next hz =>
    split at h
    · cases h
    · have hop := unitOp_of_decodeOp h
      have hu : descUnit d = i.unitOp.1 := by rw [hop]
      have ho : descOp d = i.unitOp.2 := by rw [hop]
      rw [isHostDescriptor, not_not.mp hz, hu, ho]
      cases i with
      | regRead | regWrite | srcPush | framePop | softPop => rfl
      | _ => cases hi

end

end Sys2Proof

namespace Sys2Proof.Machine

section

variable {s : State} {i : Instr}

/-! ### Turns -/

/-- Which operations are performed does not depend on the words to come, the schedule and the turns. -/
theorem operations_endTurn (i : Instr) (s : State) (ws : List Half) :
    operations i (endTurn { s with script := ws }) = operations i s := by
  cases i <;> rfl

/-- An operation is performed with the turn taken and the operations of the state before it recorded
(30_encoding.md R100). -/
theorem perform_endTurn (i : Instr) (s : State) (ws : List Half) :
    perform i (endTurn { s with script := ws }) = .run i { s with
      script := ws, history := ((operations i s).map Instr.descriptor).reverse ++ s.history
      schedule := s.schedule.tail, turns := s.turns + 1 } := by
  rw [perform, record, operations_endTurn]
  rfl

theorem step_of_run {t : State} (h : fetch s = .run i t) : step s = exec i t := by rw [step, h]

theorem step_of_pass {t : State} (h : fetch s = .pass t) : step s = .next t := by rw [step, h]

/-- The host takes no line while it has words to send. -/
theorem takeLine_of_script {d : Half} {rest : List Half} (h : s.script = d :: rest) : takeLine s = s := by
  obtain e | ⟨l, more, e, -⟩ := takeLine_cases s
  · exact e
  · rw [h] at e; cases e

theorem hostTurn_of_decode {after : List Half} (h : decode s.script = .ok (i, after))
    (hi : i.isHostTransaction = true) :
    hostTurn s = if held i s then .pass (endTurn s) else perform i (endTurn { s with script := after }) := by
  cases e : s.script with
  | nil => rw [e] at h; cases h
  | cons d rest =>
    have hd : isHostDescriptor d = true := isHostDescriptor_of_decode (e ▸ h) hi
    simp only [hostTurn, takeLine_of_script e, e, hd, if_true]
    rw [← e, h]

end

/-- Settles O5: whose turn it is says what `fetch` comes to, and what is performed is recorded (`perform_endTurn`). -/
theorem stepRunsDecodedOperation : Obligations.StepRunsDecodedOperation := by
  intro s
  refine ⟨fun i after hturn hdec hi => ?_, fun ws i after hturn hdec => ?_, fun a ha hturn => ?_⟩
  · have hfetch : fetch s = hostTurn s := by rw [fetch, hturn]
    rw [hostTurn_of_decode hdec hi] at hfetch
    split
    · next hheld => rw [if_pos hheld] at hfetch; exact step_of_pass hfetch
    · next hheld =>
      rw [if_neg hheld, perform_endTurn] at hfetch
      exact step_of_run hfetch
  · have hfetch : fetch s = perform i (endTurn s) := by rw [fetch, hturn]; simp only [issueTurn, hdec]
    exact step_of_run (hfetch.trans (perform_endTurn i s s.script))
  · have hfetch : fetch s = unitTurn a s := by
      rw [fetch, hturn]
      cases a with
      | host => exact absurd rfl ha
      | _ => rfl
    rw [unitTurn] at hfetch
    split
    · next i hi =>
      simp only [hi] at hfetch
      exact step_of_run (hfetch.trans (perform_endTurn i s s.script))
    · next hi =>
      simp only [hi] at hfetch
      exact step_of_pass hfetch

end Sys2Proof.Machine

/-! PROOFS. The register map (20_memory.md R90, R91): an address is that of a tap or is looked up among the other
registers. -/

namespace Sys2Proof.Machine

/-! ### The taps -/

theorem tap_regAddr_toNat (k : Fin Config.maxTaps) : (regAddr (.rrcTap k)).toNat = 0x4400 + 4 * k.val := by
  have hk : k.val < 255 := k.isLt
  rw [regAddr, BitVec.toNat_ofNat]
  omega

/-- `tapAt` answers the tap whose address it is given, and no other register. -/
theorem tapAt_eq_some_iff (a : Half) (r : Reg) : tapAt a = some r ↔ ∃ k, r = .rrcTap k ∧ regAddr r = a := by
  constructor
  · intro h
    unfold tapAt at h
    split at h
    · split at h
      · next hk ha =>
        cases h
        refine ⟨_, rfl, BitVec.eq_of_toNat_eq ?_⟩
        rw [tap_regAddr_toNat]
        dsimp only
        omega
      · cases h
    · cases h
  · rintro ⟨k, rfl, rfl⟩
    have hk : k.val < 255 := k.isLt
    unfold tapAt
    simp only [tap_regAddr_toNat]
    rw [dif_pos (by simp only [Config.maxTaps]; omega), if_pos (by omega)]
    congr 3
    omega

/-! ### The other registers -/

theorem mem_fixedRegs_or_tap (r : Reg) : r ∈ fixedRegs ∨ ∃ k, r = .rrcTap k := by
  cases r with
  | rrcTap k => exact .inr ⟨k, rfl⟩
  | ctrl u => cases u <;> exact .inl (by decide)
  | status u => cases u <;> exact .inl (by decide)
  | _ => exact .inl (by decide)

/-- The other registers have addresses of their own, aligned and outside the taps. -/
theorem fixedRegs_addresses : ∀ r ∈ fixedRegs, aligned (regAddr r) = true ∧ regAt (regAddr r) = some r := by
  decide

theorem accessed_regAddr (r : Reg) : accessed (regAddr r) = some r := by
  obtain hr | ⟨k, rfl⟩ := mem_fixedRegs_or_tap r
  · obtain ⟨ha, hreg⟩ := fixedRegs_addresses r hr
    rw [accessed, if_pos ha, hreg]
  · have ha : aligned (regAddr (.rrcTap k)) = true := by
      rw [aligned, tap_regAddr_toNat, beq_iff_eq]; omega
    rw [accessed, if_pos ha, regAt, (tapAt_eq_some_iff _ _).mpr ⟨k, rfl, rfl⟩]

theorem regAddr_of_regAt {a : Half} {r : Reg} (h : regAt a = some r) : regAddr r = a := by
  rw [regAt] at h
  cases e : tapAt a with
  | some r' =>
    rw [e] at h
    obtain ⟨k, -, ha⟩ := (tapAt_eq_some_iff a r').mp e
    exact Option.some.inj h ▸ ha
  | none =>
    rw [e] at h
    have hr := List.find?_some h
    exact beq_iff_eq.mp hr

theorem accessed_some {a : Half} {r : Reg} (h : accessed a = some r) : regAddr r = a ∧ a.toNat % 4 = 0 := by
  unfold accessed at h
  split at h
  · next ha => exact ⟨regAddr_of_regAt h, eq_of_beq ha⟩
  · cases h

/-- Settles O10: reading an address back (`accessed_regAddr`), and that only a register's own address reaches it
(`accessed_some`); the tables are compared entry by entry. -/
theorem registerAddressesAreOneToOne : Obligations.RegisterAddressesAreOneToOne :=
  ⟨accessed_regAddr, fun _ _ => accessed_some, by decide, by decide, by decide,
    fun k => ⟨tap_regAddr_toNat k, rfl⟩⟩

end Sys2Proof.Machine

/-! PROOFS. The decoder and the encoder are inverse (30_encoding.md R100, R103, R110), and the illegal descriptors (R102). -/

namespace Sys2Proof

/-! ### The fields of a descriptor -/

theorem descOf_toNat {u o : ℕ} (hu : u < 16) (ho : o < 16) : (descOf u o).toNat = u * 4096 + o * 256 := by
  rw [descOf, BitVec.toNat_ofNat]
  omega

theorem desc_fields_descOf {u o : ℕ} (hu : u < 16) (ho : o < 16) :
    descUnit (descOf u o) = u ∧ descOp (descOf u o) = o ∧ descZ (descOf u o) = 0 := by
  rw [descUnit, descOp, descZ, descOf_toNat hu ho]
  omega

/-- A descriptor with `Z` 0x00 is made of its two other fields (R100). -/
theorem descOf_desc_fields {d : Half} (hz : descZ d = 0) : descOf (descUnit d) (descOp d) = d := by
  rw [descZ] at hz
  apply BitVec.eq_of_toNat_eq
  rw [descOf, descUnit, descOp, BitVec.toNat_ofNat]
  omega

theorem Instr.unitOp_lt (i : Instr) : i.unitOp.1 < 0xA ∧ i.unitOp.2 < 16 := by
  cases i <;> simp [Instr.unitOp]

/-! ### The fields of a payload -/

theorem word32_halves (w : Word) : word32 (lowHalf w) (highHalf w) = w :=
  have h : word32 (lowHalf w) (highHalf w) = w.extractLsb' 0 32 :=
    BitVec.extractLsb'_append_extractLsb'_eq_extractLsb' rfl
  h.trans BitVec.extractLsb'_eq_self

theorem lowHalf_word32 (lo hi : Half) : lowHalf (word32 lo hi) = lo := BitVec.extractLsb'_append_eq_right

theorem highHalf_word32 (lo hi : Half) : highHalf (word32 lo hi) = hi := BitVec.extractLsb'_append_eq_left

/-! ### The three cases of `decode` -/

section

variable {d : Half}

theorem decode_of_nonzeroZ (hz : descZ d ≠ 0) (rest : List Half) : decode (d :: rest) = .error .nonzeroZ :=
  if_pos hz

theorem decode_of_reservedUnit (hz : descZ d = 0) (hu : 0xA ≤ descUnit d) (rest : List Half) :
    decode (d :: rest) = .error .reservedUnit := by
  rw [decode, if_neg (not_not.mpr hz), if_pos hu]

theorem decode_of_unit (hz : descZ d = 0) (hu : descUnit d < 0xA) (rest : List Half) :
    decode (d :: rest) = decodeOp (descUnit d) (descOp d) rest := by
  rw [decode, if_neg (not_not.mpr hz), if_neg (not_le.mpr hu)]

end

/-! ### Decoding an encoding -/

theorem takeSample_sampleWords (op : Cplx → Instr) (x : Cplx) (rest : List Half) :
    takeSample op (sampleWords x ++ rest) = .ok (op x, rest) := by
  simp only [sampleWords, List.cons_append, List.nil_append, takeSample, sampleOf, word32_halves]

/-- An operation's `UNIT`, `OP` and payload decode to the operation (R101, R103). -/
theorem decodeOp_unitOp (i : Instr) (rest : List Half) :
    decodeOp i.unitOp.1 i.unitOp.2 (i.payload ++ rest) = .ok (i, rest) := by
  cases i with
  | regWrite a v =>
    show takeAddrData (a :: lowHalf v :: highHalf v :: rest) = _
    rw [takeAddrData, word32_halves]
  | srcPush x => exact takeSample_sampleWords .srcPush x rest
  | snrUpdate x => exact takeSample_sampleWords .snrUpdate x rest
  | pllAdvance e =>
    show takeF32 (lowHalf e :: highHalf e :: rest) = _
    rw [takeF32, word32_halves]
  | deframeBit x => cases x <;> rfl
  | _ => rfl

theorem decode_encode (i : Instr) (rest : List Half) : decode (encode i ++ rest) = .ok (i, rest) := by
  obtain ⟨hu, ho⟩ := i.unitOp_lt
  obtain ⟨hunit, hop, hz⟩ := desc_fields_descOf (hu.trans (by decide)) ho
  show decode (descOf i.unitOp.1 i.unitOp.2 :: (i.payload ++ rest)) = _
  rw [decode_of_unit hz (hunit.trans_lt hu), hunit, hop, decodeOp_unitOp]

/-- Settles O1: by `decode_encode`; it needs no operand to be well-formed. -/
theorem decodeEncodeAgree : Obligations.DecodeEncodeAgree := fun i rest _ => decode_encode i rest

theorem decode_of_encode_eq {i : Instr} {ws : List Half} (h : encode i = ws) : decode ws = .ok (i, []) := by
  rw [← h, ← List.append_nil (encode i), decode_encode]

/-- Settles O4: each word sequence is the encoding of the operation it decodes to. -/
theorem writtenWordsDecode : Obligations.WrittenWordsDecode :=
  ⟨decode_of_encode_eq rfl, decode_of_encode_eq rfl, decode_of_encode_eq rfl, decode_of_encode_eq rfl,
    decode_of_encode_eq rfl, decode_of_encode_eq rfl⟩

/-! ### Encoding what was decoded -/

section

variable {i : Instr} {ws rest : List Half}

theorem payload_of_takeAddr (h : takeAddr ws = .ok (i, rest)) : i.payload ++ rest = ws := by
  unfold takeAddr at h
  split at h <;> cases h
  rfl

theorem payload_of_takeAddrData (h : takeAddrData ws = .ok (i, rest)) : i.payload ++ rest = ws := by
  unfold takeAddrData at h
  split at h <;> cases h
  rw [Instr.payload, lowHalf_word32, highHalf_word32]
  rfl

theorem payload_of_takeSample {op : Cplx → Instr} (hop : ∀ x, (op x).payload = sampleWords x)
    (h : takeSample op ws = .ok (i, rest)) : i.payload ++ rest = ws := by
  unfold takeSample at h
  split at h <;> cases h
  simp only [hop, sampleWords, sampleOf, lowHalf_word32, highHalf_word32, List.cons_append, List.nil_append]

theorem payload_of_takeF32 (h : takeF32 ws = .ok (i, rest)) : i.payload ++ rest = ws := by
  unfold takeF32 at h
  split at h <;> cases h
  rw [Instr.payload, lowHalf_word32, highHalf_word32]
  rfl

theorem payload_of_takeBit (h : takeBit ws = .ok (i, rest)) : i.payload ++ rest = ws := by
  unfold takeBit at h
  split at h
  · next b more =>
    by_cases h0 : b = 0
    · rw [if_pos h0] at h
      cases h; rw [h0]; rfl
    · rw [if_neg h0] at h
      split at h <;> cases h
      next h1 => rw [h1]; rfl
  · cases h

/-- The words an operation was decoded from begin with its payload (R103). -/
theorem payload_of_decodeOp (h : decodeOp i.unitOp.1 i.unitOp.2 ws = .ok (i, rest)) : i.payload ++ rest = ws := by
  cases i with
  | regRead a => exact payload_of_takeAddr h
  | regWrite a v => exact payload_of_takeAddrData h
  | srcPush x => exact payload_of_takeSample (fun _ => rfl) h
  | snrUpdate x => exact payload_of_takeSample (fun _ => rfl) h
  | pllAdvance e => exact payload_of_takeF32 h
  | deframeBit x => exact payload_of_takeBit h
  | _ => cases h; rfl

/-- Settles O2: the descriptor has the operation's fields (`unitOp_of_decodeOp`) and no others, and the payload is the words
taken. -/
theorem decodedWordsAreTheEncoding : Obligations.DecodedWordsAreTheEncoding := by
  intro ws i rest h
  cases ws with
  | nil => cases h
  | cons d more =>
    by_cases hz : descZ d = 0
    · by_cases hu : descUnit d < 0xA
      · rw [decode_of_unit hz hu] at h
        have hfields := unitOp_of_decodeOp h
        have hdesc : i.descriptor = d := by rw [Instr.descriptor, hfields, descOf_desc_fields hz]
        have hpayload : i.payload ++ rest = more := payload_of_decodeOp (by rw [hfields]; exact h)
        rw [encode, List.cons_append, hdesc, hpayload]
      · rw [decode_of_reservedUnit hz (not_lt.mp hu)] at h
        cases h
    · rw [decode_of_nonzeroZ hz] at h
      cases h

end

/-! ### The illegal descriptors -/

/-- The pairs (`UNIT`, `OP`) of R101. -/
def InOpTable (u o : ℕ) : Prop :=
  (u = 0 ∧ o ∈ [1, 2, 3, 4, 5, 8, 9, 0xA, 0xB]) ∨ (1 ≤ u ∧ u ≤ 9 ∧ o ∈ [1, 8, 9]) ∨ (u = 9 ∧ o = 2) ∨
  (u ∈ [1, 2, 4, 5, 7, 8, 9] ∧ o = 0xC)

theorem inOpTable_unitOp (i : Instr) : InOpTable i.unitOp.1 i.unitOp.2 := by
  cases i <;> simp [InOpTable, Instr.unitOp]

/-- An error that concerns the payload only: the descriptor is legal. -/
def DecodeError.ofPayload (e : DecodeError) : Prop := e = .truncated ∨ e = .badOperand

section

variable {ws : List Half} {e : DecodeError}

theorem takeAddr_error (h : takeAddr ws = .error e) : e.ofPayload := by
  unfold takeAddr at h
  split at h <;> cases h
  exact .inl rfl

theorem takeAddrData_error (h : takeAddrData ws = .error e) : e.ofPayload := by
  unfold takeAddrData at h
  split at h <;> cases h
  exact .inl rfl

theorem takeSample_error {op : Cplx → Instr} (h : takeSample op ws = .error e) : e.ofPayload := by
  unfold takeSample at h
  split at h <;> cases h
  exact .inl rfl

theorem takeF32_error (h : takeF32 ws = .error e) : e.ofPayload := by
  unfold takeF32 at h
  split at h <;> cases h
  exact .inl rfl

theorem takeBit_error (h : takeBit ws = .error e) : e.ofPayload := by
  unfold takeBit at h
  split at h
  · split at h
    · cases h
    · split at h <;> cases h
      exact .inr rfl
  · cases h; exact .inl rfl

/-- The fields of an operation are refused for their payload only. -/
theorem decodeOp_unitOp_error {i : Instr} (h : decodeOp i.unitOp.1 i.unitOp.2 ws = .error e) : e.ofPayload := by
  cases i with
  | regRead a => exact takeAddr_error h
  | regWrite a v => exact takeAddrData_error h
  | srcPush x => exact takeSample_error h
  | snrUpdate x => exact takeSample_error h
  | pllAdvance e => exact takeF32_error h
  | deframeBit x => exact takeBit_error h
  | _ => cases h

/-- Every pair of the table is that of an operation (R110). -/
theorem exists_unitOp {u o : ℕ} (h : InOpTable u o) : ∃ i : Instr, i.unitOp = (u, o) := by
  simp only [InOpTable, List.mem_cons, List.not_mem_nil, or_false] at h
  obtain ⟨rfl, ho⟩ | ⟨h1, h9, ho⟩ | ⟨rfl, rfl⟩ | ⟨hu, rfl⟩ := h
  · obtain rfl | rfl | rfl | rfl | rfl | rfl | rfl | rfl | rfl := ho
    exacts [⟨.regRead 0, rfl⟩, ⟨.regWrite 0 0, rfl⟩, ⟨.srcPush .zero, rfl⟩, ⟨.framePop, rfl⟩, ⟨.softPop, rfl⟩,
      ⟨.commitAll, rfl⟩, ⟨.sresetAll, rfl⟩, ⟨.stop, rfl⟩, ⟨.abort, rfl⟩]
  · obtain rfl | rfl | rfl := ho
    · interval_cases u
      exacts [⟨.agcStep, rfl⟩, ⟨.costasStep, rfl⟩, ⟨.pllAdvance 0, rfl⟩, ⟨.rrcStep, rfl⟩, ⟨.mmStep, rfl⟩,
        ⟨.snrUpdate .zero, rfl⟩, ⟨.slice, rfl⟩, ⟨.repackBit, rfl⟩, ⟨.deframeByte, rfl⟩]
    · interval_cases u
      exacts [⟨.commitAgc, rfl⟩, ⟨.commitCostas, rfl⟩, ⟨.commitPll, rfl⟩, ⟨.commitRrc, rfl⟩, ⟨.commitMm, rfl⟩,
        ⟨.commitSnr, rfl⟩, ⟨.commitSlicer, rfl⟩, ⟨.commitRepacker, rfl⟩, ⟨.commitDeframer, rfl⟩]
    · interval_cases u
      exacts [⟨.sresetAgc, rfl⟩, ⟨.sresetCostas, rfl⟩, ⟨.sresetPll, rfl⟩, ⟨.sresetRrc, rfl⟩, ⟨.sresetMm, rfl⟩,
        ⟨.sresetSnr, rfl⟩, ⟨.sresetSlicer, rfl⟩, ⟨.sresetRepacker, rfl⟩, ⟨.sresetDeframer, rfl⟩]
  · exact ⟨.deframeBit false, rfl⟩
  · obtain rfl | rfl | rfl | rfl | rfl | rfl | rfl := hu
    exacts [⟨.eosPropagateAgc, rfl⟩, ⟨.eosPropagateCostas, rfl⟩, ⟨.eosPropagateRrc, rfl⟩, ⟨.eosPropagateMm, rfl⟩,
      ⟨.eosPropagateSlicer, rfl⟩, ⟨.eosPropagateRepacker, rfl⟩, ⟨.eosPropagateDeframer, rfl⟩]

/-- A pair of the table is refused for its payload only (R101). -/
theorem decodeOp_error_of_inOpTable {u o : ℕ} (ht : InOpTable u o) (h : decodeOp u o ws = .error e) : e.ofPayload := by
  obtain ⟨i, hi⟩ := exists_unitOp ht
  refine decodeOp_unitOp_error (i := i) (ws := ws) ?_
  rw [hi]
  exact h

/-- A pair that is not in the table is no operation (R102). -/
theorem decodeOp_of_not_inOpTable {u o : ℕ} (ht : ¬ InOpTable u o) (ws : List Half) :
    decodeOp u o ws = .error .undefinedOp := by
  unfold decodeOp
  split
  case h_45 => rfl
  all_goals exact absurd (by simp [InOpTable]) ht

theorem decodeOp_illegal_iff (u o : ℕ) (ws : List Half) :
    (decodeOp u o ws = .error .nonzeroZ ∨ decodeOp u o ws = .error .reservedUnit ∨
      decodeOp u o ws = .error .undefinedOp) ↔ ¬ InOpTable u o := by
  constructor
  · rintro (h | h | h) ht <;> obtain h | h := decodeOp_error_of_inOpTable ht h <;> cases h
  · exact fun ht => .inr (.inr (decodeOp_of_not_inOpTable ht ws))

end

/-- Settles O3: by the three cases of `decode`; for a unit's descriptor it is `decodeOp_illegal_iff`. -/
theorem illegalDescriptorsAreExactlyThoseOfTheRule : Obligations.IllegalDescriptorsAreExactlyThoseOfTheRule := by
  intro d rest
  by_cases hz : descZ d = 0
  · by_cases hu : descUnit d < 0xA
    · rw [decode_of_unit hz hu, decodeOp_illegal_iff]
      exact ⟨fun ht => .inr (.inr ht), fun h =>
        (h.resolve_left (not_not.mpr hz)).resolve_left (not_le.mpr hu)⟩
    · exact iff_of_true (.inr (.inl (decode_of_reservedUnit hz (not_lt.mp hu) rest))) (.inr (.inl (not_lt.mp hu)))
  · exact iff_of_true (.inl (decode_of_nonzeroZ hz rest)) (.inl hz)

end Sys2Proof

/-! PROOFS. The event history takes the descriptors of the operations performed (30_encoding.md R100; log 19): `exec` leaves the
history alone, `fetch` records, and what is recorded is written out operation by operation. -/

namespace Sys2Proof.Machine

/-! ### The model's own fields -/

/-- The fields that are the model's own and that no operation changes (log 1, log 2, log 13, log 19). -/
def ownFields (s : State) : List Half × List Line × List Half × List Turn × ℕ :=
  (s.script, s.lines, s.history, s.schedule, s.turns)

section

variable (s : State)

theorem ownFields_resetUnit (u : UnitId) : ownFields (resetUnit u s) = ownFields s := by
  cases u <;> rfl

theorem ownFields_commitUnit (u : UnitId) : ownFields (commitUnit u s) = ownFields s := by
  simp only [ownFields, commitUnit_script, commitUnit_lines, commitUnit_history, commitUnit_schedule, commitUnit_turns]

theorem ownFields_foldl {f : UnitId → State → State} (hf : ∀ u s, ownFields (f u s) = ownFields s) (us : List UnitId) :
    ownFields (us.foldl (fun t u => f u t) s) = ownFields s := by
  induction us generalizing s with
  | nil => rfl
  | cons u us ih => exact (ih (f u s)).trans (hf u s)

theorem ownFields_commitEvery : ownFields (commitEvery s) = ownFields s :=
  ownFields_foldl s (fun u s => ownFields_commitUnit s u) UnitId.all

theorem ownFields_newSession : ownFields (newSession s) = ownFields s :=
  ownFields_foldl { emptyAll false s with aborted := false } (fun u s => ownFields_resetUnit s u) UnitId.all

theorem ownFields_ite (b : Bool) {t : State} (h : ownFields t = ownFields s) :
    ownFields (if b then t else s) = ownFields s := by
  cases b
  · rfl
  · exact h

theorem ownFields_ctrlActions (u : UnitId) (v : Word) : ownFields (ctrlActions u v s) = ownFields s := by
  rw [ctrlActions]
  split
  · exact ownFields_commitUnit s u
  · exact ownFields_ite s _ (ownFields_resetUnit s u)

theorem ownFields_gCtrlActions (v : Word) : ownFields (gCtrlActions v s) = ownFields s :=
  calc ownFields (gCtrlActions v s)
    _ = _ := ownFields_ite _ (v.getLsbD 2) rfl
    _ = _ := ownFields_ite _ (v.getLsbD 0) (ownFields_commitEvery _)
    _ = _ := ownFields_ite _ (v.getLsbD 1) (ownFields_newSession _)
    _ = ownFields s := ownFields_ite _ (v.getLsbD 3) rfl

theorem ownFields_writeReg (r : Reg) (v : Word) : ownFields (writeReg r v s) = ownFields s := by
  cases r with
  | gCtrl => exact ownFields_gCtrlActions s v
  | ctrl u => exact ownFields_ctrlActions s u v
  | _ => rfl

theorem ownFields_dataTake (a : Agent) : ownFields (dataTake a s) = ownFields s := by
  cases a with
  | slicer => rw [dataTake, sliceTake_eq]; rfl
  | _ => rfl

end

section

variable {i : Instr} {s t : State}

theorem ownFields_of_exec_eq {u : State} (e : exec i s = .next u) (hu : ownFields u = ownFields s)
    (h : exec i s = .next t) : ownFields t = ownFields s := by
  rw [e] at h
  cases h
  exact hu

theorem ownFields_of_dataStep {a : Agent} (hi : dataStep a = some i) :
    exec i s = .next t → ownFields t = ownFields s :=
  ownFields_of_exec_eq (exec_dataStep hi s) (ownFields_ite s _ (ownFields_dataTake s a))

theorem ownFields_of_commit (u : UnitId) (e : exec i s = .next (commitUnit u s)) :
    exec i s = .next t → ownFields t = ownFields s :=
  ownFields_of_exec_eq e (ownFields_commitUnit s u)

theorem ownFields_of_sreset (u : UnitId) (e : exec i s = .next (resetUnit u s)) :
    exec i s = .next t → ownFields t = ownFields s :=
  ownFields_of_exec_eq e (ownFields_resetUnit s u)

theorem ownFields_of_regRead {a : Half} : exec (.regRead a) s = .next t → ownFields t = ownFields s := by
  refine ownFields_of_exec_eq (exec_regRead a s) ?_
  split <;> rfl

theorem ownFields_of_regWrite {a : Half} {v : Word} : exec (.regWrite a v) s = .next t → ownFields t = ownFields s := by
  refine ownFields_of_exec_eq (exec_regWrite a v s) ?_
  split
  · rfl
  · next r _ =>
    split
    · rfl
    · exact ownFields_writeReg s r v

theorem ownFields_of_srcPush {x : Cplx} : exec (.srcPush x) s = .next t → ownFields t = ownFields s := by
  refine ownFields_of_exec_eq (exec_srcPush x s) ?_
  split
  · rfl
  · split <;> rfl

/-- No operation changes a field of the model's own. -/
theorem ownFields_of_exec (h : exec i s = .next t) : ownFields t = ownFields s := by
  cases i with
  | regRead a => exact ownFields_of_regRead h
  | regWrite a v => exact ownFields_of_regWrite h
  | srcPush x => exact ownFields_of_srcPush h
  | framePop => obtain ⟨f, fs, -, rfl⟩ | ⟨-, -, rfl⟩ | ⟨-, -, rfl⟩ := exec_framePop_cases h <;> rfl
  | softPop => obtain ⟨v, vs, -, rfl⟩ | ⟨-, -, rfl⟩ | ⟨-, -, rfl⟩ := exec_softPop_cases h <;> rfl
  | commitAll => exact ownFields_of_exec_eq (exec_commitAll s) (ownFields_commitEvery s) h
  | sresetAll => exact ownFields_of_exec_eq (exec_sresetAll s) (ownFields_newSession s) h
  | stop => exact ownFields_of_exec_eq (exec_stop s) rfl h
  | abort => exact ownFields_of_exec_eq (exec_abort s) rfl h
  | agcStep => exact ownFields_of_dataStep (a := .agc) rfl h
  | costasStep => exact ownFields_of_dataStep (a := .costas) rfl h
  | rrcStep => exact ownFields_of_dataStep (a := .rrc) rfl h
  | mmStep => exact ownFields_of_dataStep (a := .mm) rfl h
  | slice => exact ownFields_of_dataStep (a := .slicer) rfl h
  | repackBit => exact ownFields_of_dataStep (a := .repacker) rfl h
  | deframeByte => exact ownFields_of_dataStep (a := .deframer) rfl h
  | pllAdvance e => exact ownFields_of_exec_eq (exec_pllAdvance e s) (ownFields_ite s _ rfl) h
  | snrUpdate x => exact ownFields_of_exec_eq (exec_snrUpdate x s) (ownFields_ite s _ rfl) h
  | deframeBit x => exact ownFields_of_exec_eq (exec_deframeBit x s) (ownFields_ite s _ rfl) h
  | commitAgc => exact ownFields_of_commit .agc (exec_commitAgc s) h
  | commitCostas => exact ownFields_of_commit .costas (exec_commitCostas s) h
  | commitPll => exact ownFields_of_commit .pll (exec_commitPll s) h
  | commitRrc => exact ownFields_of_commit .rrc (exec_commitRrc s) h
  | commitMm => exact ownFields_of_commit .mm (exec_commitMm s) h
  | commitSnr => exact ownFields_of_commit .snr (exec_commitSnr s) h
  | commitSlicer => exact ownFields_of_commit .slicer (exec_commitSlicer s) h
  | commitRepacker => exact ownFields_of_commit .repacker (exec_commitRepacker s) h
  | commitDeframer => exact ownFields_of_commit .deframer (exec_commitDeframer s) h
  | sresetAgc => exact ownFields_of_sreset .agc (exec_sresetAgc s) h
  | sresetCostas => exact ownFields_of_sreset .costas (exec_sresetCostas s) h
  | sresetPll => exact ownFields_of_sreset .pll (exec_sresetPll s) h
  | sresetRrc => exact ownFields_of_sreset .rrc (exec_sresetRrc s) h
  | sresetMm => exact ownFields_of_sreset .mm (exec_sresetMm s) h
  | sresetSnr => exact ownFields_of_sreset .snr (exec_sresetSnr s) h
  | sresetSlicer => exact ownFields_of_sreset .slicer (exec_sresetSlicer s) h
  | sresetRepacker => exact ownFields_of_sreset .repacker (exec_sresetRepacker s) h
  | sresetDeframer => exact ownFields_of_sreset .deframer (exec_sresetDeframer s) h
  | eosPropagateAgc => exact ownFields_of_exec_eq (exec_eosPropagateAgc s) (ownFields_ite s _ rfl) h
  | eosPropagateCostas => exact ownFields_of_exec_eq (exec_eosPropagateCostas s) (ownFields_ite s _ rfl) h
  | eosPropagateRrc => exact ownFields_of_exec_eq (exec_eosPropagateRrc s) (ownFields_ite s _ rfl) h
  | eosPropagateMm => exact ownFields_of_exec_eq (exec_eosPropagateMm s) (ownFields_ite s _ rfl) h
  | eosPropagateSlicer => exact ownFields_of_exec_eq (exec_eosPropagateSlicer s) (ownFields_ite s _ rfl) h
  | eosPropagateRepacker => exact ownFields_of_exec_eq (exec_eosPropagateRepacker s) (ownFields_ite s _ rfl) h
  | eosPropagateDeframer => exact ownFields_of_exec_eq (exec_eosPropagateDeframer s) (ownFields_ite s _ rfl) h

theorem history_of_exec (h : exec i s = .next t) : t.history = s.history := by
  have hown := ownFields_of_exec h
  simp only [ownFields, Prod.mk.injEq] at hown
  obtain ⟨-, -, hhistory, -⟩ := hown
  exact hhistory

end

/-! ### What a turn records -/

section

variable {i : Instr} {s t : State}

/-- The host's next line changes its words and its lines only. -/
theorem takeLine_eq (s : State) : ∃ ls, takeLine s = { s with script := (takeLine s).script, lines := ls } := by
  obtain h | ⟨l, more, -, -, h⟩ := takeLine_cases s
  · exact ⟨s.lines, by rw [h]⟩
  · exact ⟨_, by rw [h]⟩

/-- Which operations are performed does not depend on the host's words and lines, the schedule and the turns. -/
theorem operations_taken (i : Instr) (s : State) (ws : List Half) (ls : List Line) :
    operations i (endTurn { s with script := ws, lines := ls }) = operations i s := by
  cases i <;> rfl

theorem history_takeLine (s : State) : (takeLine s).history = s.history := by
  obtain ⟨ls, h⟩ := takeLine_eq s
  rw [h]

theorem history_of_fetch_run (h : fetch s = .run i t) :
    t.history = ((operations i s).map Instr.descriptor).reverse ++ s.history := by
  obtain ⟨after, -, -, rfl⟩ | ⟨a, -, rfl⟩ | ⟨ws, after, -, rfl⟩ := fetch_run_cases h
  · obtain ⟨ls, hline⟩ := takeLine_eq s
    rw [record_history, hline, operations_taken]
    rfl
  · rw [record_history, operations_endTurn i s s.script]
    rfl
  · rw [record_history, operations_endTurn i s s.script]
    rfl

theorem history_of_fetch_pass (h : fetch s = .pass t) : t.history = s.history := by
  obtain rfl | rfl | ⟨rest, rfl⟩ | rfl := fetch_pass_cases h
  · rfl
  · exact history_takeLine s
  · exact history_takeLine s
  · rfl

end

/-! ### The descriptors of the operations with an operand -/

section

open Instr (descriptor)

@[simp] theorem descriptor_regRead (a : Half) : descriptor (.regRead a) = 0x0100 := by
  rw [descriptor, Instr.unitOp]; rfl

@[simp] theorem descriptor_regWrite (a : Half) (v : Word) : descriptor (.regWrite a v) = 0x0200 := by
  rw [descriptor, Instr.unitOp]; rfl

@[simp] theorem descriptor_srcPush (x : Cplx) : descriptor (.srcPush x) = 0x0300 := by
  rw [descriptor, Instr.unitOp]; rfl

@[simp] theorem descriptor_pllAdvance (e : F32) : descriptor (.pllAdvance e) = 0x3100 := by
  rw [descriptor, Instr.unitOp]; rfl

@[simp] theorem descriptor_snrUpdate (x : Cplx) : descriptor (.snrUpdate x) = 0x6100 := by
  rw [descriptor, Instr.unitOp]; rfl

@[simp] theorem descriptor_deframeBit (x : Bool) : descriptor (.deframeBit x) = 0x9200 := by
  rw [descriptor, Instr.unitOp]; rfl

end

/-! ### The events of an operation -/

/-- What the history takes when `i` is performed in `s`, the oldest first. -/
def eventsOf (i : Instr) (s : State) : List Half := (operations i s).map Instr.descriptor

section

variable {i : Instr} {s : State}

theorem eventsOf_of_happens (h : happens i s = true) :
    eventsOf i s = i.descriptor :: (starts i s).map Instr.descriptor := by
  rw [eventsOf, operations, if_pos h]
  rfl

theorem eventsOf_of_not_happens (h : happens i s = false) : eventsOf i s = [] := by
  rw [eventsOf, operations, h]
  rfl

/-- The events of a transaction that the host may have to wait for (R203-R205). -/
theorem eventsOf_of_held (hh : happens i s = !held i s) (hs : starts i s = []) :
    eventsOf i s = if held i s then [] else [i.descriptor] := by
  cases h : held i s
  · rw [eventsOf_of_happens (by rw [hh, h]; rfl), hs]
    rfl
  · exact eventsOf_of_not_happens (by rw [hh, h]; rfl)

theorem eventsOf_srcPush (x : Cplx) (s : State) :
    eventsOf (.srcPush x) s = if held (.srcPush x) s then [] else [0x0300] := by
  rw [eventsOf_of_held (i := .srcPush x) rfl rfl, descriptor_srcPush]

theorem eventsOf_regRead (a : Half) (s : State) : eventsOf (.regRead a) s = [0x0100] := by
  rw [eventsOf_of_happens (i := .regRead a) rfl, descriptor_regRead]
  rfl

/-! Data steps and end of stream -/

theorem eventsOf_costasStep (h : dataEnabled .costas s = true) : eventsOf .costasStep s = [0x2100, 0x3100] := by
  obtain ⟨x, xs, hx, -⟩ := exec_costasStep_enabled h
  rw [eventsOf_of_happens (i := .costasStep) h, starts, costasStarts, hx]
  simp only [List.map_cons, List.map_nil, descriptor_pllAdvance]
  rfl

/-- A sample completes a timing cycle exactly when the wait count is 0 (44_clock_recovery.md R262). -/
theorem mmRun_symbol (c : MmCfg) (k : MmDerived) (d : MmData) (x : Cplx) :
    (mmRun c k d x).2 = if d.wait = 0 then some (mmSymbol c (mmPoint (mmShifted c d x))) else none := by
  have hwait : (mmShifted c d x).wait = d.wait := rfl
  simp only [mmRun, hwait, Nat.pos_iff_ne_zero, ne_eq, ite_not]
  split <;> rfl

/-- `SNR_UPDATE` runs inside the `MM_STEP` that pushes a symbol, when `SNR` is valid (R262). -/
theorem mmStarts_descriptors {x : Cplx} {xs : List Cplx} (hx : s.qMf.items = x :: xs) :
    (mmStarts s).map Instr.descriptor =
      if s.mm.data.wait = 0 ∧ s.snr.status.cfgValid = true then [0x6100] else [] := by
  rw [mmStarts, hx]
  simp only [mmRun_symbol]
  by_cases hw : s.mm.data.wait = 0
  · cases hv : s.snr.status.cfgValid <;> simp [hw]
  · simp [hw]

theorem eventsOf_mmStep (h : dataEnabled .mm s = true) :
    eventsOf .mmStep s =
      if s.mm.data.wait = 0 ∧ s.snr.status.cfgValid = true then [0x5100, 0x6100] else [0x5100] := by
  obtain ⟨x, xs, hx, -⟩ := exec_mmStep_enabled h
  rw [eventsOf_of_happens (i := .mmStep) h, starts, mmStarts_descriptors hx]
  split <;> rfl

theorem eventsOf_deframeByte (h : dataEnabled .deframer s = true) :
    eventsOf .deframeByte s = 0x9100 :: List.replicate 8 0x9200 := by
  obtain ⟨y, ys, hy, -⟩ := exec_deframeByte_enabled h
  rw [eventsOf_of_happens (i := .deframeByte) h, starts, deframeStarts, hy]
  have hbits : ((byteBits y).map Instr.deframeBit).map Instr.descriptor = List.replicate 8 0x9200 := by
    simp [byteBits]
  exact congrArg _ hbits

theorem eventsOf_dataStep_not_enabled {a : Agent} (hi : dataStep a = some i) (h : dataEnabled a s = false) :
    eventsOf i s = [] := by
  cases a <;> cases hi <;> exact eventsOf_of_not_happens h

theorem eventsOf_eosStep {a : Agent} (hi : eosStep a = some i) :
    eventsOf i s = if eosEnabled a s then [i.descriptor] else [] := by
  have hhappens : happens i s = eosEnabled a s := by cases a <;> cases hi <;> rfl
  have hstarts : starts i s = [] := by cases a <;> cases hi <;> rfl
  cases h : eosEnabled a s
  · exact eventsOf_of_not_happens (hhappens.trans h)
  · rw [eventsOf_of_happens (hhappens.trans h), hstarts]
    rfl

end

/-! Register writes -/

section

variable (s : State) (v : Word)

theorem eventsOf_regWrite (a : Half) :
    eventsOf (.regWrite a v) s = 0x0200 :: (regWriteStarts a v s).map Instr.descriptor := by
  rw [eventsOf_of_happens (i := .regWrite a v) rfl, descriptor_regWrite]
  rfl

/-- Only a write of a control register starts an action (R202). -/
theorem regWriteStarts_of_not_wc {a : Half} (h : ∀ r, regAddr r = a → regClass r ≠ .wc) : regWriteStarts a v s = [] := by
  rw [regWriteStarts]
  split
  · next r hr =>
    have hclass := h r (accessed_some hr).1
    cases r with
    | gCtrl | ctrl => exact absurd rfl hclass
    | _ => rfl
  · rfl

theorem eventsOf_regWrite_reg (r : Reg) :
    eventsOf (.regWrite (regAddr r) v) s = 0x0200 :: (writeStarts r v s).map Instr.descriptor := by
  rw [eventsOf_regWrite, regWriteStarts, accessed_regAddr]

theorem commitOf_descriptor (u : UnitId) : (commitOf u).descriptor = regAddr (.ctrl u) + 0x800 := by
  cases u <;> rfl

theorem sresetOf_descriptor (u : UnitId) : (sresetOf u).descriptor = regAddr (.ctrl u) + 0x900 := by
  cases u <;> rfl

/-- `COMMIT(u)`, and `SRESET(u)` when it succeeds (R206). -/
theorem commit_descriptors (u : UnitId) :
    (commitOf u :: commitStarts u s).map Instr.descriptor =
      (regAddr (.ctrl u) + 0x800) :: (if checkCode u s = 0 then [regAddr (.ctrl u) + 0x900] else []) := by
  rw [List.map_cons, commitOf_descriptor, commitStarts, ← sresetOf_descriptor]
  split <;> rfl

theorem eventsOf_ctrl (u : UnitId) :
    eventsOf (.regWrite (regAddr (.ctrl u)) v) s = 0x0200 ::
      (if v.getLsbD 0 then
        (regAddr (.ctrl u) + 0x800) :: (if checkCode u s = 0 then [regAddr (.ctrl u) + 0x900] else [])
       else if v.getLsbD 1 then [regAddr (.ctrl u) + 0x900] else []) := by
  rw [eventsOf_regWrite_reg, writeStarts, ← commit_descriptors, ← sresetOf_descriptor]
  cases v.getLsbD 0 <;> cases v.getLsbD 1 <;> rfl

/-- The base addresses of the units (R90). -/
theorem unit_bases :
    [((0x1000 : Half), UnitId.agc), (0x2000, .costas), (0x3000, .pll), (0x4000, .rrc), (0x5000, .mm), (0x6000, .snr),
      (0x7000, .slicer), (0x8000, .repacker), (0x9000, .deframer)] = UnitId.all.map fun u => (regAddr (.ctrl u), u) :=
  rfl

theorem commitAll_descriptors :
    (commitAllStarts s).map Instr.descriptor = UnitId.all.flatMap fun u =>
      (regAddr (.ctrl u) + 0x800) :: (if checkCode u s = 0 then [regAddr (.ctrl u) + 0x900] else []) := by
  simp only [commitAllStarts, List.map_flatMap, commit_descriptors]

theorem sresetAll_descriptors : sresetAllStarts.map Instr.descriptor =
    [0x1900, 0x2900, 0x3900, 0x4900, 0x5900, 0x6900, 0x7900, 0x8900, 0x9900] := rfl

theorem eventsOf_gCtrl :
    eventsOf (.regWrite 0x0000 v) s = 0x0200 ::
      ((if v.getLsbD 3 then [0x0B00] else []) ++
       (if v.getLsbD 1 then 0x0900 :: sresetAllStarts.map Instr.descriptor else []) ++
       (if v.getLsbD 0 then 0x0800 :: (commitAllStarts s).map Instr.descriptor else []) ++
       (if v.getLsbD 2 then [0x0A00] else [])) := by
  have h := eventsOf_regWrite_reg s v .gCtrl
  simp only [writeStarts, List.map_append, apply_ite (List.map Instr.descriptor), List.map_cons, List.map_nil] at h
  exact h

end

/-- Settles O58: `history_of_fetch_run` with `history_of_exec` for a step that runs an operation, and the events of each
operation by its lemma. -/
theorem eventHistoryNamesTheOperations : Obligations.EventHistoryNamesTheOperations := by
  intro s events hevents
  obtain rfl : events = fun i => eventsOf i s := funext hevents
  refine ⟨fun i u t hf hs => ?_, fun u hf => ⟨step_of_pass hf, history_of_fetch_pass hf⟩, fun i => rfl,
    fun a => eventsOf_regRead a s, fun a v h => ?_, fun x => eventsOf_srcPush x s, eventsOf_of_held rfl rfl,
    eventsOf_of_held rfl rfl, fun h => eventsOf_of_happens h, eventsOf_costasStep, fun h => eventsOf_of_happens h,
    eventsOf_mmStep, fun h => eventsOf_of_happens h, fun h => eventsOf_of_happens h, eventsOf_deframeByte,
    fun a i hi h => eventsOf_dataStep_not_enabled hi h, fun a i hi => eventsOf_eosStep hi, fun p hp v => ?_,
    fun v => ?_⟩
  · rw [step_of_run hf] at hs
    rw [history_of_exec hs, history_of_fetch_run hf]
    rfl
  · show eventsOf (.regWrite a v) s = [0x0200]
    rw [eventsOf_regWrite, regWriteStarts_of_not_wc s v h, List.map_nil]
  · rw [unit_bases, List.mem_map] at hp
    obtain ⟨u, -, rfl⟩ := hp
    exact eventsOf_ctrl s v u
  · rw [unit_bases, List.flatMap_map]
    show eventsOf (.regWrite 0x0000 v) s = _
    rw [eventsOf_gCtrl, commitAll_descriptors, sresetAll_descriptors]

end Sys2Proof.Machine

/-! PROOFS. The host's script (30_encoding.md R111, R112): a line becomes the words of its transactions, which decode to them
again (`decode_encode`). -/

namespace Sys2Proof.Machine

/-! ### Lines -/

/-- Lines stand for host transactions only (R111). -/
theorem isHostTransaction_of_mem_lineOps {l : Line} {i : Instr} (h : i ∈ lineOps l) : i.isHostTransaction = true := by
  cases l with
  | pushn n r im => rw [List.eq_of_mem_replicate h]; rfl
  | pushbpsk bits amp sps =>
    obtain ⟨b, -, hb⟩ := List.mem_flatMap.mp h
    rw [List.eq_of_mem_replicate hb]; rfl
  | _ => rw [List.mem_singleton.mp h]; rfl

theorem lineDone_of_ne_drain {l : Line} (h : l ≠ .drain) (s : State) : lineDone l s = true := by
  rw [lineDone, bne_iff_ne.mpr h, Bool.true_or]

theorem lineDone_drain (s : State) : lineDone .drain s = s.qFrame.items.isEmpty := rfl

/-! ### `FRAME_POP` -/

section

variable {s : State}

theorem exec_framePop_of_cons {f : Frame} {fs : List Frame} (h : s.qFrame.items = f :: fs) :
    exec .framePop s = .next (respond (.frame f) { s with qFrame := ⟨fs, s.qFrame.closed⟩ }) := by
  simp only [exec, execFramePop, popped, h, List.tail_cons]

theorem exec_framePop_of_ended (h : s.qFrame = ⟨[], true⟩) : exec .framePop s = .next (respond .eos s) := by
  simp only [exec, execFramePop, h, if_true]

end

/-! ### The host's turn with a line to send -/

section

variable {s : State} {l : Line} {more : List Line} {i : Instr} {is : List Instr}

theorem takeLine_of_lines (hscript : s.script = []) (hlines : s.lines = l :: more) :
    takeLine s = { s with
      script := opWords (lineOps l), lines := if lineDone l s then more else l :: more } := by
  simp only [takeLine, hscript, hlines]

/-- The host's turn with the words of a transaction next. -/
theorem hostTurn_of_encode {after : List Half} (hwords : (takeLine s).script = encode i ++ after)
    (hi : i.isHostTransaction = true) :
    hostTurn s =
      if held i s then .pass (endTurn s) else perform i (endTurn { takeLine s with script := after }) := by
  have hdecode := decode_encode i after
  have hdesc : isHostDescriptor i.descriptor = true := isHostDescriptor_of_decode hdecode hi
  rw [encode, List.cons_append] at hwords hdecode
  simp only [hostTurn, hwords, hdesc, if_true, hdecode]

theorem perform_taken (i : Instr) (s : State) (ws : List Half) (ls : List Line) :
    perform i (endTurn { s with script := ws, lines := ls }) = .run i { s with
      script := ws, lines := ls, history := ((operations i s).map Instr.descriptor).reverse ++ s.history
      schedule := s.schedule.tail, turns := s.turns + 1 } := by
  rw [perform, record, operations_taken]
  rfl

theorem fetch_of_host (hturn : nextTurn s = .agent .host) : fetch s = hostTurn s := by rw [fetch, hturn]

/-- A line's first transaction is performed or held; the words of the others are left to send. -/
theorem step_of_line (hturn : nextTurn s = .agent .host) (hscript : s.script = []) (hlines : s.lines = l :: more)
    (hops : lineOps l = i :: is) :
    step s = if held i s then .next (endTurn s) else exec i { s with
      script := opWords is, lines := if lineDone l s then more else l :: more
      history := ((operations i s).map Instr.descriptor).reverse ++ s.history
      schedule := s.schedule.tail, turns := s.turns + 1 } := by
  have hline := takeLine_of_lines hscript hlines
  have hi : i.isHostTransaction = true := isHostTransaction_of_mem_lineOps (hops ▸ List.mem_cons_self)
  have hfetch := (fetch_of_host hturn).trans (hostTurn_of_encode (after := opWords is) (by rw [hline, hops]; rfl) hi)
  rw [hline, perform_taken] at hfetch
  split
  · next hheld => rw [if_pos hheld] at hfetch; exact step_of_pass hfetch
  · next hheld => rw [if_neg hheld] at hfetch; exact step_of_run hfetch

/-- A line that stands for no transaction only goes. -/
theorem step_of_empty_line (hturn : nextTurn s = .agent .host) (hscript : s.script = []) (hlines : s.lines = l :: more)
    (hops : lineOps l = []) : step s = .next (endTurn { s with lines := more }) := by
  have hdone : lineDone l s = true := lineDone_of_ne_drain (by rintro rfl; cases hops) s
  have hline : takeLine s = { s with lines := more } := by
    rw [takeLine_of_lines hscript hlines, hops, hdone, hscript]
    rfl
  have hwords : (takeLine s).script = [] := by rw [hline]; exact hscript
  rw [← hline]
  exact step_of_pass ((fetch_of_host hturn).trans (by simp only [hostTurn, hwords]))

/-! A `drain` -/

section

variable (hturn : nextTurn s = .agent .host) (hscript : s.script = []) (hlines : s.lines = .drain :: more)

include hturn hscript hlines

theorem step_of_drain_not_held (h : held .framePop s = false) :
    step s = exec .framePop { s with
      lines := if s.qFrame.items.isEmpty then more else .drain :: more, history := 0x0400 :: s.history
      schedule := s.schedule.tail, turns := s.turns + 1 } := by
  have hevents : (operations .framePop s).map Instr.descriptor = [0x0400] :=
    (eventsOf_of_held (i := .framePop) rfl rfl).trans (by rw [h]; rfl)
  rw [step_of_line hturn hscript hlines rfl, hevents, h, lineDone_drain, hscript]
  rfl

theorem step_of_drain_cons {f : Frame} {fs : List Frame} (hq : s.qFrame.items = f :: fs) :
    step s = .next { s with
      qFrame := ⟨fs, s.qFrame.closed⟩, responses := .frame f :: s.responses, history := 0x0400 :: s.history
      schedule := s.schedule.tail, turns := s.turns + 1 } := by
  have hheld : held .framePop s = false := by rw [held, hq]; exact Bool.and_false _
  rw [step_of_drain_not_held hturn hscript hlines hheld]
  refine (exec_framePop_of_cons (f := f) (fs := fs) ?_).trans ?_
  · exact hq
  · rw [hq, hlines]
    rfl

theorem step_of_drain_ended (hq : s.qFrame = ⟨[], true⟩) :
    step s = .next { s with
      lines := more, responses := .eos :: s.responses, history := 0x0400 :: s.history
      schedule := s.schedule.tail, turns := s.turns + 1 } := by
  have hheld : held .framePop s = false := by rw [held, hq]; rfl
  rw [step_of_drain_not_held hturn hscript hlines hheld]
  refine (exec_framePop_of_ended ?_).trans ?_
  · exact hq
  · rw [hq]
    rfl

theorem step_of_drain_waiting (hq : s.qFrame = ⟨[], false⟩) : step s = .next (endTurn s) := by
  have hheld : held .framePop s = true := by rw [held, hq]; rfl
  rw [step_of_line hturn hscript hlines rfl, if_pos hheld]

end

end

/-- Settles O59: the lines by their table, and the host's turn by what its next line is. -/
theorem scriptLinesAreSentInOrder : Obligations.ScriptLinesAreSentInOrder := by
  refine ⟨fun a v u n sps r im amp bits => ?_, fun s l more hturn hscript hlines => ⟨fun hl i is hops => ?_,
    step_of_empty_line hturn hscript hlines, ?_, ?_, ?_⟩⟩
  · have hctrl : regAddr (.ctrl u) = BitVec.ofNat 16 (0x1000 * u.number) := by rw [regAddr, Nat.mul_comm]
    refine ⟨rfl, rfl, rfl, rfl, rfl, ?_, ?_, rfl, rfl, rfl, rfl, rfl, rfl, rfl⟩ <;> rw [lineOps, hctrl]
  · rw [step_of_line hturn hscript hlines hops, lineDone_of_ne_drain hl]
    rfl
  · rintro rfl f fs hq
    exact step_of_drain_cons hturn hscript hlines hq
  · rintro rfl hq
    exact step_of_drain_ended hturn hscript hlines hq
  · rintro rfl hq
    exact step_of_drain_waiting hturn hscript hlines hq

end Sys2Proof.Machine

/-! PROOFS. The end-of-stream cascade (40_control.md R212), and that a fair scheduler carries it to its end (60_exceptions.md
R411, R415): with `Q_SRC` closed and the chain empty a turn can only close queues (`Drained.turn`), and a fair scheduler gives
the agents of the chain their turns in order (`sublist_of_fair`). -/

namespace Sys2Proof.Machine

/-! ### When a queue has ended -/

theorem ended_iff_eq {α : Type} (q : Queue α) : ended q = true ↔ q = ⟨[], true⟩ := by
  obtain ⟨items, closed⟩ := q
  rw [ended_iff, Queue.mk.injEq, and_comm]

/-! ### `EOS_PROPAGATE` of an agent -/

/-- The outputs of an agent closed (40_control.md R212). -/
def closeOutputs (a : Agent) (s : State) : State :=
  match a with
  | .host => s
  | .agc => { s with qAgc := close s.qAgc }
  | .costas => { s with qCar := close s.qCar }
  | .rrc => { s with qMf := close s.qMf }
  | .mm => { s with qSym := close s.qSym }
  | .slicer => { s with qBit := close s.qBit, qSoft := close s.qSoft }
  | .repacker => { s with qByte := close s.qByte }
  | .deframer => { s with qFrame := close s.qFrame }

theorem exec_eosStep {a : Agent} {i : Instr} (hi : eosStep a = some i) (s : State) :
    exec i s = .next (if eosEnabled a s then closeOutputs a s else s) := by
  cases a with
  | host => cases hi
  | agc => cases hi; exact exec_eosPropagateAgc s
  | costas => cases hi; exact exec_eosPropagateCostas s
  | rrc => cases hi; exact exec_eosPropagateRrc s
  | mm => cases hi; exact exec_eosPropagateMm s
  | slicer => cases hi; exact exec_eosPropagateSlicer s
  | repacker => cases hi; exact exec_eosPropagateRepacker s
  | deframer => cases hi; exact exec_eosPropagateDeframer s

/-- An `EOS_PROPAGATE` closes its outputs under its condition, however that is written. -/
theorem exec_eosStep_of_iff {a : Agent} {i : Instr} (hi : eosStep a = some i) {s : State} {p : Prop} [Decidable p]
    (hp : eosEnabled a s = true ↔ p) : exec i s = .next (if p then closeOutputs a s else s) :=
  (exec_eosStep hi s).trans (congrArg _ (if_congr hp rfl rfl))

/-- A unit with one output has its `EOS_PROPAGATE` enabled when its input has ended and that output is open. -/
theorem ended_and_open_iff {α β : Type} (q : Queue α) (r : Queue β) :
    (ended q && !r.closed) = true ↔ q = ⟨[], true⟩ ∧ r.closed = false := by
  rw [Bool.and_eq_true, ended_iff_eq, Bool.not_eq_true']

/-- `SLICER` has two outputs, and closes both when either is open. -/
theorem slicerEosReady_iff (s : State) : slicerEosReady s = true ↔
    s.qSym = ⟨[], true⟩ ∧ (s.qBit.closed = false ∨ s.qSoft.closed = false) := by
  rw [slicerEosReady, Bool.and_eq_true, ended_iff_eq, Bool.or_eq_true, Bool.not_eq_true', Bool.not_eq_true']

/-- Settles O47: each unit's condition as the statement writes it. -/
theorem eosPropagateClosesTheOutputs : Obligations.EosPropagateClosesTheOutputs := fun s =>
  ⟨exec_eosStep_of_iff (a := .agc) rfl (ended_and_open_iff s.qSrc s.qAgc),
    exec_eosStep_of_iff (a := .costas) rfl (ended_and_open_iff s.qAgc s.qCar),
    exec_eosStep_of_iff (a := .rrc) rfl (ended_and_open_iff s.qCar s.qMf),
    exec_eosStep_of_iff (a := .mm) rfl (ended_and_open_iff s.qMf s.qSym),
    exec_eosStep_of_iff (a := .slicer) rfl (slicerEosReady_iff s),
    exec_eosStep_of_iff (a := .repacker) rfl (ended_and_open_iff s.qBit s.qByte),
    exec_eosStep_of_iff (a := .deframer) rfl (ended_and_open_iff s.qByte s.qFrame)⟩

/-! ### The chain -/

/-- The queue that an agent closes, is closed: `Q_SRC` for the host, `Q_BIT` for `SLICER` (R210, R212). -/
def closedBy (a : Agent) (s : State) : Bool :=
  match a with
  | .host => s.qSrc.closed
  | .agc => s.qAgc.closed
  | .costas => s.qCar.closed
  | .rrc => s.qMf.closed
  | .mm => s.qSym.closed
  | .slicer => s.qBit.closed
  | .repacker => s.qByte.closed
  | .deframer => s.qFrame.closed

/-- The agents from the host's side to `Q_FRAME`, each with the one it takes its input from. -/
inductive Feeds : Agent → Agent → Prop where
  | agc : Feeds .host .agc
  | costas : Feeds .agc .costas
  | rrc : Feeds .costas .rrc
  | mm : Feeds .rrc .mm
  | slicer : Feeds .mm .slicer
  | repacker : Feeds .slicer .repacker
  | deframer : Feeds .repacker .deframer

/-- The chain is empty, the host has nothing to send, and `Q_FRAME` holds `frames` and the host was answered `answers`. -/
structure Drained (frames : List Frame) (answers : List Response) (s : State) : Prop where
  script : s.script = []
  lines : s.lines = []
  qSrc : s.qSrc.items = []
  qAgc : s.qAgc.items = []
  qCar : s.qCar.items = []
  qMf : s.qMf.items = []
  qSym : s.qSym.items = []
  qBit : s.qBit.items = []
  qByte : s.qByte.items = []
  qFrame : s.qFrame.items = frames
  responses : s.responses = answers

section

variable {frames : List Frame} {answers : List Response} {s t : State} {a b : Agent}

theorem Drained.closeOutputs (h : Drained frames answers s) (a : Agent) : Drained frames answers (closeOutputs a s) := by
  obtain ⟨script, lines, src, agc, car, mf, sym, bit, byte, frame, responses⟩ := h
  cases a <;> exact ⟨script, lines, src, agc, car, mf, sym, bit, byte, frame, responses⟩

theorem Drained.dataEnabled (h : Drained frames answers s) (a : Agent) : dataEnabled a s = false := by
  cases a with
  | host => rfl
  | agc => rw [Machine.dataEnabled, h.qSrc]; rfl
  | costas => rw [Machine.dataEnabled, h.qAgc]; rfl
  | rrc => rw [Machine.dataEnabled, h.qCar]; rfl
  | mm => rw [Machine.dataEnabled, h.qMf]; rfl
  | slicer => rw [Machine.dataEnabled, h.qSym]; rfl
  | repacker => rw [Machine.dataEnabled, h.qBit]; rfl
  | deframer => rw [Machine.dataEnabled, h.qByte]; rfl

theorem closedBy_closeOutputs_same (h : Feeds b a) (s : State) : closedBy a (closeOutputs a s) = true := by
  cases h <;> rfl

theorem closedBy_closeOutputs (a : Agent) (h : closedBy b s = true) : closedBy b (closeOutputs a s) = true := by
  cases a <;> cases b <;> first | exact h | rfl

/-- An agent whose input has ended closes its output, or has closed it. -/
theorem Drained.closedBy_or_eosEnabled (h : Drained frames answers s) (hf : Feeds b a) (hb : closedBy b s = true) :
    closedBy a s = true ∨ eosEnabled a s = true := by
  have hended {α : Type} {q : Queue α} (hq : q.items = []) (hc : q.closed = true) : ended q = true :=
    (ended_iff q).mpr ⟨hc, hq⟩
  rw [or_iff_not_imp_left, Bool.not_eq_true]
  intro ha
  cases hf <;> dsimp only [closedBy] at ha hb
  case agc => rw [eosEnabled, agcEosReady, hended h.qSrc hb, ha]; rfl
  case costas => rw [eosEnabled, costasEosReady, hended h.qAgc hb, ha]; rfl
  case rrc => rw [eosEnabled, rrcEosReady, hended h.qCar hb, ha]; rfl
  case mm => rw [eosEnabled, mmEosReady, hended h.qMf hb, ha]; rfl
  case slicer => rw [eosEnabled, slicerEosReady, hended h.qSym hb, ha]; rfl
  case repacker => rw [eosEnabled, repackerEosReady, hended h.qBit hb, ha]; rfl
  case deframer => rw [eosEnabled, deframerEosReady, hended h.qByte hb, ha]; rfl

/-! ### One turn -/

/-- The host with nothing to send lets its turn pass. -/
theorem step_of_host_idle (hturn : nextTurn s = .agent .host) (hscript : s.script = []) (hlines : s.lines = []) :
    step s = .next (endTurn s) := by
  have hline : takeLine s = s := by simp only [takeLine, hscript, hlines]
  exact step_of_pass ((fetch_of_host hturn).trans (by simp only [hostTurn, hline, hscript]))

/-- The state with the turn taken and the event history `events`. -/
def waited (events : List Half) (s : State) : State :=
  { s with history := events, schedule := s.schedule.tail, turns := s.turns + 1 }

theorem Drained.waited (h : Drained frames answers s) (events : List Half) :
    Drained frames answers (waited events s) :=
  ⟨h.script, h.lines, h.qSrc, h.qAgc, h.qCar, h.qMf, h.qSym, h.qBit, h.qByte, h.qFrame, h.responses⟩

theorem closedBy_waited (b : Agent) (events : List Half) (s : State) : closedBy b (waited events s) = closedBy b s := by
  cases b <;> rfl

theorem eosEnabled_waited (a : Agent) (events : List Half) (s : State) :
    eosEnabled a (waited events s) = eosEnabled a s := by
  cases a <;> rfl

/-- With the chain empty no data step is enabled: an agent's turn is its `EOS_PROPAGATE` or passes. -/
theorem Drained.agentStep (h : Drained frames answers s) (a : Agent) :
    agentStep a s = if eosEnabled a s then eosStep a else none := by
  rw [Machine.agentStep, h.dataEnabled a]
  rfl

theorem Drained.step (h : Drained frames answers s) (hturn : nextTurn s = .agent a) :
    ∃ events, step s = .next (if eosEnabled a s then Machine.closeOutputs a (Machine.waited events s)
      else Machine.waited events s) := by
  by_cases ha : a = .host
  · subst ha
    exact ⟨s.history, step_of_host_idle hturn h.script h.lines⟩
  · obtain ⟨-, -, hunit⟩ := stepRunsDecodedOperation s
    rw [hunit a ha hturn, h.agentStep a]
    cases he : eosEnabled a s
    · exact ⟨s.history, rfl⟩
    · obtain ⟨i, hi⟩ : ∃ i, eosStep a = some i := by cases a <;> first | exact ⟨_, rfl⟩ | exact absurd rfl ha
      have hexec (events : List Half) : exec i (Machine.waited events s) = _ := exec_eosStep hi _
      simp only [eosEnabled_waited, he] at hexec
      rw [if_pos rfl, hi]
      exact ⟨_, hexec (((operations i s).map Instr.descriptor).reverse ++ s.history)⟩

/-- A turn in a drained state leaves the closed queues closed, and closes the agent's own once its input is. -/
theorem Drained.turn (h : Drained frames answers s) (hturn : nextTurn s = .agent a) :
    ∃ t, Machine.step s = .next t ∧ Drained frames answers t ∧ t.schedule = s.schedule.tail ∧
      (∀ b, closedBy b s = true → closedBy b t = true) ∧
      (∀ b, Feeds b a → closedBy b s = true → closedBy a t = true) := by
  obtain ⟨events, hstep⟩ := h.step hturn
  have hkeeps (b : Agent) (hb : closedBy b s = true) : closedBy b (Machine.waited events s) = true :=
    (closedBy_waited b events s).trans hb
  refine ⟨_, hstep, ?_⟩
  cases he : eosEnabled a s
  · refine ⟨h.waited events, rfl, hkeeps, fun b hf hb => hkeeps a ?_⟩
    exact (h.closedBy_or_eosEnabled hf hb).resolve_right (by rw [he]; exact Bool.false_ne_true)
  · exact ⟨(h.waited events).closeOutputs a, by cases a <;> rfl, fun b hb => closedBy_closeOutputs a (hkeeps b hb),
      fun b hf _ => closedBy_closeOutputs_same hf _⟩

/-! ### Many turns -/

/-- When agents that feed one another have their turns in that order, whatever turns lie between, the closing of the first
one's input goes down to the last one's output (60_exceptions.md R415). -/
theorem Drained.run (as : List Agent) (h : Drained frames answers s) (hs : s.schedule = as.map .agent) :
    ∃ t, Host.Core.run core as.length s = .next t ∧ Drained frames answers t ∧
      ∀ b path, path.Sublist as → List.IsChain Feeds (b :: path) → closedBy b s = true →
        closedBy (path.getLastD b) t = true := by
  induction as generalizing s with
  | nil => exact ⟨s, rfl, h, fun b path hp _ hb => by rw [List.sublist_nil.mp hp]; exact hb⟩
  | cons a as ih =>
    obtain ⟨u, hstep, hu, hschedule, hkeeps, hcloses⟩ := h.turn (a := a) (by rw [nextTurn, hs]; rfl)
    obtain ⟨t, hrun, ht, hpath⟩ := ih hu (by rw [hschedule, hs]; rfl)
    refine ⟨t, ?_, ht, fun b path hp hc hb => ?_⟩
    · have hcore : core.step s = .next u := hstep
      simp only [List.length_cons, Host.Core.run, hcore]
      exact hrun
    · cases hp with
      | cons _ hp => exact hpath b path hp hc (hkeeps b hb)
      | cons_cons _ hp =>
        obtain ⟨hf, hc⟩ := List.isChain_cons_cons.mp hc
        rw [List.getLastD_cons]
        exact hpath a _ hp hc (hcloses b hf hb)

end

/-- A fair scheduler gives any agents their turns in order. -/
theorem sublist_of_fair {choice : ℕ → Agent} (h : FairSchedule choice) (as : List Agent) :
    ∃ n, as.Sublist ((List.range n).map choice) := by
  induction as using List.reverseRecOn with
  | nil => exact ⟨0, List.Sublist.refl []⟩
  | append_singleton as a ih =>
    obtain ⟨n, hn⟩ := ih
    obtain ⟨m, hm, rfl⟩ := h a n
    refine ⟨m + 1, ?_⟩
    rw [List.range_succ, List.map_append]
    exact (hn.trans ((List.range_sublist.mpr hm).map choice)).append (List.Sublist.refl _)

/-- Settles O48: the scheduler's turns hold the agents of the chain in order (`sublist_of_fair`), and these close the queues one
after another (`Drained.run`). -/
theorem fairTurnsCloseTheFrameQueue : Obligations.FairTurnsCloseTheFrameQueue := by
  intro choice s hfair hscript hlines _ hsrc hagc hcar hmf hsym hbit hbyte
  obtain ⟨n, hn⟩ := sublist_of_fair hfair [.agc, .costas, .rrc, .mm, .slicer, .repacker, .deframer]
  have hdrained : Drained s.qFrame.items s.responses { s with schedule := firstTurns choice n } :=
    ⟨hscript, hlines, by rw [hsrc], hagc, hcar, hmf, hsym, hbit, hbyte, rfl, rfl⟩
  have hturns : firstTurns choice n = ((List.range n).map choice).map .agent := by
    rw [firstTurns, List.map_map]; rfl
  obtain ⟨t, hrun, ht, hpath⟩ := hdrained.run _ hturns
  have hchain : List.IsChain Feeds [.host, .agc, .costas, .rrc, .mm, .slicer, .repacker, .deframer] := by
    simp [Feeds.agc, Feeds.costas, Feeds.rrc, Feeds.mm, Feeds.slicer, Feeds.repacker, Feeds.deframer]
  have hclosed : t.qFrame.closed = true := hpath .host _ hn hchain (by rw [closedBy, hsrc])
  rw [List.length_map, List.length_range] at hrun
  exact ⟨n, t, hrun, by rw [← ht.qFrame, ← hclosed], ht.responses⟩

end Sys2Proof.Machine


/-! PROOFS. The control actions (40_control.md R206-R211): what `COMMIT`, `SRESET` and the global actions leave, and that no
operation stops the machine (R214). -/

namespace Sys2Proof.Machine

section

variable {s : State}

/-! ### Every operation answers a next state -/

theorem exec_commitOf (u : UnitId) (s : State) : exec (commitOf u) s = .next (commitUnit u s) := by cases u <;> rfl

theorem exec_sresetOf (u : UnitId) (s : State) : exec (sresetOf u) s = .next (resetUnit u s) := by cases u <;> rfl

/-- A pop of an empty and open `Q_FRAME` is held (40_control.md R204; log 5). -/
theorem exec_framePop_of_waiting (h : s.qFrame = ⟨[], false⟩) : exec .framePop s = .next s := by
  simp only [exec, execFramePop, h]
  rfl

theorem exec_softPop_of_cons {x : BitVec 8} {xs : List (BitVec 8)} (h : s.qSoft.items = x :: xs) :
    exec .softPop s = .next (respond (.soft x) { s with qSoft := ⟨xs, s.qSoft.closed⟩ }) := by
  simp only [exec, execSoftPop, popped, h, List.tail_cons]

theorem exec_softPop_of_ended (h : s.qSoft = ⟨[], true⟩) : exec .softPop s = .next (respond .eos s) := by
  simp only [exec, execSoftPop, h, if_true]

/-- A pop of an empty and open `Q_SOFT` is held (40_control.md R205; log 5). -/
theorem exec_softPop_of_waiting (h : s.qSoft = ⟨[], false⟩) : exec .softPop s = .next s := by
  simp only [exec, execSoftPop, h]
  rfl

theorem exec_framePop_next (s : State) : ∃ t, exec .framePop s = .next t := by
  cases hq : s.qFrame with
  | mk items closed =>
    cases items with
    | cons f fs => exact ⟨_, exec_framePop_of_cons (by rw [hq])⟩
    | nil =>
      cases closed
      · exact ⟨_, exec_framePop_of_waiting hq⟩
      · exact ⟨_, exec_framePop_of_ended hq⟩

theorem exec_softPop_next (s : State) : ∃ t, exec .softPop s = .next t := by
  cases hq : s.qSoft with
  | mk items closed =>
    cases items with
    | cons x xs => exact ⟨_, exec_softPop_of_cons (by rw [hq])⟩
    | nil =>
      cases closed
      · exact ⟨_, exec_softPop_of_waiting hq⟩
      · exact ⟨_, exec_softPop_of_ended hq⟩

theorem exec_next (i : Instr) (s : State) : ∃ t, exec i s = .next t := by
  cases i with
  | regRead a => exact ⟨_, exec_regRead a s⟩
  | regWrite a v => exact ⟨_, exec_regWrite a v s⟩
  | srcPush x => exact ⟨_, exec_srcPush x s⟩
  | framePop => exact exec_framePop_next s
  | softPop => exact exec_softPop_next s
  | agcStep => exact ⟨_, exec_dataStep (a := .agc) rfl s⟩
  | costasStep => exact ⟨_, exec_dataStep (a := .costas) rfl s⟩
  | rrcStep => exact ⟨_, exec_dataStep (a := .rrc) rfl s⟩
  | mmStep => exact ⟨_, exec_dataStep (a := .mm) rfl s⟩
  | slice => exact ⟨_, exec_dataStep (a := .slicer) rfl s⟩
  | repackBit => exact ⟨_, exec_dataStep (a := .repacker) rfl s⟩
  | deframeByte => exact ⟨_, exec_dataStep (a := .deframer) rfl s⟩
  | pllAdvance e => exact ⟨_, exec_pllAdvance e s⟩
  | snrUpdate x => exact ⟨_, exec_snrUpdate x s⟩
  | deframeBit x => exact ⟨_, exec_deframeBit x s⟩
  | eosPropagateAgc => exact ⟨_, exec_eosPropagateAgc s⟩
  | eosPropagateCostas => exact ⟨_, exec_eosPropagateCostas s⟩
  | eosPropagateRrc => exact ⟨_, exec_eosPropagateRrc s⟩
  | eosPropagateMm => exact ⟨_, exec_eosPropagateMm s⟩
  | eosPropagateSlicer => exact ⟨_, exec_eosPropagateSlicer s⟩
  | eosPropagateRepacker => exact ⟨_, exec_eosPropagateRepacker s⟩
  | eosPropagateDeframer => exact ⟨_, exec_eosPropagateDeframer s⟩
  | commitAll | sresetAll | stop | abort => exact ⟨_, rfl⟩
  | commitAgc | commitCostas | commitPll | commitRrc | commitMm | commitSnr | commitSlicer | commitRepacker
  | commitDeframer => exact ⟨_, rfl⟩
  | sresetAgc | sresetCostas | sresetPll | sresetRrc | sresetMm | sresetSnr | sresetSlicer | sresetRepacker
  | sresetDeframer => exact ⟨_, rfl⟩

end

/-- Settles O6: an operation answers a next state (`exec_next`) and keeps the model's own fields (`ownFields_of_exec`). -/
theorem noOperationStops : Obligations.NoOperationStops := by
  intro i s
  obtain ⟨t, ht⟩ := exec_next i s
  have hown := ownFields_of_exec ht
  simp only [ownFields, Prod.mk.injEq] at hown
  exact ⟨t, ht, hown⟩

/-! ### One unit on its own -/

section

variable {s : State} {u v : UnitId}

/-- The state with everything but one unit at its reset value. -/
def unitPart (u : UnitId) (s : State) : State :=
  match u with
  | .agc => { State.reset with agc := s.agc }
  | .costas => { State.reset with costas := s.costas }
  | .pll => { State.reset with pll := s.pll }
  | .rrc => { State.reset with rrc := s.rrc }
  | .mm => { State.reset with mm := s.mm }
  | .snr => { State.reset with snr := s.snr }
  | .slicer => { State.reset with slicer := s.slicer }
  | .repacker => { State.reset with repacker := s.repacker }
  | .deframer => { State.reset with deframer := s.deframer }

theorem statusOf_unitPart (u : UnitId) (s : State) : statusOf u (unitPart u s) = statusOf u s := by cases u <;> rfl

/-- `COMMIT` of a unit reads that unit alone. -/
theorem unitPart_commitUnit_same (u : UnitId) (s : State) : unitPart u (commitUnit u s) = commitUnit u (unitPart u s) := by
  have hcode : checkCode u (unitPart u s) = checkCode u s := by cases u <;> rfl
  rw [commitUnit_eq, commitUnit_eq, hcode, commitWith, commitWith]
  split <;> cases u <;> rfl

/-- `COMMIT` of another unit leaves it alone. -/
theorem unitPart_commitUnit_other (h : v ≠ u) (s : State) : unitPart u (commitUnit v s) = unitPart u s := by
  rw [commitUnit_eq, commitWith]
  split <;> cases u <;> cases v <;> first | exact absurd rfl h | rfl

theorem unitPart_foldl_of_notMem {us : List UnitId} (h : u ∉ us) (s : State) :
    unitPart u (us.foldl (fun t w => commitUnit w t) s) = unitPart u s := by
  induction us generalizing s with
  | nil => rfl
  | cons w us ih =>
    obtain ⟨hw, hu⟩ := not_or.mp (mt List.mem_cons.mpr h)
    exact (ih hu _).trans (unitPart_commitUnit_other (Ne.symm hw) s)

/-- Of several `COMMIT`s, one for each unit, a unit sees its own alone. -/
theorem unitPart_foldl_of_mem {us : List UnitId} (hd : us.Nodup) (h : u ∈ us) (s : State) :
    unitPart u (us.foldl (fun t w => commitUnit w t) s) = unitPart u (commitUnit u s) := by
  induction us generalizing s with
  | nil => cases h
  | cons w us ih =>
    obtain ⟨hw, hd⟩ := List.nodup_cons.mp hd
    rw [List.foldl_cons]
    by_cases hu : w = u
    · subst hu
      exact unitPart_foldl_of_notMem hw _
    · rw [ih hd ((List.mem_cons.mp h).resolve_left (Ne.symm hu)), unitPart_commitUnit_same,
        unitPart_commitUnit_other hu, unitPart_commitUnit_same]

theorem unitPart_commitEvery (u : UnitId) (s : State) : unitPart u (commitEvery s) = unitPart u (commitUnit u s) :=
  unitPart_foldl_of_mem (by decide) (by cases u <;> decide) s

/-! ### The units together -/

/-- `s` with the units of `t`. -/
def withUnitsOf (t s : State) : State :=
  { s with
    agc := t.agc, costas := t.costas, pll := t.pll, rrc := t.rrc, mm := t.mm, snr := t.snr,
    slicer := t.slicer, repacker := t.repacker, deframer := t.deframer }

theorem OnlyUnits.trans {s t w : State} (h : OnlyUnits s t) (k : OnlyUnits t w) : OnlyUnits s w :=
  have hunits : t = withUnitsOf t s := h
  Eq.trans k (congrArg (withUnitsOf w) hunits :)

theorem onlyUnits_commitEvery (s : State) : OnlyUnits s (commitEvery s) := by
  rw [commitEvery]
  generalize UnitId.all = us
  induction us generalizing s with
  | nil => rfl
  | cons u us ih => exact (commitUnit_onlyUnits u s).trans (ih _)

/-- Where only units change, the units together are the state. -/
theorem OnlyUnits.eq_of_unitPart {s t : State} {f : UnitId → State} (honly : OnlyUnits s t)
    (h : ∀ u, unitPart u t = unitPart u (f u)) : t = { s with
      agc := (f .agc).agc, costas := (f .costas).costas, pll := (f .pll).pll, rrc := (f .rrc).rrc, mm := (f .mm).mm,
      snr := (f .snr).snr, slicer := (f .slicer).slicer, repacker := (f .repacker).repacker,
      deframer := (f .deframer).deframer } := by
  have hagc : t.agc = (f .agc).agc := (congrArg State.agc (h .agc) :)
  have hcostas : t.costas = (f .costas).costas := (congrArg State.costas (h .costas) :)
  have hpll : t.pll = (f .pll).pll := (congrArg State.pll (h .pll) :)
  have hrrc : t.rrc = (f .rrc).rrc := (congrArg State.rrc (h .rrc) :)
  have hmm : t.mm = (f .mm).mm := (congrArg State.mm (h .mm) :)
  have hsnr : t.snr = (f .snr).snr := (congrArg State.snr (h .snr) :)
  have hslicer : t.slicer = (f .slicer).slicer := (congrArg State.slicer (h .slicer) :)
  have hrepacker : t.repacker = (f .repacker).repacker := (congrArg State.repacker (h .repacker) :)
  have hdeframer : t.deframer = (f .deframer).deframer := (congrArg State.deframer (h .deframer) :)
  rw [OnlyUnits, hagc, hcostas, hpll, hrrc, hmm, hsnr, hslicer, hrepacker, hdeframer] at honly
  exact honly

theorem statusOf_commitEvery (u : UnitId) (s : State) : statusOf u (commitEvery s) = statusOf u (commitUnit u s) := by
  rw [← statusOf_unitPart, unitPart_commitEvery, statusOf_unitPart]

/-- A `COMMIT` that records no failure leaves its unit valid (40_control.md R206). -/
theorem statusOf_commitUnit_of_no_error (h : (statusOf u (commitUnit u s)).cfgErr = false) :
    statusOf u (commitUnit u s) = ⟨true, false, 0⟩ := by
  rw [statusOf_commitUnit_same] at h ⊢
  split at h
  · next hc => rw [if_pos hc]
  · cases h

end

/-- Settles O21: only units change, each to what its own `COMMIT` leaves (`unitPart_commitEvery`), and a `COMMIT` without
`CFG_ERR` leaves `CFG_VALID`. -/
theorem commitAllCommitsEachUnitOnItsOwn : Obligations.CommitAllCommitsEachUnitOnItsOwn := by
  refine fun s => ⟨commitEvery s, exec_commitAll s, ?_, fun h => ?_⟩
  · exact (onlyUnits_commitEvery s).eq_of_unitPart (f := fun u => commitUnit u s) fun u => unitPart_commitEvery u s
  · have hstatus (u : UnitId) : statusOf u (commitEvery s) = ⟨true, false, 0⟩ :=
      (statusOf_commitEvery u s).trans (statusOf_commitUnit_of_no_error (h u))
    exact ⟨List.all_eq_true.mpr fun u _ => by rw [hstatus u],
      List.any_eq_false.mpr fun u _ => by rw [hstatus u]; exact Bool.false_ne_true⟩

/-! ### `COMMIT` and `SRESET` written out -/

/-- A `COMMIT` whose checks pass (40_control.md R206). -/
theorem exec_commitOf_valid {u : UnitId} {s : State} (h : checkCode u s = 0) :
    exec (commitOf u) s = .next (setStatus u ⟨true, false, 0⟩ (applyUnit u s)) := by
  rw [exec_commitOf, commitUnit_eq, commitWith, if_pos h, clearCfgError]

/-- `mask(m)` of 00_scope.md R5, for the widths of a marker. -/
theorem mask_eq_ofNat {m : ℕ} (h : m ≤ 64) : mask m = BitVec.ofNat 64 (2 ^ m - 1) := by
  have hpow : 2 ^ 64 = 2 ^ m * 2 ^ (64 - m) := by rw [← pow_add, Nat.add_sub_cancel' h]
  have hle : 2 ^ m ≤ 2 ^ 64 := Nat.pow_le_pow_right two_pos h
  apply BitVec.eq_of_toNat_eq
  rw [mask, BitVec.toNat_ushiftRight, BitVec.toNat_allOnes, BitVec.toNat_ofNat, Nat.shiftRight_eq_div_pow,
    Nat.mod_eq_of_lt (by omega), hpow, mul_comm]
  simpa using Nat.mul_sub_div 0 (2 ^ (64 - m)) (2 ^ m) (by positivity)

/-- A marker that passes the check has at most 64 bits (47_deframer.md R290). -/
theorem asmLen_le_of_valid {c : DeframerCfg} (h : validateDeframer c = 0) : c.asmLen.toNat ≤ 64 := by
  by_contra hlen
  rw [validateDeframer, firstFailing_cons, if_pos] at h
  · cases h
  · exact Bool.or_eq_true_iff.mpr (.inr (decide_eq_true (not_le.mp hlen)))

/-- Settles O17: `exec_commitOf_valid` unit by unit; the values a unit takes are those of its `apply`. -/
theorem commitAppliesShadowConfiguration : Obligations.CommitAppliesShadowConfiguration := by
  refine fun s => ⟨fun h => exec_commitOf_valid (u := .agc) h, fun h => exec_commitOf_valid (u := .costas) h, ?_,
    fun h => exec_commitOf_valid (u := .rrc) h, ?_, fun h => exec_commitOf_valid (u := .snr) h,
    fun h => exec_commitOf_valid (u := .slicer) h, exec_commitOf_valid (u := .repacker) (s := s) rfl, fun h => ?_⟩
  · rintro _ _ _ rfl rfl rfl h
    exact exec_commitOf_valid (u := .pll) h
  · rintro _ rfl h
    exact exec_commitOf_valid (u := .mm) h
  · rw [← mask_eq_ofNat (asmLen_le_of_valid h)]
    exact exec_commitOf_valid (u := .deframer) h

/-- Settles O20: the equation of each unit's `SRESET`; the reset values of the model are those of the statement. -/
theorem sresetRestoresDatapath : Obligations.SresetRestoresDatapath := fun s =>
  ⟨exec_sresetAgc s, exec_sresetCostas s, exec_sresetPll s, exec_sresetRrc s, exec_sresetMm s, exec_sresetSnr s,
    exec_sresetSlicer s, exec_sresetRepacker s, exec_sresetDeframer s⟩

/-! ### The global actions -/

/-- Settles O22: the nine `SRESET`s one after another, written out, are the statement's state. -/
theorem sresetAllStartsNewSession : Obligations.SresetAllStartsNewSession := exec_sresetAll

/-- Settles O23: closing a closed queue changes nothing. -/
theorem stopClosesTheSource : Obligations.StopClosesTheSource := fun s =>
  ⟨stopInput s, exec_stop s, rfl, exec_stop (stopInput s)⟩

/-- Settles O24: the pops and the push by what they answer on an ended and on a closed queue; no data step has an input and
no `EOS_PROPAGATE` an open output. -/
theorem abortClosesAndEmptiesEveryQueue : Obligations.AbortClosesAndEmptiesEveryQueue := fun s =>
  ⟨abortAll s, exec_abort s, rfl, exec_framePop_of_ended rfl, exec_softPop_of_ended rfl,
    fun x => exec_srcPush x (abortAll s), fun a => by cases a <;> rfl, fun a => by cases a <;> rfl⟩

end Sys2Proof.Machine


/-! PROOFS. The host's transactions (40_control.md R201-R205): what a register shows as bits, what a write changes, and what a
push and the pops answer. -/

namespace Sys2Proof.Machine

/-! ### Words as bits -/

theorem toNat_append_eq {m n : ℕ} (x : BitVec m) (y : BitVec n) :
    (x ++ y).toNat = x.toNat * 2 ^ n + y.toNat := by
  rw [BitVec.toNat_append, ← Nat.shiftLeft_add_eq_or_of_lt y.isLt, Nat.shiftLeft_eq]

theorem toNat_ofBool_eq (b : Bool) : (BitVec.ofBool b).toNat = bitNat b := by cases b <;> rfl

theorem bitNat_le_one (b : Bool) : bitNat b ≤ 1 := by cases b <;> decide

theorem bitNat_getLsbD {w : ℕ} (v : BitVec w) (i : ℕ) : bitNat (v.getLsbD i) = v.toNat / 2 ^ i % 2 := by
  rw [BitVec.getLsbD, ← Nat.toNat_testBit]
  cases v.toNat.testBit i <;> rfl

/-- The low bit of a written value, as a flag register of one bit shows it (10_state.md R36). -/
theorem one_flag_eq (v : Word) : BitVec.ofNat 32 (bitNat (v.getLsbD 0)) = v &&& 1 := by
  have hone : (v &&& 1).toNat = v.toNat % 2 := by rw [BitVec.toNat_and]; exact Nat.and_one_is_mod _
  apply BitVec.eq_of_toNat_eq
  rw [hone, bitNat_getLsbD, BitVec.toNat_ofNat]
  omega

/-- The low two bits of a written value, as a flag register of two bits shows them (10_state.md R36). -/
theorem two_flags_eq (v : Word) : BitVec.ofNat 32 (bitNat (v.getLsbD 0) + 2 * bitNat (v.getLsbD 1)) = v &&& 3 := by
  have hthree : (v &&& 3).toNat = v.toNat % 4 := by rw [BitVec.toNat_and]; exact Nat.and_two_pow_sub_one_eq_mod _ 2
  apply BitVec.eq_of_toNat_eq
  rw [hthree, bitNat_getLsbD, bitNat_getLsbD, BitVec.toNat_ofNat]
  omega

/-- The layout of `STATUS` (10_state.md R34). -/
theorem statusWord_eq (u : UnitId) (s : State) :
    statusWord u s = 0#16 ++ (statusOf u s).errCode ++ 0#4 ++ BitVec.ofBool (outClosed u s) ++
      BitVec.ofBool (inClosed u s) ++ BitVec.ofBool (statusOf u s).cfgErr ++ BitVec.ofBool (statusOf u s).cfgValid := by
  have hcode := (statusOf u s).errCode.isLt
  have hvalid := bitNat_le_one (statusOf u s).cfgValid
  have herr := bitNat_le_one (statusOf u s).cfgErr
  have hin := bitNat_le_one (inClosed u s)
  have hout := bitNat_le_one (outClosed u s)
  apply BitVec.eq_of_toNat_eq
  simp only [statusWord, BitVec.toNat_ofNat, toNat_append_eq, toNat_ofBool_eq]
  omega

/-- The layout of `G_STATUS` (10_state.md R38). -/
theorem gStatusWord_eq (s : State) :
    gStatusWord s = 0#27 ++ BitVec.ofBool s.aborted ++ BitVec.ofBool (frameEos s) ++ BitVec.ofBool s.qSrc.closed ++
      BitVec.ofBool (anyErr s) ++ BitVec.ofBool (allValid s) := by
  have hvalid := bitNat_le_one (allValid s)
  have herr := bitNat_le_one (anyErr s)
  have hsrc := bitNat_le_one s.qSrc.closed
  have heos := bitNat_le_one (frameEos s)
  have haborted := bitNat_le_one s.aborted
  apply BitVec.eq_of_toNat_eq
  simp only [gStatusWord, BitVec.toNat_ofNat, toNat_append_eq, toNat_ofBool_eq]
  omega

theorem getLsbD_append_ofBool {m : ℕ} (x : BitVec m) (b : Bool) (i : ℕ) :
    (x ++ BitVec.ofBool b).getLsbD i = if i = 0 then b else x.getLsbD (i - 1) := by
  rw [BitVec.getLsbD_append]
  cases i <;> simp

theorem five_flags_getLsbD (e d c b a : Bool) (i : ℕ) :
    (0#27 ++ BitVec.ofBool e ++ BitVec.ofBool d ++ BitVec.ofBool c ++ BitVec.ofBool b ++ BitVec.ofBool a).getLsbD i =
      [a, b, c, d, e].getD i false := by
  simp only [getLsbD_append_ofBool]
  match i with
  | 0 | 1 | 2 | 3 | 4 => rfl
  | n + 5 => simp

/-- The bits of `G_STATUS` (10_state.md R38). -/
theorem gStatusWord_getLsbD (s : State) (i : ℕ) : (gStatusWord s).getLsbD i =
    [allValid s, anyErr s, s.qSrc.closed, frameEos s, s.aborted].getD i false := by
  rw [gStatusWord_eq]
  exact five_flags_getLsbD _ _ _ _ _ i

/-- `FRAME_EOS` shows that `Q_FRAME` is closed and empty (10_state.md R38). -/
theorem gStatus_frameEos_iff (s : State) : (regShows .gStatus s).getLsbD 3 = true ↔ s.qFrame = ⟨[], true⟩ := by
  rw [regShows, gStatusWord_getLsbD]
  exact ended_iff_eq s.qFrame

/-! ### What the registers show -/

/-- A response is not seen by any register. -/
theorem regShows_respond (r : Reg) (x : Response) (s : State) : regShows r (respond x s) = regShows r s := by
  cases r with
  | status u => cases u <;> rfl
  | _ => rfl

theorem exec_regRead_reg (r : Reg) (s : State) :
    exec (.regRead (regAddr r)) s = .next (respond (.okData (regShows r s)) s) := by
  rw [exec_regRead, accessed_regAddr]

theorem regShows_of_wc {r : Reg} (h : regClass r = .wc) (s : State) : regShows r s = 0 := by
  cases r with
  | gCtrl | ctrl => rfl
  | _ => cases h

/-- The units with their statuses and the closed flags of their queues (10_state.md R34). -/
theorem unit_statuses (s : State) :
    [(UnitId.agc, s.agc.status, s.qSrc.closed, s.qAgc.closed), (.costas, s.costas.status, s.qAgc.closed, s.qCar.closed),
      (.pll, s.pll.status, false, false), (.rrc, s.rrc.status, s.qCar.closed, s.qMf.closed),
      (.mm, s.mm.status, s.qMf.closed, s.qSym.closed), (.snr, s.snr.status, false, false),
      (.slicer, s.slicer.status, s.qSym.closed, s.qBit.closed),
      (.repacker, s.repacker.status, s.qBit.closed, s.qByte.closed),
      (.deframer, s.deframer.status, s.qByte.closed, s.qFrame.closed)] =
    UnitId.all.map fun u => (u, statusOf u s, inClosed u s, outClosed u s) := rfl

/-- Settles O11: the status words by their layouts, the flag registers bit by bit; every other register shows a field of the
state. -/
theorem regReadAnswersTheShownValue : Obligations.RegReadAnswersTheShownValue := by
  intro s
  refine ⟨fun r => ⟨exec_regRead_reg r s, fun h => regShows_of_wc h s⟩, fun p hp => ?_, ?_, ?_,
    gStatusWord_getLsbD s 2, gStatus_frameEos_iff s, gStatusWord_getLsbD s 4, fun i hi => ?_, rfl, rfl, ?_, ?_, rfl, rfl,
    ?_, ?_, rfl, rfl, fun k => rfl, ?_, rfl, ?_, rfl, ?_⟩
  · rw [unit_statuses, List.mem_map] at hp
    obtain ⟨u, -, rfl⟩ := hp
    exact statusWord_eq u s
  · refine (gStatusWord_getLsbD s 0).trans ?_
    simp [allValid, UnitId.all, statusOf, Bool.and_assoc]
  · refine (gStatusWord_getLsbD s 1).trans ?_
    simp [anyErr, UnitId.all, statusOf, Bool.or_assoc]
  · exact (gStatusWord_getLsbD s i).trans (List.getD_eq_default _ _ hi)
  · apply BitVec.eq_of_toNat_eq
    have hacc := s.repacker.data.acc.isLt
    rw [regShows, toNat_append_eq, BitVec.toNat_setWidth, BitVec.toNat_ofNat]
    omega
  · rw [regShows]
    cases s.deframer.data.state <;> rfl
  · rw [regShows]
    cases s.deframer.data.inv <;> rfl
  · apply BitVec.eq_of_toNat_eq
    have hwin := s.deframer.data.win.isLt
    rw [toNat_append_eq, regShows, regShows, BitVec.extractLsb'_toNat, BitVec.extractLsb'_toNat]
    omega
  · rw [regShows]
    cases s.slicer.shadow.cplx <;> cases s.slicer.shadow.softEn <;> rfl
  · rw [regShows]
    cases s.repacker.shadow.lsbFirst <;> rfl
  · rw [regShows]
    cases s.deframer.shadow.invEn <;> rfl

/-! ### Register writes -/

theorem exec_regWrite_reg {r : Reg} (h : regClass r ≠ .ro) (v : Word) (s : State) :
    exec (.regWrite (regAddr r) v) s = .next (respond .ok (writeReg r v s)) := by
  rw [exec_regWrite, accessed_regAddr]
  simp only [if_neg h]

section

variable {r : Reg} (h : regClass r = .rw) (v : Word) (s : State)

include h

/-- A register write of class `RW` changes the shadow value only (10_state.md R35). -/
theorem writeReg_of_rw : writeReg r v s = writeShadow r v s := by
  cases r with
  | gCtrl | ctrl => cases h
  | _ => rfl

theorem regShows_writeShadow_same : regShows r (writeShadow r v s) = keptBits r v := by
  cases r with
  | rrcTap k => exact Vector.getElem_set_self k.isLt
  | slicerMode => exact two_flags_eq v
  | repackerOrder | deframerFlags => exact one_flag_eq v
  | _ => first | (cases h; done) | rfl

end

/-- Every other register shows what it showed: two registers of class `RW` have different fields of the shadow
configuration, and the others show none (10_state.md R33, R35). -/
theorem regShows_writeShadow_other {r r' : Reg} (h : r' ≠ r) (v : Word) (s : State) :
    regShows r' (writeShadow r v s) = regShows r' s := by
  cases r with
  | rrcTap k =>
    cases r' with
    | rrcTap k' => exact Vector.getElem_set_ne k.isLt k'.isLt fun hk => h (congrArg _ (Fin.ext hk.symm))
    | _ => rfl
  | gCtrl | gStatus | ctrl | status | agcGain | agcGainMin | pllAlpha | pllBeta | pllPhase | pllFreq | mmMu | mmOmegaCur
  | mmOmegaLim | snrY1 | snrY2 | snrDb | snrPeakDb | repackerCarryBits | repackerCarryVal | deframerState
  | deframerMissCnt | deframerBitCnt | deframerPolarity | deframerWinLo | deframerWinHi | deframerFill => rfl
  | _ =>
    cases r' with
    | status u => cases u <;> rfl
    | _ => first | exact absurd rfl h | rfl

/-- Settles O12: the write is `writeShadow`, which the other registers do not show; in the units only a shadow value changes. -/
theorem writeThenReadShadow : Obligations.WriteThenReadShadow := by
  intro r v s h
  have hro : regClass r ≠ .ro := by rw [h]; decide
  have hresponses : (writeShadow r v s).responses = s.responses := by cases r <;> rfl
  refine ⟨_, exec_regWrite_reg hro v s, ?_⟩
  rw [writeReg_of_rw h, exec_regRead_reg, regShows_respond, regShows_writeShadow_same h, respond_responses, hresponses]
  refine ⟨congrArg _ ?_, rfl, fun r' hr' => (regShows_respond r' _ _).trans (regShows_writeShadow_other hr' v s), ?_⟩
  · rw [respond, respond_responses, hresponses]
  · cases r <;> exact ⟨rfl, rfl, rfl, rfl, rfl, rfl, rfl, rfl, rfl, rfl⟩

/-- The units with their `CTRL` addresses and actions (20_memory.md R90). -/
theorem unit_actions :
    [((0x1000 : Half), Instr.commitAgc, Instr.sresetAgc), (0x2000, .commitCostas, .sresetCostas),
      (0x3000, .commitPll, .sresetPll), (0x4000, .commitRrc, .sresetRrc), (0x5000, .commitMm, .sresetMm),
      (0x6000, .commitSnr, .sresetSnr), (0x7000, .commitSlicer, .sresetSlicer),
      (0x8000, .commitRepacker, .sresetRepacker), (0x9000, .commitDeframer, .sresetDeframer)] =
    UnitId.all.map fun u => (regAddr (.ctrl u), commitOf u, sresetOf u) := rfl

/-- A write of `CTRL` (40_control.md R202). -/
theorem exec_write_ctrl (u : UnitId) (v : Word) (s : State) : exec (.regWrite (regAddr (.ctrl u)) v) s =
    .next (respond .ok (if v.getLsbD 0 then commitUnit u s else if v.getLsbD 1 then resetUnit u s else s)) :=
  exec_regWrite_reg (r := .ctrl u) nofun v s

/-- A write of `G_CTRL` (40_control.md R202). -/
theorem exec_write_gCtrl (v : Word) (s : State) :
    exec (.regWrite (regAddr .gCtrl) v) s = .next (respond .ok (gCtrlActions v s)) :=
  exec_regWrite_reg (r := .gCtrl) nofun v s

/-- An action done or not, before others. -/
theorem execAll_actionIf {i : Instr} {act : State → State} (h : ∀ s, exec i s = .next (act s)) (b : Bool)
    (is : List Instr) (s : State) : execAll ((if b then [i] else []) ++ is) s = execAll is (actionIf b act s) := by
  cases b
  · rfl
  · simp only [if_true, List.singleton_append, execAll, h, actionIf]

theorem execAll_gCtrl (v : Word) (s : State) :
    execAll ((if v.getLsbD 3 then [.abort] else []) ++ (if v.getLsbD 1 then [.sresetAll] else []) ++
      (if v.getLsbD 0 then [.commitAll] else []) ++ (if v.getLsbD 2 then [.stop] else [])) s =
    .next (gCtrlActions v s) := by
  rw [List.append_assoc, List.append_assoc, execAll_actionIf exec_abort, execAll_actionIf exec_sresetAll,
    execAll_actionIf exec_commitAll, ← List.append_nil (if v.getLsbD 2 then [Instr.stop] else []),
    execAll_actionIf exec_stop]
  rfl

/-- Settles O13: a write of a control register is its actions, answered `OK`. -/
theorem controlWritesStartActions : Obligations.ControlWritesStartActions := by
  refine fun v s => ⟨fun u => exec_write_ctrl u v s, fun p hp => ?_, ⟨_, _, _, _, rfl, rfl, rfl, rfl, exec_write_gCtrl v s⟩,
    _, execAll_gCtrl v s, exec_write_gCtrl v s⟩
  rw [unit_actions, List.mem_map] at hp
  obtain ⟨u, -, rfl⟩ := hp
  dsimp only
  rw [exec_write_ctrl]
  refine ⟨fun hcommit => ⟨_, exec_commitOf u s, ?_⟩, fun hcommit hsreset => ⟨_, exec_sresetOf u s, ?_⟩,
    fun hcommit hsreset => ?_⟩
  · rw [hcommit]; rfl
  · rw [hcommit, hsreset]; rfl
  · rw [hcommit, hsreset]; rfl

/-! ### Pushes and pops -/

/-- Settles O15: the three cases of `exec_srcPush`. -/
theorem srcPushQueuesOrHolds : Obligations.SrcPushQueuesOrHolds := by
  intro x s
  refine ⟨congrArg some (descriptor_srcPush x), fun hclosed => ?_, fun hopen hroom => ?_, fun hopen hfull => ?_⟩
  · rw [exec_srcPush, held, hclosed]
    exact ⟨rfl, rfl⟩
  · rw [exec_srcPush, held, hopen, if_neg Bool.false_ne_true, if_pos hroom, decide_eq_false (not_le.mpr hroom), push,
      pushAll, hopen]
    exact ⟨rfl, rfl⟩
  · rw [exec_srcPush, held, hopen, if_neg Bool.false_ne_true, if_neg (not_lt.mpr hfull), decide_eq_true hfull]
    exact ⟨rfl, rfl⟩

/-- Settles O16: each pop by what its queue holds. -/
theorem popsAnswerOldestOrEos : Obligations.PopsAnswerOldestOrEos := fun s =>
  ⟨rfl, rfl, gStatus_frameEos_iff s, fun _ _ => exec_framePop_of_cons, fun _ _ => exec_softPop_of_cons,
    exec_framePop_of_ended, exec_softPop_of_ended, fun h => ⟨by rw [held, h]; rfl, exec_framePop_of_waiting h⟩,
    fun h => ⟨by rw [held, h]; rfl, exec_softPop_of_waiting h⟩⟩

end Sys2Proof.Machine

/-! PROOFS. The reciprocal of a value from 1.0 up is positive and not above 1.0 (41_agc.md R231). -/

namespace Sys2Proof

open Machine (realValue)

theorem Fp.lt_of_lt_of_le {a b c : F32} (h : Fp.lt a b = true) (g : Fp.le b c = true) : Fp.lt a c = true := by
  obtain ⟨ha, -, hab⟩ := (Fp.lt_iff a b).mp h
  obtain ⟨-, hc, hbc⟩ := (Fp.le_iff b c).mp g
  exact (Fp.lt_iff a c).mpr ⟨ha, hc, hab.trans_le hbc⟩

theorem Fp.realValue_one : realValue Fp.one = 1 := by
  rw [Fp.realValue_eq, show Fp.sign Fp.one = false from rfl, show Fp.sig Fp.one = 2 ^ 23 from rfl,
    show Fp.expo Fp.one = -23 from rfl]
  norm_num [signFactor]

/-- The least positive value. -/
theorem Fp.realValue_least : realValue 0x00000001 = 2 ^ (-149 : ℤ) := by
  rw [Fp.realValue_eq, show Fp.sign 0x00000001 = false from rfl, show Fp.sig 0x00000001 = 1 from rfl,
    show Fp.expo 0x00000001 = -149 from rfl]
  norm_num [signFactor]

/-- A finite value has a significand below `2 ^ 24` and an exponent of at most 104. -/
theorem Fp.realValue_lt_of_finite {x : F32} (h : Fp.finite x = true) : realValue x < 2 ^ 128 := by
  have hsig : (Fp.sig x : ℚ) < 2 ^ 24 := by exact_mod_cast Fp.sig_lt x
  have hexpo : Fp.expo x ≤ 104 := by
    have hlt := Fp.expField_lt x
    have hne : Fp.expField x ≠ 255 := bne_iff_ne.mp h
    unfold Fp.expo
    split <;> omega
  calc realValue x ≤ |realValue x| := le_abs_self _
    _ = Fp.sig x * 2 ^ Fp.expo x := Fp.abs_realValue x
    _ < 2 ^ 24 * 2 ^ Fp.expo x := by gcongr
    _ ≤ 2 ^ 24 * 2 ^ (104 : ℤ) := by gcongr; norm_num
    _ = 2 ^ 128 := by norm_num

/-- `1.0 / x` is not below the least positive value, since `x` is less than `2 ^ 128`. -/
theorem Fp.one_div_range {x : F32} (hx : Fp.finite x = true) (h1 : Fp.le Fp.one x = true) :
    Fp.lt Fp.zero (Fp.div Fp.one x) = true ∧ Fp.le (Fp.div Fp.one x) Fp.one = true := by
  have hone : Fp.finite Fp.one = true := by decide
  have hge : 1 ≤ realValue x := Fp.realValue_one ▸ Fp.realValue_le hone hx h1
  have hpos : 0 < realValue x := zero_lt_one.trans_le hge
  have hnz : Fp.isZero x = false :=
    Bool.eq_false_iff.mpr fun hz => hpos.ne' ((Fp.realValue_eq_zero_iff x).mpr hz)
  have hdiv := Fp.div_rounded hone hx hnz
  rw [Fp.realValue_one] at hdiv
  constructor
  · have hleast : Fp.le 0x00000001 (Fp.div Fp.one x) = true := by
      refine hdiv.finite_le (by decide) ?_
      rw [Fp.realValue_least, le_div_iff₀ hpos]
      calc (2 : ℚ) ^ (-149 : ℤ) * realValue x ≤ 2 ^ (-149 : ℤ) * 2 ^ 128 := by
            gcongr; exact (Fp.realValue_lt_of_finite hx).le
        _ ≤ 1 := by norm_num
    exact Fp.lt_of_lt_of_le (by decide) hleast
  · refine hdiv.le_finite hone ?_
    rw [Fp.realValue_one]
    exact (div_le_one hpos).mpr hge

end Sys2Proof

/-! PROOFS. The `AGC` unit (41_agc.md): what a sample does to the gain, and that `COMMIT` and every `AGC_STEP` leave the gain
between `GAIN_MIN` and `MAX_GAIN`. -/

namespace Sys2Proof.Machine

/-! ### The gain after one sample -/

/-- The gain moves to the clamped candidate `gc` when the magnitude `m` is positive and both are finite (R232). -/
theorem agcGainAfter_eq (c : AgcCfg) (gainMin g : F32) (y : Cplx) {m gc : F32} (hm : m = Fp.sqrt (Fp.mag2 y))
    (hgc : gc = Fp.add g (Fp.mul c.rate (Fp.sub c.ref m))) :
    agcGainAfter c gainMin g y =
      if Fp.lt Fp.zero m ∧ Fp.finite m ∧ Fp.finite gc then Fp.clamp gc gainMin c.maxGain else g := by
  subst hgc hm
  simp only [agcGainAfter, Bool.and_eq_true, ← ite_and, and_assoc]

/-- The clamp is the only write of the gain, so a gain in range stays in range. -/
theorem agcGainAfter_range {c : AgcCfg} {gainMin g : F32} (y : Cplx) (hlo : Fp.le gainMin g = true)
    (hhi : Fp.le g c.maxGain = true) : Fp.le gainMin (agcGainAfter c gainMin g y) = true ∧
      Fp.le (agcGainAfter c gainMin g y) c.maxGain = true := by
  rw [agcGainAfter_eq c gainMin g y rfl rfl]
  split
  · next h =>
    obtain ⟨-, -, hgc⟩ := h
    exact Fp.clamp_range (Fp.isNaN_of_finite hgc) (Fp.le_trans hlo hhi)
  · exact ⟨hlo, hhi⟩

/-- Settles O27: a step that is not enabled changes nothing; an enabled one writes the gain by `agcGainAfter` alone. -/
theorem agcStepKeepsGainInRange : Obligations.AgcStepKeepsGainInRange := by
  intro s t hs h
  obtain ⟨-, rfl⟩ | ⟨x, xs, -, -, rfl⟩ := exec_agcStep_cases h
  · exact hs
  · obtain ⟨hlo, hhi⟩ := hs
    exact agcGainAfter_range _ hlo hhi

/-! ### `COMMIT` -/

/-- The checks of `AGC` bound `MAX_GAIN` below by 1.0 (R231). -/
theorem maxGain_of_validateAgc {c : AgcCfg} (h : validateAgc c = 0) :
    Fp.finite c.maxGain = true ∧ Fp.le Fp.one c.maxGain = true := by
  have hchecks := (firstFailing_eq_zero_iff _ (by simp)).mp h
  simpa using hchecks (!(Fp.finite c.maxGain && Fp.le Fp.one c.maxGain), 0x13) (by simp)

/-- Settles O28: `COMMIT` sets the gain to 1.0, which `Fp.one_div_range` and the check of `MAX_GAIN` put in range. -/
theorem agcCommitPutsGainInRange : Obligations.AgcCommitPutsGainInRange := by
  intro s h
  obtain ⟨hfin, hone⟩ := maxGain_of_validateAgc h
  obtain ⟨hpos, hle⟩ := Fp.one_div_range hfin hone
  exact ⟨_, exec_commitOf_valid (u := .agc) h, ⟨hle, hone⟩, hpos, hle⟩

/-! ### The data step -/

/-- Settles O26: `exec_agcStep_enabled` takes the oldest sample, and `agcGainAfter_eq` gives the gain. -/
theorem agcStepScalesAndUpdatesTheGain : Obligations.AgcStepScalesAndUpdatesTheGain := by
  rintro s x xs _ _ _ _ m gc hq henabled rfl rfl rfl rfl hm hgc
  obtain ⟨x', xs', hq', -, hexec⟩ := exec_agcStep_enabled henabled
  obtain ⟨rfl, rfl⟩ := List.cons.inj (hq.symm.trans hq')
  have hgain := agcGainAfter_eq s.agc.cfg s.agc.gainMin s.agc.data.g (agcScaled s.agc.data.g x) hm hgc
  rw [hexec, agcTake, hgain]
  rfl

end Sys2Proof.Machine

/-! PROOFS. The carrier loop (42_carrier.md): what `PLL_ADVANCE` and `COSTAS_STEP` do, and that the frequency stays within
`FREQ_MAX`. -/

namespace Sys2Proof

/-- A sum of a finite value and a number is a number: only infinities of opposite signs add to a NaN (R7). -/
theorem Fp.isNaN_add_of_finite {a b : F32} (ha : Fp.finite a = true) (hb : Fp.isNaN b = false) :
    Fp.isNaN (Fp.add a b) = false := by
  cases hinf : Fp.isInf b with
  | true =>
    have hadd : Fp.add a b = b := by
      simp [Fp.add, Fp.addWith, Fp.isNaN_of_finite ha, Fp.isInf_of_finite ha, hb, hinf]
    rw [hadd, hb]
  | false =>
    have hfin : Fp.finite b = true := by simp [Fp.finite_eq, hb, hinf]
    exact (Fp.add_rounded ha hfin).1

end Sys2Proof

namespace Sys2Proof.Machine

/-! ### The loop frequency -/

/-- The candidate of the frequency is a number, since the clipped error is finite, so the clamp puts it in range (R244). -/
theorem pllAdvanced_freq_range {c : PllCfg} {k : PllDerived} {d : PllData} (e : F32)
    (hmax : Fp.finite c.freqMax = true) (hbeta : Fp.finite k.beta = true)
    (hlo : Fp.le (Fp.neg c.freqMax) d.freq = true) (hhi : Fp.le d.freq c.freqMax = true) :
    Fp.le (Fp.neg c.freqMax) (pllAdvanced c k d e).freq = true ∧
      Fp.le (pllAdvanced c k d e).freq c.freqMax = true := by
  have hfreq : Fp.finite d.freq = true := Fp.finite_of_le_of_le ((Fp.finite_neg _).trans hmax) hmax hlo hhi
  have hstep : Fp.isNaN (Fp.mul k.beta (Fp.clip1 e)) = false := (Fp.mul_rounded hbeta (Fp.clip1_range e).1).1
  exact Fp.clamp_range (Fp.isNaN_add_of_finite hfreq hstep) (Fp.le_trans hlo hhi)

/-- Settles O30: the frequency is written by `pllAdvanced` alone, whichever of the two operations runs. -/
theorem loopKeepsFrequencyInRange : Obligations.LoopKeepsFrequencyInRange := by
  rintro s t ⟨hlo, hhi⟩ hmax hbeta (⟨e, h⟩ | h)
  · rw [exec_pllAdvance] at h
    cases h
    split
    · exact pllAdvanced_freq_range e hmax hbeta hlo hhi
    · exact ⟨hlo, hhi⟩
  · obtain ⟨-, rfl⟩ | ⟨x, xs, -, -, rfl⟩ := exec_costasStep_cases h
    · exact ⟨hlo, hhi⟩
    · exact pllAdvanced_freq_range _ hmax hbeta hlo hhi

/-! ### The operations -/

/-- The wrap step with `PI`, `-PI` and `TWO_PI` of R8 written out. -/
theorem wrapPhase_eq (p : F32) : wrapPhase p =
    if Fp.lt 0x40490FDB p then Fp.sub p 0x40C90FDB
    else if Fp.lt p 0xC0490FDB then Fp.add p 0x40C90FDB else p := by
  have hneg : Fp.neg Fp.pi = 0xC0490FDB := by decide
  rw [wrapPhase, hneg]
  rfl

/-- The loop update through its intermediate values `e1`, `f` and `p1` (R244). -/
theorem pllAdvanced_eq (c : PllCfg) (k : PllDerived) (d : PllData) {e e1 f p1 : F32} (he : e1 = Fp.clip1 e)
    (hf : f = Fp.clamp (Fp.add d.freq (Fp.mul k.beta e1)) (Fp.neg c.freqMax) c.freqMax)
    (hp : p1 = Fp.add (Fp.add d.phase f) (Fp.mul k.alpha e1)) : pllAdvanced c k d e = ⟨wrapPhase p1, f⟩ := by
  subst hp hf he
  rfl

/-- `PLL_ADVANCE` of a valid `PLL` updates the loop state (R84, R244). -/
theorem exec_pllAdvance_valid {s : State} (h : s.pll.status.cfgValid = true) (e : F32) :
    exec (.pllAdvance e) s = .next (pllTake e s) := by
  rw [exec_pllAdvance, if_pos h]

/-- Settles O29: `pllAdvanced_eq` gives the new loop state and `wrapPhase_eq` its phase. -/
theorem pllAdvanceUpdatesFreqThenPhase : Obligations.PllAdvanceUpdatesFreqThenPhase := by
  rintro s e e1 f _ p1 hvalid he rfl hf hp
  rw [exec_pllAdvance_valid hvalid, pllTake, pllAdvanced_eq s.pll.cfg s.pll.derived s.pll.data he hf hp, wrapPhase_eq]

/-- The step of `COSTAS` needs a valid `PLL` (R84). -/
theorem pllValid_of_costasReady {s : State} (h : costasReady s = true) : s.pll.status.cfgValid = true := by
  simp only [costasReady, Bool.and_eq_true] at h
  obtain ⟨⟨-, hpll⟩, -⟩ := h
  exact hpll

/-- Settles O31: `exec_costasStep_enabled` takes the oldest sample, and the loop update does not read the queues. -/
theorem costasStepDerotatesAndAdvancesTheLoop : Obligations.CostasStepDerotatesAndAdvancesTheLoop := by
  rintro s x xs _ _ _ _ _ hq henabled rfl rfl rfl rfl rfl
  obtain ⟨x', xs', hq', hready, hexec⟩ := exec_costasStep_enabled henabled
  obtain ⟨rfl, rfl⟩ := List.cons.inj (hq.symm.trans hq')
  exact ⟨_, exec_pllAdvance_valid (pllValid_of_costasReady hready) _, hexec⟩

end Sys2Proof.Machine

/-! PROOFS. The matched filter (43_rrc.md): the accumulation, the delay line and the outputs of a run of inserted
values, and `RRC_STEP`. -/

namespace Sys2Proof.Machine

/-! ### The accumulation -/

/-- The two components are accumulated apart, each product rounded before it is added (43_rrc.md R252). -/
theorem foldl_firAdd (ps : List (F32 × Cplx)) (acc : Cplx) : ps.foldl firAdd acc =
    ⟨(ps.map fun p => Fp.mul p.1 p.2.re).foldl Fp.add acc.re,
      (ps.map fun p => Fp.mul p.1 p.2.im).foldl Fp.add acc.im⟩ := by
  induction ps generalizing acc with
  | nil => rfl
  | cons p ps ih => exact ih (firAdd acc p)

/-- The sum in each component: the rounded products in increasing `k`, added from the first product on (R252). -/
theorem firSum_zip {hs res ims : List F32} {line : List Cplx}
    (hre : res = List.zipWith (fun h u => Fp.mul h u.re) hs line)
    (him : ims = List.zipWith (fun h u => Fp.mul h u.im) hs line) :
    firSum (hs.zip line) = ⟨res.tail.foldl Fp.add (res.headD 0), ims.tail.foldl Fp.add (ims.headD 0)⟩ := by
  have hproducts (f : F32 × Cplx → F32) : List.zipWith (fun h u => f (h, u)) hs line = (hs.zip line).map f :=
    List.map_zip_eq_zipWith.symm
  rw [hre, him, hproducts fun p => Fp.mul p.1 p.2.re, hproducts fun p => Fp.mul p.1 p.2.im]
  cases hs.zip line with
  | nil => rfl
  | cons p ps => exact foldl_firAdd ps _

/-- An output reads the first `n` entries of the delay line only. -/
theorem firOut_of_take_eq {n : ℕ} {d : Vector Cplx Config.maxTaps} {line : List Cplx}
    (taps : Vector F32 Config.maxTaps) (h : d.toList.take n = line.take n) :
    firOut n taps d = Fp.fin0c (firSum ((taps.toList.take n).zip line)) := by
  have hzip : (taps.toList.zip d.toList).take n = (taps.toList.take n).zip line := calc
    _ = (taps.toList.take n).zip (line.take n) := h ▸ List.take_zipWith
    _ = ((taps.toList.take n).take n).zip (line.take n) := by rw [List.take_take, Nat.min_self]
    _ = ((taps.toList.take n).zip line).take n := List.take_zipWith.symm
    _ = (taps.toList.take n).zip line := List.take_of_length_le (by simp)
  rw [firOut, hzip]

theorem finiteC_of_mem_firRun (n : ℕ) (taps : Vector F32 Config.maxTaps) (us : List Cplx)
    (d : Vector Cplx Config.maxTaps) : ∀ y ∈ (firRun n taps us d).2, Fp.finiteC y = true := by
  induction us generalizing d with
  | nil => exact fun _ h => absurd h List.not_mem_nil
  | cons u us ih => exact List.forall_mem_cons.mpr ⟨Fp.finiteC_fin0c _, ih _⟩

/-- Output `r` is the output for the delay line after the first `r + 1` values. -/
theorem firRun_getElem? (n : ℕ) (taps : Vector F32 Config.maxTaps) {us : List Cplx} {r : ℕ} (hr : r < us.length)
    (d : Vector Cplx Config.maxTaps) :
    (firRun n taps us d).2[r]? = some (firOut n taps (firRun n taps (us.take (r + 1)) d).1) := by
  induction us generalizing d r with
  | nil => exact absurd hr (Nat.not_lt_zero r)
  | cons u us ih =>
    cases r with
    | zero => rfl
    | succ r => exact ih (Nat.lt_of_succ_lt_succ hr) (inserted n u d)

/-! ### The delay line -/

section

variable {n : ℕ} (hpos : 1 ≤ n) (hmax : n ≤ Config.maxTaps)
include hpos hmax

/-- With a legal number of taps the shifted line has `P_MAX_TAPS` entries, so `inserted` never reads its padding. -/
theorem inserted_toList (u : Cplx) (d : Vector Cplx Config.maxTaps) :
    (inserted n u d).toList = shiftedLine n u d.toList := by
  have hlen : (shiftedLine n u d.toList).length = Config.maxTaps := by
    simp [shiftedLine]
    omega
  apply List.ext_getElem
  · rw [hlen, Vector.length_toList]
  · intro i _ hi
    simp [inserted, List.getElem?_eq_getElem hi]

/-- The part of the shifted line an insertion writes. -/
theorem shifted_length (u : Cplx) (d : Vector Cplx Config.maxTaps) : (u :: d.toList.take (n - 1)).length = n := by
  simp; omega

theorem inserted_take (u : Cplx) (d : Vector Cplx Config.maxTaps) :
    (inserted n u d).toList.take n = (u :: d.toList).take n := by
  rw [inserted_toList hpos hmax, shiftedLine, List.take_left' (shifted_length hpos hmax u d)]
  obtain ⟨m, rfl⟩ := Nat.exists_eq_add_of_le' hpos
  rfl

theorem inserted_drop (u : Cplx) (d : Vector Cplx Config.maxTaps) :
    (inserted n u d).toList.drop n = d.toList.drop n := by
  rw [inserted_toList hpos hmax, shiftedLine, List.drop_left' (shifted_length hpos hmax u d)]

/-- The first `n` entries of the line are the last `n` values inserted, the newest first (43_rrc.md R252). -/
theorem firRun_line_take (taps : Vector F32 Config.maxTaps) (us : List Cplx) (d : Vector Cplx Config.maxTaps) :
    (firRun n taps us d).1.toList.take n = (us.reverse ++ d.toList).take n := by
  induction us generalizing d with
  | nil => rfl
  | cons u us ih =>
    have hfirst := congrArg (List.take (n - us.length)) (inserted_take hpos hmax u d)
    simp only [List.take_take, Nat.min_eq_left (Nat.sub_le _ _)] at hfirst
    simp only [firRun, ih, List.reverse_cons, List.append_assoc, List.singleton_append, List.take_append,
      List.length_reverse, hfirst]

theorem firRun_line_drop (taps : Vector F32 Config.maxTaps) (us : List Cplx) (d : Vector Cplx Config.maxTaps) :
    (firRun n taps us d).1.toList.drop n = d.toList.drop n := by
  induction us generalizing d with
  | nil => rfl
  | cons u us ih => exact (ih _).trans (inserted_drop hpos hmax u d)

end

/-! ### The operation -/

/-- The limits a legal configuration of `RRC` keeps (43_rrc.md R251). -/
theorem rrc_limits_of_valid {c : RrcCfg} (h : validateRrc c = 0) :
    1 ≤ c.ntaps.toNat ∧ c.ntaps.toNat ≤ Config.maxTaps ∧ 1 ≤ c.interp.toNat := by
  rw [validateRrc, firstFailing_eq_zero_iff _ (by simp)] at h
  simp only [List.forall_mem_cons, Bool.or_eq_false_iff, decide_eq_false_iff_not] at h
  omega

theorem tapCount_of_valid {c : RrcCfg} (h : validateRrc c = 0) : tapCount c = c.ntaps.toNat := by
  obtain ⟨hpos, hmax, -⟩ := rrc_limits_of_valid h
  rw [tapCount, Nat.min_eq_left hmax, Nat.max_eq_right hpos]

theorem stuffed_eq {l : ℕ} (h : 1 ≤ l) (x : Cplx) :
    stuffed l x = Fp.fin0c x :: List.replicate (l - 1) Cplx.zero :=
  List.take_of_length_le (by simp; omega)

theorem stuffed_length (l : ℕ) (x : Cplx) : (stuffed l x).length = l := by
  simp [stuffed]; omega

/-- The first `r + 1` stuffed values, the newest first: `r` zeros, then the sample (R252). -/
theorem stuffed_take_reverse {l r : ℕ} (h : r < l) (x : Cplx) :
    ((stuffed l x).take (r + 1)).reverse = List.replicate r Cplx.zero ++ [Fp.fin0c x] := by
  rw [stuffed_eq (Nat.one_le_of_lt h), List.take_succ_cons, List.take_replicate,
    Nat.min_eq_left (Nat.le_sub_one_of_lt h), List.reverse_cons, List.reverse_replicate]

/-- The first `n` entries of the line after the sample and `r` zeros (R252). -/
theorem firRun_stuffed_take {n l r : ℕ} (hpos : 1 ≤ n) (hmax : n ≤ Config.maxTaps) (h : r < l)
    (taps : Vector F32 Config.maxTaps) (x : Cplx) (d : Vector Cplx Config.maxTaps) :
    (firRun n taps ((stuffed l x).take (r + 1)) d).1.toList.take n =
      (List.replicate r Cplx.zero ++ Fp.fin0c x :: d.toList).take n := by
  rw [firRun_line_take hpos hmax, stuffed_take_reverse h, List.append_assoc, List.singleton_append]

/-- Settles O32: `firRun_getElem?` names the line of output `r`, `firRun_stuffed_take` says what stands in it, and
`firSum_zip` gives the sum over it; the line left behind is the one of the last output. -/
theorem rrcStepFiltersTheZeroStuffedSample : Obligations.RrcStepFiltersTheZeroStuffedSample := by
  rintro s x xs n l hq henabled hvalid rfl rfl
  obtain ⟨hpos, hmax, hinterp⟩ := rrc_limits_of_valid hvalid
  obtain ⟨x', xs', hq', -, hexec⟩ := exec_rrcStep_enabled henabled
  obtain ⟨rfl, rfl⟩ := List.cons.inj (hq.symm.trans hq')
  simp only [rrcTake, tapCount_of_valid hvalid] at hexec
  refine ⟨_, _, hexec, (firRun_length _ _ _ _).trans (stuffed_length _ x), finiteC_of_mem_firRun _ _ _ _, ?_, ?_,
    firRun_line_drop hpos hmax _ _ _⟩
  · intro r line res ims hr hline hre him
    have htake := firRun_stuffed_take hpos hmax hr s.rrc.cfg.taps x s.rrc.data.d
    have hstuffed : List.replicate r Cplx.zero ++ Fp.fin0c x :: s.rrc.data.d.toList = line := hline.symm
    rw [hstuffed] at htake
    rw [firRun_getElem? _ _ (hr.trans_eq (stuffed_length _ x).symm), firOut_of_take_eq _ htake, firSum_zip hre him]
    rfl
  · have hlast := firRun_stuffed_take hpos hmax (Nat.sub_one_lt_of_lt hinterp) s.rrc.cfg.taps x s.rrc.data.d
    rwa [Nat.sub_add_cancel hinterp, List.take_of_length_le (stuffed_length _ x).le] at hlast

end Sys2Proof.Machine

/-! PROOFS. The `MM` unit (44_clock_recovery.md): what a sample does to the datapath when it is skipped and when it
completes a timing cycle, and that `omega` stays between `OMEGA_MIN` and `OMEGA_MAX`. -/

namespace Sys2Proof.Machine

/-! ### One sample -/

/-- While `wait` is positive a sample fills the history and counts down, and no symbol leaves (R262). -/
theorem mmRun_of_wait_pos {d : MmData} (h : 0 < d.wait) (c : MmCfg) (k : MmDerived) (x : Cplx) :
    mmRun c k d x = ({ mmShifted c d x with wait := d.wait - 1 }, none) := if_pos h

/-- With `wait` 0 a sample completes a timing cycle (R262). -/
theorem mmRun_of_wait_zero {d : MmData} (h : d.wait = 0) (c : MmCfg) (k : MmDerived) (x : Cplx) :
    mmRun c k d x =
      let d1 := mmShifted c d x
      let r := mmDetected c d1 (mmPoint d1)
      (mmAdvanced c k r.2 r.1, some (mmSymbol c (mmPoint d1))) := if_neg h.not_gt

/-! ### `omega` -/

/-- The timing error detector writes the decision history alone. -/
theorem mmDetected_omega (c : MmCfg) (d : MmData) (p0 : Cplx) : (mmDetected c d p0).2.omega = d.omega := by
  unfold mmDetected
  split <;> rfl

/-- The candidate of `omega` is a number, since the clipped error is finite, so the clamp puts it in range (R262). -/
theorem mmAdvanced_omega_range {c : MmCfg} {k : MmDerived} {d : MmData} (e : F32)
    (homega : Fp.finite d.omega = true) (hgain : Fp.finite c.gainOmega = true)
    (hbounds : Fp.le k.omegaMin k.omegaMax = true) :
    Fp.le k.omegaMin (mmAdvanced c k d e).omega = true ∧ Fp.le (mmAdvanced c k d e).omega k.omegaMax = true := by
  have hstep : Fp.isNaN (Fp.mul c.gainOmega (Fp.clip1 e)) = false := (Fp.mul_rounded hgain (Fp.clip1_range e).1).1
  exact Fp.clamp_range (Fp.isNaN_add_of_finite homega hstep) hbounds

/-- A skipped sample keeps `omega`; a completed cycle clamps it. -/
theorem mmRun_omega_range {c : MmCfg} {k : MmDerived} {d : MmData} (x : Cplx)
    (homega : Fp.finite d.omega = true) (hgain : Fp.finite c.gainOmega = true)
    (hlo : Fp.le k.omegaMin d.omega = true) (hhi : Fp.le d.omega k.omegaMax = true) :
    Fp.le k.omegaMin (mmRun c k d x).1.omega = true ∧ Fp.le (mmRun c k d x).1.omega k.omegaMax = true := by
  obtain hwait | hwait := Nat.eq_zero_or_pos d.wait
  · rw [mmRun_of_wait_zero hwait]
    exact mmAdvanced_omega_range _ (by rw [mmDetected_omega]; exact homega) hgain (Fp.le_trans hlo hhi)
  · rw [mmRun_of_wait_pos hwait]
    exact ⟨hlo, hhi⟩

/-- Settles O34: a step that is not enabled changes nothing; an enabled one writes `omega` by `mmRun` alone. -/
theorem mmStepKeepsOmegaInRange : Obligations.MmStepKeepsOmegaInRange := by
  rintro s t ⟨hlo, hhi⟩ homega hgain h
  obtain ⟨-, rfl⟩ | ⟨x, xs, -, -, rfl⟩ := exec_mmStep_cases h
  · exact ⟨hlo, hhi⟩
  · rw [mmTake_eq]
    exact mmRun_omega_range x homega hgain hlo hhi

/-! ### The data step -/

/-- The history after a sample, its newer entry `b` written out (R262). -/
theorem mmShifted_eq (c : MmCfg) (d : MmData) (x : Cplx) {b : Cplx}
    (hb : b = if c.mode = 0 then ⟨Fp.fin0 x.re, 0⟩ else ⟨Fp.fin0 x.re, Fp.fin0 x.im⟩) :
    mmShifted c d x = { d with a := d.b, b := b } := by
  subst hb
  rfl

/-- The datapath and the symbol after a completed cycle, through the interpolated sample `p0`, the clipped error `e`, the
candidate `mu1` and its floor `adv` (R262). -/
theorem mmRun_cycle {c : MmCfg} {k : MmDerived} {d : MmData} {x b p0 : Cplx} {e mu1 : F32} {adv : Int}
    (hwait : d.wait = 0) (hshift : mmShifted c d x = { d with a := d.b, b := b })
    (hp : p0 = mmPoint { d with a := d.b, b := b })
    (he : e = Fp.clip1 (if c.mode = 0 then mmErrorReal d.last p0.re else mmErrorComplex d p0))
    (hmu : mu1 = Fp.add (Fp.add d.mu d.omega) (Fp.mul c.gainMu e)) (hadv : adv = Fp.floorInt mu1) :
    mmRun c k d x =
      ({ a := d.b, b := b, wait := (adv - 1).toNat
         mu := Fp.sub mu1 (Fp.ofInt adv)
         omega := Fp.clamp (Fp.add d.omega (Fp.mul c.gainOmega e)) k.omegaMin k.omegaMax
         last := if c.mode = 0 then p0.re else d.last
         p1 := if c.mode = 0 then d.p1 else p0
         p2 := if c.mode = 0 then d.p2 else d.p1
         c1 := if c.mode = 0 then d.c1 else decC p0
         c2 := if c.mode = 0 then d.c2 else d.c1 }, some (mmSymbol c p0)) := by
  rw [mmRun_of_wait_zero hwait, hshift]
  dsimp only
  rw [← hp, mmDetected]
  subst hadv hmu he
  by_cases hmode : c.mode = 0
  · simp only [if_pos hmode]; rfl
  · simp only [if_neg hmode]; rfl

/-- An enabled `MM_STEP` runs the datapath on the oldest sample, and gives its symbol to `SNR` and `Q_SYM` (R262). -/
theorem exec_mmStep_of_items {s : State} {x : Cplx} {xs : List Cplx} (hq : s.qMf.items = x :: xs)
    (h : dataEnabled .mm s = true) :
    exec .mmStep s = .next { s with
      qMf := ⟨xs, s.qMf.closed⟩
      mm.data := (mmRun s.mm.cfg s.mm.derived s.mm.data x).1
      snr := snrFed (mmRun s.mm.cfg s.mm.derived s.mm.data x).2 s.snr
      qSym := pushAll s.qSym (mmRun s.mm.cfg s.mm.derived s.mm.data x).2.toList } := by
  obtain ⟨x', xs', hq', -, hexec⟩ := exec_mmStep_enabled h
  obtain ⟨rfl, rfl⟩ := List.cons.inj (hq.symm.trans hq')
  rw [hexec, mmTake_eq]

/-- `SNR_UPDATE` changes `SNR` as a symbol given to it by `MM` does (R262, R272). -/
theorem exec_snrUpdate_eq_snrFed (x : Cplx) (s : State) :
    exec (.snrUpdate x) s = .next { s with snr := snrFed (some x) s.snr } := by
  rw [exec_snrUpdate, snrFed]
  split <;> rfl

/-- Settles O33: `exec_mmStep_of_items` reduces the step to `mmRun`, which `mmRun_of_wait_pos` and `mmRun_cycle` give in the
two cases of `wait`. -/
theorem mmStepRecoversSymbols : Obligations.MmStepRecoversSymbols := by
  intro s x xs b p0 hq henabled hb hp
  have hshift := mmShifted_eq s.mm.cfg s.mm.data x hb
  refine ⟨fun hwait => ?_, fun e mu1 adv hwait he hmu hadv =>
    ⟨_, _, rfl, exec_snrUpdate_eq_snrFed _ s, ?_⟩⟩
  · rw [exec_mmStep_of_items hq henabled, mmRun_of_wait_pos hwait, hshift]
    simp only [snrFed, Option.toList_none, pushAll_nil]
  · rw [exec_mmStep_of_items hq henabled, mmRun_cycle hwait hshift hp he hmu hadv]
    rfl

end Sys2Proof.Machine

/-! PROOFS. The `SNR` unit (45_snr.md): `SNR_CALC` as one chain of cases, what `SNR_UPDATE` leaves, and that the estimate and
its peak stay in `[0, SNR_CAP]`. -/

namespace Sys2Proof

/-- The greater of two values under a bound is under the bound. -/
theorem Fp.max_le {a b c : F32} (ha : Fp.le a c = true) (hb : Fp.le b c = true) : Fp.le (Fp.max a b) c = true := by
  unfold Fp.max
  split
  · exact ha
  · exact hb

/-- A value clamped to be non-negative is zero exactly when it was not positive. -/
theorem Fp.eq_zero_nonneg (v : F32) : Fp.eq (if Fp.lt Fp.zero v then v else Fp.zero) Fp.zero = !Fp.lt Fp.zero v := by
  cases hv : Fp.lt Fp.zero v with
  | false =>
    rw [if_neg Bool.false_ne_true]
    decide
  | true =>
    obtain ⟨-, -, hrank⟩ := (Fp.lt_iff _ _).mp hv
    simp [Fp.eq, hrank.ne']

end Sys2Proof

namespace Sys2Proof.Machine

/-! ### The estimate -/

/-- `SNR_CALC` through the unclamped noise: a noise that is not positive is the noise zero of R273, and answers the cap. -/
theorem snrCalc_eq (cap y1 y2 : F32) {d sig noise r : F32} (hd : d = Fp.sub (Fp.mul (Fp.mul Fp.two y1) y1) y2)
    (hsig : sig = if Fp.lt Fp.zero d then Fp.sqrt d else Fp.zero) (hnoise : noise = Fp.sub y1 sig)
    (hr : r = Fp.mul Fp.ten (Fp.log10 (Fp.div sig noise))) :
    snrCalc cap y1 y2 =
      if Fp.lt Fp.zero sig = false then Fp.zero
      else if Fp.lt Fp.zero noise = false then cap
      else if Fp.finite (Fp.div sig noise) = false then cap
      else if Fp.isNaN r then Fp.zero else Fp.max Fp.zero (Fp.min r cap) := by
  simp only [snrCalc, ← hd, ← hsig, ← hnoise, Fp.eq_zero_nonneg]
  subst hr
  cases hpos : Fp.lt Fp.zero noise with
  | false => simp
  | true => simp

/-- Every answer of `SNR_CALC` is zero, the cap, or a number clamped between them (R273). -/
theorem snrCalc_range {cap : F32} (hcap : Fp.le Fp.zero cap = true) (y1 y2 : F32) :
    Fp.le Fp.zero (snrCalc cap y1 y2) = true ∧ Fp.le (snrCalc cap y1 y2) cap = true := by
  obtain ⟨hzero, hnum, -⟩ := (Fp.le_iff _ _).mp hcap
  have hlow : Fp.le Fp.zero Fp.zero = true ∧ Fp.le Fp.zero cap = true := ⟨Fp.le_refl hzero, hcap⟩
  have hhigh : Fp.le Fp.zero cap = true ∧ Fp.le cap cap = true := ⟨hcap, Fp.le_refl hnum⟩
  unfold snrCalc
  extract_lets d sig noise0 noise q r
  split
  · exact hlow
  split
  · exact hhigh
  split
  · exact hhigh
  split
  · exact hlow
  · next hr =>
    have hmin := (Fp.min_range (Bool.eq_false_iff.mpr hr) hnum).2
    exact ⟨(Fp.max_range hzero ((Fp.le_iff _ _).mp hmin).1).1, Fp.max_le hcap hmin⟩

/-! ### The range -/

/-- A symbol, or none, given to `SNR` keeps the range: the estimate is recomputed and the peak is the greater of two values
in range (R272). -/
theorem snrInRange_of_fed {s t : State} {p : Option Cplx} (hs : SnrInRange s)
    (hcap : Fp.le Fp.zero s.snr.cfg.cap = true) (ht : t.snr = snrFed p s.snr) : SnrInRange t := by
  rw [SnrInRange, ht]
  cases p with
  | none => exact hs
  | some x =>
    rw [snrFed]
    split
    · obtain ⟨-, -, hpeak, hpeakCap⟩ := hs
      obtain ⟨hsnr, hsnrCap⟩ := snrCalc_range hcap
        (snrUpdated s.snr.cfg s.snr.oneMAlpha s.snr.data x).y1 (snrUpdated s.snr.cfg s.snr.oneMAlpha s.snr.data x).y2
      have hmax := (Fp.max_range ((Fp.le_iff _ _).mp hpeak).2.1 ((Fp.le_iff _ _).mp hsnr).2.1).1
      exact ⟨hsnr, hsnrCap, Fp.le_trans hpeak hmax, Fp.max_le hpeakCap hsnrCap⟩
    · exact hs

/-- `MM_STEP` gives `SNR` one symbol or none (44_clock_recovery.md R262). -/
theorem exec_mmStep_snr {s t : State} (h : exec .mmStep s = .next t) : ∃ p, t.snr = snrFed p s.snr := by
  obtain ⟨-, rfl⟩ | ⟨x, xs, -, -, rfl⟩ := exec_mmStep_cases h
  · exact ⟨none, rfl⟩
  · rw [mmTake_eq]
    exact ⟨_, rfl⟩

/-- Settles O36: either operation gives `SNR` one symbol or none, which keeps the range (`snrInRange_of_fed`). -/
theorem snrStaysInRange : Obligations.SnrStaysInRange := by
  rintro s t hs hcap (⟨x, h⟩ | h)
  · cases (exec_snrUpdate_eq_snrFed x s).symm.trans h
    exact snrInRange_of_fed (p := some x) hs hcap rfl
  · obtain ⟨p, hp⟩ := exec_mmStep_snr h
    exact snrInRange_of_fed hs hcap hp

/-! ### The operation -/

/-- The squared magnitude by the components of the symbol (R10, R272; log 17). -/
theorem snrPower_eq (x : Cplx) : snrPower x =
    if Fp.finite x.re = true ∧ Fp.finite x.im = true then Fp.add (Fp.mul x.re x.re) (Fp.mul x.im x.im)
    else Config.snrPowerOpen x := by
  simp only [snrPower, Fp.finiteC, Fp.mag2, Bool.and_eq_true]

/-- Settles O35: with `SNR` valid the update is `snrUpdated`, whose power `snrPower_eq` and whose estimate `snrCalc_eq`
write out; `min` and `max` are the conditionals of R7. -/
theorem snrUpdateAveragesAndEstimates : Obligations.SnrUpdateAveragesAndEstimates := by
  intro s x m2 y1 y2 d sig noise r capped est hvalid hm2 hy1 hy2 hd hsig hnoise hr hcapped hest
  have hpower : snrPower x = m2 := (snrPower_eq x).trans hm2.symm
  have hy1 : snrAverage s.snr.cfg s.snr.oneMAlpha s.snr.data.y1 m2 = y1 := hy1.symm
  have hy2 : snrAverage s.snr.cfg s.snr.oneMAlpha s.snr.data.y2 (Fp.mul m2 m2) = y2 := hy2.symm
  have hcalc : snrCalc s.snr.cfg.cap y1 y2 = est := by
    rw [snrCalc_eq _ _ _ hd hsig hnoise hr, hest, hcapped]
    rfl
  rw [exec_snrUpdate, if_pos hvalid]
  simp only [snrTake, snrUpdated, hpower, hy1, hy2, hcalc]
  rfl

end Sys2Proof.Machine

/-! PROOFS. The soft value (46_slicer_repacker.md R282): the nearest integer with ties to even (`IsNearestEven`) fixes the
sign, and saturation keeps it. -/

namespace Sys2Proof

open Machine (realValue)

/-! ### The nearest integer, ties to even -/

/-- `r` is an integer nearest to `x`, and the even one of two that are equally near. -/
def IsNearestEven (x : ℚ) (r : ℤ) : Prop :=
  |(r : ℚ) - x| ≤ 1 / 2 ∧ (|(r : ℚ) - x| = 1 / 2 → r % 2 = 0)

theorem IsRne.isNearestEven {x : ℚ} {n : ℕ} (h : IsRne x n) : IsNearestEven x n := by
  obtain ⟨hlo, hhi, heven⟩ := h
  rw [IsNearestEven, Int.cast_natCast]
  refine ⟨abs_le.mpr ⟨by linarith, by linarith⟩, fun heq => ?_⟩
  have htie : x = (n : ℚ) - 1 / 2 ∨ x = (n : ℚ) + 1 / 2 := by
    obtain h | h := eq_or_eq_neg_of_abs_eq heq
    · exact .inl (by linarith)
    · exact .inr (by linarith)
  have := heven htie
  omega

theorem IsNearestEven.neg {x : ℚ} {r : ℤ} (h : IsNearestEven x r) : IsNearestEven (-x) (-r) := by
  have hdist : |((-r : ℤ) : ℚ) - -x| = |(r : ℚ) - x| := by
    rw [Int.cast_neg, ← neg_sub', abs_neg]
  obtain ⟨hle, heven⟩ := h
  rw [IsNearestEven, hdist, Int.neg_emod_two]
  exact ⟨hle, heven⟩

/-- The tie at one half goes to the even 0. -/
theorem IsNearestEven.pos_iff {x : ℚ} {r : ℤ} (h : IsNearestEven x r) : 0 < r ↔ 1 / 2 < x := by
  obtain ⟨hle, heven⟩ := h
  obtain ⟨hlo, hhi⟩ := abs_le.mp hle
  constructor
  · intro hr
    by_contra hx
    have hone : (1 : ℚ) ≤ r := by exact_mod_cast hr
    have hr1 : (r : ℚ) = 1 := by linarith
    have hx1 : x = 1 / 2 := by linarith
    have := heven (by rw [hr1, hx1]; norm_num)
    have hr1 : r = 1 := by exact_mod_cast hr1
    omega
  · intro hx
    have : (0 : ℚ) < r := by linarith
    exact_mod_cast this

theorem IsNearestEven.neg_iff {x : ℚ} {r : ℤ} (h : IsNearestEven x r) : r < 0 ↔ x < -(1 / 2) := by
  rw [← neg_pos, h.neg.pos_iff, lt_neg]

theorem Fp.roundTiesEven_isNearestEven (x : F32) : IsNearestEven (realValue x) (Fp.roundTiesEven x) := by
  have hmagnitude : IsNearestEven ((Fp.sig x : ℚ) * 2 ^ Fp.expo x)
      (if 0 ≤ Fp.expo x then ((Fp.sig x * 2 ^ (Fp.expo x).toNat : ℕ) : ℤ)
        else (Fp.roundShift (Fp.sig x) (-Fp.expo x).toNat : ℕ)) := by
    split
    · next hexpo =>
      have hint : (Fp.sig x : ℚ) * 2 ^ Fp.expo x = ((Fp.sig x * 2 ^ (Fp.expo x).toNat : ℕ) : ℚ) := by
        rw [← Int.toNat_of_nonneg hexpo]
        push_cast
        rw [zpow_natCast, Int.toNat_natCast]
      rw [hint]
      exact (IsRne.nat _).isNearestEven
    · next hexpo =>
      have hquot : (Fp.sig x : ℚ) * 2 ^ Fp.expo x = (Fp.sig x : ℚ) / 2 ^ (-Fp.expo x).toNat := by
        rw [div_eq_mul_inv, ← zpow_natCast, ← zpow_neg, Int.toNat_of_nonneg (by omega), neg_neg]
      rw [hquot]
      exact (roundShift_isRne _ _).isNearestEven
  rw [Fp.realValue_eq, Fp.roundTiesEven]
  cases hsign : Fp.sign x with
  | false => simpa [signFactor] using hmagnitude
  | true => simpa [signFactor] using hmagnitude.neg

/-! ### Infinities and the halves -/

theorem Fp.eq_infinity_of_isInf {x : F32} (h : Fp.isInf x = true) :
    x = if Fp.sign x then 0xFF800000 else 0x7F800000 := by
  obtain ⟨hexp, hfrac⟩ : Fp.expField x = 255 ∧ Fp.fracField x = 0 := by simpa [Fp.isInf] using h
  have hrank : Fp.rank x = if Fp.sign x then -0x7F800000 else 0x7F800000 := by
    rw [Fp.rank, Fp.magnitude_eq, hexp, hfrac]
    rfl
  cases hs : Fp.sign x with
  | false => exact Fp.eq_of_rank_eq (by rw [hrank, hs]; decide) (by decide)
  | true => exact Fp.eq_of_rank_eq (by rw [hrank, hs]; decide) (by decide)

/-- A value is finite, one of the two infinities, or a NaN. -/
theorem Fp.class_cases (t : F32) :
    Fp.finite t = true ∨ t = 0x7F800000 ∨ t = 0xFF800000 ∨ Fp.isNaN t = true := by
  cases hnan : Fp.isNaN t with
  | true => exact .inr (.inr (.inr rfl))
  | false =>
    cases hinf : Fp.isInf t with
    | false => exact .inl (by rw [Fp.finite_eq, hnan, hinf]; rfl)
    | true =>
      have ht := Fp.eq_infinity_of_isInf hinf
      cases hsign : Fp.sign t with
      | false => exact .inr (.inl (by rwa [hsign] at ht))
      | true => exact .inr (.inr (.inl (by rwa [hsign] at ht)))

theorem Fp.realValue_half : realValue 0x3F000000 = 1 / 2 := by
  rw [Fp.realValue_eq, show Fp.sign 0x3F000000 = false from rfl, show Fp.sig 0x3F000000 = 2 ^ 23 from rfl,
    show Fp.expo 0x3F000000 = -24 from rfl]
  norm_num [signFactor]

theorem Fp.realValue_negHalf : realValue 0xBF000000 = -(1 / 2) := by
  rw [show (0xBF000000 : F32) = Fp.neg 0x3F000000 from rfl, Fp.realValue_neg, Fp.realValue_half]

end Sys2Proof

namespace Sys2Proof.Machine

/-! ### The soft value of a product -/

section

variable {scale v : F32}

theorem softInt_of_isNaN (h : Fp.isNaN (Fp.mul v scale) = true) : softInt scale v = 0 := if_pos h

theorem softInt_of_infinity (h : Fp.mul v scale = 0x7F800000) : softInt scale v = 127 := by
  rw [softInt, h]
  rfl

theorem softInt_of_negInfinity (h : Fp.mul v scale = 0xFF800000) : softInt scale v = -127 := by
  rw [softInt, h]
  rfl

theorem softInt_of_finite (h : Fp.finite (Fp.mul v scale) = true) :
    softInt scale v = if 127 < Fp.roundTiesEven (Fp.mul v scale) then 127
      else if Fp.roundTiesEven (Fp.mul v scale) < -127 then -127 else Fp.roundTiesEven (Fp.mul v scale) := by
  rw [softInt, Fp.isNaN_of_finite h, Fp.isInf_of_finite h]
  rfl

end

/-- -128 is never produced (R282). -/
theorem softInt_range (scale v : F32) : -127 ≤ softInt scale v ∧ softInt scale v ≤ 127 := by
  obtain hfin | hinf | hinf | hnan := Fp.class_cases (Fp.mul v scale)
  · rw [softInt_of_finite hfin]
    omega
  · rw [softInt_of_infinity hinf]
    decide
  · rw [softInt_of_negInfinity hinf]
    decide
  · rw [softInt_of_isNaN hnan]
    decide

/-- Eight bits hold a soft value (30_encoding.md R106). -/
theorem softq_toInt (scale v : F32) : (softq scale v).toInt = softInt scale v := by
  obtain ⟨hlo, hhi⟩ := softInt_range scale v
  exact BitVec.toInt_ofInt_eq_self (by decide) (by omega) (by omega)

/-- The sign of a soft value: saturation keeps the sign of the rounded product, and rounding sends the halves to 0. -/
theorem softInt_sign (scale v : F32) :
    (0 < softInt scale v ↔ Fp.lt 0x3F000000 (Fp.mul v scale) = true) ∧
    (softInt scale v < 0 ↔ Fp.lt (Fp.mul v scale) 0xBF000000 = true) := by
  obtain hfin | hinf | hinf | hnan := Fp.class_cases (Fp.mul v scale)
  · have hround := Fp.roundTiesEven_isNearestEven (Fp.mul v scale)
    rw [Fp.lt_iff_realValue (by decide) hfin, Fp.lt_iff_realValue hfin (by decide), Fp.realValue_half,
      Fp.realValue_negHalf, ← hround.pos_iff, ← hround.neg_iff, softInt_of_finite hfin]
    omega
  · rw [softInt_of_infinity hinf, hinf]
    decide
  · rw [softInt_of_negInfinity hinf, hinf]
    decide
  · rw [softInt_of_isNaN hnan, (Fp.compare_nan hnan _).1, (Fp.compare_nan hnan _).2.1]
    decide

/-- Settles O38: `softInt` case by case of the product, and its sign by `softInt_sign`. -/
theorem softValueRangeAndSign : Obligations.SoftValueRangeAndSign := by
  intro scale v
  rw [softq_toInt]
  obtain ⟨hlo, hhi⟩ := softInt_range scale v
  obtain ⟨hpos, hneg⟩ := softInt_sign scale v
  obtain ⟨hnear, heven⟩ := Fp.roundTiesEven_isNearestEven (Fp.mul v scale)
  exact ⟨hlo, hhi, softInt_of_isNaN, hpos, hneg, fun hfin => ⟨_, hnear, heven, softInt_of_finite hfin⟩,
    softInt_of_infinity, softInt_of_negInfinity⟩

end Sys2Proof.Machine

/-! PROOFS. The steps `SLICE` and `REPACK_BIT` (46_slicer_repacker.md R281, R283), each as one change of the state. -/

namespace Sys2Proof.Machine

section

variable {s : State}

/-- An enabled `SLICE` cuts the oldest symbol into its bits and soft values (R281). -/
theorem exec_slice_of_items {x : Cplx} {xs : List Cplx} (hq : s.qSym.items = x :: xs)
    (h : dataEnabled .slicer s = true) :
    exec .slice s = .next (sliceTake x { s with qSym := ⟨xs, s.qSym.closed⟩ }) := by
  obtain ⟨x', xs', hq', -, hexec⟩ := exec_slice_enabled h
  obtain ⟨rfl, rfl⟩ := List.cons.inj (hq.symm.trans hq')
  exact hexec

/-- An enabled `REPACK_BIT` puts the oldest bit into the partial byte (R283). -/
theorem exec_repackBit_of_items {b : Bool} {bs : List Bool} (hq : s.qBit.items = b :: bs)
    (h : dataEnabled .repacker s = true) :
    exec .repackBit s = .next { s with
      qBit := ⟨bs, s.qBit.closed⟩
      repacker.data := (repacked s.repacker.cfg s.repacker.data b).1
      qByte := pushAll s.qByte (repacked s.repacker.cfg s.repacker.data b).2 } := by
  obtain ⟨b', bs', hq', -, hexec⟩ := exec_repackBit_enabled h
  obtain ⟨rfl, rfl⟩ := List.cons.inj (hq.symm.trans hq')
  exact hexec

end

/-- The partial byte after a bit, the bit as a byte written out (R283). -/
theorem accAfter_eq (c : RepackerCfg) (d : RepackerData) (b : Bool) :
    accAfter c d b = if c.lsbFirst then d.acc ||| ((if b then 1 else 0 : Byte) <<< d.n)
      else (d.acc <<< 1) ||| (if b then 1 else 0 : Byte) := by
  cases b <;> rfl

/-- Settles O37: the oldest symbol is cut by `sliceTake`, whose queues are written out by whether soft values are enabled. -/
theorem slicePushesHardAndSoftDecisions : Obligations.SlicePushesHardAndSoftDecisions := by
  rintro s x xs _ hq henabled rfl
  rw [exec_slice_of_items hq henabled, sliceTake]
  cases s.slicer.cfg.softEn with
  | false => simp only [Bool.false_eq_true, if_false, List.append_nil]; rfl
  | true => simp only [if_true]; rfl

/-- Settles O39: the bit is placed as `accAfter_eq` says, and the byte is pushed when it is complete. -/
theorem repackBitPlacesTheBit : Obligations.RepackBitPlacesTheBit := by
  rintro s b bs _ hq henabled rfl
  rw [exec_repackBit_of_items hq henabled, repacked, ← accAfter_eq]
  by_cases hfull : s.repacker.data.n + 1 = 8
  · simp only [if_pos hfull]; rfl
  · simp only [if_neg hfull]; rfl

end Sys2Proof.Machine

/-! PROOFS. The repacker contract (46_slicer_repacker.md R284): a run of bits through the partial byte (`repackedRun`) keeps
the sequence of bits received, and `REPACK_BIT` repeated is that run. -/

namespace Sys2Proof.Machine

/-! ### The partial byte, bit by bit -/

section

variable (c : RepackerCfg)

/-- Where the partial byte of `n` bits has the bit received as number `i`, from 0 (10_state.md R52). -/
def heldPlace (n i : ℕ) : ℕ := if c.lsbFirst then i else n - 1 - i

theorem heldBits_eq (d : RepackerData) :
    heldBits c d = (List.range d.n).map fun i => d.acc.getLsbD (heldPlace c d.n i) := rfl

theorem heldBits_reset : heldBits c ⟨0, 0⟩ = [] := rfl

/-- A byte of eight held bits is complete: it holds them in the order received. -/
theorem heldBits_full (y : Byte) : heldBits c ⟨y, 8⟩ = receivedBits c y := by
  unfold heldBits receivedBits
  cases c.lsbFirst <;> rfl

/-- The bits of the partial byte after one more: the old ones keep their place in the order received, the new one is last. -/
theorem accAfter_getLsbD {d : RepackerData} (hd : RepackerOk d) (b : Bool) {i : ℕ} (hi : i ≤ d.n) :
    (accAfter c d b).getLsbD (heldPlace c (d.n + 1) i) =
      if i = d.n then b else d.acc.getLsbD (heldPlace c d.n i) := by
  obtain ⟨hn, hacc⟩ := hd
  have hclear : d.acc.getLsbD d.n = false := by
    rw [← BitVec.testBit_toNat]
    exact Nat.testBit_lt_two_pow hacc
  have hbit (k : ℕ) : (BitVec.ofNat 8 (bitNat b)).getLsbD k = (decide (k = 0) && b) := by
    cases b <;> cases k <;> simp [bitNat]
  unfold accAfter heldPlace
  cases c.lsbFirst with
  | true =>
    simp only [if_true, BitVec.getLsbD_or, BitVec.getLsbD_shiftLeft, hbit]
    by_cases hlast : i = d.n
    · rw [hlast, hclear, if_pos rfl]
      simp [show d.n < 8 by omega]
    · simp [hlast, show i < d.n by omega]
  | false =>
    simp only [Bool.false_eq_true, if_false, BitVec.getLsbD_or, BitVec.getLsbD_shiftLeft, hbit]
    by_cases hlast : i = d.n
    · simp [hlast]
    · rw [show d.n + 1 - 1 - i = d.n - 1 - i + 1 by omega, if_neg hlast]
      simp [show d.n - 1 - i + 1 < 8 by omega]

theorem heldBits_accAfter {d : RepackerData} (hd : RepackerOk d) (b : Bool) :
    heldBits c ⟨accAfter c d b, d.n + 1⟩ = heldBits c d ++ [b] := by
  rw [heldBits_eq, heldBits_eq, List.range_succ, List.map_append, List.map_singleton,
    accAfter_getLsbD c hd b le_rfl, if_pos rfl]
  congr 1
  refine List.map_congr_left fun i hi => ?_
  have hlt : i < d.n := List.mem_range.mp hi
  rw [accAfter_getLsbD c hd b hlt.le, if_neg hlt.ne]

/-- One bit: those held and the new one are in the byte completed, if any, and in the partial byte after it. -/
theorem repacked_bits {d : RepackerData} (hd : RepackerOk d) (b : Bool) :
    heldBits c d ++ [b] = (repacked c d b).2.flatMap (receivedBits c) ++ heldBits c (repacked c d b).1 := by
  rw [← heldBits_accAfter c hd b]
  unfold repacked
  split
  · next hfull =>
    rw [hfull, heldBits_full, heldBits_reset, List.flatMap_singleton, List.append_nil]
  · rfl

theorem repacked_counts (d : RepackerData) (b : Bool) :
    8 * (repacked c d b).2.length + (repacked c d b).1.n = d.n + 1 := by
  unfold repacked
  split
  · next hfull => exact hfull.symm
  · exact Nat.zero_add _

/-! ### A run of bits -/

/-- `REPACK_BIT` on each of a list of bits: the partial byte after them and the bytes completed. -/
def repackedRun : RepackerData → List Bool → RepackerData × List Byte
  | d, [] => (d, [])
  | d, b :: bs =>
    let r := repacked c d b
    let t := repackedRun r.1 bs
    (t.1, r.2 ++ t.2)

theorem repackedRun_ok {d : RepackerData} (hd : RepackerOk d) (bits : List Bool) :
    RepackerOk (repackedRun c d bits).1 := by
  induction bits generalizing d with
  | nil => exact hd
  | cons b bs ih => exact ih (repackerOk_repacked c hd b)

/-- No bit is lost, added or moved (R284). -/
theorem repackedRun_bits {d : RepackerData} (hd : RepackerOk d) (bits : List Bool) :
    heldBits c d ++ bits =
      (repackedRun c d bits).2.flatMap (receivedBits c) ++ heldBits c (repackedRun c d bits).1 := by
  induction bits generalizing d with
  | nil => exact List.append_nil _
  | cons b bs ih =>
    calc heldBits c d ++ b :: bs
        = (heldBits c d ++ [b]) ++ bs := by rw [List.append_assoc, List.singleton_append]
      _ = (repacked c d b).2.flatMap (receivedBits c) ++ (heldBits c (repacked c d b).1 ++ bs) := by
        rw [repacked_bits c hd, List.append_assoc]
      _ = _ := by
        rw [ih (repackerOk_repacked c hd b), repackedRun, List.flatMap_append, List.append_assoc]

theorem repackedRun_counts {d : RepackerData} (hd : RepackerOk d) (bits : List Bool) :
    8 * (repackedRun c d bits).2.length + (repackedRun c d bits).1.n = d.n + bits.length := by
  induction bits generalizing d with
  | nil => exact Nat.zero_add _
  | cons b bs ih =>
    have hfirst := repacked_counts c d b
    have hrest := ih (repackerOk_repacked c hd b)
    simp only [repackedRun, List.length_append, List.length_cons]
    omega

/-- The bytes completed and the bits held are the quotient and the remainder of the bits received by 8 (R284). -/
theorem repackedRun_div_mod {d : RepackerData} (hd : RepackerOk d) (bits : List Bool) :
    (repackedRun c d bits).2.length = (d.n + bits.length) / 8 ∧
      (repackedRun c d bits).1.n = (d.n + bits.length) % 8 := by
  have hcounts := repackedRun_counts c hd bits
  obtain ⟨hn, -⟩ := repackedRun_ok c hd bits
  omega

end

/-! ### The operation -/

/-- Room for a list of items and more is room for the more once the list is pushed. -/
theorem hasRoom_pushAll {α : Type} {q : Queue α} {xs : List α} {n : ℕ} (h : hasRoom q (xs.length + n) = true) :
    hasRoom (pushAll q xs) n = true := by
  rw [hasRoom_iff] at h ⊢
  obtain ⟨hopen, hroom⟩ := h
  exact ⟨hopen, by rw [pushAll_items, List.length_append]; omega⟩

theorem execAll_cons {i : Instr} {s t : State} (h : exec i s = .next t) (is : List Instr) :
    execAll (i :: is) s = execAll is t := by rw [execAll, h]

theorem dataEnabled_repacker_of_cons {s : State} {b : Bool} {bs : List Bool} (hq : s.qBit.items = b :: bs)
    (hvalid : s.repacker.status.cfgValid = true) (hroom : hasRoom s.qByte 1 = true) :
    dataEnabled .repacker s = true := by
  rw [dataEnabled_repacker_iff, hq]
  exact ⟨hvalid, Nat.le_add_left 1 _, (hasRoom_iff _ _).mp hroom⟩

/-- The place to spare is for the condition of R84, which asks for room even when a bit completes no byte. -/
theorem execAll_repackBits {s : State} {bits more : List Bool} (hq : s.qBit.items = bits ++ more)
    (hvalid : s.repacker.status.cfgValid = true)
    (hroom : hasRoom s.qByte ((repackedRun s.repacker.cfg s.repacker.data bits).2.length + 1) = true) :
    execAll (List.replicate bits.length .repackBit) s = .next { s with
      qBit := ⟨more, s.qBit.closed⟩
      repacker.data := (repackedRun s.repacker.cfg s.repacker.data bits).1
      qByte := pushAll s.qByte (repackedRun s.repacker.cfg s.repacker.data bits).2 } := by
  induction bits generalizing s with
  | nil =>
    rw [List.nil_append] at hq
    rw [← hq]
    simp only [repackedRun, pushAll_nil]
    rfl
  | cons b bs ih =>
    have henabled := dataEnabled_repacker_of_cons hq hvalid (hasRoom_le _ hroom (by omega))
    simp only [repackedRun, List.length_append, add_assoc] at hroom
    rw [List.length_cons, List.replicate_succ, execAll_cons (exec_repackBit_of_items hq henabled)]
    simp only [repackedRun, pushAll_append]
    exact ih rfl hvalid (hasRoom_pushAll hroom)

/-- Settles O40: the steps are the run `repackedRun` (`execAll_repackBits`), which keeps the bits and their number. -/
theorem repackerNeverDropsABit : Obligations.RepackerNeverDropsABit := by
  intro s bits more hq hvalid hok hroom
  obtain ⟨hbytes, hheld⟩ := repackedRun_div_mod s.repacker.cfg hok bits
  rw [← hbytes] at hroom
  exact ⟨_, _, execAll_repackBits hq hvalid hroom, rfl, rfl, repackedRun_ok _ hok bits, repackedRun_bits _ hok bits,
    hbytes, hheld⟩

end Sys2Proof.Machine

/-! PROOFS. Bytes sent as symbols come back as the same bytes (46_slicer_repacker.md R285): a `SLICE` and a `REPACK_BIT` put
the sign of one symbol into the partial byte, and the repacker contract leaves one list of bytes with the bits sent. -/

namespace Sys2Proof.Machine

/-! ### Bits fix the bytes -/

theorem byteBits_injective : Function.Injective byteBits := by
  intro y z h
  simp only [byteBits, List.map_cons, List.map_nil, List.cons.injEq] at h
  obtain ⟨h7, h6, h5, h4, h3, h2, h1, h0, -⟩ := h
  refine BitVec.eq_of_getLsbD_eq fun i hi => ?_
  interval_cases i <;> assumption

theorem flatMap_byteBits_injective : Function.Injective fun ys : List Byte => ys.flatMap byteBits := by
  intro ys
  induction ys with
  | nil =>
    intro zs h
    cases zs with
    | nil => rfl
    | cons z zs => cases h
  | cons y ys ih =>
    intro zs h
    cases zs with
    | nil => cases h
    | cons z zs =>
      obtain ⟨hhead, htail⟩ := List.append_inj (s₁ := byteBits y) (s₂ := byteBits z) h rfl
      rw [byteBits_injective hhead, ih htail]

theorem flatMap_byteBits_length (ys : List Byte) : (ys.flatMap byteBits).length = 8 * ys.length := by
  induction ys with
  | nil => rfl
  | cons y ys ih =>
    rw [List.flatMap_cons, List.length_append, ih, show (byteBits y).length = 8 from rfl, List.length_cons]
    omega

/-- Whole bytes through an empty partial byte come out again and leave it empty: no bit is held, and the bytes pushed have the
bits fed (R284). -/
theorem repackedRun_byteBits {c : RepackerCfg} (hc : c.lsbFirst = false) (ys : List Byte) :
    repackedRun c ⟨0, 0⟩ (ys.flatMap byteBits) = (⟨0, 0⟩, ys) := by
  have hok : RepackerOk ⟨0, 0⟩ := repackerOk_reset
  have hbits := repackedRun_bits c hok (ys.flatMap byteBits)
  obtain ⟨-, hn⟩ := repackedRun_div_mod c hok (ys.flatMap byteBits)
  obtain ⟨-, hacc⟩ := repackedRun_ok c hok (ys.flatMap byteBits)
  rw [flatMap_byteBits_length, Nat.zero_add, Nat.mul_mod_right] at hn
  generalize repackedRun c ⟨0, 0⟩ (ys.flatMap byteBits) = r at hbits hn hacc ⊢
  obtain ⟨⟨acc, n⟩, zs⟩ := r
  obtain rfl : n = 0 := hn
  obtain rfl : acc = 0 := BitVec.eq_of_toNat_eq (Nat.lt_one_iff.mp hacc)
  have hreceived : receivedBits c = byteBits := by
    funext y
    rw [receivedBits, hc]
    rfl
  rw [heldBits_reset, List.nil_append, List.append_nil, hreceived] at hbits
  rw [flatMap_byteBits_injective hbits]

/-! ### One symbol -/

/-- The slicer makes one hard bit of a symbol, and both units can take it: what every pair of steps needs and keeps. -/
structure HardPath (s : State) : Prop where
  slicer : s.slicer.status.cfgValid = true
  real : s.slicer.cfg.cplx = false
  hard : s.slicer.cfg.softEn = false
  repacker : s.repacker.status.cfgValid = true
  bits : s.qBit = ⟨[], false⟩
  softs : hasRoom s.qSoft 0 = true

section

variable {s : State}

theorem HardPath.exec_slice (h : HardPath s) {x : Cplx} {xs : List Cplx} (hq : s.qSym.items = x :: xs) :
    exec .slice s = .next { s with qSym := ⟨xs, s.qSym.closed⟩, qBit := ⟨[Fp.bit x.re], false⟩ } := by
  have henabled : dataEnabled .slicer s = true := by
    rw [dataEnabled_slicer_iff, maxSofts, maxBits, h.real, h.hard, h.bits, hq]
    have hdepth := sixteen_le_fifoDepth
    exact ⟨h.slicer, Nat.le_add_left 1 _, rfl, (by decide : 0 + 1 ≤ 16).trans hdepth, (hasRoom_iff _ _).mp h.softs⟩
  rw [exec_slice_of_items hq henabled, sliceTake]
  simp only [h.real, h.hard, h.bits, slicedParts]
  rfl

/-- The sign of the oldest symbol goes through `Q_BIT` into the partial byte. -/
theorem HardPath.execAll_pair (h : HardPath s) {x : Cplx} {xs : List Cplx} (hq : s.qSym.items = x :: xs)
    (hroom : hasRoom s.qByte 1 = true) (more : List Instr) :
    execAll (.slice :: .repackBit :: more) s = execAll more { s with
      qSym := ⟨xs, s.qSym.closed⟩
      repacker.data := (repacked s.repacker.cfg s.repacker.data (Fp.bit x.re)).1
      qByte := pushAll s.qByte (repacked s.repacker.cfg s.repacker.data (Fp.bit x.re)).2 } := by
  have hrepack : dataEnabled .repacker { s with qSym := ⟨xs, s.qSym.closed⟩, qBit := ⟨[Fp.bit x.re], false⟩ } = true :=
    dataEnabled_repacker_of_cons rfl h.repacker hroom
  rw [execAll_cons (h.exec_slice hq), execAll_cons (exec_repackBit_of_items rfl hrepack), h.bits]

/-! ### A run of symbols -/

theorem HardPath.execAll_pairs (h : HardPath s) {xs more : List Cplx} (hq : s.qSym.items = xs ++ more) {bits : List Bool}
    (hbits : xs.map (fun x => Fp.bit x.re) = bits)
    (hroom : hasRoom s.qByte ((repackedRun s.repacker.cfg s.repacker.data bits).2.length + 1) = true) :
    execAll (List.replicate bits.length [Instr.slice, .repackBit]).flatten s = .next { s with
      qSym := ⟨more, s.qSym.closed⟩
      repacker.data := (repackedRun s.repacker.cfg s.repacker.data bits).1
      qByte := pushAll s.qByte (repackedRun s.repacker.cfg s.repacker.data bits).2 } := by
  subst hbits
  induction xs generalizing s with
  | nil =>
    rw [List.nil_append] at hq
    rw [← hq]
    simp only [List.map_nil, repackedRun, pushAll_nil]
    rfl
  | cons x xs ih =>
    have hfirst := h.execAll_pair hq (hasRoom_le _ hroom (by omega))
    simp only [List.map_cons, repackedRun, List.length_append, add_assoc] at hroom
    simp only [List.map_cons, List.length_cons, List.replicate_succ, List.flatten_cons, List.cons_append, List.nil_append,
      hfirst, repackedRun, pushAll_append]
    exact ih ⟨h.slicer, h.real, h.hard, h.repacker, h.bits, h.softs⟩ rfl (hasRoom_pushAll hroom)

end

/-- A bit sent as `+A` or `-A` is sliced to itself (R285). -/
theorem bit_of_amplitude {amp : F32} (h : Fp.lt 0 amp = true) (b : Bool) :
    Fp.bit (if b then amp else Fp.neg amp) = b := by
  cases b with
  | true => exact h
  | false =>
    obtain ⟨-, -, hpos : 0 < Fp.rank amp⟩ := (Fp.lt_iff _ _).mp h
    rw [if_neg Bool.false_ne_true, Fp.bit, Bool.eq_false_iff, ne_eq, Fp.lt_iff, Fp.rank_neg]
    rintro ⟨-, -, hneg : 0 < -Fp.rank amp⟩
    omega

/-- Settles O41: the symbols are sliced to the bits of the bytes (`bit_of_amplitude`), and the run over these bits gives the
bytes again and an empty partial byte (`repackedRun_byteBits`). -/
theorem slicedSymbolsRepackToTheSameBytes : Obligations.SlicedSymbolsRepackToTheSameBytes := by
  intro s ys amp more hamp hq hslicer hreal hhard hrepacker hmsb hdata hbit hopen hsoft hroom
  have hpath : HardPath s := ⟨hslicer, hreal, hhard, hrepacker, by rw [← hbit, ← hopen], hsoft⟩
  have hsliced : ((ys.flatMap byteBits).map fun b => (⟨if b then amp else Fp.neg amp, 0⟩ : Cplx)).map
      (fun x => Fp.bit x.re) = ys.flatMap byteBits := by
    simp only [List.map_map, Function.comp_def, bit_of_amplitude hamp, List.map_id']
  have hrun := repackedRun_byteBits hmsb ys
  rw [← hdata] at hrun
  have hexec := hpath.execAll_pairs hq hsliced (by rw [hrun]; exact hroom)
  rw [flatMap_byteBits_length, hrun] at hexec
  exact hexec

end Sys2Proof.Machine

/-! PROOFS. What one step can do to what the item invariant and the number invariant read, said once as a relation
(`Change`): a step is a run of such changes, so that either invariant need only be kept by each of them. -/

namespace Sys2Proof.Machine

/-! ### What the two invariants read -/

/-- `s` with everything at its reset value but what the number invariant reads: the part of the configuration invariant and the
datapath state of the units that hold numbers. -/
def numbersPart (s : State) : State :=
  { configPart s with
    agc.data := s.agc.data, pll.data := s.pll.data, rrc.data := s.rrc.data, mm.data := s.mm.data, snr.data := s.snr.data }

/-- `t` has the numbers and the configuration of `s`, and no item on a queue that the item invariant reads that `s` has not. -/
structure Quiet (s t : State) : Prop where
  numbers : numbersPart t = numbersPart s := by exact rfl
  qAgc : t.qAgc.items ⊆ s.qAgc.items := by exact List.Subset.refl _
  qCar : t.qCar.items ⊆ s.qCar.items := by exact List.Subset.refl _
  qMf : t.qMf.items ⊆ s.qMf.items := by exact List.Subset.refl _
  qSym : t.qSym.items ⊆ s.qSym.items := by exact List.Subset.refl _
  qSoft : t.qSoft.items ⊆ s.qSoft.items := by exact List.Subset.refl _
  qFrame : t.qFrame.items ⊆ s.qFrame.items := by exact List.Subset.refl _

theorem Quiet.refl (s : State) : Quiet s s := {}

theorem Quiet.config {s t : State} (h : Quiet s t) : configPart t = configPart s := by
  have e := congrArg configPart h.numbers
  exact e

theorem subset_of_tail {α : Type} {x : α} {xs ys : List α} (h : ys = x :: xs) : xs ⊆ ys := by
  rw [h]; exact List.subset_cons_self x xs

/-! ### The changes -/

/-- One change of a step: a quiet one, `COMMIT` or `SRESET` of a unit, what a data step does with the item it took, an internal
operation, or the reset state. A unit that takes an item is valid where the ranges of its numbers ask for it. -/
inductive Change : State → State → Prop where
  | quiet {s t : State} (h : Quiet s t) : Change s t
  | commit (u : UnitId) (s : State) : Change s (commitUnit u s)
  | sreset (u : UnitId) (s : State) : Change s (resetUnit u s)
  | agc (x : Cplx) {s : State} (h : s.agc.status.cfgValid = true) : Change s (agcTake x s)
  | pll (e : F32) {s : State} (h : s.pll.status.cfgValid = true) : Change s (pllTake e s)
  | costas (x : Cplx) {s : State} (h : s.pll.status.cfgValid = true) : Change s (costasTake x s)
  | rrc (x : Cplx) (s : State) : Change s (rrcTake x s)
  | mm (x : Cplx) {s : State} (h : s.mm.status.cfgValid = true) : Change s (mmTake x s)
  | snr (x : Cplx) (s : State) : Change s (snrTake x s)
  | slice (x : Cplx) (s : State) : Change s (sliceTake x s)
  | deframe (bits : List Bool) (s : State) : Change s (deframeTake bits s)
  | reset (s : State) : Change s State.reset

/-- Changes one after another. -/
abbrev Changes : State → State → Prop := Relation.ReflTransGen Change

theorem Quiet.changes {s t : State} (h : Quiet s t) : Changes s t := .single (.quiet h)

theorem changes_ite (b : Bool) {s t : State} (h : b = true → Changes s t) : Changes s (if b then t else s) := by
  cases b
  · exact .refl
  · exact h rfl

theorem changes_foldl {f : UnitId → State → State} (h : ∀ u s, Change s (f u s)) (us : List UnitId) (s : State) :
    Changes s (us.foldl (fun t u => f u t) s) := by
  induction us generalizing s with
  | nil => exact .refl
  | cons u us ih => exact .head (h u s) (ih (f u s))

/-! ### The shared operations -/

theorem quiet_emptyAll (closed aborted : Bool) (s : State) : Quiet s { emptyAll closed s with aborted := aborted } where
  qAgc := List.nil_subset _
  qCar := List.nil_subset _
  qMf := List.nil_subset _
  qSym := List.nil_subset _
  qSoft := List.nil_subset _
  qFrame := List.nil_subset _

theorem quiet_takeLine (s : State) : Quiet s (takeLine s) := by
  obtain h | ⟨l, more, -, -, h⟩ := takeLine_cases s <;> rw [h]
  · exact .refl s
  · exact {}

theorem quiet_writeShadow (r : Reg) (v : Word) (s : State) : Quiet s (writeShadow r v s) := by
  cases r <;> exact {}

theorem changes_commitEvery (s : State) : Changes s (commitEvery s) := changes_foldl .commit _ s

theorem changes_newSession (s : State) : Changes s (newSession s) :=
  (quiet_emptyAll false false s).changes.trans (changes_foldl .sreset _ _)

theorem changes_abortAll (s : State) : Changes s (abortAll s) := (quiet_emptyAll true true s).changes

theorem changes_respond {s t : State} (r : Response) (h : Changes s t) : Changes s (respond r t) := h.tail (.quiet {})

theorem changes_ctrlActions (u : UnitId) (v : Word) (s : State) : Changes s (ctrlActions u v s) := by
  simp only [ctrlActions]
  split
  · exact .single (.commit u s)
  · exact changes_ite _ fun _ => .single (.sreset u s)

theorem changes_gCtrlActions (v : Word) (s : State) : Changes s (gCtrlActions v s) :=
  have habort : Changes s (actionIf (v.getLsbD 3) abortAll s) := changes_ite _ fun _ => changes_abortAll s
  have hsreset := habort.trans (changes_ite (v.getLsbD 1) fun _ => changes_newSession _)
  have hcommit := hsreset.trans (changes_ite (v.getLsbD 0) fun _ => changes_commitEvery _)
  hcommit.trans (changes_ite (v.getLsbD 2) fun _ => Quiet.changes {})

theorem changes_writeReg (r : Reg) (v : Word) (s : State) : Changes s (writeReg r v s) := by
  simp only [writeReg]
  split
  · exact changes_gCtrlActions v s
  · exact changes_ctrlActions _ v s
  · exact (quiet_writeShadow r v s).changes

/-! ### The operations -/

section

variable {s t : State}

/-- An operation's changes from its equation. -/
theorem changes_of_exec_eq {i : Instr} {u : State} (e : exec i s = .next u) (m : Changes s u) (h : exec i s = .next t) :
    Changes s t := by
  rw [e] at h
  cases h
  exact m

theorem changes_of_commitOf (u : UnitId) : exec (commitOf u) s = .next t → Changes s t :=
  changes_of_exec_eq (exec_commitOf u s) (.single (.commit u s))

theorem changes_of_sresetOf (u : UnitId) : exec (sresetOf u) s = .next t → Changes s t :=
  changes_of_exec_eq (exec_sresetOf u s) (.single (.sreset u s))

theorem quiet_closeOutputs (a : Agent) (s : State) : Quiet s (closeOutputs a s) := by
  cases a <;> exact {}

theorem changes_of_eosStep {a : Agent} {i : Instr} (hi : eosStep a = some i) : exec i s = .next t → Changes s t :=
  changes_of_exec_eq (exec_eosStep hi s) (changes_ite _ fun _ => (quiet_closeOutputs a s).changes)

theorem changes_regRead {a : Half} : exec (.regRead a) s = .next t → Changes s t :=
  changes_of_exec_eq (exec_regRead a s) (by split <;> exact Quiet.changes {})

theorem changes_regWrite {a : Half} {v : Word} : exec (.regWrite a v) s = .next t → Changes s t := by
  refine changes_of_exec_eq (exec_regWrite a v s) ?_
  split
  · exact Quiet.changes {}
  · next r _ =>
    split
    · exact Quiet.changes {}
    · exact changes_respond .ok (changes_writeReg r v s)

theorem changes_srcPush {x : Cplx} : exec (.srcPush x) s = .next t → Changes s t := by
  refine changes_of_exec_eq (exec_srcPush x s) ?_
  split
  · exact Quiet.changes {}
  · split <;> exact Quiet.changes {}

theorem changes_framePop (h : exec .framePop s = .next t) : Changes s t := by
  obtain ⟨f, fs, e, rfl⟩ | ⟨-, -, rfl⟩ | ⟨-, -, rfl⟩ := exec_framePop_cases h
  · exact Quiet.changes { qFrame := subset_of_tail e }
  · exact Quiet.changes {}
  · exact .refl

theorem changes_softPop (h : exec .softPop s = .next t) : Changes s t := by
  obtain ⟨v, vs, e, rfl⟩ | ⟨-, -, rfl⟩ | ⟨-, -, rfl⟩ := exec_softPop_cases h
  · exact Quiet.changes { qSoft := subset_of_tail e }
  · exact Quiet.changes {}
  · exact .refl

theorem changes_agcStep (h : exec .agcStep s = .next t) : Changes s t := by
  obtain ⟨-, rfl⟩ | ⟨x, xs, -, hr, rfl⟩ := exec_agcStep_cases h
  · exact .refl
  · exact .head (.quiet {}) (.single (.agc x (Bool.and_elim_left hr)))

theorem changes_costasStep (h : exec .costasStep s = .next t) : Changes s t := by
  obtain ⟨-, rfl⟩ | ⟨x, xs, e, hr, rfl⟩ := exec_costasStep_cases h
  · exact .refl
  · exact .head (.quiet { qAgc := subset_of_tail e }) (.single (.costas x (pllValid_of_costasReady hr)))

theorem changes_rrcStep (h : exec .rrcStep s = .next t) : Changes s t := by
  obtain ⟨-, rfl⟩ | ⟨x, xs, e, -, rfl⟩ := exec_rrcStep_cases h
  · exact .refl
  · exact .head (.quiet { qCar := subset_of_tail e }) (.single (.rrc x _))

theorem changes_mmStep (h : exec .mmStep s = .next t) : Changes s t := by
  obtain ⟨-, rfl⟩ | ⟨x, xs, e, hr, rfl⟩ := exec_mmStep_cases h
  · exact .refl
  · exact .head (.quiet { qMf := subset_of_tail e }) (.single (.mm x (Bool.and_elim_left hr)))

theorem changes_slice (h : exec .slice s = .next t) : Changes s t := by
  obtain ⟨-, rfl⟩ | ⟨x, xs, e, -, rfl⟩ := exec_slice_cases h
  · exact .refl
  · exact .head (.quiet { qSym := subset_of_tail e }) (.single (.slice x _))

theorem changes_repackBit (h : exec .repackBit s = .next t) : Changes s t := by
  obtain ⟨-, rfl⟩ | ⟨b, bs, -, -, rfl⟩ := exec_repackBit_cases h
  · exact .refl
  · exact Quiet.changes {}

theorem changes_deframeByte (h : exec .deframeByte s = .next t) : Changes s t := by
  obtain ⟨-, rfl⟩ | ⟨y, ys, -, -, rfl⟩ := exec_deframeByte_cases h
  · exact .refl
  · exact .head (.quiet {}) (.single (.deframe (byteBits y) _))

/-- All that an operation can do to what the two invariants read. -/
theorem changes_of_exec {i : Instr} (h : exec i s = .next t) : Changes s t := by
  cases i with
  | regRead a => exact changes_regRead h
  | regWrite a v => exact changes_regWrite h
  | srcPush x => exact changes_srcPush h
  | framePop => exact changes_framePop h
  | softPop => exact changes_softPop h
  | commitAll => exact changes_of_exec_eq (exec_commitAll s) (changes_commitEvery s) h
  | sresetAll => exact changes_of_exec_eq (exec_sresetAll s) (changes_newSession s) h
  | stop => exact changes_of_exec_eq (exec_stop s) (Quiet.changes {}) h
  | abort => exact changes_of_exec_eq (exec_abort s) (changes_abortAll s) h
  | agcStep => exact changes_agcStep h
  | costasStep => exact changes_costasStep h
  | rrcStep => exact changes_rrcStep h
  | mmStep => exact changes_mmStep h
  | slice => exact changes_slice h
  | repackBit => exact changes_repackBit h
  | deframeByte => exact changes_deframeByte h
  | pllAdvance e => exact changes_of_exec_eq (exec_pllAdvance e s) (changes_ite _ fun hv => .single (.pll e hv)) h
  | snrUpdate x => exact changes_of_exec_eq (exec_snrUpdate x s) (changes_ite _ fun _ => .single (.snr x s)) h
  | deframeBit x => exact changes_of_exec_eq (exec_deframeBit x s) (changes_ite _ fun _ => .single (.deframe [x] s)) h
  | commitAgc => exact changes_of_commitOf .agc h
  | commitCostas => exact changes_of_commitOf .costas h
  | commitPll => exact changes_of_commitOf .pll h
  | commitRrc => exact changes_of_commitOf .rrc h
  | commitMm => exact changes_of_commitOf .mm h
  | commitSnr => exact changes_of_commitOf .snr h
  | commitSlicer => exact changes_of_commitOf .slicer h
  | commitRepacker => exact changes_of_commitOf .repacker h
  | commitDeframer => exact changes_of_commitOf .deframer h
  | sresetAgc => exact changes_of_sresetOf .agc h
  | sresetCostas => exact changes_of_sresetOf .costas h
  | sresetPll => exact changes_of_sresetOf .pll h
  | sresetRrc => exact changes_of_sresetOf .rrc h
  | sresetMm => exact changes_of_sresetOf .mm h
  | sresetSnr => exact changes_of_sresetOf .snr h
  | sresetSlicer => exact changes_of_sresetOf .slicer h
  | sresetRepacker => exact changes_of_sresetOf .repacker h
  | sresetDeframer => exact changes_of_sresetOf .deframer h
  | eosPropagateAgc => exact changes_of_eosStep (a := .agc) rfl h
  | eosPropagateCostas => exact changes_of_eosStep (a := .costas) rfl h
  | eosPropagateRrc => exact changes_of_eosStep (a := .rrc) rfl h
  | eosPropagateMm => exact changes_of_eosStep (a := .mm) rfl h
  | eosPropagateSlicer => exact changes_of_eosStep (a := .slicer) rfl h
  | eosPropagateRepacker => exact changes_of_eosStep (a := .repacker) rfl h
  | eosPropagateDeframer => exact changes_of_eosStep (a := .deframer) rfl h

/-! ### The turn -/

theorem quiet_of_fetch_run {i : Instr} (h : fetch s = .run i t) : Quiet s t := by
  obtain ⟨after, -, -, rfl⟩ | ⟨a, -, rfl⟩ | ⟨ws, after, -, rfl⟩ := fetch_run_cases h
  · exact { quiet_takeLine s with }
  · exact {}
  · exact {}

theorem changes_of_fetch_pass (h : fetch s = .pass t) : Changes s t := by
  obtain rfl | rfl | ⟨rest, rfl⟩ | rfl := fetch_pass_cases h
  · exact Quiet.changes {}
  · exact (quiet_takeLine s).changes.tail (.quiet {})
  · exact (quiet_takeLine s).changes.tail (.quiet {})
  · exact .head (.reset s) (Quiet.changes {})

/-- A step is a run of changes. -/
theorem changes_of_step (h : step s = .next t) : Changes s t := by
  obtain ⟨i, u, hf, he⟩ | hf := step_cases h
  · exact (quiet_of_fetch_run hf).changes.trans (changes_of_exec he)
  · exact changes_of_fetch_pass hf

/-- What every change keeps, every step keeps. -/
theorem kept_by_step {P : State → Prop} (hP : ∀ s t, Change s t → P s → P t) (hs : P s) (h : step s = .next t) : P t := by
  have hst := changes_of_step h
  clear h
  induction hst with
  | refl => exact hs
  | tail _ hc ih => exact hP _ _ hc ih

end

end Sys2Proof.Machine

/-! PROOFS. The item invariant (60_exceptions.md R405, 30_encoding.md R106, R107): every item pushed inside the chain is
finite, in range or a well-formed frame. -/

namespace Sys2Proof.Machine

/-! ### What is pushed -/

/-- A frame that `frameEnd` emits carries the lock state it leaves and has the frame length (47_deframer.md R292). -/
theorem frameEnd_frames (c : DeframerCfg) (d : DeframerData) : ∀ f ∈ (frameEnd c d).2,
    f.tag = (frameEnd c d).1.state ∧ (frameEnd c d).1.state = d.state ∧ f.data.length = c.frameLen.toNat := by
  simp only [frameEnd]
  split
  · simp [emitted]
  · simp

/-- A frame emitted by a bit is tagged with the lock state after it, which is not `NOSYNC`, and has the frame length. -/
theorem deframedBit_frame_ok (c : DeframerCfg) (asm : BitVec 64) (x : Bool) (d : DeframerData) :
    ∀ f ∈ (deframedBit c asm x d).2,
      f.tag = (deframedBit c asm x d).1.state ∧ f.tag ≠ .nosync ∧ f.data.length = c.frameLen.toNat := by
  obtain ⟨d', e, hs, -⟩ | ⟨d', e, -⟩ := deframedBit_cases c asm x d <;> rw [e]
  · intro f hf
    obtain ⟨htag, hstate, hlen⟩ := frameEnd_frames c d' f hf
    exact ⟨htag, by rwa [htag, hstate], hlen⟩
  · simp

theorem deframedBits_frame_ok (c : DeframerCfg) (asm : BitVec 64) (bits : List Bool) (d : DeframerData) :
    ∀ f ∈ (deframedBits c asm bits d).2, f.tag ≠ .nosync ∧ f.data.length = c.frameLen.toNat := by
  induction bits generalizing d with
  | nil => exact nofun
  | cons x xs ih =>
    intro f hf
    obtain hf | hf := List.mem_append.mp hf
    · exact (deframedBit_frame_ok c asm x d f hf).2
    · exact ih _ f hf

/-- The limits of a legal configuration of `DEFRAMER` (R290). -/
theorem deframer_limits {c : DeframerCfg} (h : validateDeframer c = 0) :
    (1 ≤ c.asmLen.toNat ∧ c.asmLen.toNat ≤ 64) ∧ (1 ≤ c.frameLen.toNat ∧ c.frameLen.toNat ≤ Config.frameMax) ∧
      c.asmLen.toNat ≤ 8 * c.frameLen.toNat ∧ c.bitErrTol.toNat < c.asmLen.toNat := by
  have hlen := asmLen_le_of_valid h
  rw [validateDeframer, firstFailing_eq_zero_iff _ (by simp)] at h
  simp only [List.forall_mem_cons, Bool.or_eq_false_iff, decide_eq_false_iff_not] at h
  omega

/-- A soft value lies in -127 to 127 (46_slicer_repacker.md R282). -/
theorem softq_ne (scale v : F32) : softq scale v ≠ 0x80 := by
  intro h
  have hint := softq_toInt scale v
  have hmin := (softInt_range scale v).1
  rw [h] at hint
  have h80 : (0x80 : BitVec 8).toInt = -128 := by decide
  omega

theorem slicedSofts_ne (c : SlicerCfg) (x : Cplx) : ∀ v ∈ slicedSofts c x, v ≠ 0x80 := by
  unfold slicedSofts
  split
  · simp only [List.mem_map]
    rintro v ⟨y, -, rfl⟩
    exact softq_ne _ _
  · simp

theorem finite_dec (v : F32) : Fp.finite (Fp.dec v) = true := by
  unfold Fp.dec
  split <;> decide

theorem finiteC_decC (p : Cplx) : Fp.finiteC (decC p) = true := by simp [Fp.finiteC, decC, finite_dec]

/-- The interpolated sample is guarded (44_clock_recovery.md R262). -/
theorem finiteC_mmPoint (d : MmData) : Fp.finiteC (mmPoint d) = true := by simp [Fp.finiteC, mmPoint, interpolated]

theorem finiteC_mmSymbol {c : MmCfg} {p : Cplx} (h : Fp.finiteC p = true) : Fp.finiteC (mmSymbol c p) = true := by
  unfold mmSymbol
  split
  · simp only [Fp.finiteC, Fp.finite_zero, Bool.and_true]
    exact Bool.and_elim_left h
  · exact h

/-- The symbol `MM` pushes is finite. -/
theorem finiteC_of_mmRun {c : MmCfg} {k : MmDerived} {d : MmData} {x p : Cplx} (h : (mmRun c k d x).2 = some p) :
    Fp.finiteC p = true := by
  rw [mmRun_symbol] at h
  split at h
  · cases h; exact finiteC_mmSymbol (finiteC_mmPoint _)
  · cases h

/-! ### The invariant is kept -/

/-- The item invariant without the configuration. -/
structure ItemsOk (s : State) : Prop where
  samples : SamplesFinite s
  softs : SoftsInRange s
  frames : FramesOk s

/-- The items of a queue after a push are its items and those pushed. -/
theorem forall_mem_pushAll {α : Type} {P : α → Prop} {q : Queue α} {xs : List α} (hq : ∀ x ∈ q.items, P x)
    (hxs : ∀ x ∈ xs, P x) : ∀ x ∈ (pushAll q xs).items, P x :=
  List.forall_mem_append.mpr ⟨hq, hxs⟩

theorem forall_mem_push {α : Type} {P : α → Prop} {q : Queue α} {x : α} (hq : ∀ y ∈ q.items, P y) (hx : P x) :
    ∀ y ∈ (push q x).items, P y :=
  forall_mem_pushAll hq (List.forall_mem_singleton.mpr hx)

theorem ItemsOk.quiet {s t : State} (hs : ItemsOk s) (h : Quiet s t) : ItemsOk t := by
  obtain ⟨⟨hagc, hcar, hmf, hsym⟩, hsofts, hframes⟩ := hs
  exact ⟨⟨fun x hx => hagc x (h.qAgc hx), fun x hx => hcar x (h.qCar hx), fun x hx => hmf x (h.qMf hx),
    fun x hx => hsym x (h.qSym hx)⟩, fun v hv => hsofts v (h.qSoft hv), fun f hf => hframes f (h.qFrame hf)⟩

theorem itemsOk_reset : ItemsOk State.reset := ⟨⟨nofun, nofun, nofun, nofun⟩, nofun, nofun⟩

/-- `COMMIT` and `SRESET` leave the queues alone. -/
theorem ItemsOk.congr {s t : State} (hs : ItemsOk s) (h : queuePart t = queuePart s) : ItemsOk t := by
  have hpart : ItemsOk (queuePart s) := ⟨hs.samples, hs.softs, hs.frames⟩
  rw [← h] at hpart
  exact ⟨hpart.samples, hpart.softs, hpart.frames⟩

theorem ItemsOk.change {s t : State} (hs : ItemsOk s) (hc : validateDeframer s.deframer.cfg = 0) (h : Change s t) :
    ItemsOk t := by
  have ⟨⟨hagc, hcar, hmf, hsym⟩, hsofts, hframes⟩ := hs
  cases h with
  | quiet h => exact hs.quiet h
  | commit u => exact hs.congr (queuePart_commitUnit u s)
  | sreset u => exact hs.congr (queuePart_resetUnit u s)
  | agc x h => exact ⟨⟨forall_mem_push hagc (by simp), hcar, hmf, hsym⟩, hsofts, hframes⟩
  | pll e h => exact ⟨hs.samples, hsofts, hframes⟩
  | costas x h => exact ⟨⟨hagc, forall_mem_push hcar (by simp), hmf, hsym⟩, hsofts, hframes⟩
  | rrc x => exact ⟨⟨hagc, hcar, forall_mem_pushAll hmf (finiteC_of_mem_firRun _ _ _ _), hsym⟩, hsofts, hframes⟩
  | mm x h =>
    rw [mmTake_eq]
    exact ⟨⟨hagc, hcar, hmf, forall_mem_pushAll hsym fun p hp => finiteC_of_mmRun (Option.mem_toList.mp hp)⟩,
      hsofts, hframes⟩
  | snr x => exact ⟨hs.samples, hsofts, hframes⟩
  | slice x =>
    rw [sliceTake_eq]
    exact ⟨hs.samples, forall_mem_pushAll hsofts (slicedSofts_ne _ _), hframes⟩
  | deframe bits =>
    obtain ⟨-, ⟨hmin, hmax⟩, -⟩ := deframer_limits hc
    refine ⟨hs.samples, hsofts, forall_mem_pushAll hframes fun f hf => ?_⟩
    obtain ⟨htag, hlen⟩ := deframedBits_frame_ok _ _ _ _ f hf
    rw [hlen]
    exact ⟨htag, hmin, hmax⟩
  | reset => exact itemsOk_reset

/-- The configuration part of a change is one of the moves of `Moves`. -/
theorem Change.configInv {s t : State} (h : Change s t) (hs : ConfigInv s) : ConfigInv t := by
  cases h with
  | quiet h => exact configInv_congr h.config hs
  | commit u => exact configInv_commitUnit u hs
  | sreset u => exact configInv_congr (configPart_resetUnit u s) hs
  | agc x h => exact configInv_congr rfl hs
  | pll e h => exact configInv_congr rfl hs
  | costas x h => exact configInv_congr rfl hs
  | rrc x => exact configInv_congr rfl hs
  | mm x h => exact configInv_congr (configPart_congr (datapathPart_mmTake x s)) hs
  | snr x => exact configInv_congr rfl hs
  | slice x => exact configInv_congr rfl hs
  | deframe bits => exact configInv_congr rfl hs
  | reset => exact configInv_reset

/-- Settles O54: every change of a step keeps the items in order (`ItemsOk.change`); a legal frame length bounds the frames. -/
theorem stepKeepsItems : Obligations.StepKeepsItems := by
  rintro s t ⟨hconfig, samples, softs, frames⟩ h
  have hkept : ConfigInv t ∧ ItemsOk t := kept_by_step (P := fun s => ConfigInv s ∧ ItemsOk s)
    (fun _ _ hch hs => ⟨hch.configInv hs.1, hs.2.change hs.1.deframer hch⟩) ⟨hconfig, samples, softs, frames⟩ h
  exact ⟨hkept.1, hkept.2.samples, hkept.2.softs, hkept.2.frames⟩

end Sys2Proof.Machine

/-! PROOFS. Bounds of results: a value lies within `b` when it is in `[-b, b]`; sums and products of values within bounds are
within a bound of the exact result. A value less its floor is exact and lies in `[0, 1)`. -/

namespace Sys2Proof

open Machine (realValue)

/-! ### Values within a bound -/

/-- `x` lies in `[-b, b]`. -/
def Fp.Within (x b : F32) : Prop := Fp.le (Fp.neg b) x = true ∧ Fp.le x b = true

section

variable {x y a b c r : F32} {v : ℚ}

theorem Fp.Within.finite (h : Fp.Within x b) (hb : Fp.finite b = true) : Fp.finite x = true :=
  Fp.finite_of_le_of_le ((Fp.finite_neg b).trans hb) hb h.1 h.2

theorem Fp.Within.abs_realValue_le (h : Fp.Within x b) (hb : Fp.finite b = true) : |realValue x| ≤ realValue b := by
  have hx := h.finite hb
  have hlo := Fp.realValue_le ((Fp.finite_neg b).trans hb) hx h.1
  rw [Fp.realValue_neg] at hlo
  exact abs_le.mpr ⟨hlo, Fp.realValue_le hx hb h.2⟩

/-- A result is within a finite value that bounds its exact value. -/
theorem Rounded.within (hr : Rounded v r) (hb : Fp.finite b = true) (h : |v| ≤ realValue b) : Fp.Within r b := by
  obtain ⟨hlo, hhi⟩ := abs_le.mp h
  rw [← Fp.realValue_neg] at hlo
  exact ⟨hr.finite_le ((Fp.finite_neg b).trans hb) hlo, hr.le_finite hb hhi⟩

theorem Fp.within_of_abs_le (hx : Fp.finite x = true) (hb : Fp.finite b = true) (h : |realValue x| ≤ realValue b) :
    Fp.Within x b :=
  (Fp.rounded_self hx).within hb h

/-- A finite result is not below a binary32 value that its exact value is not below. -/
theorem Rounded.realValue_ge (hr : Rounded v r) (hf : Fp.finite r = true) (hx : Fp.finite x = true)
    (h : realValue x ≤ v) : realValue x ≤ realValue r :=
  Fp.realValue_le hx hf (hr.finite_le hx h)

/-- A sum is within any finite bound of the sum of the bounds. -/
theorem Fp.Within.add (hx : Fp.Within x a) (hy : Fp.Within y b) (ha : Fp.finite a = true) (hb : Fp.finite b = true)
    (hc : Fp.finite c = true) (h : realValue a + realValue b ≤ realValue c) : Fp.Within (Fp.add x y) c :=
  (Fp.add_rounded (hx.finite ha) (hy.finite hb)).within hc
    ((abs_add_le _ _).trans ((add_le_add (hx.abs_realValue_le ha) (hy.abs_realValue_le hb)).trans h))

/-- A product with a value in `[-1, 1]` is within the bound of the other factor. -/
theorem Fp.Within.mul_unit (hx : Fp.Within x a) (ha : Fp.finite a = true) (hy : Fp.Within y Fp.one) :
    Fp.Within (Fp.mul x y) a := by
  have hone : Fp.finite Fp.one = true := by decide
  have hy1 := hy.abs_realValue_le hone
  rw [Fp.realValue_one] at hy1
  refine (Fp.mul_rounded (hx.finite ha) (hy.finite hone)).within ha ?_
  rw [abs_mul]
  exact (mul_le_of_le_one_right (abs_nonneg _) hy1).trans (hx.abs_realValue_le ha)

/-- A quotient by a value from 1.0 up is within the bound of the dividend. -/
theorem Fp.Within.div (hx : Fp.Within x a) (ha : Fp.finite a = true) (hy : Fp.finite y = true) (h1 : 1 ≤ realValue y) :
    Fp.Within (Fp.div x y) a := by
  have hz : Fp.isZero y = false :=
    Bool.eq_false_iff.mpr fun hz => (zero_lt_one.trans_le h1).ne' ((Fp.realValue_eq_zero_iff y).mpr hz)
  refine (Fp.div_rounded (hx.finite ha) hy hz).within ha ?_
  rw [abs_div, abs_of_pos (zero_lt_one.trans_le h1)]
  exact (div_le_self (abs_nonneg _) h1).trans (hx.abs_realValue_le ha)

theorem Fp.within_clip1 (e : F32) : Fp.Within (Fp.clip1 e) Fp.one := (Fp.clip1_range e).2

/-- A value of `[0, b]` is within `b`. -/
theorem Fp.within_of_nonneg (h0 : Fp.le Fp.zero x = true) (hb : Fp.finite b = true) (h : Fp.le x b = true) :
    Fp.Within x b := by
  have hx := Fp.finite_of_le_of_le Fp.finite_zero hb h0 h
  have hpos := Fp.realValue_zero ▸ Fp.realValue_le Fp.finite_zero hx h0
  exact Fp.within_of_abs_le hx hb ((abs_of_nonneg hpos).le.trans (Fp.realValue_le hx hb h))

end

/-! ### Constants -/

/-- The exact value of a constant from its sign and significand. -/
theorem Fp.realValue_of_fields {x : F32} {m : ℕ} {q : ℤ} (hs : Fp.sign x = false) (hm : Fp.sig x = m)
    (hq : Fp.expo x = q) : realValue x = m * 2 ^ q := by
  rw [Fp.realValue_eq, hs, hm, hq]
  simp [signFactor]

theorem Fp.realValue_four : realValue Fp.four = 4 := by
  rw [Fp.realValue_of_fields (m := 2 ^ 23) (q := -21) rfl rfl rfl]; norm_num

theorem Fp.realValue_ten : realValue Fp.ten = 10 := by
  rw [Fp.realValue_of_fields (m := 10485760) (q := -20) rfl rfl rfl]; norm_num

theorem Fp.realValue_pi : realValue Fp.pi = 13176795 / 2 ^ 22 := by
  rw [Fp.realValue_of_fields (m := 13176795) (q := -22) rfl rfl rfl]; norm_num

/-- `TWO_PI` is exactly twice `PI` (00_scope.md R8). -/
theorem Fp.realValue_twoPi : realValue Fp.twoPi = 2 * realValue Fp.pi := by
  rw [Fp.realValue_of_fields (m := 13176795) (q := -21) rfl rfl rfl, Fp.realValue_pi]; norm_num

theorem Fp.realValue_fourZeta : realValue Fp.fourZeta = 11863283 / 2 ^ 22 := by
  rw [Fp.realValue_of_fields (m := 11863283) (q := -22) rfl rfl rfl]; norm_num

theorem Fp.realValue_twoZeta : realValue Fp.twoZeta = 11863283 / 2 ^ 23 := by
  rw [Fp.realValue_of_fields (m := 11863283) (q := -23) rfl rfl rfl]; norm_num

/-! ### Floors -/

/-- The natural numbers below `2 ^ 24` are binary32 values: the significand is shifted up to 24 bits. -/
theorem Fp.exists_natCast {n : ℕ} (h : n < 2 ^ 24) : ∃ x, Fp.finite x = true ∧ realValue x = n := by
  obtain rfl | hn := Nat.eq_zero_or_pos n
  · exact ⟨Fp.zero, Fp.finite_zero, by rw [Fp.realValue_zero, Nat.cast_zero]⟩
  have hlog : n.log2 < 24 := (Nat.log2_lt hn.ne').mpr h
  obtain ⟨k, hk⟩ : ∃ k, n.log2 + k = 23 := ⟨23 - n.log2, by omega⟩
  have hlow : 2 ^ 23 ≤ n * 2 ^ k := by
    rw [← hk, pow_add]
    exact Nat.mul_le_mul_right _ (Nat.log2_self_le hn.ne')
  have hhigh : n * 2 ^ k < 2 ^ 24 := by
    have e : 2 ^ 24 = 2 ^ (n.log2 + 1) * 2 ^ k := by rw [← pow_add]; congr 1; omega
    rw [e]
    exact Nat.mul_lt_mul_of_pos_right Nat.lt_log2_self (Nat.two_pow_pos k)
  have hrank := Fp.rank_withSign false (n := (149 - k) * 2 ^ 23 + n * 2 ^ k) (by omega)
  rw [if_neg Bool.false_ne_true] at hrank
  refine ⟨_, (Fp.finite_iff_rank _).mpr (by rw [hrank]; omega), ?_⟩
  rw [Fp.realValue_of_rank hhigh.le (.inr hlow) hrank]
  have hexp : (((149 - k : ℕ) : ℤ) - 149) = -(k : ℤ) := by omega
  rw [hexp, zpow_neg, zpow_natCast]
  push_cast
  field_simp

/-- An exact value that is a binary32 value is not changed by rounding. -/
theorem Rounded.realValue_eq {v : ℚ} {r x : F32} (hr : Rounded v r) (hx : Fp.finite x = true) (h : realValue x = v) :
    realValue r = v := by
  have hself := Fp.rounded_self hx
  rw [h] at hself
  rw [← h]
  exact Fp.realValue_eq_of_rank (le_antisymm (hr.mono hself le_rfl) (hself.mono hr le_rfl))

/-- The part of `m` below `2 ^ k`, in units of `2 ^ k`, is at most `1 - 2 ^ -24` when `m` has 24 bits. -/
theorem mod_two_pow_le {m : ℕ} (hm : m < 2 ^ 24) (k : ℕ) : 2 ^ 24 * (m % 2 ^ k) + 2 ^ k ≤ 2 ^ 24 * 2 ^ k := by
  have hlt : m % 2 ^ k < 2 ^ k := Nat.mod_lt _ (Nat.two_pow_pos k)
  obtain hk | hk := Nat.le_total k 24
  · have : 2 ^ k ≤ 2 ^ 24 := Nat.pow_le_pow_right (by decide) hk
    omega
  · have : 2 ^ 24 ≤ 2 ^ k := Nat.pow_le_pow_right (by decide) hk
    have : m % 2 ^ k ≤ m := Nat.mod_le _ _
    omega

theorem Fp.realValue_belowOne : realValue 0x3F7FFFFF = 1 - 2 ^ (-24 : ℤ) := by
  rw [Fp.realValue_of_fields (m := 2 ^ 24 - 1) (q := -24) rfl rfl rfl]
  norm_num

/-- The fractional part of a binary32 value is at most the greatest value below 1.0. -/
theorem Fp.fract_realValue_le {x : F32} (h0 : 0 ≤ realValue x) : Int.fract (realValue x) ≤ 1 - 2 ^ (-24 : ℤ) := by
  have hx : realValue x = Fp.sig x * 2 ^ Fp.expo x := by rw [← abs_of_nonneg h0, Fp.abs_realValue]
  obtain ⟨k, hk | hk⟩ := Int.eq_nat_or_neg (Fp.expo x) <;> rw [hx, hk]
  · have hint : (Fp.sig x : ℚ) * 2 ^ (k : ℤ) = ((Fp.sig x * 2 ^ k : ℕ) : ℚ) := by push_cast; rfl
    rw [hint, Int.fract_natCast]
    norm_num
  · have hmod := mod_two_pow_le (Fp.sig_lt x) k
    have hdiv : (Fp.sig x : ℚ) * 2 ^ (-(k : ℤ)) = (Fp.sig x : ℚ) / (2 ^ k : ℕ) := by
      rw [zpow_neg, zpow_natCast]; push_cast; rfl
    have hpos : (0 : ℚ) < (2 ^ k : ℕ) := by positivity
    have hq : (2 ^ 24 : ℚ) * (Fp.sig x % 2 ^ k : ℕ) + (2 ^ k : ℕ) ≤ 2 ^ 24 * (2 ^ k : ℕ) := by exact_mod_cast hmod
    rw [hdiv, Int.fract_div_natCast_eq_div_natCast_mod, div_le_iff₀ hpos,
      show (2 : ℚ) ^ (-24 : ℤ) = 1 / 2 ^ 24 by norm_num]
    linarith

/-- A value from 0 up less its floor is in `[0, 1)`: the floor of a value below `2 ^ 24` is a binary32 value, so that the
subtraction rounds the exact fractional part (44_clock_recovery.md R262, R263). -/
theorem Fp.sub_floor_range {x : F32} (hx : Fp.finite x = true) (h0 : 0 ≤ realValue x) (h : realValue x < 2 ^ 24) :
    Fp.le Fp.zero (Fp.sub x (Fp.ofInt (Fp.floorInt x))) = true ∧
      Fp.lt (Fp.sub x (Fp.ofInt (Fp.floorInt x))) Fp.one = true := by
  rw [Fp.floorInt_eq hx]
  obtain ⟨n, hn⟩ := Int.eq_ofNat_of_zero_le (Int.floor_nonneg.mpr h0)
  have hlt : n < 2 ^ 24 := by
    have hle : ((n : ℤ) : ℚ) ≤ realValue x := hn ▸ Int.floor_le _
    have : (n : ℚ) < 2 ^ 24 := by simpa using hle.trans_lt h
    exact_mod_cast this
  obtain ⟨c, hc, hcn⟩ := Fp.exists_natCast hlt
  have hround := Fp.ofInt_rounded n
  have hval : realValue (Fp.ofInt n) = n := by
    simpa using hround.realValue_eq hc (by simpa using hcn)
  have hfin : Fp.finite (Fp.ofInt n) = true := by
    have hself := Fp.rounded_self hc
    rw [hcn] at hself
    have e : Fp.rank (Fp.ofInt n) = Fp.rank c :=
      le_antisymm (hround.mono hself (by simp)) (hself.mono hround (by simp))
    rwa [Fp.finite_iff_rank, e, ← Fp.finite_iff_rank]
  have hsub := Fp.sub_rounded hx hfin
  have hfract : realValue x - realValue (Fp.ofInt n) = Int.fract (realValue x) := by
    rw [hval, ← Int.self_sub_floor, hn]; simp
  rw [hfract] at hsub
  rw [hn]
  refine ⟨hsub.finite_le Fp.finite_zero (Fp.realValue_zero ▸ Int.fract_nonneg _), ?_⟩
  have hbelow := hsub.le_finite (x := 0x3F7FFFFF) (by decide) (Fp.realValue_belowOne ▸ Fp.fract_realValue_le h0)
  obtain ⟨hr, -, hle⟩ := (Fp.le_iff _ _).mp hbelow
  exact (Fp.lt_iff _ _).mpr ⟨hr, by decide, hle.trans_lt (by decide)⟩

end Sys2Proof

/-! PROOFS. The numbers of each unit (10_state.md R40, R43, R47, R49, 60_exceptions.md R405): what the checks of a configuration
say of its derived values, and that each unit's step keeps its numbers finite and in range. -/

namespace Sys2Proof.Machine

/-! ### `AGC` -/

/-- The gain is finite, and in its range once the unit is valid (41_agc.md R233). -/
def AgcNumbers (u : AgcUnit) : Prop :=
  Fp.finite u.data.g = true ∧
    (u.status.cfgValid = true → Fp.le u.gainMin u.data.g = true ∧ Fp.le u.data.g u.cfg.maxGain = true)

theorem gainMin_range {c : AgcCfg} (h : validateAgc c = 0) :
    Fp.finite (deriveAgc c) = true ∧ Fp.le (deriveAgc c) Fp.one = true := by
  obtain ⟨hfin, hone⟩ := maxGain_of_validateAgc h
  obtain ⟨hpos, hle⟩ := Fp.one_div_range hfin hone
  exact ⟨Fp.finite_of_le_of_le Fp.finite_zero (by decide) (Fp.le_of_lt hpos) hle, hle⟩

/-- The gain 1.0 of a reset is in every legal range. -/
theorem agcNumbers_reset {u : AgcUnit} (hc : validateAgc u.cfg = 0)
    (hd : u.status.cfgValid = true → u.gainMin = deriveAgc u.cfg) : AgcNumbers { u with data := AgcData.reset } :=
  ⟨show Fp.finite Fp.one = true by decide,
    fun hv => ⟨by rw [hd hv]; exact (gainMin_range hc).2, (maxGain_of_validateAgc hc).2⟩⟩

theorem AgcNumbers.step {u : AgcUnit} (hu : AgcNumbers u) (hc : validateAgc u.cfg = 0) (hv : u.status.cfgValid = true)
    (hd : u.gainMin = deriveAgc u.cfg) (y : Cplx) :
    AgcNumbers { u with data := ⟨agcGainAfter u.cfg u.gainMin u.data.g y⟩ } := by
  obtain ⟨hlo, hhi⟩ := hu.2 hv
  have hrange := agcGainAfter_range y hlo hhi
  exact ⟨Fp.finite_of_le_of_le (hd ▸ (gainMin_range hc).1) (maxGain_of_validateAgc hc).1 hrange.1 hrange.2,
    fun _ => hrange⟩

/-! ### `PLL` -/

/-- The phase and the frequency are within their bounds (10_state.md R43, 42_carrier.md R244). -/
def PllNumbers (u : PllUnit) : Prop := Fp.Within u.data.phase Fp.pi ∧ Fp.Within u.data.freq u.cfg.freqMax

/-- The checks of `PLL`: `LOOP_BW` in (0, 1], `FREQ_MAX` in (0, PI] (R242). -/
theorem pll_limits {c : PllCfg} (h : validatePll c = 0) :
    (Fp.finite c.loopBw = true ∧ Fp.lt Fp.zero c.loopBw = true ∧ Fp.le c.loopBw Fp.one = true) ∧
      Fp.finite c.freqMax = true ∧ Fp.lt Fp.zero c.freqMax = true ∧ Fp.le c.freqMax Fp.pi = true := by
  have hchecks := (firstFailing_eq_zero_iff _ (by simp)).mp h
  simpa [and_assoc] using hchecks

theorem within_self {x : F32} (hx : Fp.finite x = true) (h0 : Fp.le Fp.zero x = true) : Fp.Within x x :=
  Fp.within_of_nonneg h0 hx (Fp.le_refl (Fp.isNaN_of_finite hx))

/-- The denominator of `DERIVE_PLL` is at least 1.0: nothing negative is added to 1.0 (R243). -/
theorem pll_denominator_ge_one {b : F32} (hb : Fp.Within b Fp.one) (h0 : 0 ≤ realValue b) :
    Fp.finite (Fp.add (Fp.add Fp.one (Fp.mul Fp.twoZeta b)) (Fp.mul b b)) = true ∧
      1 ≤ realValue (Fp.add (Fp.add Fp.one (Fp.mul Fp.twoZeta b)) (Fp.mul b b)) := by
  have hone : Fp.finite Fp.one = true := by decide
  have hfin := hb.finite hone
  have hlinear : Fp.Within (Fp.mul Fp.twoZeta b) Fp.twoZeta := (within_self (by decide) (by decide)).mul_unit (by decide) hb
  have hsquare : Fp.Within (Fp.mul b b) Fp.one := hb.mul_unit hone hb
  have hsum : Fp.Within (Fp.add Fp.one (Fp.mul Fp.twoZeta b)) Fp.four :=
    (within_self hone (by decide)).add hlinear hone (by decide) (by decide)
      (by rw [Fp.realValue_one, Fp.realValue_twoZeta, Fp.realValue_four]; norm_num)
  have hall : Fp.Within (Fp.add (Fp.add Fp.one (Fp.mul Fp.twoZeta b)) (Fp.mul b b)) Fp.ten :=
    hsum.add hsquare (by decide) hone (by decide) (by rw [Fp.realValue_one, Fp.realValue_four, Fp.realValue_ten]; norm_num)
  have hlinear0 : 0 ≤ realValue (Fp.mul Fp.twoZeta b) := by
    have hexact : 0 ≤ realValue Fp.twoZeta * realValue b := mul_nonneg (by rw [Fp.realValue_twoZeta]; norm_num) h0
    have hge := (Fp.mul_rounded (a := Fp.twoZeta) (by decide) hfin).realValue_ge (hlinear.finite (by decide)) Fp.finite_zero
    rw [Fp.realValue_zero] at hge
    exact hge hexact
  have hsquare0 : 0 ≤ realValue (Fp.mul b b) := by
    have hge := (Fp.mul_rounded hfin hfin).realValue_ge (hsquare.finite hone) Fp.finite_zero
    rw [Fp.realValue_zero] at hge
    exact hge (mul_nonneg h0 h0)
  have hsum1 := (Fp.add_rounded hone (hlinear.finite (by decide))).realValue_ge (hsum.finite (by decide)) hone
    (le_add_of_nonneg_right hlinear0)
  have hall1 := (Fp.add_rounded (hsum.finite (by decide)) (hsquare.finite hone)).realValue_ge (hall.finite (by decide)) hone
    (le_add_of_le_of_nonneg hsum1 hsquare0)
  exact ⟨hall.finite (by decide), Fp.realValue_one ▸ hall1⟩

/-- The loop gains are bounded by their numerators, `4 * ZETA` and 4.0 (R243). -/
theorem pllDerived_within {c : PllCfg} (h : validatePll c = 0) :
    Fp.Within (derivePll c).alpha Fp.fourZeta ∧ Fp.Within (derivePll c).beta Fp.four := by
  obtain ⟨⟨hfin, hpos, hle⟩, -⟩ := pll_limits h
  have hunit : Fp.Within c.loopBw Fp.one := Fp.within_of_nonneg (Fp.le_of_lt hpos) (by decide) hle
  have h0 : 0 ≤ realValue c.loopBw := ((Fp.lt_zero_iff_realValue hfin).mp hpos).le
  obtain ⟨hd, hd1⟩ := pll_denominator_ge_one hunit h0
  have hfourZeta : Fp.Within (Fp.mul Fp.fourZeta c.loopBw) Fp.fourZeta :=
    (within_self (by decide) (by decide)).mul_unit (by decide) hunit
  have hfour : Fp.Within (Fp.mul Fp.four (Fp.mul c.loopBw c.loopBw)) Fp.four :=
    (within_self (by decide) (by decide)).mul_unit (by decide) (hunit.mul_unit (by decide) hunit)
  exact ⟨hfourZeta.div (by decide) hd hd1, hfour.div (by decide) hd hd1⟩

/-- The greatest phase before the wrap: `PI + PI + 4 * ZETA` is below it. -/
def mostPhase : F32 := 0x41120000

theorem realValue_mostPhase : realValue mostPhase = 9.125 := by
  rw [Fp.realValue_of_fields (m := 9568256) (q := -20) rfl rfl rfl]; norm_num

/-- One wrap step brings a phase before the wrap back into `[-PI, PI]` (R244). -/
theorem wrapPhase_within {p : F32} (h : Fp.Within p mostPhase) : Fp.Within (wrapPhase p) Fp.pi := by
  have hfin : Fp.finite p = true := h.finite (by decide)
  have hpi : Fp.finite Fp.pi = true := by decide
  have habs := h.abs_realValue_le (by decide)
  rw [realValue_mostPhase, abs_le] at habs
  have hvalue := Fp.realValue_pi
  unfold wrapPhase
  split
  · next hgt =>
    have hgt := Fp.realValue_lt hpi hfin hgt
    refine (Fp.sub_rounded hfin (by decide)).within hpi ?_
    rw [Fp.realValue_twoPi, abs_le]
    constructor <;> linarith
  · next hgt =>
    have hle := Fp.le_of_not_lt (by decide) (Fp.isNaN_of_finite hfin) (Bool.eq_false_iff.mpr hgt)
    split
    · next hlt =>
      have hlt := Fp.realValue_lt hfin (by decide) hlt
      rw [Fp.realValue_neg] at hlt
      refine (Fp.add_rounded hfin (by decide)).within hpi ?_
      rw [Fp.realValue_twoPi, abs_le]
      constructor <;> linarith
    · next hlt => exact ⟨Fp.le_of_not_lt (Fp.isNaN_of_finite hfin) (by decide) (Bool.eq_false_iff.mpr hlt), hle⟩

theorem PllNumbers.step {u : PllUnit} (hu : PllNumbers u) (hc : validatePll u.cfg = 0) (hd : u.derived = derivePll u.cfg)
    (e : F32) : PllNumbers { u with data := pllAdvanced u.cfg u.derived u.data e } := by
  obtain ⟨hphase, hlo, hhi⟩ := hu
  obtain ⟨halpha, hbeta⟩ := pllDerived_within hc
  obtain ⟨-, hmax, -, hmaxPi⟩ := pll_limits hc
  rw [← hd] at halpha hbeta
  have hpi : Fp.finite Fp.pi = true := by decide
  have hfreq : Fp.Within (pllAdvanced u.cfg u.derived u.data e).freq u.cfg.freqMax :=
    pllAdvanced_freq_range e hmax (hbeta.finite (by decide)) hlo hhi
  have hfreqPi : Fp.Within (pllAdvanced u.cfg u.derived u.data e).freq Fp.pi :=
    Fp.within_of_abs_le (hfreq.finite hmax) hpi
      ((hfreq.abs_realValue_le hmax).trans (Fp.realValue_le hmax hpi hmaxPi))
  have hturn : Fp.Within _ Fp.twoPi := hphase.add hfreqPi hpi hpi (by decide) (by rw [Fp.realValue_twoPi]; linarith)
  have hphase' : Fp.Within _ mostPhase := hturn.add (halpha.mul_unit (by decide) (Fp.within_clip1 e)) (by decide) (by decide)
    (by decide) (by rw [Fp.realValue_twoPi, Fp.realValue_pi, Fp.realValue_fourZeta, realValue_mostPhase]; norm_num)
  exact ⟨wrapPhase_within hphase', hfreq⟩

/-- A reset loop is in every legal range. -/
theorem pllNumbers_reset {u : PllUnit} (hc : validatePll u.cfg = 0) : PllNumbers { u with data := PllData.reset } := by
  obtain ⟨-, hmax, hpos, -⟩ := pll_limits hc
  have hzero : Fp.Within Fp.zero u.cfg.freqMax :=
    Fp.within_of_nonneg (by decide) hmax (Fp.le_of_lt hpos)
  have hphase : Fp.Within Fp.zero Fp.pi := Fp.within_of_nonneg (by decide) (by decide) (by decide)
  exact ⟨hphase, hzero⟩

/-! ### `RRC` -/

/-- The delay line is finite (10_state.md R45, 60_exceptions.md R405). -/
def RrcNumbers (u : RrcUnit) : Prop := ∀ x ∈ u.data.d.toList, Fp.finiteC x = true

theorem finiteC_zero : Fp.finiteC Cplx.zero = true := by decide

theorem rrcNumbers_reset (u : RrcUnit) : RrcNumbers { u with data := RrcData.reset } := by
  intro x hx
  have hx : x ∈ List.replicate Config.maxTaps Cplx.zero := by simpa [RrcData.reset] using hx
  rw [List.eq_of_mem_replicate hx]
  exact finiteC_zero

theorem tapCount_bounds (c : RrcCfg) : 1 ≤ tapCount c ∧ tapCount c ≤ Config.maxTaps :=
  ⟨Nat.le_max_left _ _, Nat.max_le.mpr ⟨by decide, Nat.min_le_right _ _⟩⟩

theorem finiteC_of_mem_shiftedLine {n : ℕ} {u : Cplx} {ds : List Cplx} (hu : Fp.finiteC u = true)
    (hd : ∀ x ∈ ds, Fp.finiteC x = true) : ∀ x ∈ shiftedLine n u ds, Fp.finiteC x = true := by
  intro x hx
  obtain hx | hx := List.mem_append.mp hx
  · obtain rfl | hx := List.mem_cons.mp hx
    · exact hu
    · exact hd x (List.mem_of_mem_take hx)
  · exact hd x (List.mem_of_mem_drop hx)

/-- The line holds what was inserted and what it held (43_rrc.md R252). -/
theorem finiteC_of_mem_line {n : ℕ} (hpos : 1 ≤ n) (hmax : n ≤ Config.maxTaps) (taps : Vector F32 Config.maxTaps)
    {us : List Cplx} {d : Vector Cplx Config.maxTaps} (hu : ∀ u ∈ us, Fp.finiteC u = true)
    (hd : ∀ x ∈ d.toList, Fp.finiteC x = true) : ∀ x ∈ (firRun n taps us d).1.toList, Fp.finiteC x = true := by
  induction us generalizing d with
  | nil => exact hd
  | cons u us ih =>
    obtain ⟨hu, hus⟩ := List.forall_mem_cons.mp hu
    refine ih hus ?_
    rw [inserted_toList hpos hmax]
    exact finiteC_of_mem_shiftedLine hu hd

theorem finiteC_of_mem_stuffed {l : ℕ} {x : Cplx} : ∀ u ∈ stuffed l x, Fp.finiteC u = true := by
  intro u hu
  obtain rfl | hu := List.mem_cons.mp (List.mem_of_mem_take hu)
  · exact Fp.finiteC_fin0c x
  · rw [List.eq_of_mem_replicate hu]
    exact finiteC_zero

theorem RrcNumbers.step {u : RrcUnit} (hu : RrcNumbers u) (x : Cplx) : RrcNumbers { u with
    data := ⟨(firRun (tapCount u.cfg) u.cfg.taps (stuffed u.cfg.interp.toNat x) u.data.d).1⟩ } :=
  finiteC_of_mem_line (tapCount_bounds u.cfg).1 (tapCount_bounds u.cfg).2 _ finiteC_of_mem_stuffed hu

/-! ### `SNR` -/

/-- The averages are finite, and the estimate and its peak lie in `[0, SNR_CAP]` (10_state.md R49, 45_snr.md R272). -/
structure SnrNumbers (u : SnrUnit) : Prop where
  y1 : Fp.finite u.data.y1 = true
  y2 : Fp.finite u.data.y2 = true
  snr : Fp.le Fp.zero u.data.snr = true ∧ Fp.le u.data.snr u.cfg.cap = true
  peak : Fp.le Fp.zero u.data.peak = true ∧ Fp.le u.data.peak u.cfg.cap = true

theorem snr_limits {c : SnrCfg} (h : validateSnr c = 0) : Fp.finite c.cap = true ∧ Fp.le Fp.zero c.cap = true := by
  have hchecks := (firstFailing_eq_zero_iff _ (by simp)).mp h
  simpa using hchecks (!(Fp.finite c.cap && Fp.le Fp.zero c.cap), 0x62) (by simp)

theorem snrNumbers_reset {u : SnrUnit} (hc : validateSnr u.cfg = 0) : SnrNumbers { u with data := SnrData.reset } := by
  have hcap := (snr_limits hc).2
  exact ⟨Fp.finite_zero, Fp.finite_zero, ⟨Fp.le_refl (by decide), hcap⟩, ⟨Fp.le_refl (by decide), hcap⟩⟩

/-- The averages are guarded; the estimate and the peak stay in range (`snrCalc_range`). -/
theorem SnrNumbers.step {u : SnrUnit} (hu : SnrNumbers u) (hc : validateSnr u.cfg = 0) (x : Cplx) :
    SnrNumbers { u with data := snrUpdated u.cfg u.oneMAlpha u.data x } := by
  have hsnr := snrCalc_range (snr_limits hc).2
    (snrUpdated u.cfg u.oneMAlpha u.data x).y1 (snrUpdated u.cfg u.oneMAlpha u.data x).y2
  have hmax := (Fp.max_range ((Fp.le_iff _ _).mp hu.peak.1).2.1 ((Fp.le_iff _ _).mp hsnr.1).2.1).1
  exact ⟨Fp.finite_fin0 _, Fp.finite_fin0 _, hsnr, ⟨Fp.le_trans hu.peak.1 hmax, Fp.max_le hu.peak.2 hsnr.2⟩⟩

theorem SnrNumbers.fed {u : SnrUnit} (hu : SnrNumbers u) (hc : validateSnr u.cfg = 0) (p : Option Cplx) :
    SnrNumbers (snrFed p u) := by
  cases p with
  | none => exact hu
  | some x =>
    rw [snrFed]
    split
    · exact hu.step hc x
    · exact hu

end Sys2Proof.Machine

/-! PROOFS. The numbers of `MM` (44_clock_recovery.md R261-R263): with a legal configuration `omega - GAIN_MU` is at least 1.0, so
that the sum whose floor is taken is between 1 and 131074. -/

namespace Sys2Proof.Machine

/-! ### The bounds of `omega` -/

/-- The checks of `MM` that bound its numbers (R261). -/
structure MmLimits (c : MmCfg) : Prop where
  omegaFinite : Fp.finite c.omega = true
  omegaLow : Fp.le Fp.one c.omega = true
  omegaHigh : Fp.le c.omega Fp.omegaMost = true
  gainOmegaFinite : Fp.finite c.gainOmega = true
  gainMuLow : Fp.le Fp.zero c.gainMu = true
  gainMuHigh : Fp.le c.gainMu Fp.one = true
  relLimitFinite : Fp.finite c.relLimit = true
  relLimitLow : Fp.le Fp.zero c.relLimit = true
  relLimitHigh : Fp.lt c.relLimit Fp.one = true
  muInitFinite : Fp.finite c.muInit = true
  muInitLow : Fp.le Fp.zero c.muInit = true
  muInitHigh : Fp.lt c.muInit Fp.one = true
  advance : Fp.le Fp.one (Fp.sub (deriveMm c).omegaMin c.gainMu) = true

theorem mm_limits {c : MmCfg} (h : validateMm c = 0) : MmLimits c := by
  have hchecks := (firstFailing_eq_zero_iff _ (by simp)).mp h
  simp only [List.forall_mem_cons, Bool.not_eq_false', Bool.and_eq_true, and_assoc] at hchecks
  obtain ⟨-, homega, hlow, hhigh, hgo, -, -, -, hgm, hgm1, hrel, hrel0, hrel1, hmu, hmu0, hmu1, hadv, -⟩ := hchecks
  exact ⟨homega, hlow, hhigh, hgo, hgm, hgm1, hrel, hrel0, hrel1, hmu, hmu0, hmu1, hadv⟩

/-- The greatest `omega`, 131072.0: twice the greatest `OMEGA`. -/
def mostOmega : F32 := 0x48000000

theorem realValue_omegaMost : realValue Fp.omegaMost = 65536 := by
  rw [Fp.realValue_of_fields (m := 2 ^ 23) (q := -7) rfl rfl rfl]; norm_num

theorem realValue_mostOmega : realValue mostOmega = 131072 := by
  rw [Fp.realValue_of_fields (m := 2 ^ 23) (q := -6) rfl rfl rfl]; norm_num

/-- The bounds lie around `OMEGA`, since the limit is a part of it, and are at most 131072.0 (R261). -/
structure OmegaBounds (c : MmCfg) (k : MmDerived) : Prop where
  minFinite : Fp.finite k.omegaMin = true
  min : Fp.le k.omegaMin c.omega = true
  max : Fp.le c.omega k.omegaMax = true
  most : Fp.le k.omegaMax mostOmega = true

theorem omegaBounds_of_valid {c : MmCfg} (h : validateMm c = 0) : OmegaBounds c (deriveMm c) := by
  have hc := mm_limits h
  have homega0 : 1 ≤ realValue c.omega := Fp.realValue_one ▸ Fp.realValue_le (by decide) hc.omegaFinite hc.omegaLow
  have homega1 : realValue c.omega ≤ 65536 := realValue_omegaMost ▸ Fp.realValue_le hc.omegaFinite (by decide) hc.omegaHigh
  have hrel0 : 0 ≤ realValue c.relLimit := Fp.realValue_zero ▸ Fp.realValue_le Fp.finite_zero hc.relLimitFinite hc.relLimitLow
  have hrel : Fp.Within c.relLimit Fp.one := Fp.within_of_nonneg hc.relLimitLow (by decide) (Fp.le_of_lt hc.relLimitHigh)
  have homega : Fp.Within c.omega c.omega :=
    within_self hc.omegaFinite (Fp.le_trans (by decide) hc.omegaLow)
  have hlim : Fp.Within (deriveMm c).omegaLim c.omega := homega.mul_unit hc.omegaFinite hrel
  have hlimFinite := hlim.finite hc.omegaFinite
  have hlim1 : realValue (deriveMm c).omegaLim ≤ realValue c.omega := Fp.realValue_le hlimFinite hc.omegaFinite hlim.2
  have hlim0 : 0 ≤ realValue (deriveMm c).omegaLim := by
    have hge := (Fp.mul_rounded hc.omegaFinite hc.relLimitFinite).realValue_ge hlimFinite Fp.finite_zero
    rw [Fp.realValue_zero] at hge
    exact hge (by positivity)
  have hsub := Fp.sub_rounded hc.omegaFinite hlimFinite
  have hadd := Fp.add_rounded hc.omegaFinite hlimFinite
  have hmin : Fp.le (deriveMm c).omegaMin c.omega = true := hsub.le_finite hc.omegaFinite (by linarith)
  refine ⟨?_, hmin, hadd.finite_le hc.omegaFinite (by linarith), hadd.le_finite (by decide) ?_⟩
  · exact Fp.finite_of_le_of_le Fp.finite_zero hc.omegaFinite
      (hsub.finite_le Fp.finite_zero (by rw [Fp.realValue_zero]; linarith)) hmin
  · rw [realValue_mostOmega]; linarith

/-! ### The timing update -/

/-- `mu` is in `[0, 1)` and `wait` at most 131073 (R263). -/
def TimingOk (d : MmData) : Prop :=
  Fp.le Fp.zero d.mu = true ∧ Fp.lt d.mu Fp.one = true ∧ d.wait ≤ 131073

/-- The greatest sum whose floor is taken, 131074.0, and the one before the timing error is added. -/
def mostAdvance : F32 := 0x48000080
def mostSum : F32 := 0x48000040

theorem realValue_mostAdvance : realValue mostAdvance = 131074 := by
  rw [Fp.realValue_of_fields (m := 8388736) (q := -6) rfl rfl rfl]; norm_num

theorem realValue_mostSum : realValue mostSum = 131073 := by
  rw [Fp.realValue_of_fields (m := 8388672) (q := -6) rfl rfl rfl]; norm_num

/-- `mu1` of R262 is between 1 and 131074: `mu + omega` is not below `OMEGA_MIN`, the error takes at most `GAIN_MU` away, and
check 0x57 leaves 1.0 of the difference. -/
theorem mmSum_range {c : MmCfg} {k : MmDerived} {mu omega : F32} (e : F32) (h : validateMm c = 0) (hk : k = deriveMm c)
    (hmu0 : Fp.le Fp.zero mu = true) (hmu1 : Fp.lt mu Fp.one = true) (hlo : Fp.le k.omegaMin omega = true)
    (hhi : Fp.le omega k.omegaMax = true) :
    Fp.le Fp.one (Fp.add (Fp.add mu omega) (Fp.mul c.gainMu (Fp.clip1 e))) = true ∧
      Fp.le (Fp.add (Fp.add mu omega) (Fp.mul c.gainMu (Fp.clip1 e))) mostAdvance = true := by
  subst hk
  have hc := mm_limits h
  have hb := omegaBounds_of_valid h
  have hmost : Fp.le omega mostOmega = true := Fp.le_trans hhi hb.most
  have hmuFinite : Fp.finite mu = true :=
    Fp.finite_of_le_of_le Fp.finite_zero (by decide) hmu0 (Fp.le_of_lt hmu1)
  have homegaFinite : Fp.finite omega = true := Fp.finite_of_le_of_le hb.minFinite (by decide) hlo hmost
  have hgainFinite : Fp.finite c.gainMu = true := Fp.finite_of_le_of_le Fp.finite_zero (by decide) hc.gainMuLow hc.gainMuHigh
  have hmu0 := Fp.realValue_le Fp.finite_zero hmuFinite hmu0
  have hmu1 := Fp.realValue_lt hmuFinite (by decide) hmu1
  have hminOmega := Fp.realValue_le hb.minFinite homegaFinite hlo
  have hmost := Fp.realValue_le homegaFinite (by decide) hmost
  have hgain1 := Fp.realValue_le hgainFinite (by decide) hc.gainMuHigh
  rw [Fp.realValue_zero] at hmu0
  rw [Fp.realValue_one] at hmu1 hgain1
  rw [realValue_mostOmega] at hmost
  have hsum := Fp.add_rounded hmuFinite homegaFinite
  have hsumLow : Fp.le (deriveMm c).omegaMin (Fp.add mu omega) = true := hsum.finite_le hb.minFinite (by linarith)
  have hsumHigh : Fp.le (Fp.add mu omega) mostSum = true :=
    hsum.le_finite (by decide) (by rw [realValue_mostSum]; linarith)
  have hsumFinite := Fp.finite_of_le_of_le hb.minFinite (by decide) hsumLow hsumHigh
  have hsumLow := Fp.realValue_le hb.minFinite hsumFinite hsumLow
  have hsumHigh := Fp.realValue_le hsumFinite (by decide) hsumHigh
  rw [realValue_mostSum] at hsumHigh
  have herror : Fp.Within (Fp.mul c.gainMu (Fp.clip1 e)) c.gainMu :=
    (within_self hgainFinite hc.gainMuLow).mul_unit hgainFinite (Fp.within_clip1 e)
  have herrorFinite := herror.finite hgainFinite
  obtain ⟨herrorLow, herrorHigh⟩ := abs_le.mp (herror.abs_realValue_le hgainFinite)
  have hall := Fp.add_rounded hsumFinite herrorFinite
  constructor
  · exact Fp.le_trans hc.advance ((Fp.sub_rounded hb.minFinite hgainFinite).le hall (by linarith))
  · exact hall.le_finite (by decide) (by rw [realValue_mostAdvance]; linarith)

theorem TimingOk.advanced {c : MmCfg} {k : MmDerived} {d : MmData} (hd : TimingOk d) (h : validateMm c = 0)
    (hk : k = deriveMm c) (hlo : Fp.le k.omegaMin d.omega = true) (hhi : Fp.le d.omega k.omegaMax = true) (e : F32) :
    TimingOk (mmAdvanced c k d e) := by
  obtain ⟨hmu0, hmu1, -⟩ := hd
  obtain ⟨hone, hmost⟩ := mmSum_range e h hk hmu0 hmu1 hlo hhi
  have hfin := Fp.finite_of_le_of_le (by decide) (by decide) hone hmost
  have hone := Fp.realValue_le (by decide) hfin hone
  have hmost := Fp.realValue_le hfin (by decide) hmost
  rw [Fp.realValue_one] at hone
  rw [realValue_mostAdvance] at hmost
  obtain ⟨hlow, hhigh⟩ := Fp.sub_floor_range hfin (by linarith) (by linarith)
  refine ⟨hlow, hhigh, ?_⟩
  have hfloor : Fp.floorInt (Fp.add (Fp.add d.mu d.omega) (Fp.mul c.gainMu (Fp.clip1 e))) ≤ 131074 := by
    rw [Fp.floorInt_eq hfin]
    exact_mod_cast (Int.floor_le _).trans hmost
  simp only [mmAdvanced]
  omega

/-- The timing error detector writes the decision history alone. -/
theorem TimingOk.detected {d : MmData} (hd : TimingOk d) (c : MmCfg) (p : Cplx) : TimingOk (mmDetected c d p).2 := by
  unfold mmDetected
  split <;> exact hd

theorem TimingOk.run {c : MmCfg} {k : MmDerived} {d : MmData} (hd : TimingOk d) (h : validateMm c = 0)
    (hk : k = deriveMm c) (hlo : Fp.le k.omegaMin d.omega = true) (hhi : Fp.le d.omega k.omegaMax = true) (x : Cplx) :
    TimingOk (mmRun c k d x).1 := by
  obtain hwait | hwait := Nat.eq_zero_or_pos d.wait
  · rw [mmRun_of_wait_zero hwait]
    have hshifted : TimingOk (mmShifted c d x) := hd
    exact (hshifted.detected c _).advanced h hk (by rwa [mmDetected_omega]) (by rwa [mmDetected_omega]) _
  · rw [mmRun_of_wait_pos hwait]
    obtain ⟨hmu0, hmu1, hle⟩ := hd
    exact ⟨hmu0, hmu1, (Nat.sub_le _ _).trans hle⟩

/-! ### The histories -/

/-- The interpolator history and the decision history are finite (10_state.md R47). -/
structure HistoryFinite (d : MmData) : Prop where
  a : Fp.finiteC d.a = true
  b : Fp.finiteC d.b = true
  last : Fp.finite d.last = true
  p1 : Fp.finiteC d.p1 = true
  p2 : Fp.finiteC d.p2 = true
  c1 : Fp.finiteC d.c1 = true
  c2 : Fp.finiteC d.c2 = true

theorem HistoryFinite.shifted {d : MmData} (hd : HistoryFinite d) (c : MmCfg) (x : Cplx) :
    HistoryFinite (mmShifted c d x) := by
  have hb : Fp.finiteC (mmShifted c d x).b = true := by
    simp only [mmShifted]
    split
    · simp [Fp.finiteC, Fp.finite_zero]
    · exact Fp.finiteC_fin0c x
  exact { hd with a := hd.b, b := hb }

theorem HistoryFinite.detected {d : MmData} (hd : HistoryFinite d) (c : MmCfg) {p : Cplx} (hp : Fp.finiteC p = true) :
    HistoryFinite (mmDetected c d p).2 := by
  unfold mmDetected
  split
  · exact { hd with last := Bool.and_elim_left hp }
  · exact { hd with p2 := hd.p1, p1 := hp, c2 := hd.c1, c1 := finiteC_decC p }

theorem HistoryFinite.run {d : MmData} (hd : HistoryFinite d) (c : MmCfg) (k : MmDerived) (x : Cplx) :
    HistoryFinite (mmRun c k d x).1 := by
  have hshifted := hd.shifted c x
  obtain hwait | hwait := Nat.eq_zero_or_pos d.wait
  · rw [mmRun_of_wait_zero hwait]
    exact { hshifted.detected c (finiteC_mmPoint _) with }
  · rw [mmRun_of_wait_pos hwait]
    exact { hshifted with }

/-! ### The numbers -/

/-- The numbers of `MM`: finite histories, the timing, and `omega` finite and, once the unit is valid, in its range. -/
structure MmNumbers (u : MmUnit) : Prop where
  history : HistoryFinite u.data
  timing : TimingOk u.data
  omegaFinite : Fp.finite u.data.omega = true
  omegaRange : u.status.cfgValid = true →
    Fp.le u.derived.omegaMin u.data.omega = true ∧ Fp.le u.data.omega u.derived.omegaMax = true

theorem mmNumbers_reset {u : MmUnit} (hc : validateMm u.cfg = 0)
    (hd : u.status.cfgValid = true → u.derived = deriveMm u.cfg) :
    MmNumbers { u with data := MmData.resetFrom u.cfg } := by
  have hlimits := mm_limits hc
  have hbounds := omegaBounds_of_valid hc
  exact ⟨⟨finiteC_zero, finiteC_zero, Fp.finite_zero, finiteC_zero, finiteC_zero, finiteC_zero, finiteC_zero⟩,
    ⟨hlimits.muInitLow, hlimits.muInitHigh, Nat.zero_le _⟩, hlimits.omegaFinite,
    fun hv => by rw [hd hv]; exact ⟨hbounds.min, hbounds.max⟩⟩

theorem MmNumbers.step {u : MmUnit} (hu : MmNumbers u) (hc : validateMm u.cfg = 0) (hv : u.status.cfgValid = true)
    (hd : u.derived = deriveMm u.cfg) (x : Cplx) :
    MmNumbers { u with data := (mmRun u.cfg u.derived u.data x).1 } := by
  obtain ⟨hlo, hhi⟩ := hu.omegaRange hv
  have hbounds := omegaBounds_of_valid hc
  have hrange := mmRun_omega_range x hu.omegaFinite (mm_limits hc).gainOmegaFinite hlo hhi
  have hfinite : Fp.finite (mmRun u.cfg u.derived u.data x).1.omega = true := by
    rw [← hd] at hbounds
    exact Fp.finite_of_le_of_le hbounds.minFinite (by decide) hrange.1 (Fp.le_trans hrange.2 hbounds.most)
  exact ⟨hu.history.run _ _ x, hu.timing.run hc hd hlo hhi x, hfinite, fun _ => hrange⟩

/-! ### The invariant, unit by unit -/

/-- The numbers of a unit are finite and in their ranges. -/
def UnitNumbers (u : UnitId) (s : State) : Prop :=
  match u with
  | .agc => AgcNumbers s.agc
  | .pll => PllNumbers s.pll
  | .rrc => RrcNumbers s.rrc
  | .mm => MmNumbers s.mm
  | .snr => SnrNumbers s.snr
  | .costas | .slicer | .repacker | .deframer => True

/-- A range gives finiteness where its bounds are finite, so the invariant is that of the units. -/
theorem numbersInv_iff (s : State) : NumbersInv s ↔ ConfigInv s ∧ ∀ u, UnitNumbers u s := by
  constructor
  · rintro ⟨hconfig, ⟨hg, -, -, hline, ha, hb, -, homega, hlast, hp1, hp2, hc1, hc2, hy1, hy2, -, -⟩, hphase, hfreq, hmu,
      ⟨hsnr0, hsnr1, hpeak0, hpeak1⟩, hgain, homegaRange⟩
    refine ⟨hconfig, fun u => ?_⟩
    cases u with
    | agc => exact ⟨hg, hgain⟩
    | pll => exact ⟨hphase, hfreq⟩
    | rrc => exact hline
    | mm => exact ⟨⟨ha, hb, hlast, hp1, hp2, hc1, hc2⟩, hmu, homega, homegaRange⟩
    | snr => exact ⟨hy1, hy2, ⟨hsnr0, hsnr1⟩, ⟨hpeak0, hpeak1⟩⟩
    | costas | slicer | repacker | deframer => trivial
  · rintro ⟨hconfig, h⟩
    have ⟨⟨_, _, hpllCfg, _, _, hsnrCfg, _, _⟩, _⟩ := hconfig
    obtain ⟨hg, hgain⟩ : AgcNumbers s.agc := h .agc
    obtain ⟨hphase, hfreq⟩ : PllNumbers s.pll := h .pll
    obtain ⟨⟨ha, hb, hlast, hp1, hp2, hc1, hc2⟩, hmu, homega, homegaRange⟩ : MmNumbers s.mm := h .mm
    obtain ⟨hy1, hy2, hsnr, hpeak⟩ : SnrNumbers s.snr := h .snr
    have hcap := (snr_limits hsnrCfg).1
    refine ⟨hconfig, ⟨hg, hphase.finite (by decide), hfreq.finite (pll_limits hpllCfg).2.1, h .rrc, ha, hb, ?_, homega,
      hlast, hp1, hp2, hc1, hc2, hy1, hy2, ?_, ?_⟩, hphase, hfreq, hmu, ⟨hsnr.1, hsnr.2, hpeak.1, hpeak.2⟩, hgain, homegaRange⟩
    · exact Fp.finite_of_le_of_le Fp.finite_zero (by decide) hmu.1 (Fp.le_of_lt hmu.2.1)
    · exact Fp.finite_of_le_of_le Fp.finite_zero hcap hsnr.1 hsnr.2
    · exact Fp.finite_of_le_of_le Fp.finite_zero hcap hpeak.1 hpeak.2

/-! ### `COMMIT`, `SRESET` and the reset state -/

/-- `SRESET` leaves numbers that every legal configuration allows. -/
theorem unitNumbers_resetUnit_same {u : UnitId} {s : State} (h : UnitLegal u s) : UnitNumbers u (resetUnit u s) := by
  cases u with
  | agc => exact agcNumbers_reset h.1 h.2
  | pll => exact pllNumbers_reset h.1
  | rrc => exact rrcNumbers_reset s.rrc
  | mm => exact mmNumbers_reset h.1 h.2
  | snr => exact snrNumbers_reset h.1
  | costas | slicer | repacker | deframer => trivial

/-- A successful `COMMIT` has reset the datapath of its unit (R206). -/
theorem resetUnit_commitUnit {u : UnitId} {s : State} (h : checkCode u s = 0) :
    resetUnit u (commitUnit u s) = commitUnit u s := by
  obtain ⟨-, e⟩ | ⟨hne, -⟩ := commitUnit_cases u s
  · rw [e]; cases u <;> rfl
  · exact absurd h hne

theorem unitNumbers_commitUnit_same {u : UnitId} {s : State} (hl : UnitLegal u s) (hs : UnitNumbers u s) :
    UnitNumbers u (commitUnit u s) := by
  by_cases h : checkCode u s = 0
  · rw [← resetUnit_commitUnit h]
    exact unitNumbers_resetUnit_same (unitLegal_commitUnit_same hl)
  · obtain ⟨h0, -⟩ | ⟨-, e⟩ := commitUnit_cases u s
    · exact absurd h0 h
    · rw [e]
      cases u with
      | agc => exact ⟨hs.1, nofun⟩
      | mm => exact { hs with omegaRange := nofun }
      | pll | rrc => exact hs
      | snr => exact { hs with }
      | costas | slicer | repacker | deframer => trivial

theorem unitNumbers_congr {u : UnitId} {s t : State} (h : unitPart u t = unitPart u s) (hs : UnitNumbers u s) :
    UnitNumbers u t := by
  have hpart (w : State) : UnitNumbers u (unitPart u w) ↔ UnitNumbers u w := by cases u <;> rfl
  rw [← hpart, h, hpart]
  exact hs

theorem unitPart_resetUnit_other {u v : UnitId} (h : v ≠ u) (s : State) : unitPart u (resetUnit v s) = unitPart u s := by
  cases u with
  | agc => simp only [unitPart, resetUnit_agc h]
  | costas => simp only [unitPart, resetUnit_costas h]
  | pll => simp only [unitPart, resetUnit_pll h]
  | rrc => simp only [unitPart, resetUnit_rrc h]
  | mm => simp only [unitPart, resetUnit_mm h]
  | snr => simp only [unitPart, resetUnit_snr h]
  | slicer => simp only [unitPart, resetUnit_slicer h]
  | repacker => simp only [unitPart, resetUnit_repacker h]
  | deframer => simp only [unitPart, resetUnit_deframer h]

theorem unitNumbers_reset (u : UnitId) : UnitNumbers u State.reset := by
  have e : resetUnit u State.reset = State.reset := by cases u <;> rfl
  rw [← e]
  exact unitNumbers_resetUnit_same ((configInv_iff _).mp configInv_reset u).1

theorem numbersInv_reset : NumbersInv State.reset := (numbersInv_iff _).mpr ⟨configInv_reset, unitNumbers_reset⟩

/-! ### The invariant is kept -/

theorem unitNumbers_numbersPart (u : UnitId) (s : State) : UnitNumbers u (numbersPart s) ↔ UnitNumbers u s := by
  cases u with
  | mm => exact ⟨fun h => { h with }, fun h => { h with }⟩
  | snr => exact ⟨fun h => { h with }, fun h => { h with }⟩
  | _ => exact Iff.rfl

/-- Each change writes the numbers of one unit, but for `MM`, which gives its symbol to `SNR`. -/
theorem unitNumbers_change {s t : State} (hconfig : ConfigInv s) (hs : ∀ u, UnitNumbers u s) (h : Change s t) :
    ∀ u, UnitNumbers u t := by
  have ⟨⟨hagc, _, hpll, _, hmm, hsnr, _, _⟩, ⟨hgainMin, hloop, homega, _, _⟩, _⟩ := hconfig
  intro u
  have hu := hs u
  cases h with
  | quiet h => exact (unitNumbers_numbersPart u t).mp (h.numbers ▸ (unitNumbers_numbersPart u s).mpr hu)
  | commit v =>
    by_cases huv : v = u
    · subst huv; exact unitNumbers_commitUnit_same ((configInv_iff s).mp hconfig v).1 hu
    · exact unitNumbers_congr (unitPart_commitUnit_other huv s) hu
  | sreset v =>
    by_cases huv : v = u
    · subst huv; exact unitNumbers_resetUnit_same ((configInv_iff s).mp hconfig v).1
    · exact unitNumbers_congr (unitPart_resetUnit_other huv s) hu
  | agc x h =>
    cases u with
    | agc => exact AgcNumbers.step hu hagc h (hgainMin h) _
    | _ => exact hu
  | pll e h =>
    cases u with
    | pll => exact PllNumbers.step hu hpll (hloop h) e
    | _ => exact hu
  | costas x h =>
    cases u with
    | pll => exact PllNumbers.step hu hpll (hloop h) _
    | _ => exact hu
  | rrc x =>
    cases u with
    | rrc => exact RrcNumbers.step hu x
    | _ => exact hu
  | mm x h =>
    rw [mmTake_eq]
    cases u with
    | mm => exact MmNumbers.step hu hmm h (homega h) x
    | snr => exact SnrNumbers.fed hu hsnr _
    | _ => exact hu
  | snr x =>
    cases u with
    | snr => exact SnrNumbers.step hu hsnr x
    | _ => exact hu
  | slice x => exact hu
  | deframe bits => exact hu
  | reset => exact unitNumbers_reset u

/-- Settles O55: every change of a step keeps the configuration legal and with it each unit's numbers. -/
theorem stepKeepsNumbers : Obligations.StepKeepsNumbers := by
  intro s t hs h
  rw [numbersInv_iff] at hs ⊢
  exact kept_by_step (P := fun s => ConfigInv s ∧ ∀ u, UnitNumbers u s)
    (fun _ _ hch hs => ⟨hch.configInv hs.1, unitNumbers_change hs.1 hs.2 hch⟩) hs h

end Sys2Proof.Machine

/-! PROOFS. Reset (70_reset_and_hazards.md R500, R502): the reset input, the values after it, and that the invariants hold there. -/

namespace Sys2Proof.Machine

/-- Settles O7: the turn of the reset input passes, and `hardReset` keeps the host's side and the turns. -/
theorem resetInputResetsTheBlock : Obligations.ResetInputResetsTheBlock := by
  intro s hturn
  have hfetch : fetch s = .pass (endTurn (hardReset s)) := by rw [fetch, hturn]
  exact step_of_pass hfetch

theorem cfgValid_reset (u : UnitId) : (statusOf u State.reset).cfgValid = false := by cases u <;> rfl

/-- Settles O8: no unit is valid (R502), so R84 enables no data step; the configuration is legal by `configInv_reset`. -/
theorem noDataStepEnabledAfterReset : Obligations.NoDataStepEnabledAfterReset :=
  ⟨cfgValid_reset, fun a => by cases a <;> rfl, configInv_reset.1⟩

/-- `TAP[0]` is 1.0 after reset and every other tap 0 (10_state.md R44). -/
theorem tap_reset (k : Fin Config.maxTaps) :
    regShows (.rrcTap k) State.reset = if k.val = 0 then 0x3F800000 else 0 := by
  change ((Vector.replicate Config.maxTaps (0 : F32)).setIfInBounds 0 0x3F800000).get k = _
  rw [Vector.get_eq_getElem, Vector.getElem_setIfInBounds, Vector.getElem_replicate]
  simp only [eq_comm]

theorem line_reset (k : Fin Config.maxTaps) : State.reset.rrc.data.d.get k = ⟨0, 0⟩ := by
  change (Vector.replicate Config.maxTaps Cplx.zero).get k = _
  rw [Vector.get_eq_getElem, Vector.getElem_replicate]
  rfl

/-- Settles O9: the reset state is written out in the model; the taps and the delay line are read entry by entry. -/
theorem resetRegisterValues : Obligations.ResetRegisterValues := by
  refine ⟨fun u => by cases u <;> exact ⟨rfl, rfl⟩, rfl, tap_reset, rfl, rfl, ?_⟩
  refine ⟨rfl, rfl, rfl, rfl, rfl, rfl, rfl, rfl, rfl, fun u => by cases u <;> rfl, rfl, rfl, rfl, rfl, rfl, rfl, rfl, ?_⟩
  exact ⟨line_reset, rfl, rfl, rfl, rfl, rfl, rfl, rfl, rfl, rfl, rfl, rfl, rfl, rfl, rfl⟩

theorem queueInv_reset : QueueInv State.reset :=
  have h := queuesOk_emptied false State.reset
  ⟨datapathInv_reset, h.bounded, h.chain, h.aborted⟩

/-- Settles O50: each invariant's own lemma about the reset state. -/
theorem invariantsHoldAfterReset : Obligations.InvariantsHoldAfterReset :=
  ⟨configInv_reset, datapathInv_reset, queueInv_reset,
    ⟨configInv_reset, itemsOk_reset.samples, itemsOk_reset.softs, itemsOk_reset.frames⟩, numbersInv_reset⟩

end Sys2Proof.Machine

/-! PROOFS. The two exceptions (60_exceptions.md R401-R404): the checks of each unit in their order, a `COMMIT` that fails, and
the causes of a bus error. -/

namespace Sys2Proof.Machine

/-! ### The checks -/

theorem not_and_iff (a b : Bool) : (!(a && b)) = true ↔ ¬ (a = true ∧ b = true) := by
  rw [Bool.not_eq_true', ← Bool.not_eq_true, Bool.and_eq_true]

theorem not_and_and_iff (a b c : Bool) : (!(a && b && c)) = true ↔ ¬ (a = true ∧ b = true ∧ c = true) := by
  rw [not_and_iff, Bool.and_eq_true, and_assoc]

theorem not_eq_true_iff (a : Bool) : (!a) = true ↔ ¬ a = true := by simp

theorem ne_and_ne_iff (v x y : Word) : (v != x && v != y) = true ↔ v ≠ x ∧ v ≠ y := by simp

theorem decide_or_decide_iff (p q : Prop) [Decidable p] [Decidable q] : (decide p || decide q) = true ↔ p ∨ q := by simp

theorem ntaps_check_iff (n : ℕ) :
    (decide (n < 1) || decide (Config.maxTaps < n) || n % 2 == 0) = true ↔ n < 1 ∨ 255 < n ∨ n % 2 = 0 := by
  rw [Bool.or_eq_true, Bool.or_eq_true, decide_eq_true_iff, decide_eq_true_iff, beq_iff_eq, or_assoc]
  exact Iff.rfl

/-- The taps that check 0x43 reads are those before `NTAPS` (43_rrc.md R251). -/
theorem not_all_finite_take_iff (n : ℕ) (taps : Vector F32 Config.maxTaps) :
    (!(taps.toList.take n).all Fp.finite) = true ↔
      ∃ k : Fin Config.maxTaps, k.val < n ∧ Fp.finite (taps.get k) = false := by
  simp only [Bool.not_eq_true', List.all_eq_false, List.mem_take_iff_getElem, Vector.get_eq_getElem]
  constructor
  · rintro ⟨x, ⟨i, hi, rfl⟩, hx⟩
    have hi : i < n ∧ i < Config.maxTaps := by simpa using hi
    exact ⟨⟨i, hi.2⟩, hi.1, by simpa using hx⟩
  · rintro ⟨k, hk, hx⟩
    exact ⟨taps[k.val], ⟨k.val, by simp [hk], by simp⟩, by simp [hx]⟩

/-- Settles O19: each table of checks (R401) is a chain of conditions, the first that fails giving the code (R403). -/
theorem checkCodesInOrder : Obligations.CheckCodesInOrder :=
  ⟨fun _ => if_congr (not_and_iff _ _) rfl (if_congr (not_and_and_iff _ _ _) rfl (if_congr (not_and_iff _ _) rfl rfl)),
    fun _ => if_congr (ne_and_ne_iff _ _ _) rfl rfl,
    fun _ => if_congr (not_and_and_iff _ _ _) rfl (if_congr (not_and_and_iff _ _ _) rfl rfl),
    fun _ => if_congr (ntaps_check_iff _) rfl (if_congr (decide_or_decide_iff _ _) rfl
      (if_congr (not_all_finite_take_iff _ _) rfl rfl)),
    fun _ => if_congr (ne_and_ne_iff _ _ _) rfl (if_congr (not_and_and_iff _ _ _) rfl (if_congr (not_and_and_iff _ _ _) rfl
      (if_congr (not_and_and_iff _ _ _) rfl (if_congr (not_and_and_iff _ _ _) rfl (if_congr (not_and_and_iff _ _ _) rfl
        (if_congr (not_eq_true_iff _) rfl rfl)))))),
    fun _ => if_congr (not_and_and_iff _ _ _) rfl (if_congr (not_and_iff _ _) rfl rfl),
    fun _ => if_congr (not_and_iff _ _) rfl rfl,
    fun _ => if_congr (decide_or_decide_iff _ _) rfl (if_congr (decide_or_decide_iff _ _) rfl
      (if_congr decide_eq_true_iff rfl (if_congr decide_eq_true_iff rfl (if_congr decide_eq_true_iff rfl rfl))))⟩

/-! ### A failed `COMMIT` -/

theorem exec_commitOf_failed {u : UnitId} {s : State} (h : checkCode u s ≠ 0) :
    exec (commitOf u) s = .next (setStatus u ⟨false, true, checkCode u s⟩ s) := by
  obtain ⟨h0, -⟩ | ⟨-, e⟩ := commitUnit_cases u s
  · exact absurd h0 h
  · rw [exec_commitOf, e]

theorem unit_commits :
    [(UnitId.agc, Instr.commitAgc), (.costas, .commitCostas), (.pll, .commitPll), (.rrc, .commitRrc), (.mm, .commitMm),
      (.snr, .commitSnr), (.slicer, .commitSlicer), (.repacker, .commitRepacker), (.deframer, .commitDeframer)] =
    UnitId.all.map fun u => (u, commitOf u) := rfl

/-- The units whose `CFG_VALID` a data step of an agent needs (20_memory.md R84): the agent's own, and `PLL` for `COSTAS`. -/
theorem dataEnabled_of_not_valid {s : State} {u : UnitId} {a : Agent}
    (hu : (u, a) ∈ [(UnitId.agc, Agent.agc), (.costas, .costas), (.pll, .costas), (.rrc, .rrc), (.mm, .mm),
      (.slicer, .slicer), (.repacker, .repacker), (.deframer, .deframer)])
    (hv : (statusOf u s).cfgValid = false) : dataEnabled a s = false := by
  refine Bool.eq_false_iff.mpr fun h => absurd ?_ (Bool.eq_false_iff.mp hv)
  simp only [List.mem_cons, Prod.mk.injEq, List.not_mem_nil, or_false] at hu
  obtain ⟨rfl, rfl⟩ | ⟨rfl, rfl⟩ | ⟨rfl, rfl⟩ | ⟨rfl, rfl⟩ | ⟨rfl, rfl⟩ | ⟨rfl, rfl⟩ | ⟨rfl, rfl⟩ | ⟨rfl, rfl⟩ := hu
  · exact ((dataEnabled_agc_iff s).mp h).1
  · exact ((dataEnabled_costas_iff s).mp h).1
  · exact ((dataEnabled_costas_iff s).mp h).2.1
  · exact ((dataEnabled_rrc_iff s).mp h).1
  · exact ((dataEnabled_mm_iff s).mp h).1
  · exact ((dataEnabled_slicer_iff s).mp h).1
  · exact ((dataEnabled_repacker_iff s).mp h).1
  · exact ((dataEnabled_deframer_iff s).mp h).1

/-- Settles O18: a `COMMIT` whose check code is not 0 only sets the status, the write of `CTRL` does the same `COMMIT`, and R84
asks for `CFG_VALID`. -/
theorem failedCommitRecordsOnlyTheError : Obligations.FailedCommitRecordsOnlyTheError := by
  refine fun s => ⟨?_, ?_, ?_, ?_, ?_, ?_, ?_, ?_, fun u i hi => ?_, fun u a => dataEnabled_of_not_valid⟩
  · rintro _ rfl h; exact exec_commitOf_failed (u := .agc) h
  · rintro _ rfl h; exact exec_commitOf_failed (u := .costas) h
  · rintro _ rfl h; exact exec_commitOf_failed (u := .pll) h
  · rintro _ rfl h; exact exec_commitOf_failed (u := .rrc) h
  · rintro _ rfl h; exact exec_commitOf_failed (u := .mm) h
  · rintro _ rfl h; exact exec_commitOf_failed (u := .snr) h
  · rintro _ rfl h; exact exec_commitOf_failed (u := .slicer) h
  · rintro _ rfl h; exact exec_commitOf_failed (u := .deframer) h
  · rw [unit_commits, List.mem_map] at hi
    obtain ⟨v, -, hv⟩ := hi
    obtain ⟨rfl, rfl⟩ := Prod.mk.inj hv
    exact ⟨_, exec_commitOf v s, exec_write_ctrl v 1 s⟩

/-! ### Bus errors -/

theorem accessed_of_misaligned {a : Half} (h : a.toNat % 4 ≠ 0) : accessed a = none :=
  Option.eq_none_iff_forall_ne_some.mpr fun _ hr => h (accessed_some hr).2

theorem accessed_of_unmapped {a : Half} (h : ∀ r, regAddr r ≠ a) : accessed a = none :=
  Option.eq_none_iff_forall_ne_some.mpr fun r hr => h r (accessed_some hr).1

/-- An access that reaches no register is refused (R404). -/
theorem exec_access_of_none {a : Half} (h : accessed a = none) (v : Word) (s : State) :
    exec (.regRead a) s = .next (raiseBusError s) ∧ exec (.regWrite a v) s = .next (raiseBusError s) := by
  rw [exec_regRead, exec_regWrite, h]
  exact ⟨rfl, rfl⟩

theorem exec_regWrite_ro {r : Reg} (h : regClass r = .ro) (v : Word) (s : State) :
    exec (.regWrite (regAddr r) v) s = .next (raiseBusError s) := by
  simp only [exec_regWrite, accessed_regAddr, if_pos h]

/-- The descriptors of the host transactions (30_encoding.md R102, R110). -/
theorem mem_of_isHostDescriptor {d : Half} (h : isHostDescriptor d = true) :
    d ∈ ([0x0100, 0x0200, 0x0300, 0x0400, 0x0500] : List Half) := by
  simp only [isHostDescriptor, Bool.and_eq_true, beq_iff_eq, decide_eq_true_eq] at h
  obtain ⟨⟨⟨hz, hunit⟩, hlow⟩, hhigh⟩ := h
  rw [← descOf_desc_fields hz, hunit]
  interval_cases descOp d <;> decide

/-- A word that is no host transaction's descriptor is refused and taken alone (log 11). -/
theorem step_of_refused_word {s : State} {d : Half} {rest : List Half} (hturn : nextTurn s = .agent .host)
    (hscript : s.script = d :: rest) (hd : isHostDescriptor d = false) :
    step s = .next (endTurn (raiseBusError { s with script := rest })) := by
  refine step_of_pass ?_
  simp only [fetch_of_host hturn, hostTurn, takeLine_of_script hscript, hscript, hd, Bool.false_eq_true, if_false]

/-- Settles O14: an address reaches no register when it is misaligned or unmapped; a refused word is taken alone. -/
theorem busErrorAnswersErrAndChangesNothing : Obligations.BusErrorAnswersErrAndChangesNothing := by
  refine fun s => ⟨fun a v h => exec_access_of_none (accessed_of_misaligned h) v s,
    fun a v h => exec_access_of_none (accessed_of_unmapped h) v s, fun r v h => exec_regWrite_ro h v s,
    fun d rest hturn hscript hd => ?_, fun x h => ?_⟩
  · exact ⟨0, step_of_refused_word hturn hscript (Bool.eq_false_iff.mpr (mt mem_of_isHostDescriptor hd))⟩
  · rw [exec_srcPush, if_pos h]
    rfl

end Sys2Proof.Machine

/-! PROOFS. The deframer's words bit by bit: the window, the mask and the bit buffer (10_state.md R54, 47_deframer.md R292). -/

namespace Sys2Proof.Machine

/-! ### Arrays of bits -/

/-- `setBit` writes one bit and leaves the others. -/
theorem getLsbD_setBit {w : ℕ} (v : BitVec w) {i : ℕ} (hi : i < w) (b : Bool) (j : ℕ) :
    (setBit v i b).getLsbD j = if j = i then b else v.getLsbD j := by
  have hone : (BitVec.ofNat w 1 <<< i).getLsbD j = decide (i = j) := by
    have htwo := BitVec.getLsbD_twoPow (w := w) i j
    rwa [decide_eq_true hi, Bool.true_and] at htwo
  have hbound : j = i → j < w := fun h => h ▸ hi
  unfold setBit
  split
  · rw [BitVec.getLsbD_or, hone]
    grind
  · rw [BitVec.getLsbD_and, BitVec.getLsbD_not, hone]
    have hout : v.getLsbD j = true → j < w := BitVec.lt_of_getLsbD
    grind

/-- Bits written one after another. -/
theorem getLsbD_foldl_setBit {w n : ℕ} (hn : n ≤ w) (f : ℕ → Bool) (v : BitVec w) (j : ℕ) :
    ((List.range n).foldl (fun b i => setBit b i (f i)) v).getLsbD j = if j < n then f j else v.getLsbD j := by
  induction n with
  | zero => simp
  | succ n ih =>
    rw [List.range_succ, List.foldl_append, List.foldl_cons, List.foldl_nil, getLsbD_setBit _ (by omega), ih (by omega)]
    grind

/-- The number whose binary digits are `f 0` to `f (n - 1)`, the first the most significant. -/
def bitsValue (f : ℕ → Bool) (n : ℕ) : ℕ := ((List.range n).map fun i => bitNat (f i) * 2 ^ (n - 1 - i)).sum

theorem bitsValue_succ (f : ℕ → Bool) (n : ℕ) : bitsValue f (n + 1) = 2 * bitsValue f n + bitNat (f n) := by
  have hdouble : (List.range n).map (fun i => bitNat (f i) * 2 ^ (n + 1 - 1 - i)) =
      (List.range n).map (fun i => 2 * (bitNat (f i) * 2 ^ (n - 1 - i))) := by
    refine List.map_congr_left fun i hi => ?_
    have hi : i < n := List.mem_range.mp hi
    have e : n + 1 - 1 - i = n - 1 - i + 1 := by omega
    rw [e, pow_succ]
    ring
  rw [bitsValue, List.range_succ, List.map_append, List.sum_append, hdouble, List.sum_map_mul_left, bitsValue]
  simp

theorem testBit_bitsValue (f : ℕ → Bool) {n k : ℕ} (hk : k < n) : (bitsValue f n).testBit (n - 1 - k) = f k := by
  induction n with
  | zero => omega
  | succ n ih =>
    rw [bitsValue_succ]
    obtain rfl | hkn := Nat.eq_or_lt_of_le (Nat.le_of_lt_succ hk)
    · rw [show k + 1 - 1 - k = 0 by omega, Nat.testBit_zero]
      cases f k <;> simp [bitNat]
    · rw [show n + 1 - 1 - k = n - 1 - k + 1 by omega, Nat.testBit_succ, ← ih hkn]
      congr 1
      have := bitNat_le_one (f n)
      omega

/-- The byte `j` of `buf` has the bit `8j + k` of `buf` in bit `7 - k` (20_memory.md R89). -/
theorem getLsbD_bufByte (buf : BitVec Config.bufBits) (j : ℕ) {k : ℕ} (hk : k < 8) :
    (bufByte buf j).getLsbD (7 - k) = buf.getLsbD (8 * j + k) := by
  have hbits := testBit_bitsValue (fun i => buf.getLsbD (8 * j + i)) hk
  rw [bufByte, BitVec.getLsbD_ofNat, ← hbits]
  simp [bitsValue]
  omega

/-! ### The window -/

theorem getLsbD_mask {m : ℕ} (hm : m ≤ 64) (i : ℕ) : (mask m).getLsbD i = decide (i < m) := by
  rw [mask, BitVec.getLsbD_ushiftRight, BitVec.getLsbD_allOnes]
  simp only [decide_eq_decide]
  omega

theorem toNat_mask {m : ℕ} (hm : m ≤ 64) : (mask m).toNat = 2 ^ m - 1 := by
  rw [mask_eq_ofNat hm, BitVec.toNat_ofNat]
  have : 2 ^ m ≤ 2 ^ 64 := Nat.pow_le_pow_right (by decide) hm
  omega

theorem windowAfter_win (c : DeframerCfg) (x : Bool) (d : DeframerData) :
    (windowAfter c x d).win = ((d.win <<< 1) ||| (if x then 1 else 0)) &&& mask c.asmLen.toNat := by
  cases x <;> rfl

/-- The window after a bit: the bit at place 0, the others one place up, `M` of them (47_deframer.md R292). -/
theorem getLsbD_windowAfter {c : DeframerCfg} (hM : markerBits c ≤ 64) (x : Bool) (d : DeframerData) (i : ℕ) :
    (windowAfter c x d).win.getLsbD i = (decide (i < markerBits c) && if i = 0 then x else d.win.getLsbD (i - 1)) := by
  have hbit : (BitVec.ofNat 64 (bitNat x)).getLsbD i = (decide (i = 0) && x) := by
    cases x <;> simp [bitNat]
  have hmask := getLsbD_mask hM i
  simp only [windowAfter, BitVec.getLsbD_and, BitVec.getLsbD_or, BitVec.getLsbD_shiftLeft, hbit, hmask]
  grind

/-! ### The distance -/

theorem sum_bitNat_eq_length_filter (p : ℕ → Bool) (l : List ℕ) :
    (l.map fun i => bitNat (p i)).sum = (l.filter p).length := by
  induction l with
  | nil => rfl
  | cons i l ih =>
    rw [List.map_cons, List.sum_cons, ih]
    cases h : p i <;> simp [h, bitNat, Nat.add_comm]

theorem popcount_eq_length_filter (w : BitVec 64) : popcount w = ((List.range 64).filter fun i => w.getLsbD i).length :=
  sum_bitNat_eq_length_filter _ _

theorem popcount_zero : popcount 0 = 0 := by decide

end Sys2Proof.Machine

/-! PROOFS. `DEFRAME_BIT` (47_deframer.md R291-R294): what one bit does in the search and in a lock, as equations; then the
transitions of R292 field by field. -/

namespace Sys2Proof.Machine

/-! ### The end of a bit -/

theorem frameEnd_of_full {c : DeframerCfg} {d : DeframerData} (h : d.cnt = frameBits c) :
    frameEnd c d = ({ d with cnt := 0 }, [emitted c d]) := if_pos h

theorem frameEnd_of_not_full {c : DeframerCfg} {d : DeframerData} (h : d.cnt ≠ frameBits c) : frameEnd c d = (d, []) :=
  if_neg h

/-- `frameEnd` writes `cnt` alone. -/
theorem frameEnd_data (c : DeframerCfg) (d : DeframerData) : (frameEnd c d).1 = { d with cnt := (frameEnd c d).1.cnt } := by
  simp only [frameEnd]
  split <;> rfl

/-- An emitted frame has the bits of `buf`, the first on the line in bit 7 (20_memory.md R89). -/
theorem frameEnd_frame_bits (c : DeframerCfg) (d : DeframerData) : ∀ f ∈ (frameEnd c d).2, f.data.length = c.frameLen.toNat ∧
    ∀ j k, j < c.frameLen.toNat → k < 8 → (f.data.getD j 0).getLsbD (7 - k) = d.buf.getLsbD (8 * j + k) := by
  intro f hf
  have hf : f = emitted c d := by
    simp only [frameEnd] at hf
    split at hf
    · simpa using hf
    · simp at hf
  subst hf
  refine ⟨by simp [emitted], fun j k hj hk => ?_⟩
  rw [← getLsbD_bufByte d.buf j hk]
  simp [emitted, hj]

/-! ### A bit in the search -/

section

variable {c : DeframerCfg} {asm : BitVec 64} {x : Bool} {d : DeframerData}

theorem deframedBit_of_nosync (hs : d.state = .nosync) :
    deframedBit c asm x d = searchStep c asm (windowAfter c x d) := if_pos hs

theorem deframedBit_of_lock (hs : d.state ≠ .nosync) :
    deframedBit c asm x d = lockStep c asm x (windowAfter c x d) := if_neg hs

/-- While the window is not full or no polarity matches, only the window and the fill count change. -/
theorem deframedBit_of_no_match (hs : d.state = .nosync)
    (h : (windowAfter c x d).fill < markerBits c ∨ search c asm (windowAfter c x d).win = none) :
    deframedBit c asm x d = (windowAfter c x d, []) := by
  rw [deframedBit_of_nosync hs, searchStep]
  split
  · rfl
  · next hfull =>
    rw [h.resolve_left hfull]

/-- The lock that a match of polarity `p` starts, before `frameEnd`. -/
def lockStarted (c : DeframerCfg) (p : Bool) (d : DeframerData) : DeframerData :=
  { d with inv := p, state := .syncing, miss := 0, buf := markerStored c p d.win d.buf, cnt := markerBits c }

theorem deframedBit_of_match {p : Bool} (hs : d.state = .nosync) (hfull : (windowAfter c x d).fill = markerBits c)
    (h : search c asm (windowAfter c x d).win = some p) :
    deframedBit c asm x d = frameEnd c (lockStarted c p (windowAfter c x d)) := by
  rw [deframedBit_of_nosync hs, searchStep, if_neg hfull.not_lt, h]
  rfl

/-- The marker stands at the head of `buf`, in the order of the line. -/
theorem getLsbD_markerStored (hM : markerBits c ≤ 64) (p : Bool) (win : BitVec 64) (buf : BitVec Config.bufBits) (i : ℕ) :
    (markerStored c p win buf).getLsbD i =
      if i < markerBits c then xor (win.getLsbD (markerBits c - 1 - i)) p else buf.getLsbD i :=
  getLsbD_foldl_setBit (hM.trans (by decide)) (fun i => xor (win.getLsbD (markerBits c - 1 - i)) p) buf i

/-! ### A bit in a lock -/

/-- A bit written to `buf` in a lock, with the window shifted. -/
def bitStored (c : DeframerCfg) (x : Bool) (d : DeframerData) : DeframerData :=
  { windowAfter c x d with buf := setBit d.buf d.cnt (xor x d.inv), cnt := d.cnt + 1 }

theorem deframedBit_of_inside (hs : d.state ≠ .nosync) (h : d.cnt + 1 ≠ markerBits c) :
    deframedBit c asm x d = frameEnd c (bitStored c x d) := by
  rw [deframedBit_of_lock hs, lockStep]
  exact if_neg h

/-- At bit `M` the marker is checked: the lock goes on. -/
theorem deframedBit_of_kept {d' : DeframerData} (hs : d.state ≠ .nosync) (h : d.cnt + 1 = markerBits c)
    (hcheck : markerCheck c asm (bitStored c x d) = some d') : deframedBit c asm x d = frameEnd c d' := by
  rw [deframedBit_of_lock hs, lockStep]
  refine (if_pos h).trans ?_
  split
  · next hnone => exact absurd (hcheck.symm.trans hnone) nofun
  · next hsome => rw [Option.some.inj (hcheck.symm.trans hsome)]

/-- At bit `M` the marker is checked: the lock is lost. -/
theorem deframedBit_of_lost (hs : d.state ≠ .nosync) (h : d.cnt + 1 = markerBits c)
    (hcheck : markerCheck c asm (bitStored c x d) = none) :
    deframedBit c asm x d = ({ bitStored c x d with state := .nosync, cnt := 0, miss := 0, inv := false }, []) := by
  rw [deframedBit_of_lock hs, lockStep]
  refine (if_pos h).trans ?_
  split
  · rfl
  · next hsome => exact absurd (hcheck.symm.trans hsome) nofun

theorem deframedBit_of_hit (hs : d.state ≠ .nosync) (h : d.cnt + 1 = markerBits c)
    (hit : markerMatches c asm (windowAfter c x d).win d.inv = true) :
    deframedBit c asm x d = frameEnd c { bitStored c x d with state := .synced, miss := 0 } :=
  deframedBit_of_kept hs h (if_pos hit)

/-- The lock state after a tolerated miss (R294). -/
def missedState (s : LockState) : LockState := if s = .synced ∨ s = .syncedMissed then .syncedMissed else s

theorem deframedBit_of_miss (hs : d.state ≠ .nosync) (h : d.cnt + 1 = markerBits c)
    (hit : markerMatches c asm (windowAfter c x d).win d.inv = false) (hK : d.miss + 1 ≤ c.missTol.toNat) :
    deframedBit c asm x d =
      frameEnd c { bitStored c x d with miss := d.miss + 1, state := missedState d.state } :=
  deframedBit_of_kept hs h ((if_neg (Bool.eq_false_iff.mp hit)).trans (if_neg hK.not_gt))

theorem deframedBit_of_loss (hs : d.state ≠ .nosync) (h : d.cnt + 1 = markerBits c)
    (hit : markerMatches c asm (windowAfter c x d).win d.inv = false) (hK : c.missTol.toNat < d.miss + 1) :
    deframedBit c asm x d = ({ bitStored c x d with state := .nosync, cnt := 0, miss := 0, inv := false }, []) :=
  deframedBit_of_lost hs h ((if_neg (Bool.eq_false_iff.mp hit)).trans (if_pos hK))

theorem missedState_eq {s : LockState} (hs : s ≠ .nosync) :
    missedState s = if s = .syncing then .syncing else .syncedMissed := by
  cases s <;> simp_all [missedState]

theorem missedState_ne {s : LockState} (hs : s ≠ .nosync) : missedState s ≠ .nosync := by
  rw [missedState_eq hs]
  split <;> nofun

/-- All that a bit can do in a lock: it is stored and `frameEnd` follows, or the lock is lost with it. -/
theorem deframedBit_lock_cases (asm : BitVec 64) (x : Bool) (hs : d.state ≠ .nosync) :
    (∃ s m, s ≠ .nosync ∧ deframedBit c asm x d = frameEnd c { bitStored c x d with state := s, miss := m }) ∨
    deframedBit c asm x d = ({ bitStored c x d with state := .nosync, cnt := 0, miss := 0, inv := false }, []) := by
  by_cases h : d.cnt + 1 = markerBits c
  · cases hit : markerMatches c asm (windowAfter c x d).win d.inv with
    | true => exact .inl ⟨.synced, 0, nofun, deframedBit_of_hit hs h hit⟩
    | false =>
      obtain hK | hK := Nat.lt_or_ge c.missTol.toNat (d.miss + 1)
      · exact .inr (deframedBit_of_loss hs h hit hK)
      · exact .inl ⟨_, _, missedState_ne hs, deframedBit_of_miss hs h hit hK⟩
  · exact .inl ⟨d.state, d.miss, hs, deframedBit_of_inside hs h⟩

/-! ### The window and the frame of a bit -/

/-- Whatever a bit does, it shifts the window and counts the fill. -/
theorem deframedBit_window (c : DeframerCfg) (asm : BitVec 64) (x : Bool) (d : DeframerData) :
    (deframedBit c asm x d).1.win = (windowAfter c x d).win ∧ (deframedBit c asm x d).1.fill = (windowAfter c x d).fill := by
  by_cases hs : d.state = .nosync
  · obtain h | h := Nat.lt_or_ge (windowAfter c x d).fill (markerBits c)
    · rw [deframedBit_of_no_match hs (.inl h)]
      exact ⟨rfl, rfl⟩
    have hfull : (windowAfter c x d).fill = markerBits c := h.antisymm' (Nat.min_le_right _ _)
    cases hsearch : search c asm (windowAfter c x d).win with
    | none =>
      rw [deframedBit_of_no_match hs (.inr hsearch)]
      exact ⟨rfl, rfl⟩
    | some p =>
      rw [deframedBit_of_match hs hfull hsearch, frameEnd_data]
      exact ⟨rfl, rfl⟩
  · obtain ⟨s, m, -, e⟩ | e := deframedBit_lock_cases (c := c) asm x hs <;> rw [e]
    · rw [frameEnd_data]
      exact ⟨rfl, rfl⟩
    · exact ⟨rfl, rfl⟩

theorem deframedBit_frame_bits (c : DeframerCfg) (asm : BitVec 64) (x : Bool) (d : DeframerData) :
    ∀ f ∈ (deframedBit c asm x d).2, f.data.length = c.frameLen.toNat ∧ ∀ j k, j < c.frameLen.toNat → k < 8 →
      (f.data.getD j 0).getLsbD (7 - k) = (deframedBit c asm x d).1.buf.getLsbD (8 * j + k) := by
  obtain ⟨d', e, -⟩ | ⟨d', e, -⟩ := deframedBit_cases c asm x d <;> rw [e]
  · rw [frameEnd_data]
    exact frameEnd_frame_bits c d'
  · exact nofun

end

/-! ### The operation -/

/-- `DEFRAME_BIT` issued alone, where it is enabled (log 4). -/
theorem exec_deframeBit_ready {s : State} (hv : s.deframer.status.cfgValid = true) (hroom : hasRoom s.qFrame 1 = true)
    (x : Bool) : exec (.deframeBit x) s = .next { s with
      deframer.data := (deframedBit s.deframer.cfg s.deframer.asm x s.deframer.data).1
      qFrame := ⟨s.qFrame.items ++ (deframedBit s.deframer.cfg s.deframer.asm x s.deframer.data).2, s.qFrame.closed⟩ } := by
  have hready : deframeReady s = true := by rw [deframeReady, hv, hroom]; rfl
  rw [exec_deframeBit, if_pos hready]
  simp only [deframeTake, deframedBits, List.append_nil]
  rfl

/-- Settles O60: whichever case of R292 applies, the window and the fill count are those of `windowAfter`
(`deframedBit_window`), and a frame carries the new state (`deframedBit_frame_ok`). -/
theorem deframeBitChangesOnlyTheDeframer : Obligations.DeframeBitChangesOnlyTheDeframer := by
  intro s x hv hroom
  obtain ⟨hwin, hfill⟩ := deframedBit_window s.deframer.cfg s.deframer.asm x s.deframer.data
  refine ⟨_, _, exec_deframeBit_ready hv hroom x, hwin.trans (windowAfter_win _ _ _), hfill, ?_, fun f hf => ?_⟩
  · obtain h | ⟨h, -⟩ := deframedBit_frames s.deframer.cfg s.deframer.asm x s.deframer.data <;> rw [h]
    exact Nat.zero_le 1
  · obtain ⟨htag, -, hlen⟩ := deframedBit_frame_ok _ _ _ _ f hf
    exact ⟨htag, hlen⟩

/-! ### `DEFRAME_BYTE` -/

theorem deframedBits_length_le (c : DeframerCfg) (asm : BitVec 64) (bits : List Bool) (d : DeframerData) :
    (deframedBits c asm bits d).2.length ≤ bits.length := by
  induction bits generalizing d with
  | nil => exact le_rfl
  | cons x xs ih =>
    have hone : (deframedBit c asm x d).2.length ≤ 1 := by
      obtain h | ⟨h, -⟩ := deframedBit_frames c asm x d <;> rw [h]
      exact Nat.zero_le 1
    have hrest := ih (deframedBit c asm x d).1
    simp only [deframedBits, List.length_append, List.length_cons]
    omega

theorem deframeTake_cons (x : Bool) (xs : List Bool) (s : State) :
    deframeTake xs (deframeTake [x] s) = deframeTake (x :: xs) s := by
  simp only [deframeTake, deframedBits, List.append_nil, pushAll_append]

/-- `DEFRAME_BIT`s issued one after another are the run of their bits, when `Q_FRAME` has a place more than the frames they
push. -/
theorem execAll_deframeBits {s : State} (xs : List Bool) (hv : s.deframer.status.cfgValid = true)
    (hroom : hasRoom s.qFrame ((deframedBits s.deframer.cfg s.deframer.asm xs s.deframer.data).2.length + 1) = true) :
    execAll (xs.map .deframeBit) s = .next (deframeTake xs s) := by
  induction xs generalizing s with
  | nil => simp [execAll, deframeTake, deframedBits, pushAll_nil]
  | cons x xs ih =>
    have hone : hasRoom s.qFrame 1 = true := hasRoom_le _ hroom (Nat.le_add_left 1 _)
    have hready : deframeReady s = true := by rw [deframeReady, hv, hone]; rfl
    have hexec : exec (.deframeBit x) s = .next (deframeTake [x] s) := by rw [exec_deframeBit, if_pos hready]
    rw [List.map_cons, execAll_cons hexec, ← deframeTake_cons x xs s]
    refine ih (s := deframeTake [x] s) hv (hasRoom_pushAll ?_)
    simpa [deframeTake, deframedBits, Nat.add_assoc, Nat.add_comm, Nat.add_left_comm] using hroom

/-- Settles O43: the byte's step and the eight bits' are the run of the same bits; an empty queue has room for eight frames,
and a legal byte completes at most one. -/
theorem deframeByteIsEightDeframeBits : Obligations.DeframeByteIsEightDeframeBits := by
  intro s y ys bits hq henabled hbits
  obtain ⟨y', ys', hq', hready, hexec⟩ := exec_deframeByte_enabled henabled
  obtain ⟨rfl, rfl⟩ := List.cons.inj (hq.symm.trans hq')
  have hv : s.deframer.status.cfgValid = true := Bool.and_elim_left hready
  have hbits : bits = (byteBits y).map .deframeBit := hbits
  subst hbits
  refine ⟨_, _, _, hexec, rfl, ?_, fun hc _ hroom => ?_⟩
  · refine execAll_deframeBits (s := { s with qByte := ⟨ys, s.qByte.closed⟩, qFrame := ⟨[], false⟩ }) _ hv ?_
    have hle := deframedBits_length_le s.deframer.cfg s.deframer.asm (byteBits y) s.deframer.data
    have hlen : (byteBits y).length = 8 := rfl
    have hdepth := sixteen_le_fifoDepth
    refine (hasRoom_iff _ _).mpr ⟨rfl, ?_⟩
    simp only [List.length_nil]
    omega
  · refine execAll_deframeBits (s := { s with qByte := ⟨ys, s.qByte.closed⟩ }) _ hv (hasRoom_le _ hroom ?_)
    exact Nat.succ_le_succ (deframedBits_frames_le_one _ _ _ (eight_le_frameBits hc))

/-- Settles O44: a byte has no more bits than a legal frame, and so many complete at most one. -/
theorem atMostOneFramePerByte : Obligations.AtMostOneFramePerByte := by
  intro s t hc _ h
  obtain ⟨-, rfl⟩ | ⟨y, ys, -, -, rfl⟩ := exec_deframeByte_cases h
  · exact Nat.le_succ _
  · have hle := deframedBits_frames_le_one s.deframer.asm (byteBits y) s.deframer.data (eight_le_frameBits hc)
    simp only [deframeTake, pushAll_items, List.length_append]
    exact Nat.add_le_add_left hle _

end Sys2Proof.Machine

/-! PROOFS. The transitions of the lock state machine, field by field (47_deframer.md R292, R294). -/

namespace Sys2Proof.Machine

section

variable (c : DeframerCfg) (d : DeframerData)

@[simp] theorem frameEnd_state : (frameEnd c d).1.state = d.state := by rw [frameEnd_data]
@[simp] theorem frameEnd_miss : (frameEnd c d).1.miss = d.miss := by rw [frameEnd_data]
@[simp] theorem frameEnd_inv : (frameEnd c d).1.inv = d.inv := by rw [frameEnd_data]
@[simp] theorem frameEnd_buf : (frameEnd c d).1.buf = d.buf := by rw [frameEnd_data]

end

/-! ### The count and the tag -/

theorem frameEnd_cnt_tag_of_full {c : DeframerCfg} {d : DeframerData} (h : d.cnt = frameBits c) :
    (frameEnd c d).1.cnt = 0 ∧ (frameEnd c d).2.map Frame.tag = [d.state] := by
  rw [frameEnd_of_full h]
  exact ⟨rfl, rfl⟩

theorem frameEnd_cnt_tag_of_not_full {c : DeframerCfg} {d : DeframerData} (h : d.cnt ≠ frameBits c) :
    (frameEnd c d).1.cnt = d.cnt ∧ (frameEnd c d).2 = [] := by
  rw [frameEnd_of_not_full h]
  exact ⟨rfl, rfl⟩

section

variable {c : DeframerCfg} {asm : BitVec 64} {x : Bool} {d : DeframerData}

theorem deframedBit_lock_buf (asm : BitVec 64) (x : Bool) (hs : d.state ≠ .nosync) :
    (deframedBit c asm x d).1.buf = setBit d.buf d.cnt (xor x d.inv) := by
  obtain ⟨s, m, -, e⟩ | e := deframedBit_lock_cases (c := c) asm x hs <;> rw [e]
  · exact frameEnd_buf _ _
  · rfl

/-- In a lock that goes on, a bit ends as `frameEnd` does with `cnt` one more. -/
theorem deframedBit_lock_end (hs : d.state ≠ .nosync) (hs' : (deframedBit c asm x d).1.state ≠ .nosync) :
    ∃ d', deframedBit c asm x d = frameEnd c d' ∧ d'.cnt = d.cnt + 1 := by
  obtain ⟨s, m, -, e⟩ | e := deframedBit_lock_cases (c := c) asm x hs
  · exact ⟨_, e, rfl⟩
  · rw [e] at hs'
    exact absurd rfl hs'

theorem deframedBit_lock_full (hs : d.state ≠ .nosync) (hs' : (deframedBit c asm x d).1.state ≠ .nosync)
    (h : d.cnt + 1 = frameBits c) : (deframedBit c asm x d).1.cnt = 0 ∧
      (deframedBit c asm x d).2.map Frame.tag = [(deframedBit c asm x d).1.state] := by
  obtain ⟨d', e, hcnt⟩ := deframedBit_lock_end hs hs'
  rw [e, frameEnd_state]
  exact frameEnd_cnt_tag_of_full (hcnt.trans h)

theorem deframedBit_lock_not_full (hs : d.state ≠ .nosync) (hs' : (deframedBit c asm x d).1.state ≠ .nosync)
    (h : d.cnt + 1 ≠ frameBits c) :
    (deframedBit c asm x d).1.cnt = d.cnt + 1 ∧ (deframedBit c asm x d).2 = [] := by
  obtain ⟨d', e, hcnt⟩ := deframedBit_lock_end hs hs'
  obtain ⟨hcnt', hframes⟩ := frameEnd_cnt_tag_of_not_full (c := c) (d := d') (by rwa [hcnt])
  rw [e]
  exact ⟨hcnt'.trans hcnt, hframes⟩

/-- The fields of the lock that a match starts; a marker as long as the frame completes one at once. -/
theorem deframedBit_match_fields {p : Bool} (hM : markerBits c ≤ 64) (hs : d.state = .nosync)
    (hfull : (windowAfter c x d).fill = markerBits c) (h : search c asm (windowAfter c x d).win = some p) :
    let e := deframedBit c asm x d
    e.1.state = .syncing ∧ e.1.miss = 0 ∧ e.1.inv = p ∧
    (∀ i, e.1.buf.getLsbD i =
      if i < markerBits c then xor ((windowAfter c x d).win.getLsbD (markerBits c - 1 - i)) p else d.buf.getLsbD i) ∧
    (markerBits c = frameBits c → e.1.cnt = 0 ∧ e.2.map Frame.tag = [.syncing]) ∧
    (markerBits c < frameBits c → e.1.cnt = markerBits c ∧ e.2 = []) := by
  intro e
  have he : e = frameEnd c (lockStarted c p (windowAfter c x d)) := deframedBit_of_match hs hfull h
  rw [he, frameEnd_state, frameEnd_miss, frameEnd_inv, frameEnd_buf]
  exact ⟨rfl, rfl, rfl, getLsbD_markerStored hM p _ _, fun hF => frameEnd_cnt_tag_of_full hF,
    fun hF => frameEnd_cnt_tag_of_not_full hF.ne⟩

end

/-- A legal frame fits `buf`. -/
theorem frameBits_le_bufBits {c : DeframerCfg} (hc : validateDeframer c = 0) : frameBits c ≤ Config.bufBits := by
  obtain ⟨-, ⟨-, hF⟩, -, -⟩ := deframer_limits hc
  exact (Nat.mul_le_mul_left 8 hF).trans (by decide)

/-! ### The search, written out -/

theorem markerMatches_normal (c : DeframerCfg) (asm w : BitVec 64) :
    markerMatches c asm w false = decide (popcount (w ^^^ asm) ≤ c.bitErrTol.toNat) := by
  simp [markerMatches, dist]

theorem markerMatches_inverted (c : DeframerCfg) (asm w : BitVec 64) :
    markerMatches c asm w true = decide (popcount ((w ^^^ mask c.asmLen.toNat) ^^^ asm) ≤ c.bitErrTol.toNat) := rfl

theorem search_eq (c : DeframerCfg) (asm w : BitVec 64) : search c asm w =
    (if popcount (w ^^^ asm) ≤ c.bitErrTol.toNat then some false
     else if c.invEn ∧ popcount ((w ^^^ mask c.asmLen.toNat) ^^^ asm) ≤ c.bitErrTol.toNat then some true
     else none) := by
  simp only [search, markerMatches_normal, markerMatches_inverted, Bool.and_eq_true, decide_eq_true_eq]

/-- Settles O42: the cases of R292 are the equations of `deframedBit` by state, marker position and marker check, each read
field by field; the frame's bytes are those of `deframedBit_frame_bits`. -/
theorem deframeBitTransitions : Obligations.DeframeBitTransitions := by
  intro s x hit c d win fill hcfg hdata hc hd hv hroom hwin hfill hhit
  subst hcfg hdata
  obtain ⟨-, -, hcnt, -⟩ := hd
  have hM := asmLen_le_of_valid hc
  obtain rfl : win = (windowAfter s.deframer.cfg x s.deframer.data).win := hwin.trans (windowAfter_win _ _ _).symm
  obtain rfl : fill = (windowAfter s.deframer.cfg x s.deframer.data).fill := hfill
  obtain ⟨hwin', hfill'⟩ := deframedBit_window s.deframer.cfg s.deframer.asm x s.deframer.data
  have hhit : hit = markerMatches s.deframer.cfg s.deframer.asm (windowAfter s.deframer.cfg x s.deframer.data).win
      s.deframer.data.inv := hhit
  refine ⟨_, _, exec_deframeBit_ready hv hroom x, hwin', hfill', fun hs h => ?searching, fun p hs hfull h => ?found,
    fun hs i => ?stored, fun hs h hh => ?hit, fun hs h hh hK => ?miss, fun hs h hh hK => ?loss, fun hs h => ?inside,
    fun hs hs' h => deframedBit_lock_full hs hs' h, fun hs hs' h => deframedBit_lock_not_full hs hs' h,
    deframedBit_frame_bits _ _ _ _, search_eq _ _ _, toNat_mask hM, popcount_eq_length_filter⟩
  case searching =>
    rw [deframedBit_of_no_match hs h]
    exact ⟨rfl, rfl⟩
  case found => exact deframedBit_match_fields hM hs hfull h
  case stored => rw [deframedBit_lock_buf _ _ hs, getLsbD_setBit _ (hcnt.trans_le (frameBits_le_bufBits hc))]
  case hit =>
    rw [deframedBit_of_hit hs h (hhit.symm.trans hh), frameEnd_state, frameEnd_miss, frameEnd_inv]
    exact ⟨rfl, rfl, rfl⟩
  case miss =>
    rw [deframedBit_of_miss hs h (hhit.symm.trans hh) hK, frameEnd_state, frameEnd_miss, frameEnd_inv]
    exact ⟨missedState_eq hs, rfl, rfl⟩
  case loss =>
    rw [deframedBit_of_loss hs h (hhit.symm.trans hh) hK]
    exact ⟨rfl, rfl, rfl, rfl, rfl⟩
  case inside =>
    rw [deframedBit_of_inside hs h, frameEnd_state, frameEnd_miss, frameEnd_inv]
    exact ⟨rfl, rfl, rfl⟩

end Sys2Proof.Machine

/-! PROOFS. An inverted stream (47_deframer.md R291, R295 item 5): the deframer on the inverted bits mirrors the deframer on the
bits. Its window is inverted as far as it is filled, its polarity is the other one, and what it stores and tags is the same. -/

namespace Sys2Proof.Machine

/-! ### The distances of a window and its inversion -/

theorem sum_bitNat_lt (m n : ℕ) : ((List.range n).map fun i => bitNat (decide (i < m))).sum = min n m := by
  induction n with
  | zero => simp
  | succ n ih =>
    rw [List.range_succ, List.map_append, List.sum_append, ih]
    by_cases h : n < m <;> simp [h, bitNat] <;> omega

/-- A word of `m` bits and its inversion have `m` ones together. -/
theorem popcount_add_popcount_inverted {m : ℕ} (hm : m ≤ 64) (v : BitVec 64) (hv : ∀ i, m ≤ i → v.getLsbD i = false) :
    popcount v + popcount (v ^^^ mask m) = m := by
  have hbit : ∀ i, bitNat (v.getLsbD i) + bitNat ((v ^^^ mask m).getLsbD i) = bitNat (decide (i < m)) := by
    intro i
    rw [BitVec.getLsbD_xor, getLsbD_mask hm]
    obtain hi | hi := Nat.lt_or_ge i m
    · rw [decide_eq_true hi]
      cases v.getLsbD i <;> rfl
    · rw [hv i hi, decide_eq_false hi.not_gt]
      rfl
  simp only [popcount, ← List.sum_map_add, hbit, sum_bitNat_lt]
  omega

/-- A word whose low `m` bits are inverted. -/
theorem eq_xor_mask {m : ℕ} (hm : m ≤ 64) {v v' : BitVec 64} (hv : ∀ i, m ≤ i → v.getLsbD i = false)
    (hv' : ∀ i, m ≤ i → v'.getLsbD i = false) (h : ∀ i < m, v'.getLsbD i = !v.getLsbD i) : v' = v ^^^ mask m := by
  refine BitVec.eq_of_getLsbD_eq fun i _ => ?_
  rw [BitVec.getLsbD_xor, getLsbD_mask hm]
  obtain hi | hi := Nat.lt_or_ge i m
  · rw [h i hi, decide_eq_true hi, Bool.xor_true]
  · rw [hv i hi, hv' i hi, decide_eq_false hi.not_gt]
    rfl

section

variable {c : DeframerCfg} {asm w : BitVec 64}

/-- The inverted window matches in one polarity as the window does in the other. -/
theorem markerMatches_xor_mask (c : DeframerCfg) (asm w : BitVec 64) (p : Bool) :
    markerMatches c asm (w ^^^ mask (markerBits c)) (!p) = markerMatches c asm w p := by
  cases p <;> simp [markerMatches, dist, BitVec.xor_assoc]

/-- A tolerance under half the marker: no window matches in both polarities. -/
theorem markerMatches_exclusive (hM : markerBits c ≤ 64) (htol : 2 * c.bitErrTol.toNat < markerBits c)
    (hasm : ∀ i, markerBits c ≤ i → asm.getLsbD i = false) (hw : ∀ i, markerBits c ≤ i → w.getLsbD i = false)
    (h : markerMatches c asm w false = true) : markerMatches c asm w true = false := by
  have hnormal : dist c asm w false = popcount (w ^^^ asm) := by simp [dist]
  have hinverted : dist c asm w true = popcount ((w ^^^ asm) ^^^ mask (markerBits c)) := by
    rw [dist, if_pos rfl, BitVec.xor_assoc, BitVec.xor_assoc, BitVec.xor_comm asm]
  have hsum := popcount_add_popcount_inverted hM (w ^^^ asm) fun i hi => by rw [BitVec.getLsbD_xor, hw i hi, hasm i hi]; rfl
  simp only [markerMatches, decide_eq_true_eq, decide_eq_false_iff_not, hnormal, hinverted] at h ⊢
  omega

/-- The search finds the other polarity in the inverted window. -/
theorem search_xor_mask (hM : markerBits c ≤ 64) (hinv : c.invEn = true) (htol : 2 * c.bitErrTol.toNat < markerBits c)
    (hasm : ∀ i, markerBits c ≤ i → asm.getLsbD i = false) (hw : ∀ i, markerBits c ≤ i → w.getLsbD i = false) :
    search c asm (w ^^^ mask (markerBits c)) = (search c asm w).map not := by
  have hexcl := markerMatches_exclusive hM htol hasm hw
  have hnormal := markerMatches_xor_mask c asm w true
  have hinverted := markerMatches_xor_mask c asm w false
  simp only [Bool.not_true, Bool.not_false] at hnormal hinverted
  simp only [search, hnormal, hinverted, hinv, Bool.true_and]
  cases h : markerMatches c asm w false with
  | true => simp [hexcl h]
  | false => cases markerMatches c asm w true <;> simp

end

/-! ### Two deframers that mirror each other -/

/-- The deframer `d'` on the inverted stream: as `d`, with the window inverted as far as it is filled and, in a lock, the other
polarity. -/
structure Mirror (d d' : DeframerData) : Prop where
  state : d'.state = d.state
  fill : d'.fill = d.fill
  cnt : d'.cnt = d.cnt
  miss : d'.miss = d.miss
  buf : d'.buf = d.buf
  inv : d.state ≠ .nosync → d'.inv = !d.inv
  win : ∀ i < d.fill, d'.win.getLsbD i = !d.win.getLsbD i

section

variable {c : DeframerCfg} {asm : BitVec 64} {d d' : DeframerData}

theorem mirror_reset : Mirror DeframerData.reset DeframerData.reset :=
  ⟨rfl, rfl, rfl, rfl, rfl, fun h => absurd rfl h, fun _ h => absurd h (Nat.not_lt_zero _)⟩

theorem mirror_windowAfter (hM : markerBits c ≤ 64) (h : Mirror d d') (x : Bool) :
    Mirror (windowAfter c x d) (windowAfter c (!x) d') := by
  obtain ⟨hstate, hfill, hcnt, hmiss, hbuf, hinv, hwin⟩ := h
  refine ⟨hstate, congrArg (fun n => min (n + 1) (markerBits c)) hfill, hcnt, hmiss, hbuf, hinv, fun i hi => ?_⟩
  obtain ⟨hfill', hlen⟩ : i < d.fill + 1 ∧ i < markerBits c := Nat.lt_min.mp hi
  rw [getLsbD_windowAfter hM, getLsbD_windowAfter hM, decide_eq_true hlen]
  cases i with
  | zero => simp
  | succ i => simpa using hwin i (Nat.lt_of_succ_lt_succ hfill')

/-- The window of a mirror is the inverted window once it is full. -/
theorem mirror_window_full (hM : markerBits c ≤ 64) (h : Mirror d d') {x : Bool}
    (hfull : (windowAfter c x d).fill = markerBits c) :
    (windowAfter c (!x) d').win = (windowAfter c x d).win ^^^ mask (markerBits c) := by
  have hhigh : ∀ (b : Bool) (e : DeframerData) (i : ℕ), markerBits c ≤ i → (windowAfter c b e).win.getLsbD i = false := by
    intro b e i hi
    rw [getLsbD_windowAfter hM, decide_eq_false hi.not_gt, Bool.false_and]
  refine eq_xor_mask hM (hhigh _ _) (hhigh _ _) fun i hi => ?_
  exact (mirror_windowAfter hM h x).win i (by rwa [hfull])

theorem mirror_frameEnd (h : Mirror d d') :
    Mirror (frameEnd c d).1 (frameEnd c d').1 ∧ (frameEnd c d').2 = (frameEnd c d).2 := by
  obtain ⟨hstate, hfill, hcnt, hmiss, hbuf, hinv, hwin⟩ := h
  by_cases hfull : d.cnt = frameBits c
  · have hframe : emitted c d' = emitted c d := by rw [emitted, emitted, hstate, hbuf]
    rw [frameEnd_of_full hfull, frameEnd_of_full (hcnt.trans hfull), hframe]
    exact ⟨⟨hstate, hfill, rfl, hmiss, hbuf, hinv, hwin⟩, rfl⟩
  · rw [frameEnd_of_not_full hfull, frameEnd_of_not_full (hcnt ▸ hfull)]
    exact ⟨⟨hstate, hfill, hcnt, hmiss, hbuf, hinv, hwin⟩, rfl⟩

theorem mirror_lockStarted (hM : markerBits c ≤ 64) (h : Mirror d d') (hfull : d.fill = markerBits c) (p : Bool) :
    Mirror (lockStarted c p d) (lockStarted c (!p) d') := by
  refine ⟨rfl, h.fill, rfl, rfl, ?_, fun _ => rfl, h.win⟩
  refine BitVec.eq_of_getLsbD_eq fun i _ => ?_
  simp only [lockStarted]
  rw [getLsbD_markerStored hM, getLsbD_markerStored hM, h.buf]
  split
  · rw [h.win _ (by omega), Bool.not_xor_not]
  · rfl

theorem mirror_bitStored (hM : markerBits c ≤ 64) (h : Mirror d d') (hs : d.state ≠ .nosync) (x : Bool) :
    Mirror (bitStored c x d) (bitStored c (!x) d') := by
  obtain ⟨hstate, hfill, -, hmiss, -, hinv, hwin⟩ := mirror_windowAfter hM h x
  refine ⟨hstate, hfill, congrArg (· + 1) h.cnt, hmiss, ?_, hinv, hwin⟩
  simp only [bitStored, h.buf, h.cnt, h.inv hs, Bool.not_xor_not]

/-- The marker check writes the same state and miss count into both. -/
theorem mirror_with_state (h : Mirror d d') (hinv : d'.inv = !d.inv) (s : LockState) (m : ℕ) :
    Mirror { d with state := s, miss := m } { d' with state := s, miss := m } :=
  ⟨rfl, h.fill, h.cnt, rfl, h.buf, fun _ => hinv, h.win⟩

/-- One bit in the search. -/
theorem mirror_deframedBit_search (hM : markerBits c ≤ 64) (hinv : c.invEn = true)
    (htol : 2 * c.bitErrTol.toNat < markerBits c) (hasm : ∀ i, markerBits c ≤ i → asm.getLsbD i = false)
    (h : Mirror d d') (hs : d.state = .nosync) (x : Bool) :
    Mirror (deframedBit c asm x d).1 (deframedBit c asm (!x) d').1 ∧
      (deframedBit c asm (!x) d').2 = (deframedBit c asm x d).2 := by
  have hs' : d'.state = .nosync := h.state.trans hs
  have hwindow := mirror_windowAfter hM h x
  obtain hfill | hfill := Nat.lt_or_ge (windowAfter c x d).fill (markerBits c)
  · rw [deframedBit_of_no_match hs (.inl hfill), deframedBit_of_no_match hs' (.inl (hwindow.fill ▸ hfill))]
    exact ⟨hwindow, rfl⟩
  have hfull : (windowAfter c x d).fill = markerBits c := hfill.antisymm' (Nat.min_le_right _ _)
  have hsearch : search c asm (windowAfter c (!x) d').win = (search c asm (windowAfter c x d).win).map not := by
    rw [mirror_window_full hM h hfull]
    refine search_xor_mask hM hinv htol hasm fun i hi => ?_
    rw [getLsbD_windowAfter hM, decide_eq_false hi.not_gt, Bool.false_and]
  cases hfound : search c asm (windowAfter c x d).win with
  | none =>
    rw [hfound] at hsearch
    rw [deframedBit_of_no_match hs (.inr hfound), deframedBit_of_no_match hs' (.inr hsearch)]
    exact ⟨hwindow, rfl⟩
  | some p =>
    rw [hfound] at hsearch
    rw [deframedBit_of_match hs hfull hfound, deframedBit_of_match hs' (hwindow.fill.trans hfull) hsearch]
    exact mirror_frameEnd (mirror_lockStarted hM hwindow hfull p)

/-- One bit in a lock. -/
theorem mirror_deframedBit_lock (hM : markerBits c ≤ 64) (h : Mirror d d') (hs : d.state ≠ .nosync)
    (hfill : d.fill = markerBits c) (x : Bool) :
    Mirror (deframedBit c asm x d).1 (deframedBit c asm (!x) d').1 ∧
      (deframedBit c asm (!x) d').2 = (deframedBit c asm x d).2 := by
  have hs' : d'.state ≠ .nosync := h.state ▸ hs
  have hinv : d'.inv = !d.inv := h.inv hs
  have hstored := mirror_bitStored (c := c) hM h hs x
  have hfull : (windowAfter c x d).fill = markerBits c := Nat.min_eq_right (by omega)
  by_cases hcnt : d.cnt + 1 = markerBits c
  · have hcnt' : d'.cnt + 1 = markerBits c := h.cnt ▸ hcnt
    have hmatch : markerMatches c asm (windowAfter c (!x) d').win d'.inv =
        markerMatches c asm (windowAfter c x d).win d.inv := by
      rw [mirror_window_full hM h hfull, hinv, markerMatches_xor_mask]
    cases hit : markerMatches c asm (windowAfter c x d).win d.inv with
    | true =>
      rw [deframedBit_of_hit hs hcnt hit, deframedBit_of_hit hs' hcnt' (hmatch.trans hit)]
      exact mirror_frameEnd (mirror_with_state hstored hinv _ _)
    | false =>
      obtain hK | hK := Nat.lt_or_ge c.missTol.toNat (d.miss + 1)
      · rw [deframedBit_of_loss hs hcnt hit hK, deframedBit_of_loss hs' hcnt' (hmatch.trans hit) (h.miss ▸ hK)]
        exact ⟨⟨rfl, hstored.fill, rfl, rfl, hstored.buf, fun hn => absurd rfl hn, hstored.win⟩, rfl⟩
      · rw [deframedBit_of_miss hs hcnt hit hK, deframedBit_of_miss hs' hcnt' (hmatch.trans hit) (h.miss ▸ hK), h.miss, h.state]
        exact mirror_frameEnd (mirror_with_state hstored hinv _ _)
  · rw [deframedBit_of_inside hs hcnt, deframedBit_of_inside hs' (h.cnt ▸ hcnt)]
    exact mirror_frameEnd hstored

/-- The run of the inverted bits pushes the same frames. -/
theorem mirror_deframedBits_frames (hc : validateDeframer c = 0) (hinv : c.invEn = true)
    (htol : 2 * c.bitErrTol.toNat < markerBits c) (hasm : ∀ i, markerBits c ≤ i → asm.getLsbD i = false) (bits : List Bool)
    (hd : DeframerOk c d) (h : Mirror d d') :
    (deframedBits c asm (bits.map not) d').2 = (deframedBits c asm bits d).2 := by
  induction bits generalizing d d' with
  | nil => rfl
  | cons x xs ih =>
    have hM : markerBits c ≤ 64 := asmLen_le_of_valid hc
    obtain ⟨hnext, hframes⟩ : Mirror (deframedBit c asm x d).1 (deframedBit c asm (!x) d').1 ∧
        (deframedBit c asm (!x) d').2 = (deframedBit c asm x d).2 := by
      by_cases hs : d.state = .nosync
      · exact mirror_deframedBit_search hM hinv htol hasm h hs x
      · obtain ⟨-, -, -, -, -, hfill⟩ := hd
        exact mirror_deframedBit_lock hM h hs (hfill hs) x
    simp only [List.map_cons, deframedBits, hframes, ih (deframerOk_deframedBit hc asm x hd) hnext]

end

/-- The derived marker has no bits above `M`. -/
theorem getLsbD_deriveDeframer {c : DeframerCfg} (hM : markerBits c ≤ 64) {i : ℕ} (hi : markerBits c ≤ i) :
    (deriveDeframer c).getLsbD i = false := by
  rw [deriveDeframer, BitVec.getLsbD_and, getLsbD_mask hM, decide_eq_false hi.not_gt, Bool.and_false]

/-- Settles O46: the two runs start as mirrors of each other and stay so, since no window matches in both polarities. -/
theorem invertedStreamGivesTheSameFrames : Obligations.InvertedStreamGivesTheSameFrames := by
  rintro c asm bits hc rfl hinv htol
  have hM : markerBits c ≤ 64 := asmLen_le_of_valid hc
  exact mirror_deframedBits_frames hc hinv htol (fun i hi => getLsbD_deriveDeframer hM hi) bits (deframerOk_reset hc)
    mirror_reset

end Sys2Proof.Machine

/-! PROOFS. Frames that each start with the marker (47_deframer.md R295 items 2 and 3): the deframer finds the first marker,
checks it at the head of every later frame, and has the bits of the frame in `buf` when it emits it. -/

namespace Sys2Proof.Machine

/-! ### The bits of a frame -/

/-- Bit `i` of a frame on the line: bit 7 of its first byte is bit 0 (20_memory.md R89). -/
def lineBit (f : List Byte) (i : ℕ) : Bool := (f.flatMap byteBits).getD i false

theorem lineBit_byte {f : List Byte} {j : ℕ} (hj : j < f.length) {k : ℕ} (hk : k < 8) :
    lineBit f (8 * j + k) = f[j].getLsbD (7 - k) := by
  unfold lineBit
  induction f generalizing j with
  | nil => cases hj
  | cons y ys ih =>
    have hlen : (byteBits y).length = 8 := rfl
    rw [List.flatMap_cons]
    cases j with
    | zero =>
      rw [List.getD_append _ _ _ _ (by omega)]
      interval_cases k <;> rfl
    | succ j =>
      rw [List.getD_append_right _ _ _ _ (by omega), hlen, show 8 * (j + 1) + k - 8 = 8 * j + k by omega]
      exact ih (Nat.lt_of_succ_lt_succ hj)

/-- A frame of the frame length that starts with the marker. -/
structure MarkedFrame (c : DeframerCfg) (asm : BitVec 64) (f : List Byte) : Prop where
  length : f.length = c.frameLen.toNat
  marker : ∀ i < markerBits c, lineBit f i = asm.getLsbD (markerBits c - 1 - i)

theorem markedFrame_of_take {c : DeframerCfg} {asm : BitVec 64} {f : List Byte} (hlen : f.length = c.frameLen.toNat)
    (h : (f.flatMap byteBits).take c.asmLen.toNat =
      (List.range c.asmLen.toNat).map fun i => asm.getLsbD (c.asmLen.toNat - 1 - i)) : MarkedFrame c asm f := by
  refine ⟨hlen, fun i (hi : i < c.asmLen.toNat) => ?_⟩
  have hget : (f.flatMap byteBits)[i]? = some (asm.getLsbD (c.asmLen.toNat - 1 - i)) := by
    rw [← List.getElem?_take_of_lt hi, h]
    simp [hi]
  rw [lineBit, List.getD_eq_getElem?_getD, hget]
  rfl

/-- The last `k` bits of the window are the first `k` bits of `f`, the newest at place 0. -/
def WindowHolds (f : List Byte) (k : ℕ) (win : BitVec 64) : Prop := ∀ i < k, win.getLsbD i = lineBit f (k - 1 - i)

section

variable {c : DeframerCfg} {asm : BitVec 64} {f : List Byte} {d : DeframerData} {k : ℕ}

theorem windowHolds_windowAfter (hM : markerBits c ≤ 64) (hk : k < markerBits c) (h : WindowHolds f k d.win) :
    WindowHolds f (k + 1) (windowAfter c (lineBit f k) d).win := by
  intro i hi
  rw [getLsbD_windowAfter hM, decide_eq_true (by omega : i < markerBits c), Bool.true_and]
  cases i with
  | zero => rfl
  | succ i =>
    rw [if_neg i.succ_ne_zero, Nat.add_sub_cancel, h i (Nat.lt_of_succ_lt_succ hi)]
    congr 1
    omega

/-- The window that holds the head of a marked frame is the marker. -/
theorem windowAfter_eq_marker (hM : markerBits c ≤ 64) (hf : MarkedFrame c asm f)
    (hasm : ∀ i, markerBits c ≤ i → asm.getLsbD i = false) {x : Bool}
    (h : WindowHolds f (markerBits c) (windowAfter c x d).win) : (windowAfter c x d).win = asm := by
  refine BitVec.eq_of_getLsbD_eq fun i _ => ?_
  obtain hi | hi := Nat.lt_or_ge i (markerBits c)
  · rw [h i hi, hf.marker _ (by omega)]
    congr 1
    omega
  · rw [hasm i hi, getLsbD_windowAfter hM, decide_eq_false hi.not_gt, Bool.false_and]

theorem markerMatches_self (c : DeframerCfg) (asm : BitVec 64) : markerMatches c asm asm false = true := by
  rw [markerMatches_normal, BitVec.xor_self, decide_eq_true_eq]
  exact popcount_zero.trans_le (Nat.zero_le _)

/-! ### In a frame -/

/-- The deframer has taken `k` bits of the frame `f` in a lock of the normal polarity; after the marker its state is the tag
the frame will have. -/
structure InFrame (c : DeframerCfg) (f : List Byte) (tag : LockState) (k : ℕ) (d : DeframerData) : Prop where
  lock : d.state ≠ .nosync
  tagged : markerBits c ≤ k → d.state = tag
  inv : d.inv = false
  cnt : d.cnt = k
  buf : ∀ i < k, d.buf.getLsbD i = lineBit f i
  win : k < markerBits c → WindowHolds f k d.win

/-- A frame has been emitted with this tag. -/
structure AfterFrame (tag : LockState) (d : DeframerData) : Prop where
  state : d.state = tag
  inv : d.inv = false
  cnt : d.cnt = 0

theorem inFrame_zero {tag : LockState} (hM : 1 ≤ markerBits c) (f : List Byte) (htag : tag ≠ .nosync)
    (h : AfterFrame tag d) : InFrame c f .synced 0 d :=
  ⟨h.state ▸ htag, fun hM' => absurd hM' (by omega), h.inv, h.cnt, fun _ hi => absurd hi (Nat.not_lt_zero _),
    fun _ _ hi => absurd hi (Nat.not_lt_zero _)⟩

/-- The next bit of a frame; at bit `M` the marker is found exact. -/
theorem inFrame_deframedBit {tag : LockState} (hc : validateDeframer c = 0)
    (hasm : ∀ i, markerBits c ≤ i → asm.getLsbD i = false) (hf : MarkedFrame c asm f) (hk : k < frameBits c)
    (htag : markerBits c ≤ k ∨ tag = .synced) (h : InFrame c f tag k d) :
    ∃ d', deframedBit c asm (lineBit f k) d = frameEnd c d' ∧ InFrame c f tag (k + 1) d' := by
  have hM : markerBits c ≤ 64 := asmLen_le_of_valid hc
  have hbuf : ∀ i < k + 1, (bitStored c (lineBit f k) d).buf.getLsbD i = lineBit f i := by
    intro i hi
    simp only [bitStored, h.cnt, h.inv, Bool.xor_false]
    rw [getLsbD_setBit _ (hk.trans_le (frameBits_le_bufBits hc))]
    split
    · next e => rw [e]
    · exact h.buf i (by omega)
  by_cases hcheck : k + 1 = markerBits c
  · have hsynced : tag = .synced := htag.resolve_left (by omega)
    have hwin := windowHolds_windowAfter hM (by omega) (h.win (by omega))
    rw [hcheck] at hwin
    have hit : markerMatches c asm (windowAfter c (lineBit f k) d).win d.inv = true := by
      rw [windowAfter_eq_marker hM hf hasm hwin, h.inv]
      exact markerMatches_self c asm
    exact ⟨_, deframedBit_of_hit h.lock (by rw [h.cnt, hcheck]) hit,
      ⟨nofun, fun _ => hsynced.symm, h.inv, congrArg (· + 1) h.cnt, hbuf, fun hlt => absurd hcheck hlt.ne⟩⟩
  · exact ⟨_, deframedBit_of_inside h.lock (by rwa [h.cnt]),
      ⟨h.lock, fun hMk => h.tagged (by omega), h.inv, congrArg (· + 1) h.cnt, hbuf,
        fun hlt => windowHolds_windowAfter hM (by omega) (h.win (by omega))⟩⟩

/-- A complete frame is emitted unchanged. -/
theorem emitted_inFrame {tag : LockState} (hc : validateDeframer c = 0) (hf : MarkedFrame c asm f)
    (h : InFrame c f tag (frameBits c) d) : emitted c d = ⟨tag, f⟩ := by
  obtain ⟨-, hMF⟩ := markerBits_bounds hc
  have hbytes : (List.range c.frameLen.toNat).map (bufByte d.buf) = f := by
    refine List.ext_getElem (by simp [hf.length]) fun j _ hj => ?_
    have hjF : j < c.frameLen.toNat := hf.length ▸ hj
    rw [List.getElem_map, List.getElem_range]
    refine BitVec.eq_of_getLsbD_eq fun i hi => ?_
    have hbyte := getLsbD_bufByte d.buf j (k := 7 - i) (by omega)
    have hline := lineBit_byte hj (k := 7 - i) (by omega)
    rw [show 7 - (7 - i) = i by omega] at hbyte hline
    rw [hbyte, ← hline, h.buf]
    unfold frameBits
    omega
  rw [emitted, h.tagged hMF, hbytes]

theorem drop_lineBit (hf : MarkedFrame c asm f) (hk : k < frameBits c) :
    (f.flatMap byteBits).drop k = lineBit f k :: (f.flatMap byteBits).drop (k + 1) := by
  have hlen : k < (f.flatMap byteBits).length := by rwa [flatMap_byteBits_length, hf.length]
  rw [List.drop_eq_getElem_cons hlen, lineBit, List.getD_eq_getElem _ _ hlen]

/-- The rest of a frame, with the end of the bit before it. -/
theorem inFrame_rest {tag : LockState} (hc : validateDeframer c = 0)
    (hasm : ∀ i, markerBits c ≤ i → asm.getLsbD i = false) (hf : MarkedFrame c asm f) (n : ℕ) (hn : k + n = frameBits c)
    (htag : markerBits c ≤ k ∨ tag = .synced) (h : InFrame c f tag k d) :
    (frameEnd c d).2 ++ (deframedBits c asm ((f.flatMap byteBits).drop k) (frameEnd c d).1).2 = [⟨tag, f⟩] ∧
      AfterFrame tag (deframedBits c asm ((f.flatMap byteBits).drop k) (frameEnd c d).1).1 := by
  induction n generalizing k d with
  | zero =>
    obtain rfl : k = frameBits c := hn
    have hnil : (f.flatMap byteBits).drop (frameBits c) = [] :=
      List.drop_eq_nil_of_le (by rw [flatMap_byteBits_length, hf.length, frameBits])
    obtain ⟨-, hMF⟩ := markerBits_bounds hc
    rw [hnil, frameEnd_of_full h.cnt, emitted_inFrame hc hf h]
    exact ⟨rfl, h.tagged hMF, h.inv, rfl⟩
  | succ n ih =>
    have hk : k < frameBits c := by omega
    obtain ⟨d', e, h'⟩ := inFrame_deframedBit hc hasm hf hk htag h
    rw [frameEnd_of_not_full (h.cnt ▸ hk.ne), drop_lineBit hf hk]
    simp only [deframedBits, e, List.nil_append]
    exact ih (by omega) (htag.imp_left (by omega)) h'

/-! ### The first frame -/

/-- The search has taken the first `k` bits of the frame `f`, fewer than the marker has. -/
structure Searching (f : List Byte) (k : ℕ) (d : DeframerData) : Prop where
  state : d.state = .nosync
  fill : d.fill = k
  win : WindowHolds f k d.win

theorem searching_reset (f : List Byte) : Searching f 0 DeframerData.reset :=
  ⟨rfl, rfl, fun _ hi => absurd hi (Nat.not_lt_zero _)⟩

/-- The lock that a match starts has the marker in `buf`. -/
theorem inFrame_lockStarted (hM : markerBits c ≤ 64) (h : WindowHolds f (markerBits c) d.win) :
    InFrame c f .syncing (markerBits c) (lockStarted c false d) := by
  refine ⟨nofun, fun _ => rfl, rfl, rfl, fun i hi => ?_, fun hlt => absurd hlt (lt_irrefl _)⟩
  have hplace : markerBits c - 1 - (markerBits c - 1 - i) = i := by omega
  have hbit := getLsbD_markerStored hM false d.win d.buf i
  rwa [if_pos hi, Bool.xor_false, h _ (by omega), hplace] at hbit

/-- At bit `M` of the first frame the search finds the marker in the normal polarity. -/
theorem searching_found (hM : markerBits c ≤ 64) (hasm : ∀ i, markerBits c ≤ i → asm.getLsbD i = false)
    (hf : MarkedFrame c asm f) (hk : k + 1 = markerBits c) (h : Searching f k d) :
    ∃ d', deframedBit c asm (lineBit f k) d = frameEnd c d' ∧ InFrame c f .syncing (markerBits c) d' := by
  have hwin := windowHolds_windowAfter hM (by omega) h.win
  rw [hk] at hwin
  have hfull : (windowAfter c (lineBit f k) d).fill = markerBits c := by
    simp only [windowAfter, h.fill, hk, Nat.min_self]
  have hsearch : search c asm (windowAfter c (lineBit f k) d).win = some false := by
    rw [windowAfter_eq_marker hM hf hasm hwin]
    exact if_pos (markerMatches_self c asm)
  exact ⟨_, deframedBit_of_match h.state hfull hsearch, inFrame_lockStarted hM hwin⟩

/-- The first frame, from any place before the end of its marker. -/
theorem searching_rest (hc : validateDeframer c = 0) (hasm : ∀ i, markerBits c ≤ i → asm.getLsbD i = false)
    (hf : MarkedFrame c asm f) (n : ℕ) (hn : k + n + 1 = markerBits c) (h : Searching f k d) :
    (deframedBits c asm ((f.flatMap byteBits).drop k) d).2 = [⟨.syncing, f⟩] ∧
      AfterFrame .syncing (deframedBits c asm ((f.flatMap byteBits).drop k) d).1 := by
  obtain ⟨-, hMF⟩ := markerBits_bounds hc
  have hM : markerBits c ≤ 64 := asmLen_le_of_valid hc
  induction n generalizing k d with
  | zero =>
    obtain ⟨d', e, h'⟩ := searching_found hM hasm hf hn h
    rw [drop_lineBit hf (by omega)]
    simp only [deframedBits, e]
    rw [show k + 1 = markerBits c from hn]
    exact inFrame_rest hc hasm hf (frameBits c - markerBits c) (by omega) (.inl le_rfl) h'
  | succ n ih =>
    have hfill : (windowAfter c (lineBit f k) d).fill = k + 1 := by
      simp only [windowAfter, h.fill]
      omega
    have hbit : deframedBit c asm (lineBit f k) d = (windowAfter c (lineBit f k) d, []) :=
      deframedBit_of_no_match h.state (.inl (by omega))
    have hnext : Searching f (k + 1) (windowAfter c (lineBit f k) d) :=
      ⟨h.state, hfill, windowHolds_windowAfter hM (by omega) h.win⟩
    rw [drop_lineBit hf (by omega)]
    simp only [deframedBits, hbit, List.nil_append]
    exact ih (by omega) hnext

end

/-! ### The stream -/

theorem deframedBits_append (c : DeframerCfg) (asm : BitVec 64) (xs ys : List Bool) (d : DeframerData) :
    deframedBits c asm (xs ++ ys) d =
      ((deframedBits c asm ys (deframedBits c asm xs d).1).1,
        (deframedBits c asm xs d).2 ++ (deframedBits c asm ys (deframedBits c asm xs d).1).2) := by
  induction xs generalizing d with
  | nil => rfl
  | cons x xs ih => simp only [List.cons_append, deframedBits, ih, List.append_assoc]

/-- The frames after the first: each is tagged `SYNCED`. -/
theorem afterFrame_stream {c : DeframerCfg} {asm : BitVec 64} (hc : validateDeframer c = 0)
    (hasm : ∀ i, markerBits c ≤ i → asm.getLsbD i = false) (fs : List (List Byte)) (hfs : ∀ f ∈ fs, MarkedFrame c asm f)
    {tag : LockState} (htag : tag ≠ .nosync) {d : DeframerData} (h : AfterFrame tag d) :
    (deframedBits c asm (fs.flatten.flatMap byteBits) d).2 = fs.map fun f => ⟨.synced, f⟩ := by
  induction fs generalizing tag d with
  | nil => rfl
  | cons f fs ih =>
    obtain ⟨hf, hfs⟩ := List.forall_mem_cons.mp hfs
    obtain ⟨hM, hMF⟩ := markerBits_bounds hc
    have hempty : d.cnt ≠ frameBits c := by
      rw [h.cnt]
      omega
    obtain ⟨hframe, hafter⟩ := inFrame_rest hc hasm hf (frameBits c) (Nat.zero_add _) (.inr rfl) (inFrame_zero hM f htag h)
    rw [frameEnd_of_not_full hempty, List.drop_zero] at hframe hafter
    rw [List.flatten_cons, List.flatMap_append, deframedBits_append, List.map_cons, ih hfs (tag := .synced) nofun hafter]
    exact congrArg (· ++ _) hframe

/-- Settles O45: the search finds the first marker at its last bit, and each later marker is exact where it is checked. -/
theorem deframerRecoversInjectedFrames : Obligations.DeframerRecoversInjectedFrames := by
  rintro c asm fs hc rfl hfs
  have hmarked : ∀ f ∈ fs, MarkedFrame c (deriveDeframer c) f := fun f hf =>
    have ⟨hlen, htake⟩ := hfs f hf
    markedFrame_of_take hlen htake
  have hasm : ∀ i, markerBits c ≤ i → (deriveDeframer c).getLsbD i = false := fun i hi =>
    getLsbD_deriveDeframer (asmLen_le_of_valid hc) hi
  cases fs with
  | nil => rfl
  | cons f fs =>
    obtain ⟨hf, hrest⟩ := List.forall_mem_cons.mp hmarked
    obtain ⟨hM, -⟩ := markerBits_bounds hc
    obtain ⟨hframe, hafter⟩ := searching_rest hc hasm hf (markerBits c - 1) (by omega) (searching_reset f)
    rw [List.drop_zero] at hframe hafter
    rw [List.flatten_cons, List.flatMap_append, deframedBits_append]
    rw [afterFrame_stream hc hasm fs hrest (tag := .syncing) nofun hafter, hframe]
    exact List.ext_getElem (by simp) fun k _ _ => by cases k <;> simp

end Sys2Proof.Machine
